-- ==== Sys2Proof/Word.lean ====
section
/-! DEFINITION. The word types of the block: bytes, 16-bit words, and the names of its numbered units. -/
namespace Sys2Proof

/-- A byte of a frame, of an item or of the figure link. -/
abbrev Byte := BitVec 8
/-- A 16-bit word: counters, checks, identity words, flag and mask words. -/
abbrev Half := BitVec 16

/-- Bells B0 to B19 (00_scope.md, numbering of units). -/
abbrev Bell := Fin 20
/-- Figures F0 to F11. -/
abbrev Fig := Fin 12
/-- Doors D0 and D1. -/
abbrev Door := Fin 2
/-- Lamp channels LP0 to LP7. -/
abbrev Lamp := Fin 8
/-- General inputs IN0 to IN15. -/
abbrev GInput := Fin 16
/-- Guard groups G0 to G3. -/
abbrev Group := Fin 4
/-- Capture units CU0 to CU3. -/
abbrev CapUnit := Fin 4
/-- Triggers T0 to T31. -/
abbrev Trig := Fin 32

end Sys2Proof
end

