-- ==== Sys2Proof/Syntax.lean ====
section
/-! DEFINITION. The commands of the block: one constructor of `Instr` for each row of spec/opcode_table.json.
Operands are the named fields the spec gives a request or an event (log entry 8). Where the spec refuses a value
outside its range, the operand's type admits such values. -/
namespace Sys2Proof

/-- An enumeration as a request carries it: one of its values, or a code out of its range, which the request's owner
refuses (00_scope.md, Ranges; R168). -/
inductive Coded (α : Type)
  | val (a : α)
  | other (code : Nat)
deriving DecidableEq, Repr

/-- The value carried, if the code is in range. -/
def Coded.val? {α : Type} : Coded α → Option α
  | .val a => some a
  | .other _ => none

inductive Lane | M | C
deriving DecidableEq, Repr

/-- Lane M, lane C or both (R83). -/
inductive LaneSel | M | C | both
deriving DecidableEq, Repr

/-- What a run plays: a script Sn, or the hour count of n strokes (R64, R67). -/
inductive Subject
  | script (n : Nat)
  | count (n : Nat)
deriving DecidableEq, Repr

/-- Overlap policies (R61). -/
inductive Policy | queue | drop | preempt
deriving DecidableEq, Repr

/-- The kinds of stored items, in directory order (R38). -/
inductive ItemKind | voicing | figures | seasons | programmes | triggers | script
deriving DecidableEq, Repr

structure ItemId where
  kind : ItemKind
  number : Nat
deriving DecidableEq, Repr

/-- Trigger kinds (R18). -/
inductive TrigKind | daily | periodic | once | hours
deriving DecidableEq, Repr

/-- A trigger's target: a show slot or a script (R30). -/
inductive Target
  | slot (n : Nat)
  | script (n : Nat)
deriving DecidableEq, Repr

/-- The definition fields TRIG-SET carries (R31); a field the request leaves out is `none`. -/
structure TrigArgs where
  kind : Coded TrigKind
  time : Option Nat
  period : Option Nat
  weekdays : Option (BitVec 7)
  hours : Option (BitVec 24)
  target : Option Target
  followOn : Option (Nat × Target)
  policy : Coded Policy
  staleness : Nat
  window : Option Nat
deriving DecidableEq, Repr

inductive Edge | rise | fall
deriving DecidableEq, Repr

/-- The edges CAPTURE-GET reads (R164). -/
inductive EdgeSel | rise | fall | both
deriving DecidableEq, Repr

/-- Capture modes (R162). -/
inductive CapMode | off | single | continuous
deriving DecidableEq, Repr

/-- What CAPTURE-SET makes of a unit (R163); `other` is a value out of range. -/
inductive CaptureArgs
  | free
  | host (input : Nat) (rise fall : Coded CapMode)
  | other (code : Nat)
deriving DecidableEq, Repr

/-- A guard group's action (R158). -/
inductive GuardAction | note | hold | abort
deriving DecidableEq, Repr

/-- A guard group's definition (R156 to R160). -/
structure GuardDef where
  selection : BitVec 16
  reference : BitVec 16
  action : GuardAction
  autoResume : Bool
  settle : Nat
deriving DecidableEq, Repr

/-- A guard group's definition as GUARD-SET carries it (R160). -/
structure GuardArgs where
  selection : BitVec 16
  reference : BitVec 16
  action : Coded GuardAction
  autoResume : Bool
  settle : Nat
deriving DecidableEq, Repr

/-- A door's goal (R145). -/
inductive Goal | opened | closed
deriving DecidableEq, Repr

/-- A turn's direction as commanded (R148). -/
inductive TurnDir | shortest | cw | ccw
deriving DecidableEq, Repr

/-- The kinds NODE-QUERY carries (R130). -/
inductive QueryKind | status | ident
deriving DecidableEq, Repr

/-- One field of the settings record with its new value (R178, section 11.1). -/
inductive SettingField
  | budget (v : Nat)
  | discipline (on : Bool)
  | slewLimit (v : Nat)
  | defaultProgramme (v : Nat)
  | lateness (v : Nat)
  | countBell (v : Nat)
  | countSpacing (v : Nat)
  | gapLimit (v : Nat)
  | retries (v : Nat)
  | wakeLength (v : Nat)
  | inputFilter (v : BitVec 16)
  | lampRests (v : Vector Nat 8)
  | bellMutes (v : BitVec 20)
  | causeMasks (v : BitVec 16)
  | stepRate (v : Nat)
deriving DecidableEq, Repr

/-- The 54 requests of section 10.5, with the values each carries. -/
inductive Request
  | timeSet (value : Int) (force : Bool)
  | timeGet
  | trigSet (index : Nat) (args : TrigArgs) (arm : Bool)
  | trigGet (index : Nat)
  | trigDisarm (index : Nat)
  | seasonGet
  | storePut (start : Bool) (offset : Nat) (data : List Byte)
  | storeCommit (kind number : Nat)
  | storeErase (kind number : Nat)
  | storeEraseAll
  | storeList
  | storeRead (kind number offset count : Nat)
  | storeSum
  | storeProtect (level : Nat) (readLock : Bool)
  | storeLock
  | storeIdentity (w0 w1 w2 w3 : Nat)
  | showStart (subject : Subject) (staleness : Nat)
  | showStop (lanes : Coded LaneSel)
  | showHold (lanes : Coded LaneSel)
  | showResume (lanes : Coded LaneSel)
  | showStatus
  | queueGet
  | queueFlush (lanes : Coded LaneSel)
  | lampSet (channel level fade : Nat)
  | bellStrike (bell velocity : Nat)
  | bellDamp (bells : List Nat)
  | bellMute (bell : Nat) (on : Bool)
  | bellClear (bell : Nat) (counters : Bool)
  | bellStatus
  | budgetGet
  | linkStatus (clear : Bool)
  | linkWake
  | nodeQuery (address : Nat) (kind : Coded QueryKind)
  | figStatus
  | figClear (figure : Nat)
  | figHome (figure allowed : Nat)
  | doorMove (door : Nat) (goal : Coded Goal)
  | doorStatus
  | turnHome
  | turnMove (position : Nat) (dir : Coded TurnDir)
  | turnStatus
  | inputGet
  | guardSet (group : Nat) (defn : GuardArgs)
  | guardGet (clear : Bool)
  | captureSet (unit : Nat) (args : CaptureArgs)
  | captureGet (unit : Nat) (edges : Coded EdgeSel)
  | causesGet
  | causesClear (entries : List (Nat × Option Nat))
  | causeMask (mask : BitVec 16)
  | ident
  | reset
  | configSet (fields : List SettingField)
  | configGet
  | configSave
deriving DecidableEq, Repr

/-- The body of a host frame (R168). A body whose length the form of the kind allows spells a request, whatever its
values; any other body is of a wrong length. The byte layouts of request bodies are not the spec's (log entry 8). -/
inductive FrameBody
  | request (r : Request)
  | wrongLength
deriving DecidableEq, Repr

/-- A host frame that has passed the length, gap and CRC checks (R167). -/
structure HostFrame where
  kind : Byte
  tag : Byte
  body : FrameBody
deriving DecidableEq, Repr

/-- What the host interface received of a frame it checks, from the first length byte to the last body byte. A byte is taken
in whatever its stop bit; `stopLow` tells that some byte of the frame had its stop bit low (R167). -/
structure RxBytes where
  bytes : List Byte
  stopLow : Bool
deriving DecidableEq, Repr

/-- The commands: one constructor for each row of spec/opcode_table.json, in the table's order. -/
inductive Instr
  -- reset and start-up (R180)
  | powerOnReset
  | startupSettings
  | startupStore
  | startupItems
  | startupDoorsAndGuards
  | startupLink
  | startupTime
  -- host frames (R167 to R169)
  | hostFrameArrived (frame : HostFrame)
  | hostGapTimeout
  | replySent
  -- requests and events of TB, SCH and PS
  | timeSet (value : Int) (force : Bool)
  | timeGet
  | trigSet (index : Nat) (args : TrigArgs) (arm : Bool)
  | trigGet (index : Nat)
  | trigDisarm (index : Nat)
  | seasonGet
  | storePut (start : Bool) (offset : Nat) (data : List Byte)
  | storeCommit (kind number : Nat)
  | storeErase (kind number : Nat)
  | storeEraseAll
  | storeList
  | storeRead (kind number offset count : Nat)
  | storeSum
  | storeProtect (level : Nat) (readLock : Bool)
  | storeLock
  | storeIdentity (w0 w1 w2 w3 : Nat)
  | commitComplete
  | eraseComplete
  | eraseAllComplete
  | minutePulse
  | slewPeriodEnd
  | pulseLost
  | dateChange
  | rangeEnd
  | triggerFire (index : Trig)
  | followOnFire (index : Trig)
  -- requests and events of SEQ
  | showStart (subject : Subject) (staleness : Nat)
  | showStop (lanes : Coded LaneSel)
  | showHold (lanes : Coded LaneSel)
  | showResume (lanes : Coded LaneSel)
  | showStatus
  | queueGet
  | queueFlush (lanes : Coded LaneSel)
  | lampSet (channel level fade : Nat)
  | strikeCue (lane : Lane) (cue : Nat)
  | dampCue (lane : Lane) (cue : Nat)
  | moveCue (lane : Lane) (cue : Nat)
  | doorCue (lane : Lane) (cue : Nat)
  | turnCue (lane : Lane) (cue : Nat)
  | markCue (lane : Lane) (cue : Nat)
  | lampCue (lane : Lane) (cue : Nat)
  | endCue (lane : Lane)
  | holdTimeout (lane : Lane)
  | lampFadeEnd (channel : Lamp)
  -- requests and events of BELL
  | bellStrike (bell velocity : Nat)
  | bellDamp (bells : List Nat)
  | bellMute (bell : Nat) (on : Bool)
  | bellClear (bell : Nat) (counters : Bool)
  | bellStatus
  | damperLift (bell : Bell)
  | strikeClaim (bell : Bell)
  | pulseEnd (bell : Bell)
  | strikeDeadline (bell : Bell)
  | echoWindowClose (bell : Bell)
  | stuckEchoTest (bell : Bell)
  | damperDrop (bell : Bell)
  | echoEdge (bell : Bell) (level : Bool)
  | budgetGet
  -- requests and events of FLC
  | linkStatus (clear : Bool)
  | linkWake
  | nodeQuery (address : Nat) (kind : Coded QueryKind)
  | transactionStart
  | retryAttempt
  | readbackError (byte bit : Nat)
  | noAnswer
  | frameError
  | gapTimeout
  | statusAnswer (bytes : List Byte)
  | stageAnswer (byte : Byte)
  | clearAnswer (byte : Byte)
  | homeAnswer (byte : Byte)
  | identAnswer (bytes : List Byte)
  | goComplete
  | haltComplete
  | transactionAbandoned
  | alert
  | lineStuck
  | lineReleased
  | wakeLowEnd
  | wakeComplete
  | wakePending
  | pollTick
  | hostEntryTimeout
  -- requests and events of STG
  | figStatus
  | figClear (figure : Nat)
  | figHome (figure allowed : Nat)
  | doorMove (door : Nat) (goal : Coded Goal)
  | doorStatus
  | turnHome
  | turnMove (position : Nat) (dir : Coded TurnDir)
  | turnStatus
  | goQueued (tag : Nat)
  | goDeadline (tag : Nat)
  | arrivalWindowClose (figure : Fig)
  | homeQueued (figure : Fig)
  | homingTimeout (figure : Fig)
  | homeArrivalTimeout (figure : Fig)
  | doorLimitEdge (door : Door) (which : Goal) (level : Bool)
  | doorTravelLimit (door : Door)
  | doorDeadline (door : Door)
  | turntableIndexEdge (level : Bool)
  | turntableHomeEdge (level : Bool)
  | turnIndexTimeout
  | turnDeadline
  -- requests and events of INM
  | inputGet
  | guardSet (group : Nat) (defn : GuardArgs)
  | guardGet (clear : Bool)
  | captureSet (unit : Nat) (args : CaptureArgs)
  | captureGet (unit : Nat) (edges : Coded EdgeSel)
  | generalInputEdge (levels : BitVec 16)
  | autoResume (group : Group)
  | captureWindowClose (unit : CapUnit)
  -- requests and events of HLC
  | causesGet
  | causesClear (entries : List (Nat × Option Nat))
  | causeMask (mask : BitVec 16)
  | ident
  | reset
  | configSet (fields : List SettingField)
  | configGet
  | configSave
  | configSaveComplete
  | syncByte
  | strayByte (byte : Byte)
  | frameLengthError (length : Nat)
  | frameCrcError (bytes : RxBytes) (crc : Half)
deriving DecidableEq, Repr

end Sys2Proof
end

