-- ==== Sys2Proof/Decode.lean ====
section
/-! DEFINITION. Decoding by the table's bits. Every row of spec/opcode_table.json has an empty list of fields, so
no word spells a command. -/
namespace Sys2Proof

/-- The command a word spells by the table's bits: none, since no row gives bits. -/
def decodeTableWord (_nbits _w : Nat) : Option Instr := none

end Sys2Proof
end

