-- ==== Sys2Proof/Config.lean ====
section
/-! DEFINITION. The fixed numbers of the part, and the free values: results the spec does not determine.
A free value is an opaque constant of this file applied to the counter `State.free`: nothing is known of it. -/
namespace Sys2Proof.Config

/-- The last millisecond of show time's range, 2099-12-31 23:59:59.999 (00_scope.md, Time). -/
def maxTime : Int := 3155759999999
/-- Milliseconds of a day (R3). -/
def dayMs : Int := 86400000
/-- Milliseconds of an hour (R3). -/
def hourMs : Int := 3600000
/-- Milliseconds without an accepted pulse after which the pulse is lost (R9, R11). -/
def lossMs : Nat := 130000
/-- The smallest spacing at which a minute pulse is accepted (R4). -/
def minSpacing : Nat := 50000
/-- The pre-roll (R66). -/
def preRoll : Int := 200
/-- The strike lead (R68). -/
def strikeLead : Int := 100
/-- The stage lead (R68). -/
def stageLead : Int := 300
/-- The longest hold (R74). -/
def holdLimit : Nat := 120000
/-- The depth of a lane's pending queue (R61). -/
def laneDepth : Nat := 4
/-- The number of waiting move claims (R107). -/
def moveClaims : Nat := 4
/-- The depth of the strike queue (R88). -/
def strikeDepth : Nat := 16
/-- The depth of the link queue (R123). -/
def linkDepth : Nat := 8
/-- The store's blocks (R39). -/
def storeBlocks : Nat := 896
/-- The size of a store block in bytes (R39). -/
def blockBytes : Nat := 256
/-- The staging buffer's size, which is the largest item (R40). -/
def stagingBytes : Nat := 16384
/-- The largest data of one STORE-PUT, and the largest count of one STORE-READ (R40, R57). -/
def chunkBytes : Nat := 1024
/-- The largest host frame body (R167). -/
def maxBody : Nat := 2048
/-- The longest gap between two bytes of a host frame (R167). -/
def hostGapMs : Nat := 20
/-- The time a save takes (R179). -/
def saveMs : Nat := 60
/-- The length of an aborting run's lamp fade (R81). -/
def restFade : Nat := 1000

/-- FREE VALUE. Whether the catch-up fires of a step applied at an idle notice reach the Sequencer before the
lane takes its next request: R63 allows either order. -/
opaque catchUpsFirst : Nat → Bool

/-- FREE VALUE. The verdict on a MARK whose capture lies after its window's close: the table of R165 gives none.
0 reads as early, 1 as on time, 2 as missed. -/
opaque lateMarkVerdict : Nat → Fin 3

/-- FREE VALUE. Whether a node's awaited answer begins in a millisecond: no row of the table tells it (R119). -/
opaque answerBegins : Nat → Bool

/-- FREE VALUE. Whether a further byte of a host frame comes in a millisecond: no row of the table tells it (R167). -/
opaque byteComes : Nat → Bool

end Sys2Proof.Config
end

