-- ==== Sys2Proof/Machine/State.lean ====
section
/-! DEFINITION. The state of the block, as plain data: one structure for each functional block, the commands that
wait, and the counter of free values. -/
namespace Sys2Proof.Machine

/-- No command stops the block with a fault: every failure the spec gives is an effect on state. -/
inductive Fault where
deriving DecidableEq, Repr

/-- Why a command is refused by the model. -/
inductive Refusal where
  /-- Raised by an arm of `exec` whose meaning is not written; safe. No arm of this model raises it. -/
  | notModelled (mnemonic : String)
deriving DecidableEq, Repr

/-! ## Names and numbers -/

/-- Where a show request comes from (R60). -/
inductive Origin
  | trigger (t : Trig)
  | host
deriving DecidableEq, Repr

/-- The discipline state (R4). -/
inductive Discipline | off | seeking | tracking | slewing | held
deriving DecidableEq, Repr

/-- The reasons of TRIGGER_MISSED (section 10.3). -/
inductive MissReason
  | late | emptySlot | timeUnset | duplicate | queueFull | laneBusy | stale | noScript | storeCheck
deriving DecidableEq, Repr

/-- The reasons of an abort (section 4.8). -/
inductive AbortReason
  | hostStop | guard | preempted | timeStep | holdTimeout | cueFault | noScript | storeCheck | wrongLane
deriving DecidableEq, Repr

/-- The kinds of cue fault (R71). -/
inductive CueFaultKind
  | stageRefused | stageFailed | moveLate | arrivalEarly | arrivalMissed | figureLost
  | doorBlocked | doorStalled | turnBlocked | turnFault | markEarly | markMissed | noCapture
deriving DecidableEq, Repr

/-- The error kinds of the figure link (R118, R119, R129). -/
inductive LinkError
  | collision | bitError | noAnswer | frameError | gapTimeout | checkError | lineStuck
deriving DecidableEq, Repr

/-- A strike's refusal (R88). -/
inductive StrikeRefusal | unvoiced | fault | muted | tooSoon | full
deriving DecidableEq, Repr

/-! ## Timebase -/

/-- A held step (R6, R15). -/
structure HeldStep where
  target : Int
  computed : Int
  forced : Bool
deriving DecidableEq, Repr

/-- An instant recorded in show time and on the elapsed count. -/
structure Stamp where
  shown : Int
  elapsed : Nat
deriving DecidableEq, Repr

/-- The Timebase (section 1.1). `slewPhase` counts the milliseconds of the present slewing period (R8); `jumped` tells
that slewing has made show time pass over an instant in the present millisecond (R8); `lossAt` is the elapsed count at
which the loss timer runs out (R9). -/
structure TB where
  showTime : Int
  valid : Bool
  elapsed : Nat
  disc : Discipline
  correction : Int
  slewPhase : Nat
  jumped : Bool
  held : Option HeldStep
  lastPulse : Option Stamp
  lossAt : Option Nat
  rejected : Half
deriving DecidableEq, Repr

/-! ## Scheduler -/

/-- A trigger's definition (section 2.1). `time` is the time of day, the start time or the absolute time;
the follow-on's offset is in seconds. -/
structure TrigDef where
  kind : TrigKind
  enabled : Bool
  time : Nat
  period : Nat
  weekdays : BitVec 7
  hours : BitVec 24
  target : Target
  followOn : Option (Nat × Target)
  policy : Policy
  staleness : Nat
  window : Nat
deriving DecidableEq, Repr

/-- The states of a trigger (R17). -/
inductive TrigState | disabled | waitingTime | armed | spent
deriving DecidableEq, Repr

/-- A pending follow-on (R24). -/
structure FollowOn where
  due : Int
  target : Target
deriving DecidableEq, Repr

/-- An entry of the trigger table (section 2.1). -/
structure TrigRec where
  defn : TrigDef
  state : TrigState
  next : Option Int
  lastFire : Option Int
  count : Half
  first : Bool
  followOn : Option FollowOn
deriving DecidableEq, Repr

/-- A season entry (R28). -/
structure Season where
  startMonth : Nat
  startDay : Nat
  endMonth : Nat
  endDay : Nat
  priority : Nat
  programme : Fin 8
deriving DecidableEq, Repr

/-- A show request (R60). The staleness limit is in seconds. -/
structure ShowReq where
  subject : Subject
  origin : Origin
  fireTime : Int
  policy : Policy
  staleness : Nat
deriving DecidableEq, Repr

/-- What the Scheduler has still to do with one entry in the present step (R22): take what show time had reached by an
instant, its follow-on and its own fire; move its follow-on by a step; take it at a forward or a backward step; arm it if it
waits for time; arm or disable it. -/
inductive Task
  | due (i : Trig) (upTo : Int)
  | shift (i : Trig) (d : Int)
  | forward (i : Trig) (old new : Int)
  | backward (i : Trig) (new : Int)
  | armWaiting (i : Trig) (now : Int)
  | armOrDisable (i : Trig) (now : Int)
deriving DecidableEq, Repr

/-- The Scheduler. `built` tells that the table has been built since the last power-on reset (R35); `held` is the list
of requests made and not yet handed to the Sequencer (R36); `work` is what a step of show time, a setting or a commit
leaves to be done, one entry at a time, in the same step of the block (R22). -/
structure SCH where
  trigs : Vector TrigRec 32
  built : Bool
  seasons : Option (List Season)
  programmes : Option (Vector (Vector (Option Nat) 16) 8)
  active : Fin 8
  chosenBy : Option Nat
  today : Int
  held : List ShowReq
  work : List Task
deriving DecidableEq, Repr

/-! ## Programme Store -/

/-- A present item: its directory entry (R38), its content, its usable mark (R50) and its pin count (R48). -/
structure Item where
  id : ItemId
  content : List Byte
  check : Half
  usable : Bool
  pins : Nat
deriving DecidableEq, Repr

/-- The store operation in progress (R41, R43, R54). -/
inductive StoreOp
  | commit (id : ItemId) (content : List Byte) (check : Half)
  | erase (id : ItemId)
  | eraseAll
deriving DecidableEq, Repr

structure OpRec where
  what : StoreOp
  due : Nat
deriving DecidableEq, Repr

/-- Who waits for a load (R47): a lane's run, or the block that keeps a copy of an item of a kind. -/
inductive Waiter
  | lane (l : Lane)
  | block (k : ItemKind)
deriving DecidableEq, Repr

/-- The Programme Store (section 3.1). The staging buffer is a list of cells in canonical form. -/
structure PS where
  items : List Item
  staging : List Host.Cell
  stagedLen : Nat
  op : Option OpRec
  waiting : List Waiter
  writeLevel : Fin 4
  readLock : Bool
  protLock : Bool
  identity : Vector Half 4
deriving DecidableEq, Repr

/-! ## Show Sequencer -/

/-- A cue's kind and fields (R45). `finish` is the END cue. -/
inductive CueKind
  | strike (bell : Bell) (velocity : Nat)
  | damp (bells : BitVec 20)
  | move (duration windowOpen grace tolerance : Nat) (pairs : List (Fig × Int))
  | door (door : Door) (goal : Goal)
  | turn (position : Fin 12) (dir : TurnDir)
  | mark (input : GInput) (edge : Edge) (expected half : Nat)
  | lamp (channel : Lamp) (level : Byte) (fade : Nat)
  | finish
deriving DecidableEq, Repr

structure Cue where
  offset : Nat
  kind : CueKind
deriving DecidableEq, Repr

/-- A script as its item spells it (section 10.6). -/
structure Script where
  lane : Lane
  abortPolicy : Bool
  cues : List Cue
deriving DecidableEq, Repr

/-- A cue of a run and whether it has been issued (R68). -/
structure CueSlot where
  cue : Cue
  issued : Bool
deriving DecidableEq, Repr

/-- The states of a lane with a run; a lane without a run is IDLE (section 4.1). -/
inductive RunState | loading | running | holding | ending | aborting
deriving DecidableEq, Repr

/-- A run context (section 4.1). `abortAsked` is set by a cue fault under policy ABORT (R71) and acted on in the
same step; `pinned` tells whether the run holds a pin (R48); the `stopped` fields name the cues of the drives its hold
stopped (R150). -/
structure Run where
  subject : Subject
  origin : Origin
  fireTime : Int
  state : RunState
  start : Option Int
  accHold : Nat
  holdStart : Option Stamp
  heldHost : Bool
  heldGroups : BitVec 4
  resumeEnding : Bool
  cues : List CueSlot
  abortPolicy : Bool
  excluded : BitVec 12
  skipDoors : BitVec 2
  skipTurn : Bool
  faults : Half
  firstFault : Option (CueFaultKind × Nat)
  abortReason : Option AbortReason
  abortAsked : Bool
  pinned : Bool
  stoppedDoors : Vector (Option Nat) 2
  stoppedTurn : Option Nat
deriving DecidableEq, Repr

/-- How a run ended (R70, R79). -/
inductive RunOutcome
  | completed
  | completedWithFaults
  | aborted (reason : AbortReason)
deriving DecidableEq, Repr

/-- A lane's last result (R70, R79). -/
structure LastResult where
  subject : Subject
  origin : Origin
  start : Option Int
  ended : Int
  outcome : RunOutcome
  faults : Half
  firstFault : Option (CueFaultKind × Nat)
deriving DecidableEq, Repr

structure LaneRec where
  run : Option Run
  successor : Option ShowReq
  queue : List ShowReq
  last : Option LastResult
deriving DecidableEq, Repr

/-- Who set a lamp channel last (R80). -/
inductive Setter
  | lane (l : Lane)
  | host
  | rest
deriving DecidableEq, Repr

/-- A lamp channel (R80). `fading` tells that a fade has been set and has not yet ended. -/
structure LampRec where
  level : Byte
  target : Byte
  remaining : Nat
  startLevel : Byte
  length : Nat
  fading : Bool
  frozen : Bool
  setter : Setter
deriving DecidableEq, Repr

structure SEQ where
  laneM : LaneRec
  laneC : LaneRec
  lamps : Vector LampRec 8
deriving DecidableEq, Repr

/-! ## Bell Controller -/

/-- A bell's voicing (section 5.1). -/
structure Voicing where
  pulse : Vector Nat 8
  window : Nat
  recovery : Nat
  lead : Nat
  ring : Nat
  units : Nat
deriving DecidableEq, Repr

/-- The states of a bell (section 5.1). -/
inductive BellState | quiet | lifted | striking | ringing | muted | fault
deriving DecidableEq, Repr

inductive BellReason | miss | stuck
deriving DecidableEq, Repr

/-- One hammer pulse with its echo window and its stuck test (R94, R96, R97). `lane` is the lane that counts it. -/
structure Stroke where
  lane : Option Lane
  pulseEnd : Nat
  pulseOn : Bool
  echoClose : Nat
  echoOpen : Bool
  seen : Bool
  stuckAt : Nat
  stuckDue : Bool
deriving DecidableEq, Repr

structure BellCounters where
  strikes : Half
  misses : Half
  lateDrops : Half
  refused : Half
  tooSoon : Half
  spurious : Half
deriving DecidableEq, Repr

/-- A bell record (section 5.1); the mute flag is the bell's field of the live settings (R100).
`struckSinceLift` is the test of R91. -/
structure BellRec where
  state : BellState
  damperUp : Bool
  struckSinceLift : Bool
  lastStrike : Option Stamp
  nextPermitted : Option Int
  missCount : Nat
  reason : Option BellReason
  counters : BellCounters
  strokes : List Stroke
deriving DecidableEq, Repr

/-- A strike's origin (section 5.2); a run's strike names its cue, so that a hold can return it. -/
inductive StrikeOrigin
  | lane (l : Lane) (cue : Nat)
  | host
deriving DecidableEq, Repr

/-- A queued strike (R88, R89). `lifted` tells that its lift has been made (R90); `deadline` is fixed once show
time has reached the due time (R95). -/
structure Strike where
  bell : Bell
  velocity : Nat
  due : Int
  origin : StrikeOrigin
  claiming : Bool
  lifted : Bool
  deadline : Option Int
deriving DecidableEq, Repr

structure BELL where
  bells : Vector BellRec 20
  strikes : List Strike
  voicing : Option (Vector Voicing 20)
  queueFull : Half
deriving DecidableEq, Repr

/-! ## Drive Budget Unit -/

/-- Who owns a move or a command: a run (lane M, with the cue's index) or the host. -/
inductive Owner
  | run (cue : Nat)
  | host
deriving DecidableEq, Repr

/-- What a FIGURES claim is for: a move, by its serial number and go tag, or the homing of a figure (R107). -/
inductive MoveRef
  | move (serial tag : Nat)
  | homing (f : Fig)
deriving DecidableEq, Repr

/-- A figure's share of a FIGURES claim (R109). -/
structure Share where
  fig : Fig
  units : Nat
  released : Bool
deriving DecidableEq, Repr

/-- The goal of a turn command (R148). -/
inductive TurnGoal
  | home
  | to (position : Fin 12) (dir : TurnDir)
deriving DecidableEq, Repr

/-- A claim's kind and claimant (section 6.2). -/
inductive ClaimKind
  | strike (bell : Bell) (due : Int) (origin : StrikeOrigin)
  | figures (ref : MoveRef) (owner : Owner) (shares : List Share)
  | door (door : Door) (goal : Goal)
  | turntable (goal : TurnGoal)
deriving DecidableEq, Repr

structure Claim where
  kind : ClaimKind
  units : Nat
  granted : Bool
  arrival : Nat
deriving DecidableEq, Repr

/-- The claim list, in order of arrival (section 6.1). -/
structure DBU where
  claims : List Claim
deriving DecidableEq, Repr

/-! ## Figure Link Controller -/

/-- The kinds of transaction (R115) and the wake (R126). -/
inductive LinkKind | status | stage | go | halt | ident | clear | home | wake
deriving DecidableEq, Repr

/-- Whose transaction it is, and for a HALT whom it serves: whether lane M's run waits for it, whether it is a
guard ABORT's broadcast, and the figures it was sent for (R123, R124). A wake names whether the Sequencer or a
binding asked for it (R126), and a hold's CLEAR whether the run held is over (R77, R141). -/
inductive TxnOwner
  | stage (f : Fig) (tag : Nat)
  | go (tag : Nat)
  | withdrawn (f : Fig)
  | holdClear (f : Fig) (ended : Bool)
  | homeClear (f : Fig)
  | home (f : Fig)
  | figClear (f : Fig) (tag : Byte)
  | query (tag : Byte)
  | poll
  | sweep
  | wake (again : Bool)
  | halt (run guard : Bool) (figs : BitVec 12)
deriving DecidableEq, Repr

/-- The classes of the transaction queue (R123). -/
inductive TxnClass | urgent | show_ | host | poll
deriving DecidableEq, Repr

/-- A transaction (R123). `disowned` marks one whose owner has withdrawn it while in flight (R124). -/
structure Txn where
  kind : LinkKind
  address : Fin 16
  data : List Byte
  owner : TxnOwner
  attempts : Nat
  arrival : Nat
  disowned : Bool
deriving DecidableEq, Repr

/-- An answer that has begun: the elapsed count of its beginning, and the gap limit as it then stood (R119). -/
structure Begun where
  since : Nat
  gap : Nat
deriving DecidableEq, Repr

/-- The transaction in flight, with the elapsed count at which its attempt began, the elapsed count at which an
overtaking HALT ends it (R128), and its answer once it has begun (R119). -/
structure Flight where
  txn : Txn
  since : Nat
  stopAfter : Option Nat
  answer : Option Begun
deriving DecidableEq, Repr

/-- A retry waiting for the line (R120). -/
structure Retry where
  txn : Txn
  due : Nat
deriving DecidableEq, Repr

/-- A wake's phase, with the elapsed count of its end (R126). -/
inductive WakePhase
  | low (till : Nat)
  | settle (till : Nat)
deriving DecidableEq, Repr

inductive NodeState | absent | asleep | awake | silent
deriving DecidableEq, Repr

/-- A node record (section 7.5). -/
structure NodeRec where
  state : NodeState
  confirmed : Bool
  failures : Nat
  lastAnswer : Option Int
  nextSilent : Nat
deriving DecidableEq, Repr

structure LinkCounters where
  collision : Half
  bitError : Half
  frameError : Half
  checkError : Half
  gapTimeout : Half
  noAnswer : Half
  retries : Half
  abandoned : Half
  full : Half
  alerts : Half
deriving DecidableEq, Repr

/-- The Figure Link Controller. `retry` holds the transactions that wait for a retry, the one that goes next first: more
than one only when urgent HALTs sent before a retry have failed (R120, R128). `lowSince` is the elapsed count since
which the line is held low (R129). -/
structure FLC where
  nodes : Vector NodeRec 16
  queue : List Txn
  flight : Option Flight
  retry : List Retry
  wake : Option WakePhase
  wakePending : Bool
  sweep : Option (List (Fin 16))
  sweepPending : Bool
  stuck : Bool
  lowSince : Option Nat
  freeAt : Nat
  nextTick : Option Nat
  lastWatch : Option (Fin 16)
  lastPoll : Option (Fin 16)
  counters : LinkCounters
deriving DecidableEq, Repr

/-! ## Stage Controller -/

/-- A door crossing's zone (section 8.1). -/
structure Crossing where
  door : Door
  low : Int
  high : Int
deriving DecidableEq, Repr

/-- A figure definition (section 8.1); an unbound figure has no address. -/
structure FigDef where
  address : Option (Fin 16)
  travelMin : Int
  travelMax : Int
  home : Int
  units : Nat
  rides : Bool
  crossing : Option Crossing
deriving DecidableEq, Repr

/-- A door definition; the travel limit is in seconds. -/
structure DoorDef where
  travel : Nat
  units : Nat
  wait : Nat
deriving DecidableEq, Repr

structure TurnDef where
  perPosition : Nat
  units : Nat
  wait : Nat
deriving DecidableEq, Repr

inductive FigState | unbound | unknown | idle | staged | moving | halted | lost | fault
deriving DecidableEq, Repr

inductive StageStep | staging | accepted | clearing
deriving DecidableEq, Repr

/-- A reported position with the show time of its report. -/
structure Report where
  position : Int
  shown : Int
deriving DecidableEq, Repr

/-- The instants of a started move (R139). `goElapsed` is the elapsed count of the GO (R1, R73). -/
structure Started where
  goTime : Int
  goElapsed : Nat
  opens : Int
  closes : Int
deriving DecidableEq, Repr

/-- A figure's current move (section 8.1). `serial` is the number of the move's claim; `ended` tells that the run that
owned it has ended while the figure waited for its CLEAR (R77). -/
structure Move where
  owner : Owner
  target : Int
  duration : Nat
  windowOpen : Nat
  grace : Nat
  tolerance : Nat
  tag : Nat
  serial : Nat
  ended : Bool
  due : Int
  started : Option Started
deriving DecidableEq, Repr

/-- The homing of a figure (R143): the time allowed, the instant it fails unless started, whether its CLEAR has
completed, whether its HOME is queued, and once started the instant it fails unless arrived. -/
structure Homing where
  allowed : Nat
  startBy : Nat
  cleared : Bool
  queued : Bool
  arriveBy : Option Nat
deriving DecidableEq, Repr

/-- An interrupted move (R141). -/
structure Interrupted where
  cue : Nat
  target : Int
  remaining : Nat
  windowOpen : Nat
  grace : Nat
  tolerance : Nat
  tag : Nat
deriving DecidableEq, Repr

/-- A figure record (section 8.1). `step` is the stage step of a STAGED figure. -/
structure FigRec where
  state : FigState
  step : StageStep
  report : Option Report
  move : Option Move
  homing : Option Homing
  interrupted : Option Interrupted
deriving DecidableEq, Repr

inductive DoorState | closed | opening | opened | closing | stopped | stalled | unknown
deriving DecidableEq, Repr

/-- A door command (R145): WAITING while not `driving`; `claimed` tells that its claim is made; `travelMs` is the travel
limit it was taken with (R133). -/
structure DoorCmd where
  owner : Owner
  goal : Goal
  arrival : Nat
  deadline : Nat
  travelMs : Nat
  claimed : Bool
  driving : Bool
deriving DecidableEq, Repr

/-- A door record (section 8.4). `travelMs` is the limit the travel under way began with. -/
structure DoorRec where
  state : DoorState
  goal : Option Goal
  cmd : Option DoorCmd
  travelStart : Option Nat
  travelMs : Nat
deriving DecidableEq, Repr

inductive TurnState
  | unhomed | homing | at (position : Fin 12) | turning | stopped | fault
deriving DecidableEq, Repr

inductive Spin | cw | ccw
deriving DecidableEq, Repr

/-- A turn command (R148); `limit` is the per-position limit it was taken with (R133). -/
structure TurnCmd where
  owner : Owner
  goal : TurnGoal
  arrival : Nat
  deadline : Nat
  limit : Nat
  claimed : Bool
  driving : Bool
deriving DecidableEq, Repr

/-- The stepping drive (R147): the direction, the instant the next index edge must come by, the limit and the step
rate it began with, the edges counted while homing, and whether its first edge is that of the position last
counted. -/
structure Stepping where
  spin : Spin
  edgeBy : Nat
  limit : Nat
  rate : Nat
  edges : Nat
  skipFirst : Bool
deriving DecidableEq, Repr

/-- The turntable record (section 8.5). `side` is the direction in which it has moved off the position last counted
(R147). -/
structure TurnRec where
  state : TurnState
  count : Option (Fin 12)
  lastDir : Spin
  side : Spin
  goal : Option TurnGoal
  cmd : Option TurnCmd
  stepping : Option Stepping
deriving DecidableEq, Repr

/-- The Stage Controller. `moves` counts the moves taken since the last reset, and so numbers their claims. -/
structure STG where
  figDefs : Vector FigDef 12
  doorDefs : Vector DoorDef 2
  turnDef : TurnDef
  figs : Vector FigRec 12
  goTag : Nat
  moves : Nat
  goRefused : List Nat
  doors : Vector DoorRec 2
  turn : TurnRec
deriving DecidableEq, Repr

/-! ## Input Monitor -/

/-- A bank of inputs: the line levels, the three latest raw samples (`s1` the latest) and the filtered levels
(R154). -/
structure Bank (w : Nat) where
  pin : BitVec w
  s1 : BitVec w
  s2 : BitVec w
  s3 : BitVec w
  level : BitVec w
deriving DecidableEq, Repr

/-- A guard group (section 9.2). -/
structure GuardRec where
  defn : GuardDef
  mismatched : Bool
  mismatching : BitVec 16
  settleEnd : Option Nat
  trips : Half
deriving DecidableEq, Repr

/-- A capture unit's owner (section 9.3). -/
inductive CapOwner
  | free
  | host
  | run (lane : Lane) (cue : Nat)
deriving DecidableEq, Repr

structure CapWindow where
  opens : Int
  closes : Int
  suspended : Bool
deriving DecidableEq, Repr

/-- A capture unit (section 9.3). -/
structure CapRec where
  owner : CapOwner
  input : GInput
  riseMode : CapMode
  fallMode : CapMode
  riseFlag : Bool
  fallFlag : Bool
  riseCap : Option Int
  fallCap : Option Int
  window : Option CapWindow
deriving DecidableEq, Repr

/-- The Input Monitor. `limits` holds D0 closed, D0 open, D1 closed, D1 open; `misc` holds MINUTE, index, home;
`filterOn` is the input filter set in force at the latest sample (R154). -/
structure INM where
  fresh : Bool
  filterOn : BitVec 16
  general : Bank 16
  echo : Bank 20
  limits : Bank 4
  misc : Bank 3
  groups : Vector GuardRec 4
  units : Vector CapRec 4
deriving DecidableEq, Repr

/-! ## Host Link Controller -/

/-- The settings record (section 11.1). -/
structure Settings where
  budget : Nat
  discipline : Bool
  slewLimit : Nat
  defaultProgramme : Fin 8
  lateness : Nat
  countBell : Bell
  countSpacing : Nat
  gapLimit : Nat
  retries : Nat
  wakeLength : Nat
  inputFilter : BitVec 16
  lampRests : Vector Byte 8
  bellMutes : BitVec 20
  causeMasks : BitVec 16
  stepRate : Nat
deriving DecidableEq, Repr

/-- The record's source (R177). -/
inductive Source | saved | defaulted
deriving DecidableEq, Repr

/-- A save in progress (R179). -/
structure SaveRec where
  record : Settings
  due : Nat
deriving DecidableEq, Repr

/-- The single saved copy: never written, cut short, or a record with the CRC stored beside it (R177). -/
inductive SavedCopy
  | never
  | broken
  | written (record : Settings) (crc : Half)
deriving DecidableEq, Repr

inductive FigFault | nodeFault | figureLost | arrivalEarly | arrivalMissed | homeFailed
deriving DecidableEq, Repr

inductive DoorFault | stalled | interlock | noUnits
deriving DecidableEq, Repr

inductive TurnFault | missingIndex | noHome | interlock | noUnits
deriving DecidableEq, Repr

inductive TimeEvent
  | stepHeld (offset : Int)
  | stepApplied (offset : Int)
  | pulseLost
  | rangeEnd
  | unset
deriving DecidableEq, Repr

inductive StoreEvent
  | commitDone (id : ItemId)
  | eraseDone (id : ItemId)
  | erasedAll
  | checkFailed (id : ItemId)
deriving DecidableEq, Repr

inductive SettingsEvent | saved | defaulted
deriving DecidableEq, Repr

/-- The detail of an occurrence (section 10.3). `first` is the trigger's first-fire-pending flag (R17), none for a
request of the host. -/
inductive Detail
  | showStarted (lane : Lane) (subject : Subject) (origin : Origin)
  | showEnded (lane : Lane) (outcome : RunOutcome)
  | showAborted (lane : Lane) (reason : AbortReason)
  | triggerMissed (reason : MissReason) (origin : Origin) (subject : Option Subject) (time : Int)
      (slot : Option (Fin 8 × Nat)) (first : Option Bool)
  | strikeLate (bell : Bell) (origin : StrikeOrigin) (due : Int)
  | bellFault (bell : Bell) (reason : BellReason)
  | figureFault (fig : Fig) (kind : FigFault)
  | linkFault (address : Fin 16) (error : LinkError)
  | doorFault (door : Door) (kind : DoorFault)
  | turntableFault (kind : TurnFault)
  | guardTrip (group : Group) (action : GuardAction) (inputs : BitVec 16)
  | guardClear (group : Group)
  | timeEvent (event : TimeEvent)
  | capture (unit : CapUnit) (edge : Edge) (shown : Int)
  | storeEvent (event : StoreEvent)
  | settingsEvent (event : SettingsEvent)
deriving DecidableEq, Repr

/-- A cause's latest-detail record (R171). -/
structure DetailRec where
  what : Detail
  stamp : Stamp
deriving DecidableEq, Repr

/-- A cause (R171); its mask is the cause-mask field of the live settings (R172). -/
structure CauseRec where
  flag : Bool
  count : Half
  detail : Option DetailRec
deriving DecidableEq, Repr

/-- Reply statuses (section 10.6). -/
inductive Status
  | ok | held | busy | badKind | badLength | badValue | notNow | inUse | locked | full | notFound | badScript
deriving DecidableEq, Repr

/-! ## The data of the replies -/

/-- A lane as SHOW-STATUS gives it (R84). -/
structure LaneView where
  run : Option Run
  claims : List CapUnit
  last : Option LastResult
  successor : Bool
deriving DecidableEq, Repr

/-- A queued request with its age (R84). -/
structure ReqView where
  request : ShowReq
  age : Int
deriving DecidableEq, Repr

/-- An item as STORE-LIST gives it (R56). -/
structure ItemView where
  id : ItemId
  length : Nat
  blocks : Nat
  usable : Bool
  pins : Nat
deriving DecidableEq, Repr

/-- A figure as FIG-STATUS gives it (R152). -/
structure FigView where
  address : Option (Fin 16)
  rides : Bool
  crossing : Option Crossing
  record : FigRec
deriving DecidableEq, Repr

/-- The line's condition (R131). -/
inductive LineCondition | idle | inTransaction | waking | settling | heldLow | stuck
deriving DecidableEq, Repr

/-- A transaction as LINK-STATUS gives it (R131). -/
structure TxnView where
  kind : LinkKind
  address : Fin 16
  cls : TxnClass
  attempts : Nat
deriving DecidableEq, Repr

/-- The counts of the host link (R167, R169). -/
structure HostCounts where
  stray : Half
  length : Half
  gap : Half
  crc : Half
  overlap : Half
deriving DecidableEq, Repr

/-- A trigger's last fire: its fire time with its date, as year, month and day, and its hour (section 2.1, R33). -/
structure LastFire where
  time : Int
  date : Nat × Nat × Nat
  hour : Nat
deriving DecidableEq, Repr

/-- The data that follow a reply's status, as named fields (log entry 8). -/
inductive ReplyData
  | none
  | timeGet (showTime : Int) (valid : Bool) (elapsed : Nat) (disc : Discipline) (correction : Int)
      (held : Option HeldStep) (lastPulse : Option Int) (rejected : Half)
  | trigSet (state : TrigState) (next : Option Int)
  | trigGet (entry : TrigRec) (lastFire : Option LastFire)
  | seasonGet (active : Fin 8) (chosenBy : Option Nat) (entries : Nat) (programmes : Bool)
  | staged (length : Nat)
  | badCue (index : Option Nat)
  | storeList (items : List ItemView) (free staged : Nat) (writeLevel : Fin 4) (readLock protLock : Bool)
      (identity : Option (Vector Half 4))
  | storeRead (bytes : List Byte) (usable : Bool)
  | storeSum (sum : Half)
  | started (lane : Lane)
  | queued (lane : Lane) (place : Nat)
  | heldBy (groups : BitVec 4)
  | showStatus (laneM laneC : LaneView) (restraint : Bool) (lamps : Vector LampRec 8)
  | queues (successorM : Option ReqView) (queueM : List ReqView) (successorC : Option ReqView)
      (queueC : List ReqView)
  | flushed (laneM laneC : Option Nat)
  | strike (due : Int)
  | strikeRefused (kind : StrikeRefusal)
  | bellStatus (voiced : Bool) (queueFull : Half) (mutes : BitVec 20) (bells : Vector BellRec 20)
      (strikes : List Strike)
  | budget (budget held : Nat) (granted : List Claim) (waiting : List (Claim × Nat))
  | linkStatus (line : LineCondition) (flight : Option TxnView) (retry : Bool) (queue : List TxnView)
      (sweep : Option (List (Fin 16))) (second : Bool) (nodes : Vector NodeRec 16) (watch : List (Fin 16))
      (counters : LinkCounters)
  | answer (bytes : List Byte) (shown : Int)
  | linkError (error : LinkError)
  | figStatus (figs : List FigView) (watch : List (Fin 16))
  | doorStatus (doors : Vector DoorRec 2) (limits : BitVec 4) (now : Nat)
  | turnStatus (turn : TurnRec) (index home : Bool)
  | inputs (general : BitVec 16) (echo : BitVec 20) (limits : BitVec 4) (misc : BitVec 3) (raw filter : BitVec 16)
  | guardSet (mismatched : Bool) (mismatching : BitVec 16)
  | guards (groups : Vector GuardRec 4) (now : Nat)
  | captureGet (owner : CapOwner) (input : GInput) (riseMode fallMode : CapMode)
      (rise fall : Option (Bool × Option Int)) (window : Option CapWindow)
  | causes (flags masks : BitVec 16) (records : Vector CauseRec 16) (counts : HostCounts)
  | causesLeft (flags standing : BitVec 16)
  | ident (vendor part : Nat) (revision : Char) (blocks blockBytes largest body : Nat)
  | config (record : Settings) (source : Source) (differs saving : Bool)
deriving DecidableEq, Repr

/-- A reply that is ready (R168). `overlap` marks the BUSY reply of the overlap rule (R169). -/
structure Reply where
  kind : Byte
  tag : Byte
  status : Status
  data : ReplyData
  overlap : Bool
deriving DecidableEq, Repr

/-- The outstanding request (R169). -/
structure Outstanding where
  kind : Byte
  tag : Byte
deriving DecidableEq, Repr

inductive Receiver | hunting | inFrame
deriving DecidableEq, Repr

/-- The Host Link Controller. `step` is the number of start-up steps that have ended (R180); `powerOn` tells which
reset came last; `syncAt` is the elapsed count of the sync byte of the frame being received, and `lastByte` that of its latest byte
(R167); `savedPending` holds a SAVED occurrence back until the causes are cleared (R179). -/
structure HLC where
  step : Nat
  powerOn : Bool
  rx : Receiver
  syncAt : Nat
  lastByte : Nat
  counts : HostCounts
  outstanding : Option Outstanding
  replies : List Reply
  causes : Vector CauseRec 16
  live : Settings
  source : Source
  saved : SavedCopy
  save : Option SaveRec
  savedPending : Bool
deriving DecidableEq, Repr

/-- The state of the block: its ten functional blocks, the commands that wait (first in, first out), and the
counter of the free values. -/
structure State where
  tb : TB
  sch : SCH
  ps : PS
  seq : SEQ
  bell : BELL
  dbu : DBU
  flc : FLC
  stg : STG
  inm : INM
  hlc : HLC
  pending : List Instr
  free : Nat
deriving DecidableEq, Repr

/-! ## Reset -/

/-- An empty trigger entry (R35). -/
def TrigDef.empty : TrigDef :=
  { kind := .once, enabled := false, time := 0, period := 0, weekdays := 0, hours := 0, target := .slot 0,
    followOn := none, policy := .queue, staleness := 0, window := 60 }

def TrigRec.empty : TrigRec :=
  { defn := .empty, state := .disabled, next := none, lastFire := none, count := 0, first := false,
    followOn := none }

/-- The factory defaults (section 11.1). -/
def Settings.factory : Settings :=
  { budget := 24, discipline := true, slewLimit := 2000, defaultProgramme := 0, lateness := 40, countBell := 0,
    countSpacing := 1500, gapLimit := 8, retries := 2, wakeLength := 25, inputFilter := BitVec.allOnes 16,
    lampRests := Vector.replicate 8 0, bellMutes := 0, causeMasks := BitVec.allOnes 16, stepRate := 200 }

/-- A lane without a run, a request or a result (R86). -/
def LaneRec.idle : LaneRec := { run := none, successor := none, queue := [], last := none }

/-- A lamp channel at a level, with setter REST and no fade (R86). -/
def LampRec.resting (level : Byte) : LampRec :=
  { level := level, target := level, remaining := 0, startLevel := level, length := 0, frozen := false,
    fading := false, setter := .rest }

def BellCounters.zero : BellCounters :=
  { strikes := 0, misses := 0, lateDrops := 0, refused := 0, tooSoon := 0, spurious := 0 }

/-- A bell record after a power-on reset (R105). -/
def BellRec.silent : BellRec :=
  { state := .quiet, damperUp := false, struckSinceLift := false, lastStrike := none, nextPermitted := none,
    missCount := 0, reason := none, counters := .zero, strokes := [] }

/-- The record of an address no figure names (R132). -/
def NodeRec.absent : NodeRec :=
  { state := .absent, confirmed := false, failures := 0, lastAnswer := none, nextSilent := 0 }

def LinkCounters.zero : LinkCounters :=
  { collision := 0, bitError := 0, frameError := 0, checkError := 0, gapTimeout := 0, noAnswer := 0, retries := 0,
    abandoned := 0, full := 0, alerts := 0 }

/-- The link after a reset at which the line is free from `freeAt` on (R132). -/
def FLC.idle (freeAt : Nat) : FLC :=
  { nodes := Vector.replicate 16 .absent, queue := [], flight := none, retry := [], wake := none,
    wakePending := false, sweep := none, sweepPending := false, stuck := false, lowSince := none, freeAt := freeAt,
    nextTick := none, lastWatch := none, lastPoll := none, counters := .zero }

/-- The default definitions (section 8.1). -/
def FigDef.unbound : FigDef :=
  { address := none, travelMin := 0, travelMax := 0, home := 0, units := 1, rides := false, crossing := none }

def DoorDef.standard : DoorDef := { travel := 8, units := 4, wait := 500 }

def TurnDef.standard : TurnDef := { perPosition := 3000, units := 6, wait := 500 }

def FigRec.unbound : FigRec :=
  { state := .unbound, step := .staging, report := none, move := none, homing := none, interrupted := none }

def DoorRec.off : DoorRec := { state := .unknown, goal := none, cmd := none, travelStart := none, travelMs := 0 }

def TurnRec.unhomed : TurnRec :=
  { state := .unhomed, count := none, lastDir := .cw, side := .cw, goal := none, cmd := none, stepping := none }

/-- A bank whose lines all stand at `pin`, its history not yet filled. -/
def Bank.raw {w : Nat} (pin : BitVec w) : Bank w := { pin := pin, s1 := pin, s2 := pin, s3 := pin, level := pin }

/-- A guard group as delivered (section 9.2). -/
def GuardRec.delivered : GuardRec :=
  { defn := { selection := 0, reference := 0, action := .note, autoResume := false, settle := 0 },
    mismatched := false, mismatching := 0, settleEnd := none, trips := 0 }

/-- A FREE capture unit (section 9.3). Its input, which no rule gives, is IN0 (log entry 66). -/
def CapRec.free : CapRec :=
  { owner := .free, input := 0, riseMode := .off, fallMode := .off, riseFlag := false, fallFlag := false,
    riseCap := none, fallCap := none, window := none }

def CauseRec.clear : CauseRec := { flag := false, count := 0, detail := none }

def HostCounts.zero : HostCounts := { stray := 0, length := 0, gap := 0, crc := 0, overlap := 0 }

/-- The state right after the first power-on reset, before start-up step 1 (R2, R35, R51, R53, R58, R86, R105,
R113, R132, R153, R166, R171, R180). Values the spec leaves open: log entries 6, 11, 12, 13 and 19. -/
def State.reset : State :=
  { tb := { showTime := 0, valid := false, elapsed := 0, disc := .seeking, correction := 0, slewPhase := 0,
            jumped := false, held := none, lastPulse := none, lossAt := none, rejected := 0 }
    sch := { trigs := Vector.replicate 32 .empty, built := false, seasons := none, programmes := none, active := 0,
             chosenBy := none, today := 0, held := [], work := [] }
    ps := { items := [], staging := [], stagedLen := 0, op := none, waiting := [], writeLevel := 0,
            readLock := false, protLock := false, identity := Vector.replicate 4 0 }
    seq := { laneM := .idle, laneC := .idle, lamps := Vector.replicate 8 (.resting 0) }
    bell := { bells := Vector.replicate 20 .silent, strikes := [], voicing := none, queueFull := 0 }
    dbu := { claims := [] }
    flc := .idle 1
    stg := { figDefs := Vector.replicate 12 .unbound, doorDefs := Vector.replicate 2 .standard,
             turnDef := .standard, figs := Vector.replicate 12 .unbound, goTag := 1, moves := 0, goRefused := [],
             doors := Vector.replicate 2 .off, turn := .unhomed }
    inm := { fresh := true, filterOn := BitVec.allOnes 16, general := .raw 0, echo := .raw 0, limits := .raw 0,
             misc := .raw 0, groups := Vector.replicate 4 .delivered, units := Vector.replicate 4 .free }
    hlc := { step := 0, powerOn := true, rx := .hunting, syncAt := 0, lastByte := 0, counts := .zero, outstanding := none,
             replies := [], causes := Vector.replicate 16 .clear, live := .factory, source := .defaulted, saved := .never,
             save := none, savedPending := false }
    pending := []
    free := 0 }

end Sys2Proof.Machine
end

