-- ==== Sys2Proof/Machine/Flags.lean ====
section
/-! DEFINITION. Causes, the attention line, and saturating counters (R4, R171, R172). -/
namespace Sys2Proof.Machine

/-- A counter that stops at 65,535 (00_scope.md, Quantities). -/
def satInc (c : Half) : Half := if c = BitVec.allOnes 16 then c else c + 1

/-- The number of a detail's cause (section 10.3). -/
def Detail.cause : Detail → Fin 16
  | .showStarted .. => 0 | .showEnded .. => 1 | .showAborted .. => 2 | .triggerMissed .. => 3
  | .strikeLate .. => 4 | .bellFault .. => 5 | .figureFault .. => 6 | .linkFault .. => 7
  | .doorFault .. => 8 | .turntableFault .. => 9 | .guardTrip .. => 10 | .guardClear .. => 11
  | .timeEvent .. => 12 | .capture .. => 13 | .storeEvent .. => 14 | .settingsEvent .. => 15

/-- The instant a step takes place, in show time and on the elapsed count. -/
def State.stamp (s : State) : Stamp := { shown := s.tb.showTime, elapsed := s.tb.elapsed }

/-- An occurrence of a cause (R171). Between a reset and the loading of the settings no cause is raised (R172). -/
def raise (d : Detail) (s : State) : State :=
  if s.hlc.step = 0 then s
  else
    let c : CauseRec :=
      { flag := true, count := (s.hlc.causes.get d.cause).count + 1, detail := some { what := d, stamp := s.stamp } }
    { s with hlc.causes := s.hlc.causes.set d.cause c }

/-- The flag word: cause n is bit n (section 10.6). -/
def flagWord (cs : Vector CauseRec 16) : BitVec 16 :=
  (List.finRange 16).foldl (fun w i => if (cs.get i).flag then w ||| (1#16 <<< i.val) else w) 0

/-- ATTN is asserted exactly while an unmasked flag is set, and released between a reset and the loading of the
settings (R172). -/
def State.attn (s : State) : Bool :=
  decide (s.hlc.step ≠ 0) && decide (flagWord s.hlc.causes &&& s.hlc.live.causeMasks ≠ 0)

/-- Every flag, count and detail cleared (R171). -/
def clearCauses (s : State) : State := { s with hlc.causes := Vector.replicate 16 .clear }

end Sys2Proof.Machine
end

