-- ==== Sys2Proof/WellFormed.lean ====
section
/-! DEFINITION. Which commands are well formed: the forms the spec gives a request or an event, apart from the
values a request is refused for. A command that is not well formed is sent by nobody. -/
namespace Sys2Proof

/-- A request's kind number (section 10.5): numbered from the owner's first kind in the table's order. -/
def Request.kind : Request → Byte
  | .timeSet .. => 0x10 | .timeGet => 0x11
  | .trigSet .. => 0x18 | .trigGet .. => 0x19 | .trigDisarm .. => 0x1A | .seasonGet => 0x1B
  | .storePut .. => 0x20 | .storeCommit .. => 0x21 | .storeErase .. => 0x22 | .storeEraseAll => 0x23
  | .storeList => 0x24 | .storeRead .. => 0x25 | .storeSum => 0x26 | .storeProtect .. => 0x27
  | .storeLock => 0x28 | .storeIdentity .. => 0x29
  | .showStart .. => 0x30 | .showStop .. => 0x31 | .showHold .. => 0x32 | .showResume .. => 0x33
  | .showStatus => 0x34 | .queueGet => 0x35 | .queueFlush .. => 0x36 | .lampSet .. => 0x37
  | .bellStrike .. => 0x40 | .bellDamp .. => 0x41 | .bellMute .. => 0x42 | .bellClear .. => 0x43
  | .bellStatus => 0x44
  | .budgetGet => 0x48
  | .linkStatus .. => 0x50 | .linkWake => 0x51 | .nodeQuery .. => 0x52
  | .figStatus => 0x58 | .figClear .. => 0x59 | .figHome .. => 0x5A | .doorMove .. => 0x5B
  | .doorStatus => 0x5C | .turnHome => 0x5D | .turnMove .. => 0x5E | .turnStatus => 0x5F
  | .inputGet => 0x68 | .guardSet .. => 0x69 | .guardGet .. => 0x6A | .captureSet .. => 0x6B
  | .captureGet .. => 0x6C
  | .causesGet => 0x70 | .causesClear .. => 0x71 | .causeMask .. => 0x72 | .ident => 0x73 | .reset => 0x74
  | .configSet .. => 0x78 | .configGet => 0x79 | .configSave => 0x7A

/-- Whether a kind number is a request kind of section 10.5 (R168). -/
def isRequestKind (k : Byte) : Bool :=
  let n := k.toNat
  (0x10 ≤ n && n ≤ 0x11) || (0x18 ≤ n && n ≤ 0x1B) || (0x20 ≤ n && n ≤ 0x29) || (0x30 ≤ n && n ≤ 0x37) ||
  (0x40 ≤ n && n ≤ 0x44) || n == 0x48 || (0x50 ≤ n && n ≤ 0x52) || (0x58 ≤ n && n ≤ 0x5F) ||
  (0x68 ≤ n && n ≤ 0x6C) || (0x70 ≤ n && n ≤ 0x74) || (0x78 ≤ n && n ≤ 0x7A)

/-- The forms of the request bodies that have a part of varying length (R168): STORE-PUT's data (R40),
CAUSES-CLEAR's entries (R173), CONFIG-SET's fields (R178). A STORE-PUT without data has an allowed length here, and is left
to its owner (log entry 75). -/
def Request.wellFormed : Request → Bool
  | .storePut _ _ data => data.length ≤ 1024
  | .causesClear es => 1 ≤ es.length && es.length ≤ 16
  | .configSet fs => !fs.isEmpty
  | _ => true

/-- A frame's body spells a request of the frame's kind, or is of a wrong length. -/
def HostFrame.wellFormed (f : HostFrame) : Bool :=
  match f.body with
  | .wrongLength => true
  | .request r => r.wellFormed && r.kind == f.kind

/-- The forms of the commands. -/
def Instr.wellFormed : Instr → Bool
  | .hostFrameArrived f => f.wellFormed
  | .storePut _ _ data => data.length ≤ 1024
  | .causesClear es => 1 ≤ es.length && es.length ≤ 16
  | .configSet fs => !fs.isEmpty
  | .strikeCue _ i => i < 512
  | .dampCue _ i => i < 512
  | .moveCue _ i => i < 512
  | .doorCue _ i => i < 512
  | .turnCue _ i => i < 512
  | .markCue _ i => i < 512
  | .lampCue _ i => i < 512
  | .readbackError byte bit => byte < 8 && bit ≤ 8
  | .statusAnswer bs => bs.length == 8
  | .identAnswer bs => bs.length == 5
  | .goQueued t => 1 ≤ t && t ≤ 255
  | .goDeadline t => 1 ≤ t && t ≤ 255
  | .strayByte b => b != 0xA5
  | .frameLengthError n => 2048 < n && n < 65536
  | .frameCrcError rx _ => 4 ≤ rx.bytes.length
  | _ => true

end Sys2Proof
end

