-- ==== Sys2Proof/Machine/Ops.lean ====
section
/-! DEFINITION. The named operations shared by the blocks: the staging buffer, checks and byte orders, replies,
the request gate, lanes, and the movement of instants with show time. -/
namespace Sys2Proof.Machine

/-! ## The staging buffer -/

namespace Memory

/-- One byte; an unlisted address reads 0 (R40). -/
def read : List Host.Cell → Nat → Byte
  | [], _ => 0
  | (b, v) :: m, a => if b = a then v else read m a

/-- Write one byte, keeping the canonical form. -/
def write : List Host.Cell → Nat → Byte → List Host.Cell
  | [], a, v => if v = 0 then [] else [(a, v)]
  | (b, w) :: m, a, v =>
    if a < b then (if v = 0 then (b, w) :: m else (a, v) :: (b, w) :: m)
    else if a = b then (if v = 0 then m else (a, v) :: m)
    else (b, w) :: write m a v

/-- Every address of a list lies above a bound, rising strictly, and no cell is 0. -/
def wfAbove : Option Nat → List Host.Cell → Bool
  | _, [] => true
  | lo, (a, v) :: m => (match lo with | none => true | some b => decide (b < a)) && v != 0 && wfAbove (some a) m

/-- The canonical form: addresses strictly rising, no cell equal to what an unlisted address reads as. -/
def wf (m : List Host.Cell) : Bool := wfAbove none m

/-- Write bytes at consecutive addresses. -/
def writeBytes (m : List Host.Cell) (a : Nat) : List Byte → List Host.Cell
  | [] => m
  | v :: vs => writeBytes (write m a v) (a + 1) vs

/-- The first `n` bytes from address `a`. -/
def readBytes (m : List Host.Cell) (a : Nat) : Nat → List Byte
  | 0 => []
  | n + 1 => read m a :: readBytes m (a + 1) n

end Memory

/-! ## Checks and byte orders -/

/-- One bit step of the CRC-16 with polynomial 0x1021, most significant bit first (R167). -/
def crcBit (c : Half) : Half := if c.msb then (c <<< 1) ^^^ 0x1021#16 else c <<< 1

/-- One byte fed into the CRC-16 (R167). -/
def crcByte (c : Half) (b : Byte) : Half :=
  let c := c ^^^ (b.zeroExtend 16 <<< 8)
  crcBit (crcBit (crcBit (crcBit (crcBit (crcBit (crcBit (crcBit c)))))))

/-- The CRC-16 of a sequence of bytes, initial value 0xFFFF, not inverted (R167, R38). -/
def crc16 (bs : List Byte) : Half := bs.foldl crcByte 0xFFFF#16

/-- Two bytes, low byte first (section 10.6). -/
def le16 (lo hi : Byte) : Nat := lo.toNat + 256 * hi.toNat
/-- Four bytes, low byte first. -/
def le32 (a b c d : Byte) : Nat := le16 a b + 65536 * le16 c d
/-- Two bytes, low byte first, in two's complement. -/
def sle16 (lo hi : Byte) : Int := (BitVec.ofNat 16 (le16 lo hi)).toInt
/-- A 16-bit number as two bytes, low byte first. -/
def bytes16 (v : Int) : List Byte :=
  let w := BitVec.ofInt 16 v
  [w.extractLsb' 0 8, w.extractLsb' 8 8]

/-- The 8-bit sum of bytes. -/
def sum8 (bs : List Byte) : Byte := bs.foldl (· + ·) 0
/-- The check byte, which makes the 8-bit sum equal to 0 (R115). -/
def checkByte (bs : List Byte) : Byte := -(sum8 bs)

/-- The number of ones in a byte is odd. -/
def oddOnes (b : Byte) : Bool := (List.finRange 8).foldl (fun p i => xor p (b.getLsbD i.val)) false

/-- The code of a kind in the header (section 10.6); the wake has no header. -/
def LinkKind.code : LinkKind → Nat
  | .status => 0 | .stage => 1 | .go => 2 | .halt => 3 | .ident => 4 | .clear => 5 | .home => 6 | .wake => 7

/-- The header byte: odd parity, kind, address (section 10.6). -/
def headerByte (k : LinkKind) (address : Fin 16) : Byte :=
  let b := BitVec.ofNat 8 (16 * k.code + address.val)
  if oddOnes b then b else b ||| 0x80#8

/-! ## Lanes -/

def State.lane (s : State) : Lane → LaneRec
  | .M => s.seq.laneM
  | .C => s.seq.laneC

def State.setLane (s : State) (l : Lane) (r : LaneRec) : State :=
  match l with
  | .M => { s with seq.laneM := r }
  | .C => { s with seq.laneC := r }

def State.run (s : State) (l : Lane) : Option Run := (s.lane l).run

/-- A lane is IDLE when there is no run on it (section 4.1). -/
def State.laneIdle (s : State) (l : Lane) : Bool := (s.run l).isNone

/-- Both lanes IDLE: an idle instant (R11). -/
def State.bothIdle (s : State) : Bool := s.laneIdle .M && s.laneIdle .C

/-- Replace the run on a lane, if there is one. -/
def State.mapRun (s : State) (l : Lane) (f : Run → Run) : State :=
  s.setLane l { s.lane l with run := (s.lane l).run.map f }

def laneList : LaneSel → List Lane
  | .M => [.M]
  | .C => [.C]
  | .both => [.M, .C]

/-- The restraint of a forced step stands exactly while the held step is forced (R15). -/
def State.restraint (s : State) : Bool :=
  match s.tb.held with
  | some h => h.forced
  | none => false

/-- The lowest-numbered cue not yet issued (section 4.1). -/
def Run.cueIndex (r : Run) : Nat := (r.cues.takeWhile (·.issued)).length

/-- A cue fault reaching lane M or C (R71). Under policy ABORT the abort is asked for and made at the end of the
step; under CONTINUE the figure is excluded, or the door or the turntable skipped. -/
def faultRun (k : CueFaultKind) (cue : Nat) (fig : Option Fig) (door : Option Door) (r : Run) : Run :=
  let r := { r with faults := satInc r.faults, firstFault := r.firstFault <|> some (k, cue) }
  if r.state = .aborting then r
  else if r.abortPolicy then { r with abortAsked := true }
  else
    match k with
    | .stageRefused | .stageFailed | .moveLate | .arrivalEarly | .arrivalMissed | .figureLost =>
      match fig with
      | some f => { r with excluded := r.excluded ||| (1#12 <<< f.val) }
      | none => r
    | .doorBlocked | .doorStalled =>
      match door with
      | some d => { r with skipDoors := r.skipDoors ||| (1#2 <<< d.val) }
      | none => r
    | .turnBlocked | .turnFault => { r with skipTurn := true }
    | .markEarly | .markMissed | .noCapture => r

/-- Report a cue fault to a lane; a fault reaching an IDLE lane is discarded (R71). -/
def cueFault (l : Lane) (k : CueFaultKind) (cue : Nat) (fig : Option Fig) (door : Option Door) (s : State) : State :=
  s.mapRun l (faultRun k cue fig door)

/-- Report a fault to a move's or a command's owner: a run on lane M, or nobody for the host. -/
def ownerFault (o : Owner) (k : CueFaultKind) (fig : Option Fig) (door : Option Door) (s : State) : State :=
  match o with
  | .run cue => cueFault .M k cue fig door s
  | .host => s

/-! ## Replies -/

/-- The byte value of a status: numbered from 0x00 in the order of section 10.6, in which 0x0B is reserved (R168). -/
def Status.code : Status → Byte
  | .ok => 0x00 | .held => 0x01 | .busy => 0x02 | .badKind => 0x03 | .badLength => 0x04 | .badValue => 0x05
  | .notNow => 0x06 | .inUse => 0x07 | .locked => 0x08 | .full => 0x09 | .notFound => 0x0A | .badScript => 0x0C

/-- The first byte of a reply's body is its status (R168). -/
def Reply.statusByte (r : Reply) : Byte := r.status.code

/-- Make a reply ready (R168): kind plus 0x80, modulo 256 (log entry 74), and the tag of the request. -/
def sendReply (k tag : Byte) (st : Status) (data : ReplyData) (s : State) : State :=
  { s with hlc.replies :=
      s.hlc.replies ++ [{ kind := k + 0x80#8, tag := tag, status := st, data := data, overlap := false }] }

/-- The tag under which a request of kind `k` is answered: that of the outstanding request of its kind, else 0
(log entry 9). -/
def replyTag (k : Byte) (s : State) : Byte :=
  match s.hlc.outstanding with
  | some o => if o.kind = k then o.tag else 0
  | none => 0

/-- Answer a request of kind `k` at once. -/
def reply (k : Byte) (st : Status) (data : ReplyData) (s : State) : State :=
  sendReply k (replyTag k s) st data s

/-- The start-up step from whose end an owner's requests are carried out, by request kind (R181). -/
def gateStep (k : Byte) : Nat :=
  let n := k.toNat
  if n < 0x18 then 6 else if n < 0x20 then 3 else if n < 0x30 then 2 else if n < 0x40 then 6
  else if n < 0x48 then 3 else if n < 0x58 then 6 else if n < 0x70 then 4 else 1

/-- Carry a request of kind `k` out once its owner's start-up step has ended; answer BUSY before that, and nothing
while the host link takes no bytes (R181). -/
def gated (k : Byte) (f : State → State) (s : State) : State :=
  if s.hlc.step = 0 then s
  else if s.hlc.step < gateStep k then reply k .busy .none s
  else f s

/-! ## Show time and the elapsed count -/

def State.now (s : State) : Int := s.tb.showTime
def State.ticks (s : State) : Nat := s.tb.elapsed

/-- Move the instants of a run that are still to come (R12). -/
def Run.shift (d : Int) (r : Run) : Run :=
  { r with start := r.start.map (· + d), holdStart := r.holdStart.map fun h => { h with shown := h.shown + d } }

/-- Move a queued strike (R12). -/
def Strike.shift (d : Int) (k : Strike) : Strike :=
  { k with due := k.due + d, deadline := k.deadline.map (· + d) }

/-- Move a claim's due time with the strike queue's (R107). -/
def Claim.shift (d : Int) (c : Claim) : Claim :=
  match c.kind with
  | .strike b due o => { c with kind := .strike b (due + d) o }
  | _ => c

/-- Move a figure move's due time, GO time and window (R12, R138). -/
def Move.shift (d : Int) (m : Move) : Move :=
  { m with
    due := m.due + d
    started := m.started.map fun w =>
      { w with goTime := w.goTime + d, opens := w.opens + d, closes := w.closes + d } }

/-- Move a capture window (R12, R165). -/
def CapWindow.shift (d : Int) (w : CapWindow) : CapWindow := { w with opens := w.opens + d, closes := w.closes + d }

/-- Move every instant held in show time for work still to come (R12). -/
def shiftWork (d : Int) (s : State) : State :=
  { s with
    seq.laneM.run := s.seq.laneM.run.map (Run.shift d)
    seq.laneC.run := s.seq.laneC.run.map (Run.shift d)
    bell.strikes := s.bell.strikes.map (Strike.shift d)
    bell.bells := s.bell.bells.map fun b => { b with nextPermitted := b.nextPermitted.map (· + d) }
    dbu.claims := s.dbu.claims.map (Claim.shift d)
    stg.figs := s.stg.figs.map fun f => { f with move := f.move.map (Move.shift d) }
    inm.units := s.inm.units.map fun u => { u with window := u.window.map (CapWindow.shift d) } }

end Sys2Proof.Machine
end

