-- ==== Sys2Proof/Machine/Budget.lean ====
section
/-! DEFINITION. The Drive Budget Unit: claims, the grant pass, release and withdrawal (R106 to R110), with what a
grant starts: a hammer pulse (R94), a door's drive (R145) and the turntable's drive (R148), under their interlocks
(R146, R149). -/
namespace Sys2Proof.Machine

/-! ## The claim list -/

/-- What distinguishes claims: one for a strike, one for a move, one for each drive. -/
inductive ClaimKey
  | strike (bell : Bell) (due : Int)
  | figures (ref : MoveRef)
  | door (door : Door)
  | turntable
deriving DecidableEq, Repr

def ClaimKind.key : ClaimKind → ClaimKey
  | .strike b due _ => .strike b due
  | .figures ref _ _ => .figures ref
  | .door d _ => .door d
  | .turntable _ => .turntable

/-- The units a claim adds to the held sum. -/
def Claim.heldUnits (c : Claim) : Nat := if c.granted then c.units else 0

/-- The held sum: the total of the units held by granted claims (R106). -/
def heldSum (cs : List Claim) : Nat := (cs.map Claim.heldUnits).sum

def State.held (s : State) : Nat := heldSum s.dbu.claims

/-- The free units: the budget in force less the held sum (R106). -/
def State.freeUnits (s : State) : Nat := s.hlc.live.budget - s.held

/-- The due time of a WAITING strike claim. -/
def Claim.strikeDue (c : Claim) : Option Int :=
  match c.granted, c.kind with
  | false, .strike _ due _ => some due
  | _, _ => none

def Claim.isMove (c : Claim) : Bool :=
  match c.kind with
  | .strike .. => false
  | _ => true

def Claim.waitingMove (c : Claim) : Bool := !c.granted && c.isMove

/-- The WAITING strike claim with the earliest due time, the first of equals, with its place (R108). -/
def bestStrike : Nat → List Claim → Option (Nat × Int × Nat)
  | _, [] => none
  | i, c :: cs =>
    match c.strikeDue, bestStrike (i + 1) cs with
    | some d, some (j, e, u) => if d ≤ e then some (i, d, c.units) else some (j, e, u)
    | some d, none => some (i, d, c.units)
    | none, r => r

/-- The first WAITING move claim, with its place (R108). -/
def firstMove : Nat → List Claim → Option (Nat × Nat)
  | _, [] => none
  | i, c :: cs => if c.waitingMove then some (i, c.units) else firstMove (i + 1) cs

/-- The claim the grant pass grants next: the strike class first, the move class only while no strike claim is
WAITING, and each class only as far as its first claim that does not fit (R108). -/
def nextGrant (free : Nat) (cs : List Claim) : Option Nat :=
  match bestStrike 0 cs with
  | some (i, _, u) => if u ≤ free then some i else none
  | none =>
    match firstMove 0 cs with
    | some (i, u) => if u ≤ free then some i else none
    | none => none

/-- Make the claim at a place GRANTED. -/
def grantAt : Nat → List Claim → List Claim
  | _, [] => []
  | 0, c :: cs => { c with granted := true } :: cs
  | i + 1, c :: cs => c :: grantAt i cs

/-- Take the claims of a key off the list. -/
def dropKey (k : ClaimKey) (cs : List Claim) : List Claim := cs.filter fun c => c.kind.key != k

def hasKey (k : ClaimKey) (cs : List Claim) : Bool := cs.any fun c => c.kind.key == k

/-! ## What a grant starts -/

def State.voicingOf (s : State) (b : Bell) : Option Voicing := s.bell.voicing.map (·.get b)

def State.setBell (s : State) (b : Bell) (r : BellRec) : State := { s with bell.bells := s.bell.bells.set b r }

def BELL.bellAt (bl : BELL) (b : Bell) : BellRec := bl.bells.get b

/-- A bell has a damper while it is voiced with a ring time that is not 0 (R90). -/
def Voicing.hasDamper (v : Voicing) : Bool := v.ring != 0

/-- The lane a strike's origin names. -/
def StrikeOrigin.lane? : StrikeOrigin → Option Lane
  | .lane l _ => some l
  | .host => none

/-- Whether a queued strike is the one a claim is for. -/
def Strike.isFor (b : Bell) (due : Int) (k : Strike) : Bool := k.claiming && k.bell == b && k.due == due

/-- The hammer pulse of a granted strike begins (R94): the strike leaves the queue, a damper still down is lifted,
and the echo window opens. -/
def startPulse (b : Bell) (due : Int) (s : State) : State :=
  match s.bell.strikes.find? (Strike.isFor b due), s.voicingOf b with
  | some k, some v =>
    let r := s.bell.bellAt b
    let e := s.tb.elapsed
    let stroke : Stroke :=
      { lane := k.origin.lane?, pulseEnd := e + v.pulse.toList.getD (k.velocity - 1) 0, pulseOn := true,
        echoClose := e + v.window, echoOpen := true, seen := false, stuckAt := e + v.recovery, stuckDue := true }
    let r' : BellRec :=
      { r with
        state := .striking, damperUp := r.damperUp || v.hasDamper, struckSinceLift := true, lastStrike := some s.stamp,
        nextPermitted := some (s.tb.showTime + v.recovery),
        counters := { r.counters with strikes := satInc r.counters.strikes }, strokes := r.strokes ++ [stroke] }
    { s with bell.bells := s.bell.bells.set b r', bell.strikes := s.bell.strikes.erase k }
  | _, _ => s

def State.fig (s : State) (f : Fig) : FigRec := s.stg.figs.get f
def State.figDef (s : State) (f : Fig) : FigDef := s.stg.figDefs.get f
def State.setFig (s : State) (f : Fig) (r : FigRec) : State := { s with stg.figs := s.stg.figs.set f r }
def State.door (s : State) (d : Door) : DoorRec := s.stg.doors.get d
def State.setDoor (s : State) (d : Door) (r : DoorRec) : State := { s with stg.doors := s.stg.doors.set d r }

/-- Whether a figure's record forbids the door it crosses to close: STAGED, MOVING, its position unknown or inside
the zone (R146). A bound figure that has reported no position counts as unknown (log entry 28). -/
def blocksZone (r : FigRec) (c : Crossing) : Bool :=
  match r.state with
  | .unbound => false
  | .unknown | .lost | .staged | .moving => true
  | .idle | .halted | .fault =>
    match r.report with
    | none => true
    | some p => withinZone p.position c
where withinZone (p : Int) (c : Crossing) : Bool := decide (c.low ≤ p) && decide (p ≤ c.high)

/-- Whether a figure stands in the way of a door's closing (R146). -/
def blocksDoor (def_ : FigDef) (r : FigRec) (d : Door) : Bool :=
  match def_.crossing with
  | some c => c.door == d && blocksZone r c
  | none => false

/-- The door interlock forbids the door to close (R146). -/
def doorForbidden (g : STG) (d : Door) : Bool :=
  (List.finRange 12).any fun f => blocksDoor (g.figDefs.get f) (g.figs.get f) d

/-- A rider is IDLE with a last reported position equal to its home position (R149). -/
def riderHome (def_ : FigDef) (r : FigRec) : Bool :=
  r.state == .idle && (match r.report with | some p => p.position == def_.home | none => false)

/-- The turntable interlock permits turning and homing (R149). -/
def turnPermitted (g : STG) : Bool :=
  (List.finRange 12).all fun f => !(g.figDefs.get f).rides || riderHome (g.figDefs.get f) (g.figs.get f)

/-- A door's claim is granted (R145, step 4): the interlock is tested again, and the drive starts or the claim is
withdrawn. A host command so stopped ends with DOOR_FAULT INTERLOCK (R151). -/
def doorGranted (d : Door) (s : State) : State :=
  let r := s.door d
  match r.cmd with
  | none => s
  | some c =>
    if c.driving || !c.claimed then s
    else if c.goal == .closed && doorForbidden s.stg d then
      let s := { s with dbu.claims := dropKey (.door d) s.dbu.claims }
      match c.owner with
      | .run _ => s.setDoor d { r with cmd := some { c with claimed := false } }
      | .host => raise (.doorFault d .interlock) (s.setDoor d { r with cmd := none })
    else
      s.setDoor d
        { r with
          state := match c.goal with | .opened => .opening | .closed => .closing
          cmd := some { c with driving := true }
          travelStart := some s.tb.elapsed
          travelMs := c.travelMs }

/-- The number of steps from a position to another in a direction (R148). -/
def stepsIn (spin : Spin) (count goal : Fin 12) : Nat :=
  match spin with
  | .cw => (goal.val + 12 - count.val) % 12
  | .ccw => (count.val + 12 - goal.val) % 12

/-- The direction a turn takes: the fewer steps for SHORTEST, clockwise when they are equal (R148). -/
def spinOf (dir : TurnDir) (count goal : Fin 12) : Spin :=
  match dir with
  | .cw => .cw
  | .ccw => .ccw
  | .shortest => if stepsIn .cw count goal ≤ stepsIn .ccw count goal then .cw else .ccw

/-- The drive starts stepping with the limit its command was taken with and the step rate now in force (R133, R147,
R177). -/
def startStepping (limit : Nat) (spin : Spin) (skip : Bool) (s : State) : Stepping :=
  { spin := spin, edgeBy := s.tb.elapsed + limit, limit := limit,
    rate := s.hlc.live.stepRate, edges := 0, skipFirst := skip }

/-- The turntable's drive starts for a command (R148): homing for HOME, and while it is UNHOMED or has no count;
otherwise a turn from the position count, which ends at once when it takes no step. A STOPPED turntable turning back
over the position last counted meets that position's edge first (R147). -/
def turnStart (c : TurnCmd) (s : State) : State :=
  let r := s.stg.turn
  let homing : State :=
    { s with stg.turn :=
        { r with
          state := .homing, lastDir := .cw, side := .cw, cmd := some { c with driving := true }
          stepping := some (startStepping c.limit .cw false s) } }
  match c.goal, r.count with
  | .home, _ => homing
  | .to _ _, none => homing
  | .to p dir, some k =>
    if r.state = .unhomed then homing
    else
      let spin := spinOf dir k p
      if stepsIn spin k p = 0 then
        { s with
          stg.turn := { r with state := .at p, cmd := none, stepping := none }
          dbu.claims := dropKey .turntable s.dbu.claims }
      else
        { s with stg.turn :=
            { r with
              state := .turning, lastDir := spin, side := if r.state = .stopped then r.side else spin
              cmd := some { c with driving := true }
              stepping :=
                some (startStepping c.limit spin (decide (r.state = .stopped) && decide (r.side ≠ spin)) s) } }

/-- The turntable's claim is granted (R148): the interlock is tested again. -/
def turnGranted (s : State) : State :=
  let r := s.stg.turn
  match r.cmd with
  | none => s
  | some c =>
    if c.driving || !c.claimed then s
    else if turnPermitted s.stg then turnStart c s
    else
      let s := { s with dbu.claims := dropKey .turntable s.dbu.claims }
      match c.owner with
      | .run _ => { s with stg.turn := { r with cmd := some { c with claimed := false } } }
      | .host => raise (.turntableFault .interlock) { s with stg.turn := { r with cmd := none } }

/-- The claimant is told of its grant (R108). The GO of a move takes it as one of its conditions (R138). -/
def tellGranted (k : ClaimKind) (s : State) : State :=
  match k with
  | .strike b due _ => startPulse b due s
  | .figures .. => s
  | .door d _ => doorGranted d s
  | .turntable _ => turnGranted s

/-- Grant the claim at a place and tell its claimant. -/
def grantOne (i : Nat) (s : State) : State :=
  match s.dbu.claims[i]? with
  | none => s
  | some c => tellGranted c.kind { s with dbu.claims := grantAt i s.dbu.claims }

/-- The grants of a pass, one after another. -/
def grantLoop : Nat → State → State
  | 0, s => s
  | n + 1, s =>
    match nextGrant s.freeUnits s.dbu.claims with
    | none => s
    | some i => grantLoop n (grantOne i s)

/-- A grant pass (R108): every grant makes a WAITING claim granted or takes it off the list, so the pass makes at
most as many as there are claims. -/
def grantPass (s : State) : State := grantLoop s.dbu.claims.length s

/-! ## Claims, releases and withdrawals -/

/-- Place a strike claim after those whose due times are earlier or equal. -/
def insertClaim (c : Claim) : List Claim → List Claim
  | [] => [c]
  | d :: ds =>
    match c.strikeDue, d.strikeDue with
    | some x, some y => if y ≤ x then d :: insertClaim c ds else c :: d :: ds
    | _, _ => c :: d :: ds

/-- The WAITING claims in the order in which the grant pass would take them: strikes by due time, then moves by
arrival (R108, R112). -/
def waitingOrder (cs : List Claim) : List Claim :=
  ((cs.filter fun c => c.strikeDue.isSome).foldl (fun l c => insertClaim c l) []) ++ cs.filter Claim.waitingMove

/-- The answer to a claim at its arrival (R107). -/
inductive ClaimAnswer | taken | overBudget | listFull
deriving DecidableEq, Repr

/-- The answer to a claim for a number of units (R107). -/
def claimAnswer (k : ClaimKind) (units : Nat) (s : State) : ClaimAnswer :=
  let isMove := match k with | .strike .. => false | _ => true
  if units = 0 then .taken
  else if s.hlc.live.budget < units then .overBudget
  else if isMove && decide (Config.moveClaims ≤ (s.dbu.claims.filter Claim.waitingMove).length) then .listFull
  else .taken

/-- Append a claim that is taken, GRANTED when it is for 0 units, and make a grant pass (R107). -/
def makeClaim (k : ClaimKind) (units : Nat) (s : State) : State :=
  grantPass { s with dbu.claims := s.dbu.claims ++
    [{ kind := k, units := units, granted := decide (units = 0), arrival := s.tb.elapsed }] }

/-- A claim is released whole or withdrawn: it leaves the list and a grant pass follows (R109, R110). -/
def dropClaim (k : ClaimKey) (s : State) : State :=
  if hasKey k s.dbu.claims then grantPass { s with dbu.claims := dropKey k s.dbu.claims } else s

/-- Claims of several keys are withdrawn together; a grant pass follows (R110). -/
def dropKeys (ks : List ClaimKey) (s : State) : State :=
  if s.dbu.claims.any fun c => ks.contains c.kind.key then
    grantPass { s with dbu.claims := s.dbu.claims.filter fun c => !ks.contains c.kind.key }
  else s

/-- Mark a figure's share of a granted claim released; the units released. -/
def releaseIn (f : Fig) : List Share → List Share × Nat
  | [] => ([], 0)
  | sh :: rest =>
    if sh.fig = f ∧ sh.released = false then ({ sh with released := true } :: rest, sh.units)
    else
      let (r, u) := releaseIn f rest
      (sh :: r, u)

/-- The shares of a waiting claim without a figure's, and the units by which the claim falls (R109). -/
def removeShare (f : Fig) (shares : List Share) : List Share × Nat :=
  (shares.filter fun sh => sh.fig != f, ((shares.filter fun sh => sh.fig == f).map Share.units).sum)

/-- One claim after a figure's share has gone back (R109): the share of a GRANTED claim is released, and the claim leaves
the list with its last share; that of a WAITING claim is removed from it, and the claim leaves the list at 0 units. -/
def releaseShare (ref : MoveRef) (f : Fig) (c : Claim) : Option Claim :=
  match c.kind with
  | .figures ref' owner shares =>
    if ref' = ref then
      let (left, u) := if c.granted then releaseIn f shares else removeShare f shares
      let gone := if c.granted then left.all (·.released) else decide (c.units - u = 0)
      if gone then none else some { c with kind := .figures ref' owner left, units := c.units - u }
    else some c
  | _ => some c

/-- A figure's share goes back; a grant pass follows (R109). -/
def release (ref : MoveRef) (f : Fig) (s : State) : State :=
  if hasKey (.figures ref) s.dbu.claims then
    grantPass { s with dbu.claims := s.dbu.claims.filterMap (releaseShare ref f) }
  else s

/-- A move's claim is granted when none of it is WAITING (R138). A WAITING claim reduced to 0 units has left the list
(R109), and the move's figures of 0 units then wait for no grant (log entry 47). -/
def claimGranted (ref : MoveRef) (s : State) : Bool :=
  s.dbu.claims.all fun c => c.granted || c.kind.key != .figures ref

end Sys2Proof.Machine
end

