-- ==== Sys2Proof/Machine/Link.lean ====
section
/-! DEFINITION. The Figure Link Controller's queue: entries, withdrawal, HALTs, wakes, the order in which
transactions are taken, and the poller's choice (R114 to R132). Instants on the line are counted in units of 1/96 ms:
a bit time is 5 units and a byte time 50 (log entry 4). -/
namespace Sys2Proof.Machine

/-! ## Times on the line -/

/-- The bytes the part sends for a kind, header included (R115). -/
def LinkKind.sendBytes : LinkKind → Nat
  | .status => 1 | .stage => 8 | .go => 3 | .halt => 1 | .ident => 1 | .clear => 1 | .home => 4 | .wake => 0

/-- The bytes of the answer (R115). -/
def LinkKind.answerBytes : LinkKind → Nat
  | .status => 8 | .stage => 1 | .go => 0 | .halt => 0 | .ident => 5 | .clear => 1 | .home => 1 | .wake => 0

/-- Whole milliseconds that a number of units takes, rounded up. -/
def msOf (units : Nat) : Nat := (units + 95) / 96

/-- The elapsed count at which the last byte of the attempt's frame has been sent. -/
def Flight.sentAt (f : Flight) : Nat := f.since + msOf (50 * f.txn.kind.sendBytes)

/-- The elapsed count at which an answer not begun fails the attempt: 4 ms after the frame (R119). -/
def Flight.noAnswerAt (f : Flight) : Nat := f.since + msOf (50 * f.txn.kind.sendBytes + 384)

/-- The earliest end of the first byte of an answer. -/
def Flight.firstByteAt (f : Flight) : Nat := f.since + msOf (50 * f.txn.kind.sendBytes + 50)

/-- The gap limit that bears on an answer: as it stood when the answer's first byte began, and the one in force while the
model has not been told of its beginning (R119). -/
def Flight.gapLimit (f : Flight) (live : Nat) : Nat :=
  match f.answer with
  | some b => b.gap
  | none => live

/-- The earliest elapsed count at which the gap limit can have passed after an answer byte (R119). -/
def Flight.gapAt (f : Flight) (live : Nat) : Nat :=
  let gap := 50 + 5 * f.gapLimit live
  match f.answer with
  | some b => b.since + msOf gap
  | none => f.since + msOf (50 * f.txn.kind.sendBytes + gap)

/-- The elapsed count by which an answer that has begun has ended, every gap being within its limit (log entry 5). -/
def Begun.endBy (b : Begun) (bytes : Nat) : Nat := b.since + msOf ((50 + 5 * b.gap) * bytes)

/-- Where a HALT queued now ends the frame being sent: at the end of the byte being sent, when bytes of the frame
remain after it (R128). -/
def Flight.overtakenAt (f : Flight) (now : Nat) : Option Nat :=
  let byte := 96 * (now - f.since) / 50
  if byte + 1 < f.txn.kind.sendBytes then some (f.since + msOf (50 * (byte + 1))) else none

/-! ## Counters and node records -/

def countLink (f : LinkCounters → LinkCounters) (s : State) : State := { s with flc.counters := f s.flc.counters }

/-- The counter of an error kind (R118, R119); LINE_STUCK has none. -/
def LinkCounters.count (e : LinkError) (c : LinkCounters) : LinkCounters :=
  match e with
  | .collision => { c with collision := satInc c.collision }
  | .bitError => { c with bitError := satInc c.bitError }
  | .noAnswer => { c with noAnswer := satInc c.noAnswer }
  | .frameError => { c with frameError := satInc c.frameError }
  | .gapTimeout => { c with gapTimeout := satInc c.gapTimeout }
  | .checkError => { c with checkError := satInc c.checkError }
  | .lineStuck => c

def State.node (s : State) (a : Fin 16) : NodeRec := s.flc.nodes.get a
def State.mapNode (s : State) (a : Fin 16) (f : NodeRec → NodeRec) : State :=
  { s with flc.nodes := s.flc.nodes.set a (f (s.node a)) }

/-- Some bound node is ASLEEP (R126). -/
def someAsleep (s : State) : Bool := s.flc.nodes.toList.any fun n => n.state == .asleep

def isAwake (s : State) (a : Fin 16) : Bool := (s.node a).state == .awake

/-- The addresses of AWAKE nodes, ascending. -/
def awakeNodes (s : State) : List (Fin 16) := (List.finRange 16).filter (isAwake s)

/-- The addresses an alert sweep under way has still to take (R122). -/
def sweepLeft (s : State) : List (Fin 16) := (s.flc.sweep.getD []).filter (isAwake s)

/-- A STATUS of the sweep under way is on the line or waits for a retry. -/
def sweepFlying (s : State) : Bool :=
  (s.flc.retry.map Retry.txn ++ (s.flc.flight.map Flight.txn).toList).any fun t => t.owner == .sweep

/-- A sweep that has no node left to take, and no STATUS of its own under way, has ended (R122). -/
def tidySweep (s : State) : State :=
  if (sweepLeft s).isEmpty && !sweepFlying s then { s with flc.sweep := none } else s

/-- A node that becomes SILENT during a sweep is passed over (R122). -/
def passOver (a : Fin 16) (s : State) : State :=
  tidySweep { s with flc.sweep := s.flc.sweep.map fun l => l.filter (· != a) }

/-- The watch set: the addresses of figures MOVING or homing, ascending (R127, R139). -/
def watchSet (s : State) : List (Fin 16) :=
  (List.finRange 16).filter fun a =>
    (List.finRange 12).any fun f => (s.figDef f).address == some a && (s.fig f).state == .moving

/-! ## Classes (R123) -/

def Txn.cls (t : Txn) : TxnClass :=
  match t.owner with
  | .halt .. => .urgent
  | .query _ => .host
  | .poll | .sweep => .poll
  | .stage .. | .go _ | .withdrawn _ | .holdClear .. | .homeClear _ | .home _ | .figClear .. | .wake _ => .show_

/-- The oldest entry of a class. -/
def oldest (c : TxnClass) (q : List Txn) : Option Txn := q.find? fun t => t.cls == c

/-- The newest entry of a class. -/
def newest (c : TxnClass) (q : List Txn) : Option Txn := q.reverse.find? fun t => t.cls == c

/-! ## Entering the queue (R124) -/

/-- What becomes of a transaction that arrives: queued, refused at a full queue, or failed on a STUCK line. -/
inductive LinkAnswer | queued | full | stuck
deriving DecidableEq, Repr

def linkAnswer (s : State) : LinkAnswer :=
  if s.flc.stuck then .stuck else if Config.linkDepth ≤ s.flc.queue.length then .full else .queued

def newTxn (k : LinkKind) (a : Fin 16) (data : List Byte) (o : TxnOwner) (s : State) : Txn :=
  { kind := k, address := a, data := data, owner := o, attempts := 0, arrival := s.tb.elapsed, disowned := false }

def pushTxn (t : Txn) (s : State) : State := { s with flc.queue := s.flc.queue ++ [t] }

/-- A transaction other than a HALT arrives (R124, R129): it is queued, or a refusal is counted. -/
def enqueue (k : LinkKind) (a : Fin 16) (data : List Byte) (o : TxnOwner) (s : State) : State :=
  match linkAnswer s with
  | .queued => pushTxn (newTxn k a data o s) s
  | .full => countLink (fun c => { c with full := satInc c.full }) s
  | .stuck => s

/-- The owner withdraws its transactions (R124): queued entries leave the queue, a retry is not made, and one in
flight is carried to its end without a report. -/
def withdrawTxns (p : TxnOwner → Bool) (s : State) : State :=
  { s with
    flc.queue := s.flc.queue.filter fun t => !p t.owner
    flc.retry := s.flc.retry.filter fun r => !p r.txn.owner
    flc.flight := s.flc.flight.map fun f =>
      if p f.txn.owner then { f with txn := { f.txn with disowned := true } } else f }

/-- The owner withdraws its queued entries alone; one in flight or waiting for a retry goes on (R124). -/
def withdrawQueued (p : TxnOwner → Bool) (s : State) : State :=
  { s with flc.queue := s.flc.queue.filter fun t => !p t.owner }

/-- Every transaction the link holds: queued, waiting for a retry, or in flight and still owned. -/
def heldTxns (s : State) : List Txn :=
  s.flc.queue ++ s.flc.retry.map Retry.txn ++ ((s.flc.flight.map Flight.txn).filter fun t => !t.disowned).toList

def hasQueued (p : TxnOwner → Bool) (s : State) : Bool := s.flc.queue.any fun t => p t.owner

/-! ## HALTs (R124, R128) -/

/-- The owners two merged HALTs serve. -/
def mergeOwners : TxnOwner → TxnOwner → TxnOwner
  | .halt r g fs, .halt r' g' fs' => .halt (r || r') (g || g') (fs ||| fs')
  | o, _ => o

def Txn.isHaltTo (a : Fin 16) (t : Txn) : Bool := t.cls == .urgent && t.address == a

/-- A HALT in flight over a frame with bytes to come makes it end at the present byte (R128). -/
def overtake (s : State) : State :=
  { s with flc.flight := s.flc.flight.map fun f =>
      { f with stopAfter := f.stopAfter <|> f.overtakenAt s.tb.elapsed } }

/-- The owner a set of HALTs serves together. -/
def servedTogether (o : TxnOwner) (ts : List Txn) : TxnOwner := ts.foldl (fun o t => mergeOwners o t.owner) o

/-- The entry a HALT displaces at a full queue: the newest host entry, else the newest show entry, else the poll
entry (R124). -/
def displaced (q : List Txn) : Option Txn := newest .host q <|> newest .show_ q <|> newest .poll q

/-- A HALT enters the queue (R124); the entry it displaces, if any. -/
def placeHalt (a : Fin 16) (o : TxnOwner) (s : State) : State × Option Txn :=
  let q := s.flc.queue
  let same (t : Txn) : Bool := t.isHaltTo a || t.isHaltTo 0
  if q.any same then
    let go (t : Txn) : Txn := if same t then { t with owner := mergeOwners t.owner o } else t
    ({ s with flc.queue := q.map go }, none)
  else if a = 0 ∧ (q.any fun t => t.cls == .urgent) = true then
    let halts := q.filter fun t => t.cls == .urgent
    let rest := q.filter fun t => t.cls != .urgent
    ({ s with flc.queue := rest ++ [newTxn .halt 0 [] (servedTogether o halts) s] }, none)
  else if q.length < Config.linkDepth then (pushTxn (newTxn .halt a [] o s) s, none)
  else
    match displaced q with
    | some t => ({ s with flc.queue := q.erase t ++ [newTxn .halt a [] o s] }, some t)
    | none => ({ s with flc.queue := [newTxn .halt 0 [] (servedTogether o q) s] }, none)

/-! ## The wake (R126) -/

def hasWake (s : State) : Bool := s.flc.wake.isSome || s.flc.queue.any fun t => t.kind == .wake

/-- A wake is requested; one that is queued or under way takes the request up. `again` marks a request of the
Sequencer or of a binding, which a refusal makes pending again. -/
def requestWake (again : Bool) (s : State) : State :=
  if s.flc.wake.isSome then s
  else if hasWake s then
    { s with flc.queue := s.flc.queue.map fun t =>
        match t.owner with
        | .wake a => { t with owner := .wake (a || again) }
        | _ => t }
  else
    match linkAnswer s with
    | .full =>
      let s := enqueue .wake 0 [] (.wake again) s
      { s with flc.wakePending := s.flc.wakePending || again }
    | .queued | .stuck => enqueue .wake 0 [] (.wake again) s

/-- Whether a requested wake is refused at a full queue. -/
def wakeRefused (s : State) : Bool := !hasWake s && decide (linkAnswer s = .full)

/-! ## Taking the next transaction (R123) -/

def inLow (s : State) : Bool := match s.flc.wake with | some (.low _) => true | _ => false
def inSettle (s : State) : Bool := match s.flc.wake with | some (.settle _) => true | _ => false

/-- The line permits a start (R123): it is not held low, and has been idle for one byte time. The link starts nothing
before start-up reaches it (R132). -/
def linePermits (s : State) : Bool :=
  decide (5 ≤ s.hlc.step) && !s.flc.stuck && s.flc.lowSince.isNone && decide (s.flc.freeAt ≤ s.tb.elapsed) && !inLow s

/-- What is taken next. -/
inductive Taken
  | entry (t : Txn)
  | sweep (a : Fin 16) (rest : List (Fin 16)) (begun : Bool)
  | emptySweep
deriving DecidableEq, Repr

/-- The next STATUS of an alert sweep under way or pending (R122). A pending sweep that finds no AWAKE node is dropped (log
entry 64). -/
def takeSweep (s : State) : Option Taken :=
  match sweepLeft s with
  | a :: rest => some (.sweep a rest false)
  | [] =>
    if s.flc.sweepPending then
      match awakeNodes s with
      | a :: rest => some (.sweep a rest true)
      | [] => some .emptySweep
    else none

/-- The transaction taken next, if the line permits a start and none is in flight (R123). A waiting retry and a
wake's settle period hold back every class but the urgent one. -/
def takeNext (s : State) : Option Taken :=
  if !linePermits s || s.flc.flight.isSome then none
  else
    match oldest .urgent s.flc.queue with
    | some t => some (.entry t)
    | none =>
      if !s.flc.retry.isEmpty || inSettle s then none
      else
        match oldest .show_ s.flc.queue with
        | some t => some (.entry t)
        | none =>
          match takeSweep s with
          | some x => some x
          | none => ((oldest .host s.flc.queue).orElse fun _ => oldest .poll s.flc.queue).map .entry

/-- An attempt begins. -/
def launch (t : Txn) (s : State) : State :=
  { s with
    flc.flight := some { txn := { t with attempts := t.attempts + 1 }, since := s.tb.elapsed, stopAfter := none,
                         answer := none } }

/-- The wake's low period begins, for the wake length now in force (R126). -/
def startWake (s : State) : State :=
  { s with flc.wake := some (.low (s.tb.elapsed + msOf (5 * s.hlc.live.wakeLength))) }

/-- The transaction taken leaves the queue and is in flight (R123). -/
def take (x : Taken) (s : State) : State :=
  match x with
  | .entry t =>
    let s := { s with flc.queue := s.flc.queue.erase t }
    if t.kind = .wake then startWake s else launch t s
  | .sweep a rest begun =>
    let s := { s with flc.sweep := some rest, flc.sweepPending := if begun then false else s.flc.sweepPending }
    launch (newTxn .status a [] .sweep s) s
  | .emptySweep => { s with flc.sweep := none, flc.sweepPending := false }

/-- The line permits a start once it has been idle for some units more. -/
def freeIn (units : Nat) (s : State) : State := { s with flc.freeAt := s.tb.elapsed + msOf units }

/-- The line is free again one byte time after the end of a transaction (R114). -/
def freeLine (s : State) : State := freeIn 50 s

/-- The units for which the line has still to be idle, at a failure, before it has been idle for a byte time: it has been
idle since the frame at NO_ANSWER, and for the gap limit at GAP_TIMEOUT (R114, R119, R123). -/
def LinkError.idleLeft (gap : Nat) : LinkError → Nat
  | .noAnswer => 0
  | .gapTimeout => 50 - 5 * gap
  | .collision | .bitError | .frameError | .checkError | .lineStuck => 50

/-! ## The poller (R127) -/

/-- The lowest address above the last one, wrapping to the lowest (R127). -/
def rotate (last : Option (Fin 16)) (l : List (Fin 16)) : Option (Fin 16) :=
  match last with
  | none => l.head?
  | some a => (l.find? fun b => decide (a < b)) <|> l.head?

/-- The address the poller takes, with the records it keeps of it (R127): an address whose entry is added counts as polled
(log entry 65). -/
def pollChoice (s : State) : Option (Fin 16 × State) :=
  let nodes := List.finRange 16
  match nodes.find? fun a => (s.node a).state == .silent && decide ((s.node a).nextSilent ≤ s.tb.elapsed) with
  | some a => some (a, s.mapNode a fun n => { n with nextSilent := s.tb.elapsed + 2000 })
  | none =>
    match rotate s.flc.lastWatch (watchSet s) with
    | some a => some (a, { s with flc.lastWatch := some a })
    | none =>
      match nodes.find? fun a => isAwake s a && !(s.node a).confirmed with
      | some a => some (a, s)
      | none =>
        match rotate s.flc.lastPoll (awakeNodes s) with
        | some a => some (a, { s with flc.lastPoll := some a })
        | none => none

/-- Whether a poll tick finds the line quiet (R127). -/
def pollQuiet (s : State) : Bool :=
  s.flc.queue.isEmpty && s.flc.flight.isNone && s.flc.retry.isEmpty && !inLow s && (sweepLeft s).isEmpty &&
  !s.flc.sweepPending

/-- A poll tick (R127). -/
def pollTick (s : State) : State :=
  let s := { s with flc.nextTick := some (s.tb.elapsed + 20) }
  if pollQuiet s then
    match pollChoice s with
    | some (a, s) => enqueue .status a [] .poll s
    | none => s
  else s

/-! ## Bindings (R121) -/

/-- The Stage Controller tells the set of bound addresses: newly bound nodes are ASLEEP, others cease to be bound
(R121); nodes that stay bound keep their records. A sweep may have no AWAKE node left (R122). A poll STATUS or a
FIG-CLEAR's CLEAR under way to an address that ceases to be bound is left to its end (log entry 89). -/
def bindNodes (bound : List (Fin 16)) (s : State) : State :=
  tidySweep { s with flc.nodes := Vector.ofFn fun a =>
      let n := s.flc.nodes.get a
      if bound.contains a then
        if n.state = .absent then { n with state := .asleep, confirmed := false, failures := 0 } else n
      else { NodeRec.absent with lastAnswer := n.lastAnswer } }

end Sys2Proof.Machine
end

