-- ==== Sys2Proof/Machine/Calendar.lean ====
section
/-! DEFINITION. The calendar derived from show time (R3) and the occurrences of triggers (R18, R19). -/
namespace Sys2Proof.Machine

/-- The day number of a show time (R3). -/
def dayNumber (t : Int) : Int := t / Config.dayMs
/-- The time of day (R3). -/
def timeOfDay (t : Int) : Int := t % Config.dayMs
/-- The hour of the day, 0 to 23 (R3). -/
def hourOf (t : Int) : Nat := (timeOfDay t / Config.hourMs).toNat
/-- The minute of the hour, 0 to 59 (R3). -/
def minuteOf (t : Int) : Nat := (timeOfDay t % Config.hourMs / 60000).toNat
/-- The count of hours since 2000-01-01, which takes a date and an hour together (R19). -/
def hourIndex (t : Int) : Int := t / Config.hourMs
/-- The weekday of a day number, 0 for Monday (R3). -/
def weekday (d : Int) : Nat := ((d + 5) % 7).toNat
/-- The twelve-hour count of an hour (R3). -/
def twelveHour (h : Nat) : Nat := if h % 12 = 0 then 12 else h % 12

/-- The month and day of month, both from 1, of a day of the year counted from 0, over the months' lengths. -/
def monthDayIn : List Nat → Nat → Nat → Nat × Nat
  | [], m, d => (m, d + 1)
  | n :: ns, m, d => if d < n then (m, d + 1) else monthDayIn ns (m + 1) (d - n)

/-- The lengths of the months. -/
def monthLengths (leap : Bool) : List Nat :=
  [31, if leap then 29 else 28, 31, 30, 31, 30, 31, 31, 30, 31, 30, 31]

/-- The year of a day number, whether it is a leap year, and the day of that year from 0: every year divisible by 4
is a leap year of the range (R3). -/
def yearOf (d : Nat) : Nat × Bool × Nat :=
  let q := d / 1461
  let r := d % 1461
  if r < 366 then (2000 + 4 * q, true, r)
  else (2001 + 4 * q + (r - 366) / 365, false, (r - 366) % 365)

/-- The month and day of month of a day number (R3). -/
def monthDay (d : Int) : Nat × Nat :=
  let (_, leap, n) := yearOf d.toNat
  monthDayIn (monthLengths leap) 1 n

/-- The year, the month and the day of month of a show time (R3). -/
def dateOf (t : Int) : Nat × Nat × Nat := ((yearOf (dayNumber t).toNat).1, monthDay (dayNumber t))

/-- A last fire with its date and its hour (R21, step 3; R33). -/
def lastFireAt (t : Int) : LastFire := { time := t, date := dateOf t, hour := hourOf t }

/-- The days of a month in a season entry, 29 for February (R28). -/
def daysOfMonth (m : Nat) : Nat := (monthLengths true).getD (m - 1) 0

/-- Days of the year compared first by month and then by day (R28). -/
def dateLe (a b : Nat × Nat) : Bool := decide (a.1 < b.1) || (a.1 == b.1 && decide (a.2 ≤ b.2))

/-- Whether a season entry matches a date (R28). -/
def Season.matches (e : Season) (md : Nat × Nat) : Bool :=
  let lo := (e.startMonth, e.startDay)
  let hi := (e.endMonth, e.endDay)
  if dateLe lo hi then dateLe lo md && dateLe md hi else dateLe lo md || dateLe md hi

/-- An occurrence is permitted when it lies beyond the last fire in the entry's measure (R19). -/
def permitted (d : TrigDef) (last : Option Int) (o : Int) : Bool :=
  match last with
  | none => true
  | some l =>
    match d.kind with
    | .daily => decide (dayNumber l < dayNumber o)
    | .hours => decide (hourIndex l < hourIndex o)
    | .periodic => decide (l + d.period ≤ o)
    | .once => true

/-- An occurrence beyond the end of the range does not exist (R18). -/
def inRange (o : Int) : Option Int := if 0 ≤ o ∧ o ≤ Config.maxTime then some o else none

/-- Division rounded up. -/
def ceilDiv (a b : Int) : Int := -((-a) / b)

/-- The occurrence of a DAILY entry on a day, if its weekday is in the set (R18). -/
def dailyOn (d : TrigDef) (day : Int) : Option Int :=
  if 0 ≤ day ∧ d.weekdays.getLsbD (weekday day) = true then inRange (day * Config.dayMs + d.time) else none

/-- The occurrence of an HOURS entry at an hour counted from 2000-01-01, if the hour is in the set (R18). -/
def hourAt (d : TrigDef) (h : Int) : Option Int :=
  if 0 ≤ h ∧ d.hours.getLsbD (h % 24).toNat = true then inRange (h * Config.hourMs) else none

/-- The earliest permitted occurrence at or after an instant (R18, R19). -/
def earliestFrom (d : TrigDef) (last : Option Int) (t : Int) : Option Int :=
  match d.kind with
  | .once => if t ≤ d.time then inRange d.time else none
  | .periodic =>
    if d.period = 0 then
      if t ≤ d.time ∧ permitted d last d.time = true then inRange d.time else none
    else
      let low := match last with
        | none => t
        | some l => max t (l + d.period)
      inRange (d.time + max 0 (ceilDiv (low - d.time) d.period) * d.period)
  | .daily =>
    let low := ceilDiv (t - d.time) Config.dayMs
    let low := match last with
      | none => max 0 low
      | some l => max 0 (max low (dayNumber l + 1))
    (List.range 7).findSome? fun k => dailyOn d (low + k)
  | .hours =>
    let low := ceilDiv t Config.hourMs
    let low := match last with
      | none => max 0 low
      | some l => max 0 (max low (hourIndex l + 1))
    (List.range 24).findSome? fun k => hourAt d (low + k)

/-- The earliest permitted occurrence after an instant (R18). -/
def earliestAfter (d : TrigDef) (last : Option Int) (t : Int) : Option Int := earliestFrom d last (t + 1)

/-- The latest occurrence at or before an instant, permitted or not (R18). -/
def latestOccurrence (d : TrigDef) (t : Int) : Option Int :=
  match d.kind with
  | .once => if (d.time : Int) ≤ t then inRange d.time else none
  | .periodic =>
    if t < d.time then none
    else if d.period = 0 then inRange d.time
    else inRange (d.time + (t - d.time) / d.period * d.period)
  | .daily => (List.range 7).findSome? fun k => dailyOn d ((t - d.time) / Config.dayMs - k)
  | .hours => (List.range 24).findSome? fun k => hourAt d (t / Config.hourMs - k)

/-- The latest permitted occurrence at or before an instant: every measure of R19 permits later occurrences before
earlier ones, so it is the latest occurrence, if that is permitted. None lies beyond the end of the range (R18). -/
def latestTo (d : TrigDef) (last : Option Int) (t : Int) : Option Int :=
  (latestOccurrence d (min t Config.maxTime)).filter (permitted d last)

end Sys2Proof.Machine
end

