-- ==== Sys2Proof/Machine/Operands.lean ====
section
/-! DEFINITION. The ranges of the values a request carries, and the contents of stored items read from their bytes
(R28, R31, R45, R46, R160, R178, section 10.6). -/
namespace Sys2Proof.Machine

/-- A number as a unit of `n`, if it is in range. -/
def toFin (n : Nat) (k : Nat) : Option (Fin n) := if h : k < n then some ⟨k, h⟩ else none

def within (lo hi v : Nat) : Bool := decide (lo ≤ v) && decide (v ≤ hi)
def withinI (lo hi v : Int) : Bool := decide (lo ≤ v) && decide (v ≤ hi)

/-- The item a kind and a number name; kinds are numbered in directory order (R38). -/
def itemId (kind number : Nat) : Option ItemId :=
  match kind, number with
  | 0, 0 => some ⟨.voicing, 0⟩
  | 1, 0 => some ⟨.figures, 0⟩
  | 2, 0 => some ⟨.seasons, 0⟩
  | 3, 0 => some ⟨.programmes, 0⟩
  | 4, 0 => some ⟨.triggers, 0⟩
  | 5, n => if n < 128 then some ⟨.script, n⟩ else none
  | _, _ => none

/-- An item's place in directory order (R38). -/
def itemRank (i : ItemId) : Nat :=
  match i.kind with
  | .voicing => 0 | .figures => 1 | .seasons => 2 | .programmes => 3 | .triggers => 4 | .script => 5 + i.number

/-! ## Trigger definitions (R31) -/

def targetOk : Target → Bool
  | .slot n => decide (n < 16)
  | .script n => decide (n < 128)

/-- A follow-on's offset is 1 to 600 s (section 2.1). -/
def followOnOk : Option (Nat × Target) → Bool
  | none => true
  | some (s, t) => within 1 600 s && targetOk t

/-- The definition of a kind and an overlap policy that a TRIG-SET writes (R31). A field of the kind that is left out
fails as a value out of range does; the rule names no status for it (log entry 45). -/
def trigOfKind (kind : TrigKind) (policy : Policy) (a : TrigArgs) (arm : Bool) : Option TrigDef :=
  let window := a.window.getD 60
  if !(followOnOk a.followOn && decide (a.staleness ≤ 3600) && decide (window ≤ 600)) then none
  else
    let base : TrigDef :=
      { TrigDef.empty with
        kind := kind, enabled := arm, followOn := a.followOn, policy := policy,
        staleness := a.staleness, window := window }
    match kind, a.time, a.period, a.weekdays, a.hours, a.target with
    | .daily, some t, none, some w, none, some g =>
      if t < 86400000 ∧ w ≠ 0 ∧ targetOk g = true then some { base with time := t, weekdays := w, target := g } else none
    | .periodic, some t, some p, none, none, some g =>
      if (t : Int) ≤ Config.maxTime ∧ p ≤ 86400000 ∧ targetOk g = true then
        some { base with time := t, period := p, target := g }
      else none
    | .once, some t, none, none, none, some g =>
      if (t : Int) ≤ Config.maxTime ∧ targetOk g = true then some { base with time := t, target := g } else none
    | .hours, none, none, none, some h, none => if h ≠ 0 then some { base with hours := h } else none
    | _, _, _, _, _, _ => none

/-- The definition a TRIG-SET writes, if every field lies in its range, every field of the kind is present, and no
field the kind does not have (R31). -/
def trigOfArgs (a : TrigArgs) (arm : Bool) : Option TrigDef :=
  match a.kind, a.policy with
  | .val k, .val p => trigOfKind k p a arm
  | _, _ => none

/-! ## Guard groups and settings (R160, R178) -/

/-- The definition a GUARD-SET writes, if every value is within its range; auto-resume goes with HOLD alone (R160). -/
def guardOf (g : GuardArgs) : Option GuardDef :=
  match g.action with
  | .val a =>
    if g.settle ≤ 10000 ∧ (g.autoResume = false ∨ a = .hold) then
      some { selection := g.selection, reference := g.reference, action := a, autoResume := g.autoResume,
             settle := g.settle }
    else none
  | .other _ => none

/-- Which field a setting names, so that a field named twice is seen (R178). -/
def fieldNumber : SettingField → Nat
  | .budget _ => 0 | .discipline _ => 1 | .slewLimit _ => 2 | .defaultProgramme _ => 3 | .lateness _ => 4
  | .countBell _ => 5 | .countSpacing _ => 6 | .gapLimit _ => 7 | .retries _ => 8 | .wakeLength _ => 9
  | .inputFilter _ => 10 | .lampRests _ => 11 | .bellMutes _ => 12 | .causeMasks _ => 13 | .stepRate _ => 14

/-- The range of each field of the settings record (section 11.1). -/
def fieldOk : SettingField → Bool
  | .budget v => within 4 64 v
  | .slewLimit v => within 0 10000 v
  | .defaultProgramme v => decide (v < 8)
  | .lateness v => within 5 200 v
  | .countBell v => decide (v < 20)
  | .countSpacing v => within 1000 4000 v
  | .gapLimit v => within 2 20 v
  | .retries v => decide (v ≤ 3)
  | .wakeLength v => within 1 50 v
  | .lampRests v => v.toList.all fun l => decide (l ≤ 255)
  | .stepRate v => within 20 1000 v
  | .discipline _ | .inputFilter _ | .bellMutes _ | .causeMasks _ => true

/-- The record with one field changed. -/
def Settings.put (r : Settings) : SettingField → Settings
  | .budget v => { r with budget := v }
  | .discipline v => { r with discipline := v }
  | .slewLimit v => { r with slewLimit := v }
  | .defaultProgramme v => { r with defaultProgramme := Fin.ofNat 8 v }
  | .lateness v => { r with lateness := v }
  | .countBell v => { r with countBell := Fin.ofNat 20 v }
  | .countSpacing v => { r with countSpacing := v }
  | .gapLimit v => { r with gapLimit := v }
  | .retries v => { r with retries := v }
  | .wakeLength v => { r with wakeLength := v }
  | .inputFilter v => { r with inputFilter := v }
  | .lampRests v => { r with lampRests := v.map (BitVec.ofNat 8) }
  | .bellMutes v => { r with bellMutes := v }
  | .causeMasks v => { r with causeMasks := v }
  | .stepRate v => { r with stepRate := v }

/-- The bits of a word as bytes, low byte first. -/
def bytesOf {w : Nat} (b : BitVec w) : List Byte :=
  (List.range ((w + 7) / 8)).map fun k => (b >>> (8 * k)).setWidth 8

/-- The record's fields as bytes, in the order of the table of section 11.1, numbers of two bytes low byte first. The
spec gives the saved copy no layout of its own (log entry 14). -/
def Settings.bytes (r : Settings) : List Byte :=
  [BitVec.ofNat 8 r.budget, BitVec.ofBool r.discipline |>.setWidth 8] ++ bytes16 r.slewLimit ++
  [BitVec.ofNat 8 r.defaultProgramme.val, BitVec.ofNat 8 r.lateness, BitVec.ofNat 8 r.countBell.val] ++
  bytes16 r.countSpacing ++
  [BitVec.ofNat 8 r.gapLimit, BitVec.ofNat 8 r.retries, BitVec.ofNat 8 r.wakeLength] ++
  bytesOf r.inputFilter ++ r.lampRests.toList ++ bytesOf r.bellMutes ++ bytesOf r.causeMasks ++ bytes16 r.stepRate

/-- The CRC-16 of the record's fields, computed as the host frame's check is (R177). -/
def Settings.crc (r : Settings) : Half := crc16 r.bytes

/-- Whether every field of the record lies within its range (R177). -/
def Settings.ok (r : Settings) : Bool :=
  within 4 64 r.budget && within 0 10000 r.slewLimit && within 5 200 r.lateness &&
  within 1000 4000 r.countSpacing && within 2 20 r.gapLimit && decide (r.retries ≤ 3) &&
  within 1 50 r.wakeLength && within 20 1000 r.stepRate

/-- No field is named twice, and every value is in range (R178). -/
def fieldsOk (fs : List SettingField) : Bool :=
  decide (fs.map fieldNumber).Nodup && fs.all fieldOk

/-! ## Scripts (R45, section 10.6) -/

/-- The pairs of a MOVE cue. -/
def parsePairs : Nat → List Byte → Option (List (Fig × Int) × List Byte)
  | 0, bs => some ([], bs)
  | k + 1, f :: lo :: hi :: bs =>
    match toFin 12 f.toNat, parsePairs k bs with
    | some f, some (ps, rest) => some ((f, sle16 lo hi) :: ps, rest)
    | _, _ => none
  | _ + 1, _ => none

def parseGoal (b : Byte) : Option Goal :=
  match b.toNat with
  | 0 => some .opened
  | 1 => some .closed
  | _ => none

def parseDir (b : Byte) : Option TurnDir :=
  match b.toNat with
  | 0 => some .shortest
  | 1 => some .cw
  | 2 => some .ccw
  | _ => none

/-- The fields of a cue of a kind, within their ranges, and the bytes that follow. -/
def parseFields (kind : Nat) (bs : List Byte) : Option (CueKind × List Byte) :=
  match kind, bs with
  | 0, b :: v :: r => do
    let b ← toFin 20 b.toNat
    if within 1 8 v.toNat then some (.strike b v.toNat, r) else none
  | 1, a :: b :: c :: r =>
    let w := a.toNat + 256 * b.toNat + 65536 * c.toNat
    if 0 < w ∧ w < 2 ^ 20 then some (.damp (BitVec.ofNat 20 w), r) else none
  | 2, d0 :: d1 :: w :: g0 :: g1 :: t0 :: t1 :: k :: r => do
    let (ps, r) ← parsePairs k.toNat r
    if within 200 60000 (le16 d0 d1) && decide (w.toNat ≤ 100) && decide (le16 g0 g1 ≤ 2000) &&
        decide (le16 t0 t1 ≤ 2000) && within 1 12 k.toNat && decide (ps.map Prod.fst).Nodup then
      some (.move (le16 d0 d1) w.toNat (le16 g0 g1) (le16 t0 t1) ps, r)
    else none
  | 3, d :: g :: r => do
    let d ← toFin 2 d.toNat
    let g ← parseGoal g
    some (.door d g, r)
  | 4, p :: d :: r => do
    let p ← toFin 12 p.toNat
    let d ← parseDir d
    some (.turn p d, r)
  | 5, i :: e :: x0 :: x1 :: x2 :: x3 :: h0 :: h1 :: r => do
    let i ← toFin 16 i.toNat
    let e ← (match e.toNat with | 0 => some Edge.rise | 1 => some Edge.fall | _ => none)
    if le32 x0 x1 x2 x3 ≤ 600000 ∧ within 10 5000 (le16 h0 h1) = true then
      some (.mark i e (le32 x0 x1 x2 x3) (le16 h0 h1), r)
    else none
  | 6, c :: l :: f0 :: f1 :: r => do
    let c ← toFin 8 c.toNat
    if le16 f0 f1 ≤ 10000 then some (.lamp c l (le16 f0 f1), r) else none
  | 7, r => some (.finish, r)
  | _, _ => none

/-- One cue record (section 10.6) with its offset in range (R45). -/
def parseCue : List Byte → Option (Cue × List Byte)
  | o0 :: o1 :: o2 :: o3 :: k :: r =>
    match parseFields k.toNat r with
    | some (c, r) => if le32 o0 o1 o2 o3 ≤ 600000 then some (⟨le32 o0 o1 o2 o3, c⟩, r) else none
    | none => none
  | _ => none

/-- Whether a lane C script may hold the cue (R45). -/
def CueKind.laneCOk : CueKind → Bool
  | .move .. | .door .. | .turn .. => false
  | _ => true

/-- The cues of a script, `n` still to come, the next with index `i` and offset at least `low`. An error names the
first cue that fails, or the header when bytes are left over (R45; log entry 16). -/
def parseCues (lane : Lane) : Nat → Nat → Nat → List Byte → Except (Option Nat) (List Cue)
  | 0, _, _, bs => if bs.isEmpty then .ok [] else .error none
  | n + 1, i, low, bs =>
    match parseCue bs with
    | none => .error (some i)
    | some (c, r) =>
      if c.offset < low ∨ (lane = .C ∧ c.kind.laneCOk = false) ∨ (decide (c.kind = .finish) ≠ decide (n = 0)) then
        .error (some i)
      else
        match parseCues lane n (i + 1) c.offset r with
        | .ok cs => .ok (c :: cs)
        | .error e => .error e

/-- The script an item's content spells, or the place where its validation fails (R45). -/
def parseScript : List Byte → Except (Option Nat) Script
  | l :: p :: n0 :: n1 :: r =>
    if l.toNat ≤ 1 ∧ p.toNat ≤ 1 ∧ within 1 512 (le16 n0 n1) = true then
      let lane := if l.toNat = 0 then Lane.M else Lane.C
      match parseCues lane (le16 n0 n1) 0 0 r with
      | .ok cs => .ok { lane := lane, abortPolicy := decide (p.toNat = 1), cues := cs }
      | .error e => .error e
    else .error none
  | _ => .error none

/-- The lane a script's header names, read without verifying the content (R59). -/
def headerLane : List Byte → Lane
  | b :: _ => if b.toNat = 0 then .M else .C
  | [] => .M

/-! ## The other items (R46, section 10.6) -/

/-- `n` records of one kind in order. -/
def parseMany {α : Type} (f : List Byte → Option (α × List Byte)) : Nat → List Byte → Option (List α × List Byte)
  | 0, bs => some ([], bs)
  | n + 1, bs =>
    match f bs with
    | some (a, r) =>
      match parseMany f n r with
      | some (as, r) => some (a :: as, r)
      | none => none
    | none => none

/-- A list of exactly `n` values as a vector. -/
def vectorOf {α : Type} (n : Nat) (l : List α) : Option (Vector α n) :=
  if h : l.toArray.size = n then some ⟨l.toArray, h⟩ else none

def parseFlag (b : Byte) : Option Bool :=
  match b.toNat with
  | 0 => some false
  | 1 => some true
  | _ => none

def parseVoicing : List Byte → Option (Voicing × List Byte)
  | p1 :: p2 :: p3 :: p4 :: p5 :: p6 :: p7 :: p8 :: w :: r0 :: r1 :: l :: g0 :: g1 :: u :: rest =>
    let ps : Vector Nat 8 := #v[p1.toNat, p2.toNat, p3.toNat, p4.toNat, p5.toNat, p6.toNat, p7.toNat, p8.toNat]
    if ps.toList.all (within 2 40) && within 2 60 w.toNat && within 60 2000 (le16 r0 r1) &&
        decide (l.toNat ≤ 50) && decide (le16 g0 g1 ≤ 10000) && within 1 8 u.toNat then
      some ({ pulse := ps, window := w.toNat, recovery := le16 r0 r1, lead := l.toNat, ring := le16 g0 g1,
              units := u.toNat }, rest)
    else none
  | _ => none

/-- The VOICING item: twenty records and no more. -/
def parseVoicingItem (bs : List Byte) : Option (Vector Voicing 20) := do
  let (vs, r) ← parseMany parseVoicing 20 bs
  if r.isEmpty then vectorOf 20 vs else none

def parseFigure : List Byte → Option (FigDef × List Byte)
  | a :: m0 :: m1 :: x0 :: x1 :: h0 :: h1 :: u :: rd :: cd :: l0 :: l1 :: z0 :: z1 :: rest => do
    let rides ← parseFlag rd
    let a ← toFin 16 a.toNat
    let lo := sle16 m0 m1
    let hi := sle16 x0 x1
    let home := sle16 h0 h1
    let zl := sle16 l0 l1
    let zh := sle16 z0 z1
    let crossing ← (match cd.toNat with
      | 0 => if zl = 0 ∧ zh = 0 then some none else none
      | 1 => if zl ≤ zh then some (some { door := 0, low := zl, high := zh : Crossing }) else none
      | 2 => if zl ≤ zh then some (some { door := 1, low := zl, high := zh : Crossing }) else none
      | _ => none)
    if lo ≤ hi ∧ lo ≤ home ∧ home ≤ hi ∧ u.toNat ≤ 4 then
      some ({ address := if a = 0 then none else some a, travelMin := lo, travelMax := hi, home := home,
              units := u.toNat, rides := rides, crossing := crossing }, rest)
    else none
  | _ => none

def parseDoor : List Byte → Option (DoorDef × List Byte)
  | t :: u :: w0 :: w1 :: rest =>
    if within 1 30 t.toNat && within 1 16 u.toNat && decide (le16 w0 w1 ≤ 2000) then
      some ({ travel := t.toNat, units := u.toNat, wait := le16 w0 w1 }, rest)
    else none
  | _ => none

def parseTurn : List Byte → Option (TurnDef × List Byte)
  | p0 :: p1 :: u :: w0 :: w1 :: rest =>
    if within 500 10000 (le16 p0 p1) && within 1 16 u.toNat && decide (le16 w0 w1 ≤ 2000) then
      some ({ perPosition := le16 p0 p1, units := u.toNat, wait := le16 w0 w1 }, rest)
    else none
  | _ => none

/-- The definitions a FIGURES item holds. -/
structure Machinery where
  figs : Vector FigDef 12
  doors : Vector DoorDef 2
  turn : TurnDef
deriving DecidableEq, Repr

/-- The FIGURES item; no two bound figures share an address (R46). -/
def parseFiguresItem (bs : List Byte) : Option Machinery := do
  let (fs, r) ← parseMany parseFigure 12 bs
  let (ds, r) ← parseMany parseDoor 2 r
  let (t, r) ← parseTurn r
  let fv ← vectorOf 12 fs
  let dv ← vectorOf 2 ds
  if r.isEmpty && decide (fs.filterMap FigDef.address).Nodup then some { figs := fv, doors := dv, turn := t } else none

def dateOk (m d : Nat) : Bool := within 1 12 m && within 1 (daysOfMonth m) d

def parseSeason : List Byte → Option (Season × List Byte)
  | a :: b :: c :: d :: p :: g :: rest => do
    let g ← toFin 8 g.toNat
    if dateOk a.toNat b.toNat && dateOk c.toNat d.toNat && decide (p.toNat ≤ 15) then
      some ({ startMonth := a.toNat, startDay := b.toNat, endMonth := c.toNat, endDay := d.toNat,
              priority := p.toNat, programme := g }, rest)
    else none
  | _ => none

/-- The SEASONS item: 1 to 16 entries (R28). -/
def parseSeasonsItem (bs : List Byte) : Option (List Season) := do
  let n := bs.length / 6
  let (es, r) ← parseMany parseSeason n bs
  if r.isEmpty && within 1 16 n then some es else none

def parseSlot : List Byte → Option (Option Nat × List Byte)
  | b :: rest => if b.toNat = 255 then some (none, rest) else if b.toNat < 128 then some (some b.toNat, rest) else none
  | [] => none

def parseProgramme (bs : List Byte) : Option (Vector (Option Nat) 16 × List Byte) := do
  let (ss, r) ← parseMany parseSlot 16 bs
  let v ← vectorOf 16 ss
  some (v, r)

/-- The PROGRAMMES item: eight programmes of sixteen slots. -/
def parseProgrammesItem (bs : List Byte) : Option (Vector (Vector (Option Nat) 16) 8) := do
  let (ps, r) ← parseMany parseProgramme 8 bs
  if r.isEmpty then vectorOf 8 ps else none

def parseTarget (b : Byte) : Option Target :=
  let n := b.toNat
  if n < 16 then some (.slot n) else if 128 ≤ n then some (.script (n - 128)) else none

/-- A trigger definition record; a field the kind does not have holds 0 (section 10.6). -/
def parseTrigger : List Byte → Option (TrigDef × List Byte)
  | k :: en :: t0 :: t1 :: t2 :: t3 :: t4 :: t5 :: t6 :: t7 :: p0 :: p1 :: p2 :: p3 :: d0 :: d1 :: d2 :: tg ::
      f0 :: f1 :: ft :: pol :: s0 :: s1 :: w0 :: w1 :: rest => do
    let enabled ← parseFlag en
    let time := le32 t0 t1 t2 t3 + 4294967296 * le32 t4 t5 t6 t7
    let period := le32 p0 p1 p2 p3
    let days := d0.toNat + 256 * d1.toNat + 65536 * d2.toNat
    let policy ← (match pol.toNat with
      | 0 => some Policy.queue
      | 1 => some Policy.drop
      | 2 => some Policy.preempt
      | _ => none)
    let followOn ← (if le16 f0 f1 = 0 then (if ft = 0 then some none else none)
      else (parseTarget ft).map fun g => some (le16 f0 f1, g))
    let staleness := le16 s0 s1
    let window := le16 w0 w1
    let target ← parseTarget tg
    let base : TrigDef :=
      { TrigDef.empty with
        enabled := enabled, followOn := followOn, policy := policy, staleness := staleness, window := window }
    if !(followOnOk followOn && decide (staleness ≤ 3600) && decide (window ≤ 600)) then none
    else
      match k.toNat with
      | 0 =>
        if time < 86400000 ∧ period = 0 ∧ 0 < days ∧ days < 128 then
          some ({ base with kind := .daily, time := time, weekdays := BitVec.ofNat 7 days, target := target }, rest)
        else none
      | 1 =>
        if (time : Int) ≤ Config.maxTime ∧ period ≤ 86400000 ∧ days = 0 then
          some ({ base with kind := .periodic, time := time, period := period, target := target }, rest)
        else none
      | 2 =>
        if (time : Int) ≤ Config.maxTime ∧ period = 0 ∧ days = 0 then
          some ({ base with kind := .once, time := time, target := target }, rest)
        else none
      | 3 =>
        if time = 0 ∧ period = 0 ∧ 0 < days ∧ tg = 0 then
          some ({ base with kind := .hours, hours := BitVec.ofNat 24 days }, rest)
        else none
      | _ => none
  | _ => none

/-- The TRIGGERS item: thirty-two definitions. -/
def parseTriggersItem (bs : List Byte) : Option (Vector TrigDef 32) := do
  let (ts, r) ← parseMany parseTrigger 32 bs
  if r.isEmpty then vectorOf 32 ts else none

/-- The validation of a kind at commit: the place where it fails, or none (R45, R46). -/
inductive Validation
  | valid
  | badScript (cue : Option Nat)
  | badValue
deriving DecidableEq, Repr

def validate (k : ItemKind) (bs : List Byte) : Validation :=
  let ofBool (b : Bool) : Validation := if b then .valid else .badValue
  match k with
  | .script => match parseScript bs with
    | .ok _ => .valid
    | .error e => .badScript e
  | .voicing => ofBool (parseVoicingItem bs).isSome
  | .figures => ofBool (parseFiguresItem bs).isSome
  | .seasons => ofBool (parseSeasonsItem bs).isSome
  | .programmes => ofBool (parseProgrammesItem bs).isSome
  | .triggers => ofBool (parseTriggersItem bs).isSome

end Sys2Proof.Machine
end

