-- ==== Sys2Proof/Machine/Stage.lean ====
section
/-! DEFINITION. The Stage Controller: moves and their ends, holds and aborts of figures, homing, doors, the
turntable, interlock stops, and what it makes of the link's reports (R133 to R151). -/
namespace Sys2Proof.Machine

/-! ## Figures -/

def allFigs : List Fig := List.finRange 12

def State.mapFig (s : State) (f : Fig) (g : FigRec → FigRec) : State := s.setFig f (g (s.fig f))

/-- The address of a figure's node; an unbound figure has none and is sent nothing. -/
def State.figAddress (s : State) (f : Fig) : Fin 16 := (s.figDef f).address.getD 0

/-- The figure at an address. -/
def figAt (s : State) (a : Fin 16) : Option Fig := allFigs.find? fun f => (s.figDef f).address == some a

/-- The claim of a move. -/
def Move.ref (m : Move) : MoveRef := .move m.serial m.tag

/-- The claim a figure's share stands in. -/
def figRef (f : Fig) (r : FigRec) : MoveRef :=
  match r.homing, r.move with
  | none, some m => m.ref
  | _, _ => .homing f

/-- A STAGED figure that has not left its move (R137). -/
def FigRec.inStaging (r : FigRec) : Bool := r.state == .staged && r.step != .clearing && r.homing.isNone

def FigRec.hasTag (t : Nat) (r : FigRec) : Bool := match r.move with | some m => m.tag == t | none => false

/-- A figure's move belongs to the run on lane M: one that a run left CLEARING at its end is no move of a later run
(R77). -/
def FigRec.ofRun (r : FigRec) : Bool :=
  r.homing.isNone && match r.move with | some m => m.owner != .host && !m.ended | none => false

/-- The figures still in a move before its GO (R138). -/
def moveFigs (t : Nat) (s : State) : List Fig := allFigs.filter fun f => (s.fig f).inStaging && (s.fig f).hasTag t

/-- A link transaction of a figure's part in a move or of its homing. The CLEAR of a FIG-CLEAR is the host's (log entry
89). -/
def TxnOwner.ofFig (f : Fig) : TxnOwner → Bool
  | .stage g _ | .withdrawn g | .holdClear g _ | .homeClear g | .home g => g == f
  | _ => false

/-- A CLEAR that a hold of the run on lane M has sent (R141). -/
def TxnOwner.ofHold : TxnOwner → Bool
  | .holdClear _ ended => !ended
  | _ => false

/-- A STAGE of a figure. -/
def TxnOwner.isStage (f : Fig) : TxnOwner → Bool
  | .stage g _ => g == f
  | _ => false

/-- A figure is still in the move of a tag, before its GO. -/
def inMove (f : Fig) (t : Nat) (s : State) : Bool := (s.fig f).inStaging && (s.fig f).hasTag t

/-- A figure that has left a move and waits for its CLEAR (R137). -/
def FigRec.clearing (r : FigRec) : Bool := r.state == .staged && r.step == .clearing && r.homing.isNone

/-- A figure's part in its move ends: it takes a state, its move is none, and then its share goes back (R109; log entry
95). -/
def leaveMove (f : Fig) (st : FigState) (s : State) : State :=
  release (figRef f (s.fig f)) f (s.mapFig f fun r => { r with state := st, move := none, homing := none })

/-- Report a fault of a figure to its move's owner; a figure in CLEARING has left its move and is not reported
again (log entry 25). -/
def reportFig (f : Fig) (k : CueFaultKind) (s : State) : State :=
  let r := s.fig f
  match r.move with
  | some m => if r.state = .staged ∧ r.step = .clearing then s else ownerFault m.owner k (some f) none s
  | none => s

/-! ## Frames the part sends (R115, section 10.6) -/

/-- A duration in units of 10 ms, rounded up. -/
def tens (ms : Nat) : Nat := (ms + 9) / 10

def withCheck (k : LinkKind) (a : Fin 16) (data : List Byte) : List Byte :=
  data ++ [checkByte (headerByte k a :: data)]

def stageData (a : Fin 16) (f : Fig) (m : Move) : List Byte :=
  withCheck .stage a (bytes16 m.target ++ bytes16 (tens m.duration) ++ [BitVec.ofNat 8 m.tag, BitVec.ofNat 8 f.val])

def goData (tag : Nat) : List Byte := withCheck .go 0 [BitVec.ofNat 8 tag]

def homeData (a : Fin 16) (allowed : Nat) : List Byte := withCheck .home a (bytes16 (tens allowed))

/-! ## Withdrawal and the link's reports of failure (R137, R138, R143) -/

/-- A figure is withdrawn (R137): a STAGE not yet taken is withdrawn and the figure is IDLE at once; otherwise a
CLEAR is queued, and the figure is HALTED if that is refused or fails at once. Its share has gone back. -/
def withdrawFig (f : Fig) (s : State) : State :=
  let waiting := hasQueued (TxnOwner.isStage f) s
  let s := withdrawQueued (TxnOwner.isStage f) s
  if waiting then s.mapFig f fun r => { r with state := .idle, move := none }
  else
    match linkAnswer s with
    | .queued =>
      enqueue .clear (s.figAddress f) [] (.withdrawn f) (s.mapFig f fun r => { r with step := .clearing })
    | .full | .stuck =>
      enqueue .clear (s.figAddress f) [] (.withdrawn f)
        (s.mapFig f fun r => { r with state := .halted, move := none })

/-- A figure fails before its move has started: reported, its share goes back, and it is withdrawn (R137, R138; log entry
95). -/
def failStaged (k : CueFaultKind) (f : Fig) (s : State) : State :=
  let ref := figRef f (s.fig f)
  withdrawFig f (release ref f (reportFig f k s))

/-- A homing that fails before the figure is MOVING (R143): the claim is withdrawn, the figure is UNKNOWN, and
HOME_FAILED is raised. -/
def homeFails (f : Fig) (s : State) : State :=
  let s := withdrawTxns (fun o => o == .homeClear f || o == .home f) s
  let s := s.mapFig f fun r => { r with state := .unknown, move := none, homing := none }
  raise (.figureFault f .homeFailed) (dropClaim (.figures (.homing f)) s)

/-- A CLEAR of a withdrawn figure does not complete: the figure is HALTED (R137). -/
def clearFails (f : Fig) (s : State) : State :=
  if (s.fig f).clearing then s.mapFig f fun r => { r with state := .halted, move := none }
  else s

/-- A transaction's owner is told it was refused at a full queue (R124, R137, R138, R143). -/
def linkRefused (o : TxnOwner) (s : State) : State :=
  match o with
  | .stage f t => if inMove f t s then leaveMove f .idle (reportFig f .stageFailed s) else s
  | .go t => { s with stg.goRefused := t :: s.stg.goRefused }
  | .withdrawn f => clearFails f s
  | .homeClear f | .home f => homeFails f s
  | .figClear _ tag => sendReply 0x59#8 tag .busy .none s
  | .query tag => sendReply 0x52#8 tag .busy .none s
  | .wake again => { s with flc.wakePending := s.flc.wakePending || again }
  | .holdClear .. | .poll | .sweep | .halt .. => s

/-- A transaction's owner is told it has failed with an error kind (R125). The figures of a failed GO are withdrawn in
ascending index (log entry 80). -/
def linkFailed (o : TxnOwner) (e : LinkError) (s : State) : State :=
  match o with
  | .stage f t => if inMove f t s then failStaged .stageFailed f s else s
  | .go t => (moveFigs t s).foldl (fun s f => failStaged .stageFailed f s) s
  | .withdrawn f => clearFails f s
  | .homeClear f | .home f => homeFails f s
  | .figClear _ tag => sendReply 0x59#8 tag .notNow (.linkError e) s
  | .query tag => sendReply 0x52#8 tag .notNow (.linkError e) s
  | .wake _ | .holdClear .. | .poll | .sweep | .halt .. => s

/-! ## HALTs -/

/-- A HALT's completion that serves a guard ABORT: every STAGED or MOVING figure is HALTED, a homing figure
included (R150). -/
def guardHalts (f : Fig) (s : State) : State :=
  let r := s.fig f
  if r.state = .staged ∨ r.state = .moving then leaveMove f .halted (withdrawTxns (TxnOwner.ofFig f) s) else s

/-- A HALT that was not sent for a figure reaches its node (R140): a MOVING figure is HALTED and reported
ARRIVAL_MISSED; a STAGED one has lost its staging. A figure in CLEARING is left to its CLEAR (log entry 25). -/
def foreignHalt (f : Fig) (s : State) : State :=
  let r := s.fig f
  if r.state = .moving then leaveMove f .halted (reportFig f .arrivalMissed s)
  else if r.inStaging then
    leaveMove f .idle (withdrawTxns (TxnOwner.isStage f) (reportFig f .stageFailed s))
  else s

/-- A HALT is reported completed to the owners it serves (R125); a broadcast has reached every node (R140), and the
figures act in ascending index (log entry 82). -/
def haltDone (a : Fin 16) (o : TxnOwner) (s : State) : State :=
  match o with
  | .halt _ guard figs =>
    if guard then allFigs.foldl (fun s f => guardHalts f s) s
    else if a = 0 then
      allFigs.foldl (fun s f => if figs.getLsbD f.val then s else foreignHalt f s) s
    else s
  | _ => s

def figBit (f : Fig) : BitVec 12 := 1#12 <<< f.val

/-- A HALT is sent (R124, R128): on a STUCK line it is completed at once (R129); otherwise it enters the queue,
what it displaces is told it was refused, and it overtakes a frame with bytes to come. -/
def sendHalt (a : Fin 16) (run guard : Bool) (figs : BitVec 12) (s : State) : State :=
  let o := TxnOwner.halt run guard figs
  if s.flc.stuck then haltDone a o s
  else
    let (s, gone) := placeHalt a o s
    let s := overtake s
    match gone with
    | some t =>
      if t.owner = .poll then s else linkRefused t.owner (countLink (fun c => { c with full := satInc c.full }) s)
    | none => s

/-- An addressed HALT for a figure. -/
def haltFig (run : Bool) (f : Fig) (s : State) : State := sendHalt (s.figAddress f) run false (figBit f) s

/-- Some HALT on the run's behalf has still to complete (R79, R141). -/
def haltWaits (s : State) : Bool :=
  (heldTxns s).any fun t => match t.owner with | .halt run _ _ => run | _ => false

/-- A transaction that a run leaves behind: nobody waits for its HALT, and the CLEAR of its hold belongs to no later run
(R77). -/
def Txn.afterRun (t : Txn) : Txn :=
  match t.owner with
  | .halt _ g fs => { t with owner := .halt false g fs }
  | .holdClear f _ => { t with owner := .holdClear f true }
  | _ => t

/-- The transactions under way outlast the run on whose behalf they were made. -/
def forgetTxns (s : State) : State :=
  { s with
    flc.queue := s.flc.queue.map Txn.afterRun
    flc.retry := s.flc.retry.map fun r : Retry => { r with txn := r.txn.afterRun }
    flc.flight := s.flc.flight.map fun x => { x with txn := x.txn.afterRun } }

/-! ## A move is taken (R136) -/

/-- The check of a figure listed in a MOVE (R136); `resumed` names the cue of a resumed move. -/
def moveCheck (resumed : Option Nat) (s : State) (p : Fig × Int) : Bool :=
  let r := s.fig p.1
  let def_ := s.figDef p.1
  (match resumed with
    | none => r.state == .idle
    | some cue => r.state == .halted && (match r.interrupted with | some i => i.cue == cue | none => false)) &&
  decide (def_.travelMin ≤ p.2) && decide (p.2 ≤ def_.travelMax) &&
  (match def_.crossing with | some c => (s.door c.door).state != .closing | none => true) &&
  !(def_.rides && (s.stg.turn.state == .turning || s.stg.turn.state == .homing))

/-- The tag after a tag, wrapping from 255 to 1 (R136). -/
def nextTag (t : Nat) : Nat := if t < 255 then t + 1 else 1

/-- A move whose figures are still STAGED holds the tag. -/
def tagHeld (s : State) (t : Nat) : Bool :=
  allFigs.any fun f => (s.fig f).state == .staged && (s.fig f).homing.isNone && (s.fig f).hasTag t

/-- The first tag from a value on that no such move holds. -/
def freshTag (s : State) : Nat → Nat → Nat
  | 0, t => t
  | n + 1, t => if tagHeld s t then freshTag s n (nextTag t) else t

/-- A STAGE for a figure is queued; refused at a full queue or failed on a STUCK line, it is a STAGE_FAILED (R137). -/
def queueStage (f : Fig) (s : State) : State :=
  match (s.fig f).move with
  | none => s
  | some m =>
    let a := s.figAddress f
    let s' := enqueue .stage a (stageData a f m) (.stage f m.tag) s
    match linkAnswer s with
    | .queued => s'
    | .full => linkRefused (.stage f m.tag) s'
    | .stuck => linkFailed (.stage f m.tag) .lineStuck s'

/-- A MOVE of a run's cue, or of a resume, is taken (R136). A resumed figure that fails its check keeps the record of its
interrupted move (log entry 83). The figures of a refused claim fault in the order listed (log entry 80). -/
def takeMove (cue duration windowOpen grace tolerance : Nat) (due : Int) (pairs : List (Fig × Int)) (resumed : Bool)
    (s : State) : State :=
  let kind := if resumed then some cue else none
  let ok := pairs.filter (moveCheck kind s)
  let s := (pairs.filter fun p => !moveCheck kind s p).foldl
    (fun s p => cueFault .M .stageRefused cue (some p.1) none s) s
  if ok.isEmpty then s
  else
    let tag := freshTag s 255 s.stg.goTag
    let serial := s.stg.moves
    let s := { s with stg.goTag := nextTag tag, stg.moves := serial + 1 }
    let stage (s : State) (p : Fig × Int) : State :=
      s.mapFig p.1 fun r =>
        { r with
          state := .staged, step := .staging, homing := none, interrupted := none
          move := some { owner := .run cue, target := p.2, duration := duration, windowOpen := windowOpen,
                         grace := grace, tolerance := tolerance, tag := tag, serial := serial, ended := false, due := due,
                         started := none } }
    let s := ok.foldl stage s
    let shares := ok.map fun p => ({ fig := p.1, units := (s.figDef p.1).units, released := false } : Share)
    let units := (shares.map Share.units).sum
    let claim := ClaimKind.figures (.move serial tag) (.run cue) shares
    match claimAnswer claim units s with
    | .taken => ok.foldl (fun s p => queueStage p.1 s) (makeClaim claim units s)
    | .overBudget | .listFull =>
      ok.foldl (fun s p => leaveMove p.1 .idle (reportFig p.1 .moveLate s)) s

/-! ## The GO (R138, R139) -/

/-- A GO of the tag is queued, waits for a retry, or is in flight. -/
def goHeld (t : Nat) (s : State) : Bool := (heldTxns s).any fun x => x.owner == .go t

/-- A GO of the tag is in flight, a retry included. -/
def goFlying (t : Nat) (s : State) : Bool :=
  (s.flc.retry.map Retry.txn ++ (s.flc.flight.map Flight.txn).toList).any fun x => x.owner == .go t

/-- The move of a tag, as the figures still in it before its GO record it. -/
def moveOf (t : Nat) (s : State) : Option Move := (moveFigs t s).head?.bind fun f => (s.fig f).move

/-- The due time and the deadline of a move (R138). -/
def moveTimes (t : Nat) (s : State) : Option (Int × Int) := (moveOf t s).map fun m => (m.due, m.due + m.tolerance)

/-- Lane M's run is ABORTING: its moves start no more (R141). -/
def runAborting (s : State) : Bool := match s.run .M with | some r => r.state == .aborting | none => false

/-- The three conditions of the GO (R138). -/
def goReady (t : Nat) (s : State) : Bool :=
  (moveFigs t s).all (fun f =>
    (s.fig f).step == .accepted &&
    match (s.figDef f).crossing with
    | some c => (s.door c.door).state == .opened
    | none => true) &&
  (match moveOf t s with | some m => claimGranted m.ref s | none => true) && !runAborting s

/-- An instant of show time lies ahead or falls due in the present millisecond: show time is not beyond it, or has only
now passed it over (R8). -/
def notPast (t : Int) (s : State) : Bool :=
  decide (s.tb.showTime ≤ t) || (s.tb.jumped && decide (s.tb.showTime = t + 1))

/-- The instant at which the GO of a move is queued, or queued again, has come (R138); at the deadline either may come
first. -/
def goDue (t : Nat) (s : State) : Bool :=
  match moveTimes t s with
  | none => false
  | some (due, late) =>
    decide (due ≤ s.tb.showTime) && notPast late s && !goHeld t s && goReady t s &&
    (decide (linkAnswer s ≠ .full) || !s.stg.goRefused.contains t)

/-- The GO is queued (R138): refused at a full queue it is marked, to be queued again at the next room. -/
def queueGo (t : Nat) (s : State) : State :=
  let s' := enqueue .go 0 (goData t) (.go t) s
  match linkAnswer s with
  | .queued => { s' with stg.goRefused := s'.stg.goRefused.filter (· != t) }
  | .full => linkRefused (.go t) s'
  | .stuck => linkFailed (.go t) .lineStuck s'

/-- The GO's deadline has come and it has not been taken onto the line (R138). -/
def goLate (t : Nat) (s : State) : Bool :=
  match moveTimes t s with
  | none => false
  | some (_, late) => decide (late ≤ s.tb.showTime) && !goFlying t s

/-- The deadline: a queued GO is withdrawn, the claim is withdrawn, and every figure faults MOVE_LATE, in ascending index
(R138; log entry 80), the claim after the figures (log entry 95). -/
def missGo (t : Nat) (s : State) : State :=
  match moveOf t s with
  | none => s
  | some m =>
    let figs := moveFigs t s
    let s := withdrawQueued (· == .go t) s
    let s := { s with stg.goRefused := s.stg.goRefused.filter (· != t) }
    let s := figs.foldl (fun s f => withdrawFig f (reportFig f .moveLate s)) s
    dropClaim (.figures m.ref) s

/-- The windows of a move that starts now (R139). -/
def startMove (now : Stamp) (m : Move) : Move :=
  { m with
    started := some { goTime := now.shown, goElapsed := now.elapsed, opens := now.shown + (m.duration * m.windowOpen / 100 : Nat),
                      closes := now.shown + m.duration + m.grace } }

/-- The GO has completed: the figures start (R139). -/
def goDone (t : Nat) (s : State) : State :=
  (moveFigs t s).foldl
    (fun s f => s.mapFig f fun r => { r with state := .moving, move := r.move.map (startMove s.stamp) }) s

/-! ## Holding, resuming and aborting a run's figures (R141) -/

/-- The remaining duration of a move held at an elapsed count (R73, R141): the time from its GO is measured on the
elapsed count (R1). -/
def remaining (now : Nat) (m : Move) : Nat :=
  match m.started with
  | some w => max 200 (m.duration - (now - w.goElapsed))
  | none => m.duration

def interruptedOf (cue : Nat) (now : Nat) (m : Move) : Interrupted :=
  { cue := cue, target := m.target, remaining := remaining now m, windowOpen := m.windowOpen, grace := m.grace,
    tolerance := m.tolerance, tag := m.tag }

def Owner.cue : Owner → Nat
  | .run c => c
  | .host => 0

/-- Hold one figure of a run (R141), whose units go back once it is HALTED (log entry 95). -/
def holdFig (f : Fig) (s : State) : State :=
  let r := s.fig f
  match r.move with
  | none => s
  | some m =>
    let record (s : State) : State :=
      s.mapFig f fun r =>
        { r with
          state := .halted, move := none
          interrupted := some (interruptedOf m.owner.cue s.tb.elapsed m) }
    if r.state = .moving then release m.ref f (record (haltFig true f s))
    else if r.inStaging then
      let flying := goFlying m.tag s
      let s := withdrawQueued (fun o => o.isStage f || o == .go m.tag) s
      let s := dropClaim (.figures m.ref) (record s)
      if flying then haltFig true f s else enqueue .clear (s.figAddress f) [] (.holdClear f false) s
    else s

/-- Lane M's hold: every figure of the run's moves, in ascending index, so that one figure's HALT or CLEAR may be queued
before the next figure's STAGE is withdrawn (R141; log entry 60). -/
def holdFigs (s : State) : State :=
  allFigs.foldl (fun s f => if (s.fig f).ofRun then holdFig f s else s) s

/-- Put a number at its place in an ascending list, once. -/
def insertCue (c : Nat) : List Nat → List Nat
  | [] => [c]
  | d :: ds => if c < d then c :: d :: ds else if c = d then d :: ds else d :: insertCue c ds

/-- The cues of which figures are recorded, ascending: so their fresh moves are handed over (R76; log entry 57). -/
def recordedCues (s : State) : List Nat :=
  (allFigs.filterMap fun f => (s.fig f).interrupted.map (·.cue)).foldr insertCue []

/-- The figures recorded of a cue, in the order the cue lists them, with their targets (R76). -/
def recordedPairs (cue : Nat) (order : List Fig) (s : State) : List (Fig × Interrupted) :=
  order.filterMap fun f =>
    match (s.fig f).interrupted with
    | some i => if i.cue = cue then some (f, i) else none
    | none => none

/-- Resume the figures recorded of one cue (R76, R141): those excluded lose their records and stay HALTED. -/
def resumeCue (r : Run) (s : State) (cue : Nat) : State :=
  let order := match r.cues[cue]? with
    | some { cue := { kind := .move _ _ _ _ ps, .. }, .. } => ps.map Prod.fst
    | _ => allFigs
  let all := recordedPairs cue order s
  let out := all.filter fun p => r.excluded.getLsbD p.1.val
  let s := out.foldl (fun s p => s.mapFig p.1 fun r => { r with interrupted := none }) s
  match all.filter fun p => !r.excluded.getLsbD p.1.val with
  | [] => s
  | (f, i) :: rest =>
    takeMove cue i.remaining i.windowOpen i.grace i.tolerance (s.tb.showTime + Config.stageLead)
      (((f, i) :: rest).map fun p => (p.1, p.2.target)) true s

/-- A figure of a run that its abort halts: STAGED, in any stage step, or MOVING (R141). -/
def FigRec.halts (r : FigRec) : Bool := r.ofRun && (r.state == .staged || r.state == .moving)

/-- A run's abort withdraws the queued transactions of one of its figures, and a recorded move is lost (R141). -/
def abortWithdraw (f : Fig) (s : State) : State :=
  let r := s.fig f
  let s := s.mapFig f fun r => { r with interrupted := none }
  if r.halts then
    withdrawQueued (fun o => TxnOwner.ofFig f o || (match r.move with | some m => o == .go m.tag | none => false)) s
  else s

/-- Every withdrawal of a run's abort (R77, R141): the CLEARs of its holds, whatever has become of their figures since, and
figure by figure the rest. At a guard ABORT the broadcast HALT then serves as each figure's. -/
def withdrawRun (s : State) : State := allFigs.foldl (fun s f => abortWithdraw f s) (withdrawQueued TxnOwner.ofHold s)

/-- A run's abort halts a figure (R141). -/
def abortHalt (f : Fig) (s : State) : State := if (s.fig f).halts then leaveMove f .halted (haltFig true f s) else s

/-- A run's abort ends its figures' parts: first every queued transaction is withdrawn, then a HALT is queued for each
figure STAGED or MOVING, in ascending index (R77, R141; log entry 60). -/
def abortFigs (s : State) : State := allFigs.foldl (fun s f => abortHalt f s) (withdrawRun s)

/-- Some figure of a run is STAGED or MOVING, so that its run waits for the broadcast HALT. -/
def runFigsActive (s : State) : Bool :=
  allFigs.any fun f => (s.fig f).halts

/-! ## Doors (R145, R150) -/

/-- A limit of a door as filtered; the bank holds closed, open for D0 and closed, open for D1. -/
def limitIndex (d : Door) (g : Goal) : Nat := 2 * d.val + (match g with | .closed => 0 | .opened => 1)

def State.limit (s : State) (d : Door) (g : Goal) : Bool := s.inm.limits.level.getLsbD (limitIndex d g)

/-- Both limits of a door read active (R144). -/
def State.bothLimits (s : State) (d : Door) : Bool := s.limit d .closed && s.limit d .opened

/-- A door's record when its command is gone; a door whose drive is off with both limits active is UNKNOWN (R144; log
entry 37). -/
def DoorRec.ended (both : Bool) (st : DoorState) (r : DoorRec) : DoorRec :=
  { r with state := if both then .unknown else st, cmd := none, travelStart := none }

/-- A command's claim is withdrawn or its units go back, and the command is gone (R144). -/
def endDoorCmd (d : Door) (st : DoorState) (s : State) : State :=
  dropClaim (.door d) (s.setDoor d ((s.door d).ended (s.bothLimits d) st))

/-- The state a door takes when its command goes: STOPPED if it was DRIVING, else its own (R145, R150). -/
def stoppedState (r : DoorRec) (c : DoorCmd) : DoorState := if c.driving then .stopped else r.state

/-- Stop a door's command (R150), or supersede it by one for another goal (R145). -/
def stopDoor (d : Door) (s : State) : State :=
  match (s.door d).cmd with
  | some c => endDoorCmd d (stoppedState (s.door d) c) s
  | none => s

/-- A door command claims its units (R145, step 4); a refusal of the claim ends it as DOOR_BLOCKED. -/
def claimDoor (d : Door) (s : State) : State :=
  match (s.door d).cmd with
  | none => s
  | some c =>
    let units := (s.stg.doorDefs.get d).units
    let kind := ClaimKind.door d c.goal
    match claimAnswer kind units s with
    | .taken => makeClaim kind units (s.setDoor d { s.door d with cmd := some { c with claimed := true } })
    | .overBudget | .listFull =>
      let s := s.setDoor d { s.door d with cmd := none }
      match c.owner with
      | .run _ => ownerFault c.owner .doorBlocked none (some d) s
      | .host => raise (.doorFault d .noUnits) s

def atGoal (st : DoorState) (g : Goal) : Bool :=
  match st, g with
  | .opened, .opened | .closed, .closed => true
  | _, _ => false

/-- A door command is taken (R145). -/
def takeDoor (d : Door) (g : Goal) (o : Owner) (s : State) : State :=
  let r := s.door d
  let e := s.tb.elapsed
  let fresh : DoorCmd :=
    { owner := o, goal := g, arrival := e, deadline := e + (s.stg.doorDefs.get d).wait,
      travelMs := (s.stg.doorDefs.get d).travel * 1000, claimed := false, driving := false }
  if atGoal r.state g then
    let s := stopDoor d s
    s.setDoor d { s.door d with goal := some g }
  else
    match r.cmd with
    | some c =>
      if c.driving ∧ c.goal = g then
        s.setDoor d { r with cmd := some { fresh with claimed := true, driving := true } }
      else
        let s := stopDoor d s
        let s := s.setDoor d { s.door d with goal := some g, cmd := some fresh }
        if g = .closed ∧ doorForbidden s.stg d = true then s else claimDoor d s
    | none =>
      let s := s.setDoor d { r with goal := some g, cmd := some fresh }
      if g = .closed ∧ doorForbidden s.stg d = true then s else claimDoor d s

/-- A WAITING command ends as DOOR_BLOCKED at its deadline (R145, R151). -/
def doorTimesOut (d : Door) (c : DoorCmd) (s : State) : State :=
  let s := endDoorCmd d (s.door d).state s
  match c.owner with
  | .run _ => ownerFault c.owner .doorBlocked none (some d) s
  | .host => raise (.doorFault d .noUnits) s

/-- The travel limit passes: STALLED (R145). -/
def doorStalls (d : Door) (c : DoorCmd) (s : State) : State :=
  let s := raise (.doorFault d .stalled) (endDoorCmd d .stalled s)
  ownerFault c.owner .doorStalled none (some d) s

/-- A figure has come into a closing door's way (R146). -/
def doorInterlockStop (d : Door) (s : State) : State :=
  let r := s.door d
  match r.cmd with
  | some c =>
    if c.driving ∧ c.goal = .closed ∧ doorForbidden s.stg d = true then
      let s := raise (.doorFault d .interlock) (endDoorCmd d .stopped s)
      ownerFault c.owner .doorBlocked none (some d) s
    else s
  | none => s

/-- A run's command that waits on the interlock claims at the first test that permits the closing (R146). -/
def doorRetest (d : Door) (s : State) : State :=
  match (s.door d).cmd with
  | some c =>
    if !c.driving ∧ !c.claimed ∧ (c.goal = .opened ∨ doorForbidden s.stg d = false) ∧ s.tb.elapsed < c.deadline then
      claimDoor d s
    else s
  | none => s

def limitState (g : Goal) : DoorState := match g with | .opened => .opened | .closed => .closed

/-- A limit of a door changes (R144, R145). -/
def doorLimitChange (d : Door) (g : Goal) (active : Bool) (s : State) : State :=
  let r := s.door d
  match r.cmd with
  | some c =>
    if c.driving then
      if active ∧ g = c.goal then endDoorCmd d (limitState g) s else s
    else follow r (s.bothLimits d) s
  | none => follow r (s.bothLimits d) s
where
  follow (r : DoorRec) (both : Bool) (s : State) : State :=
    if both then s.setDoor d { r with state := .unknown }
    else if active then s.setDoor d { r with state := limitState g }
    else if r.state = limitState g then s.setDoor d { r with state := .unknown }
    else s

/-! ## The turntable (R147, R148, R150) -/

def State.setTurn (s : State) (r : TurnRec) : State := { s with stg.turn := r }

/-- The turntable's record when its command is gone. -/
def TurnRec.ended (st : TurnState) (count : Option (Fin 12)) (r : TurnRec) : TurnRec :=
  { r with state := st, count := count, cmd := none, stepping := none }

/-- The drive goes off and the units go back. -/
def endTurnCmd (st : TurnState) (count : Option (Fin 12)) (s : State) : State :=
  dropClaim .turntable (s.setTurn (s.stg.turn.ended st count))

/-- The state the turntable takes when its command goes: STOPPED if it was DRIVING, else its own (R148, R150). -/
def turnStopped (r : TurnRec) (c : TurnCmd) : TurnState := if c.driving then .stopped else r.state

/-- Stop the turntable's command (R150), or supersede it (R148). -/
def stopTurn (s : State) : State :=
  match s.stg.turn.cmd with
  | some c => endTurnCmd (turnStopped s.stg.turn c) s.stg.turn.count s
  | none => s

/-- The turntable's command claims its units; a refusal ends it as TURN_BLOCKED (R148). -/
def claimTurn (s : State) : State :=
  match s.stg.turn.cmd with
  | none => s
  | some c =>
    let kind := ClaimKind.turntable c.goal
    let units := s.stg.turnDef.units
    match claimAnswer kind units s with
    | .taken => makeClaim kind units (s.setTurn { s.stg.turn with cmd := some { c with claimed := true } })
    | .overBudget | .listFull =>
      let s := s.setTurn { s.stg.turn with cmd := none }
      match c.owner with
      | .run _ => ownerFault c.owner .turnBlocked none none s
      | .host => raise (.turntableFault .noUnits) s

/-- The turntable holds the goal already (R148). -/
def turnAtGoal (st : TurnState) (g : TurnGoal) : Bool :=
  match st, g with
  | .at p, .to q _ => p == q
  | .at p, .home => p == 0
  | _, _ => false

/-- A turn command is taken (R148). -/
def takeTurn (g : TurnGoal) (o : Owner) (s : State) : State :=
  let r := s.stg.turn
  let e := s.tb.elapsed
  let fresh : TurnCmd :=
    { owner := o, goal := g, arrival := e, deadline := e + s.stg.turnDef.wait, limit := s.stg.turnDef.perPosition,
      claimed := false, driving := false }
  if r.state = .fault ∧ g ≠ .home then ownerFault o .turnFault none none s
  else if turnAtGoal r.state g then
    let s := stopTurn s
    s.setTurn { s.stg.turn with goal := some g }
  else
    let begin_ (s : State) : State :=
      let s := s.setTurn { s.stg.turn with goal := some g, cmd := some fresh }
      if turnPermitted s.stg then claimTurn s else s
    match r.cmd with
    | some c =>
      if c.driving ∧ c.goal = g then s.setTurn { r with cmd := some { fresh with claimed := true, driving := true } }
      else begin_ (stopTurn s)
    | none => begin_ s

/-- A WAITING turn command ends as TURN_BLOCKED at its deadline (R148). -/
def turnTimesOut (c : TurnCmd) (s : State) : State :=
  let s := endTurnCmd s.stg.turn.state s.stg.turn.count s
  match c.owner with
  | .run _ => ownerFault c.owner .turnBlocked none none s
  | .host => raise (.turntableFault .noUnits) s

/-- The drive ends in FAULT with the count none (R147). -/
def turnFails (k : TurnFault) (s : State) : State :=
  match s.stg.turn.cmd with
  | some c => ownerFault c.owner .turnFault none none (raise (.turntableFault k) (endTurnCmd .fault none s))
  | none => raise (.turntableFault k) (endTurnCmd .fault none s)

/-- A rider has left its home position at rest while the drive steps (R149). -/
def turnInterlockStop (s : State) : State :=
  match s.stg.turn.cmd with
  | some c =>
    if c.driving ∧ turnPermitted s.stg = false then
      let s := raise (.turntableFault .interlock) (endTurnCmd .stopped s.stg.turn.count s)
      ownerFault c.owner .turnBlocked none none s
    else s
  | none => s

/-- A command that waits on the turntable interlock is tested again (R149). -/
def turnRetest (s : State) : State :=
  match s.stg.turn.cmd with
  | some c =>
    if !c.driving ∧ !c.claimed ∧ turnPermitted s.stg = true ∧ s.tb.elapsed < c.deadline then claimTurn s else s
  | none => s

/-- The position next to a position in a direction (section 8.5). -/
def nextPosition (spin : Spin) (k : Fin 12) : Fin 12 :=
  match spin with
  | .cw => k + 1
  | .ccw => k - 1

/-- An index edge while the drive steps (R147): each moves the count, but for the edge of the position last counted. -/
def indexEdge (s : State) : State :=
  let r := s.stg.turn
  match r.stepping with
  | none => s
  | some w =>
    let w := { w with edgeBy := s.tb.elapsed + w.limit }
    match r.state with
    | .homing =>
      if w.edges + 1 = 13 then turnFails .noHome s
      else s.setTurn { r with stepping := some { w with edges := w.edges + 1 } }
    | .turning =>
      let r := { r with side := w.spin }
      if w.skipFirst then s.setTurn { r with stepping := some { w with skipFirst := false } }
      else
        let k := r.count.map (nextPosition w.spin)
        match r.cmd, k with
        | some { goal := .to p _, .. }, some k =>
          if k = p then endTurnCmd (.at p) (some k) (s.setTurn r)
          else s.setTurn { r with count := some k, stepping := some w }
        | _, _ => s.setTurn { r with count := k, stepping := some w }
    | _ => s

/-- The home input goes active while homing (R147): the count becomes 0, and a turn goes on from position 0. The time for
the next index edge runs on. -/
def homeEdge (s : State) : State :=
  let r := s.stg.turn
  match r.state, r.stepping, r.cmd with
  | .homing, some w, some c =>
    match c.goal with
    | .home => endTurnCmd (.at 0) (some 0) s
    | .to p dir =>
      let spin := spinOf dir 0 p
      if stepsIn spin 0 p = 0 then endTurnCmd (.at p) (some 0) s
      else
        s.setTurn
          { r with
            state := .turning, count := some 0, lastDir := spin, side := spin
            stepping := some { w with spin := spin, skipFirst := false } }
  | _, _, _ => s

/-! ## What the stage tests at the end of every step that may have changed it -/

/-- GOs for moves that no figure is in any more are withdrawn at once, those that wait for a retry included (R138; log
entry 91). -/
def dropEmptyGos (s : State) : State :=
  { s with
    flc.queue := s.flc.queue.filter fun t =>
      match t.owner with
      | .go tag => !(moveFigs tag s).isEmpty
      | _ => true
    flc.retry := s.flc.retry.filter fun r =>
      match r.txn.owner with
      | .go tag => !(moveFigs tag s).isEmpty
      | _ => true
    stg.goRefused := s.stg.goRefused.filter fun tag => !(moveFigs tag s).isEmpty }

/-- Interlock stops, tests of waiting commands, and empty GOs (R146, R149, R138): the stops first, then the tests, each in
the order D0, D1, turntable (log entry 72); then the GOs (log entry 91). -/
def stageCheck (s : State) : State :=
  let s := (List.finRange 2).foldl (fun s d => doorInterlockStop d s) s
  let s := turnInterlockStop s
  let s := (List.finRange 2).foldl (fun s d => doorRetest d s) s
  dropEmptyGos (turnRetest s)

/-! ## The nodes' reports (R134, R135, R139, R140, R143) -/

/-- The fields of a STATUS answer (section 10.6). -/
structure NodeReport where
  position : Int
  moving : Bool
  arrived : Bool
  fault : Bool
  homed : Bool
  lastTag : Nat
  elapsed : Nat
deriving DecidableEq, Repr

/-- The answer's data bytes read as fields. -/
def readReport : List Byte → Option NodeReport
  | p0 :: p1 :: fl :: _ :: last :: e0 :: e1 :: _ =>
    some { position := sle16 p0 p1, moving := fl.getLsbD 1, arrived := fl.getLsbD 2, fault := fl.getLsbD 3,
           homed := fl.getLsbD 4, lastTag := last.toNat, elapsed := le16 e0 e1 }
  | _ => none

/-- The figure becomes FAULT, with FIGURE_FAULT NODE_FAULT raised; a record of an interrupted move is kept (log entry 84). -/
def nodeFault (f : Fig) (s : State) : State := raise (.figureFault f .nodeFault) (leaveMove f .fault s)

/-- The report of a MOVING figure (R139, R140, R143). -/
def movingReport (f : Fig) (w : NodeReport) (s : State) : State :=
  let r := s.fig f
  if w.fault then nodeFault f (haltFig false f (reportFig f .arrivalMissed s))
  else
    match r.homing, r.move with
    | some _, _ =>
      if !w.moving ∧ w.arrived ∧ w.homed ∧ w.lastTag = 0 then leaveMove f .idle s else s
    | none, some m =>
      match m.started with
      | some t =>
        if !w.moving ∧ w.arrived ∧ w.lastTag = m.tag then
          if t.goTime + w.elapsed * 10 < t.opens then
            raise (.figureFault f .arrivalEarly) (leaveMove f .idle (reportFig f .arrivalEarly s))
          else leaveMove f .idle s
        else s
      | none => s
    | none, none => s

/-- A valid STATUS answer of a bound figure's node (R134, R139, R140, R141). -/
def stageReport (f : Fig) (w : NodeReport) (s : State) : State :=
  let s := s.mapFig f fun r => { r with report := some { position := w.position, shown := s.tb.showTime } }
  let r := s.fig f
  match r.state with
  | .unbound | .fault | .lost => s
  | .unknown =>
    if w.fault then nodeFault f s
    else if w.moving then haltFig false f s
    else s.mapFig f fun r => { r with state := .idle }
  | .idle => if w.fault then nodeFault f s else s
  | .halted =>
    if w.fault then nodeFault f s
    else
      match r.interrupted with
      | some i =>
        if !w.moving ∧ w.arrived ∧ w.lastTag = i.tag then s.mapFig f fun r => { r with state := .idle, interrupted := none }
        else s
      | none => s
  | .staged =>
    if w.fault then
      nodeFault f (withdrawTxns (TxnOwner.ofFig f) (reportFig f .stageFailed s))
    else s
  | .moving => movingReport f w s

/-- A recorded figure is lost to its run (R133, R135). One that a report has put in FAULT during the hold is recorded still
(log entry 84). -/
def loseRecord (f : Fig) (s : State) : State :=
  match (s.fig f).interrupted with
  | some i => cueFault .M .figureLost i.cue (some f) none (s.mapFig f fun r => { r with interrupted := none })
  | none => s

/-- A figure's node is reported silent: the figure is LOST (R135). -/
def figureSilent (f : Fig) (s : State) : State :=
  let r := s.fig f
  if r.state = .unbound then s
  else
    let s :=
      if r.state = .staged ∨ r.state = .moving then
        leaveMove f .lost (withdrawTxns (TxnOwner.ofFig f) (reportFig f .figureLost s))
      else loseRecord f (s.mapFig f fun r => { r with state := .lost })
    raise (.figureFault f .figureLost) s

/-- A MOVING figure's window closes with no arrival (R140). -/
def windowCloses (f : Fig) (s : State) : State :=
  let s := haltFig false f s
  raise (.figureFault f .arrivalMissed) (leaveMove f .halted (reportFig f .arrivalMissed s))

/-! ## New definitions (R133) -/

/-- A figure whose node address changes ends its part in any move (R133). -/
def rebindFig (f : Fig) (next : Option (Fin 16)) (s : State) : State :=
  let r := s.fig f
  if (s.figDef f).address = next then s
  else
    let s :=
      if r.state = .staged ∨ r.state = .moving then
        let s := withdrawTxns (TxnOwner.ofFig f) (reportFig f .figureLost s)
        leaveMove f .unknown (haltFig false f s)
      else loseRecord f (withdrawTxns (TxnOwner.ofFig f) s)
    s.mapFig f fun r =>
      { r with state := if next.isSome then .unknown else .unbound, report := none, interrupted := none }

/-- The definitions taken while there is no usable FIGURES content (R133). -/
def noMachinery : Machinery :=
  { figs := Vector.replicate 12 .unbound, doors := Vector.replicate 2 .standard, turn := .standard }

/-- The bound addresses of a set of definitions. -/
def boundAddresses (m : Machinery) : List (Fin 16) := m.figs.toList.filterMap FigDef.address

/-- New definitions replace the old at once, and the link is told the bound addresses; newly bound nodes are woken
once the link is up (R133, R121). The figures end their parts in ascending index (log entry 81). -/
def takeMachinery (m : Machinery) (s : State) : State :=
  let s := allFigs.foldl (fun s f => rebindFig f (m.figs.get f).address s) s
  let s := { s with stg.figDefs := m.figs, stg.doorDefs := m.doors, stg.turnDef := m.turn }
  let fresh := (boundAddresses m).any fun a => (s.node a).state == .absent
  let s := bindNodes (boundAddresses m) s
  if fresh && decide (5 ≤ s.hlc.step) then requestWake true s else s

end Sys2Proof.Machine
end

