-- ==== Sys2Proof/Machine/Attempts.lean ====
section
/-! DEFINITION. Attempts on the figure link: their failure, retry and end, the answers of the nodes, and the line
held low (R118 to R129). -/
namespace Sys2Proof.Machine

/-! ## The end of an attempt -/

/-- The transaction in flight ends; the line is free one byte time later (R114). -/
def endFlight (s : State) : State := freeLine { s with flc.flight := none }

/-- A node failure of a bound node; the third in a row makes it SILENT, and a sweep under way passes it over (R120 to
R122). -/
def nodeFailure (a : Fin 16) (e : LinkError) (s : State) : State :=
  let n := s.node a
  if n.state = .absent then s
  else if n.state = .silent ∨ n.failures + 1 < 3 then
    s.mapNode a fun n => { n with failures := min 3 (n.failures + 1) }
  else
    let s := s.mapNode a fun n => { n with state := .silent, failures := 3, nextSilent := s.tb.elapsed + 2000 }
    let s := raise (.linkFault a e) (passOver a s)
    match figAt s a with
    | some f => figureSilent f s
    | none => s

/-- A transaction whose last attempt fails has failed (R120): its owner is told, and a failure of a transaction to
one node counts. A HALT's failure is reported as its completion (R125). -/
def failTxn (t : Txn) (e : LinkError) (s : State) : State :=
  let s := if t.cls = .urgent then haltDone t.address t.owner s else linkFailed t.owner e s
  let s := if t.address = 0 then s else nodeFailure t.address e s
  tidySweep s

/-- An attempt fails with an error kind (R118 to R120): a retry waits while retries are left, ahead of one that waited
while an urgent HALT went first. A transaction its owner has withdrawn ends without a report (R124). The line permits a
start once it has been idle for a byte time (R114, R123). -/
def failAttempt (e : LinkError) (s : State) : State :=
  match s.flc.flight with
  | none => s
  | some f =>
    let idle := e.idleLeft (f.gapLimit s.hlc.live.gapLimit)
    let s := countLink (LinkCounters.count e) (freeIn idle { s with flc.flight := none })
    let s := if e = .collision then { s with flc.sweepPending := true } else s
    if f.txn.disowned then s
    else if f.txn.attempts ≤ s.hlc.live.retries then
      { s with flc.retry := { txn := f.txn, due := s.tb.elapsed + msOf 100 } :: s.flc.retry }
    else failTxn f.txn e s

/-- The part is awaiting or receiving the answer of a transaction of a kind. -/
def awaits (k : LinkKind) (s : State) : Option Txn :=
  match s.flc.flight with
  | some f => if f.txn.kind = k ∧ f.sentAt ≤ s.tb.elapsed ∧ 0 < k.answerBytes then some f.txn else none
  | none => none

/-- The part is awaiting or receiving an answer. -/
def awaiting (s : State) : Bool :=
  match s.flc.flight with
  | some f => decide (f.sentAt ≤ s.tb.elapsed) && decide (0 < f.txn.kind.answerBytes)
  | none => false

/-- The retry's next attempt can begin (R120): the line permits it and no HALT is queued; a wake's settle period holds
back every retry but a HALT's (R126). A retry that an urgent HALT went before begins one byte time after the HALT (log
entry 63). -/
def retryReady (s : State) : Bool :=
  match s.flc.retry with
  | r :: _ =>
    decide (r.due ≤ s.tb.elapsed) && linePermits s && s.flc.flight.isNone &&
    (!inSettle s || r.txn.cls == .urgent) && (oldest .urgent s.flc.queue).isNone
  | [] => false

/-- The next attempt of a retried transaction begins (R120). -/
def retryNow (s : State) : State :=
  match s.flc.retry with
  | r :: rest =>
    if retryReady s then
      launch r.txn (countLink (fun c => { c with retries := satInc c.retries }) { s with flc.retry := rest })
    else s
  | [] => s

/-! ## Readback errors (R118) -/

/-- The bytes of a frame as the part sends them. -/
def Txn.frame (t : Txn) : List Byte := headerByte t.kind t.address :: t.data

/-- Whether a bit of a byte is sent released: data bits lowest first, then the stop bit. -/
def released (b : Byte) (bit : Nat) : Bool := bit == 8 || b.getLsbD bit

/-- A mismatch at the first released bit of the header is a COLLISION, any other a BIT_ERROR (R118). -/
def readbackKind (t : Txn) (byte bit : Nat) : LinkError :=
  let first := (List.range 9).find? (released (headerByte t.kind t.address))
  if byte = 0 ∧ first = some bit then .collision else .bitError

/-- The elapsed count at which a byte of the frame ends. -/
def Flight.byteEnd (f : Flight) (byte : Nat) : Nat := f.since + msOf (50 * (byte + 1))

/-- A mismatch at a bit of a byte of the frame, which was sent released, ends the attempt at the end of that byte; bytes
after an overtaking HALT's stop are not sent (R118, R128). -/
def canMismatch (f : Flight) (byte bit now : Nat) : Bool :=
  match f.txn.frame[byte]? with
  | some b =>
    decide (bit ≤ 8) && released b bit && decide (f.byteEnd byte = now) &&
    (match f.stopAfter with | some t => decide (f.byteEnd byte ≤ t) | none => true)
  | none => false

/-! ## Valid answers (R119, R121) -/

/-- A valid answer acts on the record of a bound node (R119, R121). -/
def validAnswer (a : Fin 16) (s : State) : State :=
  if (s.node a).state = .absent then s
  else
    s.mapNode a fun n =>
      { n with state := .awake, confirmed := true, failures := 0, lastAnswer := some s.tb.showTime }

/-- The check byte makes the sum of the header and the answer 0 (R115). -/
def answerChecks (t : Txn) (bs : List Byte) : Bool :=
  decide (bs.length = t.kind.answerBytes) && sum8 (headerByte t.kind t.address :: bs) == 0

/-- A NODE-QUERY is answered with the answer's fields and its show time (R130). -/
def answerQuery (o : TxnOwner) (bs : List Byte) (s : State) : State :=
  match o with
  | .query tag => sendReply 0x52#8 tag .ok (.answer bs s.tb.showTime) s
  | _ => s

/-- A whole STATUS answer arrives (R119, R134). -/
def takeStatus (t : Txn) (bs : List Byte) (s : State) : State :=
  if answerChecks t bs then
    let s := validAnswer t.address (endFlight s)
    let s := match figAt s t.address, readReport bs with
      | some f, some w => stageReport f w s
      | _, _ => s
    tidySweep (if t.disowned then s else answerQuery t.owner bs s)
  else failAttempt .checkError s

/-- A whole IDENT answer arrives (R130). -/
def takeIdent (t : Txn) (bs : List Byte) (s : State) : State :=
  if answerChecks t bs then
    let s := validAnswer t.address (endFlight s)
    if t.disowned then s else answerQuery t.owner bs s
  else failAttempt .checkError s

/-- The answer codes of STAGE and HOME (section 10.6). -/
inductive NodeAnswer | accept | refuse | busy
deriving DecidableEq, Repr

def nodeAnswer (b : Byte) : Option NodeAnswer :=
  if b = 0x5A#8 then some .accept else if b = 0xA5#8 then some .refuse else if b = 0x3C#8 then some .busy else none

/-- A STAGE's answer acts on the figure while it is still in the move (R137). -/
def stageAnswered (f : Fig) (tag : Nat) (x : NodeAnswer) (s : State) : State :=
  if inMove f tag s then
    match x with
    | .accept => s.mapFig f fun r => { r with step := .accepted }
    | .refuse | .busy => leaveMove f .idle (reportFig f .stageRefused s)
  else s

/-- A STAGE's one-byte answer arrives (R119, R137). -/
def takeStage (t : Txn) (b : Byte) (s : State) : State :=
  match nodeAnswer b with
  | none => failAttempt .checkError s
  | some x =>
    let s := validAnswer t.address (endFlight s)
    match t.owner with
    | .stage f tag => if t.disowned then s else stageAnswered f tag x s
    | _ => s

/-- A CLEAR has completed (R137, R142, R143). -/
def clearDone (o : TxnOwner) (s : State) : State :=
  match o with
  | .withdrawn f =>
    if (s.fig f).clearing then s.mapFig f fun r => { r with state := .idle, move := none } else s
  | .homeClear f => s.mapFig f fun r => { r with homing := r.homing.map fun h => { h with cleared := true } }
  | .figClear _ tag => sendReply 0x59#8 tag .ok .none s
  | _ => s

/-- A CLEAR's answer arrives (R119). -/
def takeClear (t : Txn) (b : Byte) (s : State) : State :=
  if b = 0xC3#8 then
    let s := validAnswer t.address (endFlight s)
    if t.disowned then s else clearDone t.owner s
  else failAttempt .checkError s

/-- A HOME's answer makes the figure MOVING or fails the homing (R143). -/
def homeAnswered (f : Fig) (x : NodeAnswer) (s : State) : State :=
  match x with
  | .accept =>
    s.mapFig f fun r =>
      { r with
        state := .moving
        homing := r.homing.map fun h => { h with arriveBy := some (s.tb.elapsed + h.allowed + 2000) } }
  | .refuse | .busy => homeFails f s

/-- A HOME's answer arrives (R119, R143). -/
def takeHome (t : Txn) (b : Byte) (s : State) : State :=
  match nodeAnswer b with
  | none => failAttempt .checkError s
  | some x =>
    let s := validAnswer t.address (endFlight s)
    match t.owner with
    | .home f => if t.disowned then s else homeAnswered f x s
    | _ => s

/-! ## Abandonment (R128) -/

/-- The owner is told its transaction was abandoned: a STAGE is queued afresh unless a HALT that reaches its node is
queued (R137); a GO is queued again when its conditions hold (R138); a HOME fails the homing (R143). -/
def linkAbandoned (o : TxnOwner) (s : State) : State :=
  match o with
  | .stage f tag =>
    if inMove f tag s = true ∧ (s.flc.queue.any (fun t => t.isHaltTo 0 || t.isHaltTo (s.figAddress f))) = false then
      queueStage f s
    else s
  | .home f => homeFails f s
  | _ => s

/-- The frame in flight has been stopped by an overtaking HALT (R128). -/
def abandon (s : State) : State :=
  match s.flc.flight with
  | none => s
  | some f =>
    let s := countLink (fun c => { c with abandoned := satInc c.abandoned }) (endFlight s)
    if f.txn.disowned then s else linkAbandoned f.txn.owner s

/-! ## The line held low (R122, R129) -/

/-- The part is neither driving the line nor awaiting or receiving an answer (R122, R129). -/
def lineQuiet (s : State) : Bool := s.flc.flight.isNone && !inLow s

/-- A transaction fails because the line is STUCK; no node failure is counted (R129). -/
def failStuck (t : Txn) (s : State) : State :=
  if t.cls = .urgent then haltDone t.address t.owner s else linkFailed t.owner .lineStuck s

/-- The line is STUCK (R129); one of whose low the model has not been told has been low since now. -/
def stickLine (s : State) : State :=
  raise (.linkFault 0 .lineStuck)
    { s with flc.stuck := true, flc.lowSince := s.flc.lowSince <|> some s.tb.elapsed }

/-- Every HALT the link holds is completed, in queue order and then the retries, and the line stop stands for a broadcast
HALT (R129; log entries 82 and 90). -/
def stopLine (s : State) : State :=
  let halts := (s.flc.queue ++ s.flc.retry.map Retry.txn).filter fun t => t.cls == .urgent
  let s := { s with
    flc.queue := s.flc.queue.filter fun t => t.cls != .urgent
    flc.retry := s.flc.retry.filter fun r => r.txn.cls != .urgent }
  haltDone 0 (.halt false false 0) (halts.foldl (fun s t => failStuck t s) s)

/-- Everything else the link holds fails, in queue order and then the retries (R129; log entry 90); a sweep whose last STATUS so fails has ended (R122). -/
def failRest (s : State) : State :=
  let rest := s.flc.queue ++ s.flc.retry.map Retry.txn
  tidySweep (rest.foldl (fun s t => failStuck t s) { s with flc.queue := [], flc.retry := [] })

/-- The line becomes STUCK (R129): HALTs complete, the line stop reaches every node, and everything else fails. -/
def lineSticks (s : State) : State := failRest (stopLine (stickLine s))

/-- A retry begins when the line has been idle for two byte times: on a line that has been high for one, one more is to
come (R120). -/
def Retry.afterLow (now : Nat) (r : Retry) : Retry := { r with due := max r.due (now + msOf 50) }

/-- The line has been high for one byte time: it is held low no longer, and a waiting retry waits one byte time more
(R120). A line that was STUCK is so no more, and an alert sweep and a wake are made pending (R129). -/
def lineFrees (s : State) : State :=
  let s' := { s with
    flc.lowSince := none, flc.freeAt := s.tb.elapsed, flc.retry := s.flc.retry.map (Retry.afterLow s.tb.elapsed) }
  if s.flc.stuck then
    { s' with
      flc.stuck := false, flc.sweepPending := true, flc.wakePending := s.flc.wakePending || someAsleep s }
  else s'

end Sys2Proof.Machine
end

