-- ==== Sys2Proof/Machine/Bells.lean ====
section
/-! DEFINITION. The Bell Controller: admission and removal of strikes, dampers, the echo check, fault and mute
(R87 to R101). -/
namespace Sys2Proof.Machine

def State.bellRec (s : State) (b : Bell) : BellRec := s.bell.bellAt b

/-- Change a bell's record. -/
def State.mapBell (s : State) (b : Bell) (f : BellRec → BellRec) : State := s.setBell b (f (s.bellRec b))

/-- The bell's mute flag: its field of the live settings (R100). -/
def State.muted (s : State) (b : Bell) : Bool := s.hlc.live.bellMutes.getLsbD b.val

/-- Whether the voicing in force gives the bell a damper (R90). -/
def State.hasDamper (s : State) (b : Bell) : Bool :=
  match s.voicingOf b with
  | some v => v.hasDamper
  | none => false

/-- A stroke is done when its pulse and its echo check are over (R96). -/
def Stroke.done (k : Stroke) : Bool := !k.pulseOn && !k.echoOpen

/-- Nothing of a stroke is still to come. -/
def Stroke.over (k : Stroke) : Bool := k.done && !k.stuckDue

/-- Every stroke of the bell is done. -/
def BellRec.allDone (r : BellRec) : Bool := r.strokes.all Stroke.done

/-- The bell's hammer is energised. -/
def BellRec.hammerOn (r : BellRec) : Bool := r.strokes.any (·.pulseOn)

/-! ## Dampers (R91) -/

/-- The damper falls: a LIFTED or RINGING bell becomes QUIET (R91). -/
def BellRec.drop (r : BellRec) : BellRec :=
  { r with
    damperUp := false
    state := match r.state with | .lifted | .ringing => .quiet | other => other }

/-- The ring time has passed since the latest pulse, or the bell has not been struck since its damper was last
lifted (R91). -/
def ringOver (v : Option Voicing) (elapsed : Nat) (r : BellRec) : Bool :=
  !r.struckSinceLift ||
  match v, r.lastStrike with
  | some v, some l => decide (l.elapsed + v.ring ≤ elapsed)
  | _, _ => true

/-- The conditions at which the damper drops (R91). They are those of a bell without a damper too, whose damper a VOICING
commit found up (log entry 78). -/
def dropsNow (s : State) (b : Bell) : Bool :=
  let r := s.bellRec b
  r.damperUp && !r.hammerOn && !(s.bell.strikes.any fun k => k.bell == b) && ringOver (s.voicingOf b) s.tb.elapsed r

/-- Test the bell's damper (R91). -/
def testDamper (b : Bell) (s : State) : State := if dropsNow s b then s.mapBell b BellRec.drop else s

/-- After a strike of the bell has left the queue unstruck: test the damper; a LIFTED bell whose damper stays up is
RINGING when no queued strike of it is past its lift instant (R91), a strike once lifted being past it (log entry 87). -/
def afterRemoval (b : Bell) (s : State) : State :=
  if dropsNow s b then s.mapBell b BellRec.drop
  else if (s.bellRec b).state = .lifted ∧ (s.bell.strikes.any fun k => k.bell == b && k.lifted) = false then
    s.mapBell b fun r => { r with state := .ringing }
  else s

/-! ## Removal (R99) -/

/-- The claim a queued strike has made. -/
def Strike.claim? (k : Strike) : Option ClaimKey := if k.claiming then some (.strike k.bell k.due) else none

/-- The claims that the strikes removed have made. -/
def keysOf (gone : List Strike) : List ClaimKey := gone.filterMap Strike.claim?

/-- The bells of the strikes removed have their dampers tested (R99). -/
def testRemoved (gone : List Strike) (s : State) : State := gone.foldl (fun s k => afterRemoval k.bell s) s

/-- Remove strikes from the queue, withdraw their claims, and test their bells' dampers (R99). -/
def removeStrikes (p : Strike → Bool) (s : State) : State :=
  let gone := s.bell.strikes.filter p
  let keys := keysOf gone
  testRemoved gone (dropKeys keys { s with bell.strikes := s.bell.strikes.filter fun k => !p k })

/-- A strike is dropped at its deadline, or as one refused with OVER_BUDGET (R95, R107). -/
def dropLate (k : Strike) (s : State) : State :=
  let s := s.mapBell k.bell fun r =>
    { r with counters := { r.counters with lateDrops := satInc r.counters.lateDrops } }
  removeStrikes (· == k) (raise (.strikeLate k.bell k.origin k.due) s)

/-! ## Admission (R88) -/

/-- Place a strike after every strike whose due time is earlier or equal. -/
def insertStrike (k : Strike) : List Strike → List Strike
  | [] => [k]
  | j :: js => if j.due ≤ k.due then j :: insertStrike k js else k :: j :: js

/-- Two due times of one bell lie nearer than its recovery (R88). -/
def tooNear (recovery : Nat) (a b : Int) : Bool := decide (a - b < recovery) && decide (b - a < recovery)

/-- The refusal a strike of a bell meets, or none (R88). A bell in FAULT whose mute flag is set too answers FAULT (log entry
62). -/
def strikeRefusal (b : Bell) (due : Int) (s : State) : Option StrikeRefusal :=
  match s.voicingOf b with
  | none => some .unvoiced
  | some v =>
    if (s.bellRec b).state = .fault then some .fault
    else if s.muted b then some .muted
    else if (match (s.bellRec b).nextPermitted with | some t => decide (due < t) | none => false) ||
        (s.bell.strikes.any fun k => k.bell == b && tooNear v.recovery k.due due) then some .tooSoon
    else if Config.strikeDepth ≤ s.bell.strikes.length then some .full
    else none

/-- The counter a refusal raises (R88). -/
def countRefusal (b : Bell) (r : StrikeRefusal) (s : State) : State :=
  match r with
  | .full => { s with bell.queueFull := satInc s.bell.queueFull }
  | .tooSoon => s.mapBell b fun r => { r with counters := { r.counters with tooSoon := satInc r.counters.tooSoon } }
  | .unvoiced | .fault | .muted =>
    s.mapBell b fun r => { r with counters := { r.counters with refused := satInc r.counters.refused } }

/-- A strike as it enters the queue; its deadline is fixed at once when its due time has already passed (R95). -/
def newStrike (b : Bell) (velocity : Nat) (due : Int) (o : StrikeOrigin) (s : State) : Strike :=
  { bell := b, velocity := velocity, due := due, origin := o, claiming := false, lifted := false,
    deadline := if due < s.tb.showTime then some (due + s.hlc.live.lateness) else none }

def admitStrike (k : Strike) (s : State) : State := { s with bell.strikes := insertStrike k s.bell.strikes }

/-- A strike arrives at the Bell Controller and is admitted or refused (R88). -/
def offerStrike (b : Bell) (velocity : Nat) (due : Int) (o : StrikeOrigin) (s : State) : State :=
  match strikeRefusal b due s with
  | some r => countRefusal b r s
  | none => admitStrike (newStrike b velocity due o s) s

/-! ## The end of a stroke, fault and mute -/

/-- Forget the strokes that are over. -/
def BellRec.tidy (r : BellRec) : BellRec := { r with strokes := r.strokes.filter fun k => !k.over }

/-- What the bell does when its latest strike is done: a mute set meanwhile takes effect and the damper drops; a
bell without a damper falls QUIET (R91, R100). A bell that a VOICING commit has given a damper stays RINGING, its damper
down (log entry 78). -/
def whenDone (b : Bell) (s : State) : State :=
  let r := s.bellRec b
  if r.allDone = false then s
  else if r.state ≠ .fault ∧ s.muted b = true then
    s.mapBell b fun r => { r with damperUp := false, state := .muted }
  else if r.state = .ringing ∧ s.hasDamper b = false ∧ r.damperUp = false then
    s.mapBell b fun r => { r with state := .quiet }
  else s

/-- Is the claim a granted strike claim of the bell. -/
def Claim.pulseOf (b : Bell) (c : Claim) : Bool :=
  c.granted && match c.kind with | .strike b' _ _ => b' == b | _ => false

/-- The bell's units go back at the end of its pulse (R109). -/
def releasePulse (b : Bell) (s : State) : State :=
  if s.dbu.claims.any (Claim.pulseOf b) then
    grantPass { s with dbu.claims := s.dbu.claims.filter fun c => !c.pulseOf b }
  else s

/-- A stroke cut short by FAULT is done at once (R96), and its echo window closes at the cut (log entry 48). -/
def Stroke.cut (k : Stroke) : Stroke := if k.pulseOn then { k with pulseOn := false, echoOpen := false } else k

/-- The bell enters FAULT (R96, R97): its pulse is cut short and its units go back, its damper drops, its queued
strikes are discarded, and BELL_FAULT is raised. The strikes leave before the units go back (R94; log entry 94). -/
def enterFault (b : Bell) (why : BellReason) (s : State) : State :=
  let s := s.mapBell b fun r =>
    { r with state := .fault, reason := some why, damperUp := false, strokes := r.strokes.map Stroke.cut }
  let s := removeStrikes (fun k => k.bell == b) s
  raise (.bellFault b why) (releasePulse b s)

/-- A strike is offered to the claim at its claim instant (R93): the due time and the bell's recovery instant, which
is not known while another strike of the bell is claiming, so that two pulses start a recovery apart (log entry 49). -/
def claimDue (k : Strike) (s : State) : Bool :=
  match s.voicingOf k.bell with
  | none => false
  | some v =>
    !k.claiming && decide (k.due ≤ s.tb.showTime) && !(s.bell.strikes.any fun j => j.bell == k.bell && j.claiming) &&
    match (s.bellRec k.bell).lastStrike with
    | some l => decide (l.elapsed + v.recovery ≤ s.tb.elapsed)
    | none => true

/-- A strike's deadline: the one it has, else its due time plus the lateness limit as it now stands (R95). -/
def deadlineOf (k : Strike) (s : State) : Int := k.deadline.getD (k.due + s.hlc.live.lateness)

/-- Mark a queued strike claiming; one that claims at its due time takes the lateness limit at its claim (R95). -/
def markClaiming (k : Strike) (s : State) : State :=
  { s with bell.strikes := s.bell.strikes.map fun j =>
      if j = k then { j with claiming := true, deadline := some (deadlineOf k s) } else j }

/-- A strike makes its claim (R93); one refused with OVER_BUDGET is dropped (R107). -/
def claimStrike (k : Strike) (s : State) : State :=
  match s.voicingOf k.bell with
  | none => s
  | some v =>
    let kind := ClaimKind.strike k.bell k.due k.origin
    match claimAnswer kind v.units s with
    | .taken => makeClaim kind v.units (markClaiming k s)
    | .overBudget | .listFull => dropLate k s

/-- A strike whose lift instant has come and whose lift is still to be made (R90). The instant is taken from the voicing
in force, so a commit that puts it into the past has the lift made at once, and one made under an earlier lead stands (log
entry 87). -/
def liftDue (k : Strike) (s : State) : Bool :=
  match s.voicingOf k.bell with
  | none => false
  | some v => v.hasDamper && !k.lifted && decide (k.due - v.lead ≤ s.tb.showTime)

/-- The damper lifts for a queued strike (R90). -/
def liftFor (k : Strike) (s : State) : State :=
  let s := { s with bell.strikes := s.bell.strikes.map fun j => if j = k then { j with lifted := true } else j }
  s.mapBell k.bell fun r =>
    { r with
      struckSinceLift := r.damperUp && r.struckSinceLift
      damperUp := true
      state := match r.state with | .quiet | .ringing => .lifted | other => other }

/-- Set or clear a bell's mute flag (R100). -/
def setMute (b : Bell) (on : Bool) (s : State) : State :=
  if on then
    let s := { s with hlc.live.bellMutes := s.hlc.live.bellMutes ||| (1#20 <<< b.val) }
    let s := removeStrikes (fun k => k.bell == b) s
    let r := s.bellRec b
    if (r.state = .quiet ∨ r.state = .lifted ∨ r.state = .ringing) ∧ r.allDone = true then
      s.mapBell b fun r => { r with damperUp := false, state := .muted }
    else s
  else
    let s := { s with hlc.live.bellMutes := s.hlc.live.bellMutes &&& ~~~(1#20 <<< b.val) }
    s.mapBell b fun r => { r with state := if r.state = .muted then .quiet else r.state }

/-- A DAMP of one bell acts on a RINGING bell with a damper (R92). -/
def dampBell (b : Bell) (s : State) : State :=
  if (s.bellRec b).state = .ringing ∧ s.hasDamper b = true then s.mapBell b BellRec.drop else s

def dampBells (bs : BitVec 20) (s : State) : State :=
  (List.finRange 20).foldl (fun s b => if bs.getLsbD b.val then dampBell b s else s) s

/-- Take up the voicing, or its absence (R87): without it every queued strike is discarded, every damper drops, and
LIFTED and RINGING bells fall QUIET. New records change no bell's state, one that gains or loses its damper included (log
entry 78). -/
def takeVoicing (v : Option (Vector Voicing 20)) (s : State) : State :=
  match v with
  | some _ => { s with bell.voicing := v }
  | none =>
    let s := removeStrikes (fun _ => true) { s with bell.voicing := none }
    { s with bell.bells := s.bell.bells.map BellRec.drop }

/-- Strikes whose due time show time has reached and that have not claimed at it take the lateness limit as it stands at
the end of that instant (R95). -/
def fixDeadlines (s : State) : State :=
  { s with bell.strikes := s.bell.strikes.map fun k =>
      if k.deadline = none ∧ k.due ≤ s.tb.showTime then { k with deadline := some (k.due + s.hlc.live.lateness) }
      else k }

/-- A strike's deadline has been reached (R95). -/
def Strike.late (now : Int) (k : Strike) : Bool :=
  match k.deadline with
  | some d => decide (d ≤ now)
  | none => false

/-- An echo input goes active: seen in an open window, else spurious (R96, R98). -/
def hearEcho (r : BellRec) : BellRec :=
  if r.strokes.any (fun k => k.echoOpen && k.seen) && !(r.strokes.any fun k => k.echoOpen && !k.seen) then r
  else if r.strokes.any (fun k => k.echoOpen && !k.seen) then
    { r with
      missCount := 0
      strokes := r.strokes.map fun k => if k.echoOpen then { k with seen := true } else k }
  else { r with counters := { r.counters with spurious := satInc r.counters.spurious } }

/-- The hammer pulse of a bell ends (R94). -/
def endPulse (b : Bell) (s : State) : State :=
  let e := s.tb.elapsed
  let s := s.mapBell b fun r =>
    { r with
      state := if r.state = .striking then .ringing else r.state
      strokes := r.strokes.map fun k => if k.pulseOn && decide (k.pulseEnd ≤ e) then { k with pulseOn := false } else k }
  let s := releasePulse b s
  (whenDone b (testDamper b s)).mapBell b BellRec.tidy

/-- An echo window closes with no echo seen: a miss, and the third in a row is a fault (R96). -/
def countMiss (b : Bell) (s : State) : State :=
  let n := (s.bellRec b).missCount
  let s := s.mapBell b fun r =>
    { r with missCount := min 3 (r.missCount + 1), counters := { r.counters with misses := satInc r.counters.misses } }
  if n = 2 then enterFault b .miss s else s

/-- An echo window of a bell closes (R96). -/
def closeEcho (b : Bell) (s : State) : State :=
  let e := s.tb.elapsed
  let due (k : Stroke) : Bool := k.echoOpen && decide (k.echoClose ≤ e)
  let missed := (s.bellRec b).strokes.any fun k => due k && !k.seen
  let s := s.mapBell b fun r =>
    { r with strokes := r.strokes.map fun k => if due k then { k with echoOpen := false } else k }
  let s := if missed then countMiss b s else s
  (whenDone b s).mapBell b BellRec.tidy

/-- The stuck test of a pulse (R97). -/
def testStuck (b : Bell) (s : State) : State :=
  let e := s.tb.elapsed
  let s := s.mapBell b fun r =>
    { r with strokes := r.strokes.map fun k =>
        if k.stuckDue && decide (k.stuckAt ≤ e) then { k with stuckDue := false } else k }
  let s := if s.inm.echo.level.getLsbD b.val then enterFault b .stuck s else s
  (whenDone b s).mapBell b BellRec.tidy

end Sys2Proof.Machine
end

