-- ==== Sys2Proof/Machine/Store.lean ====
section
/-! DEFINITION. The Programme Store: the directory, loads and verification, the check pass, the summary, and the
completion of store operations (R38 to R58). -/
namespace Sys2Proof.Machine

/-! ## The directory -/

def findItem (id : ItemId) (s : State) : Option Item := s.ps.items.find? fun i => i.id == id

/-- The store blocks of a length: 256 bytes each, rounded up (R39). -/
def blocksOf (n : Nat) : Nat := (n + (Config.blockBytes - 1)) / Config.blockBytes

def Item.blocks (i : Item) : Nat := blocksOf i.content.length

def usedBlocks (items : List Item) : Nat := (items.map Item.blocks).sum

/-- The blocks a commit in progress reserves (R39). -/
def reservedBlocks (op : Option OpRec) : Nat :=
  match op with
  | some { what := .commit _ c _, .. } => blocksOf c.length
  | _ => 0

/-- The free blocks (R39). -/
def freeBlocks (s : State) : Nat := Config.storeBlocks - usedBlocks s.ps.items - reservedBlocks s.ps.op

/-- Put an item at the place its kind and number give, in place of a former copy (R38, R42). -/
def putItem (x : Item) : List Item → List Item
  | [] => [x]
  | i :: is =>
    if itemRank i.id = itemRank x.id then x :: is
    else if itemRank x.id < itemRank i.id then x :: i :: is
    else i :: putItem x is

def dropItem (id : ItemId) (items : List Item) : List Item := items.filter fun i => i.id != id

/-- Change the record of an item. -/
def mapItem (id : ItemId) (f : Item → Item) (s : State) : State :=
  { s with ps.items := s.ps.items.map fun i => if i.id = id then f i else i }

/-- Items protected at a write level (R51). -/
def protectedAt (level : Fin 4) (k : ItemKind) : Bool :=
  match k with
  | .voicing | .figures => decide (1 ≤ level.val)
  | .seasons | .programmes | .triggers => decide (2 ≤ level.val)
  | .script => decide (3 ≤ level.val)

/-! ## Loads (R47) -/

inductive LoadAnswer
  | content (bytes : List Byte)
  | absent
  | unusable
deriving DecidableEq, Repr

/-- The operation in progress concerns an item, or is an erase-all (R47). -/
def opConcerns (id : ItemId) (s : State) : Bool :=
  match s.ps.op with
  | some { what := .commit j _ _, .. } => j == id
  | some { what := .erase j, .. } => j == id
  | some { what := .eraseAll, .. } => true
  | none => false

/-- The content agrees with the stored content check. -/
def Item.checks (i : Item) : Bool := crc16 i.content == i.check

/-- A load answered against the directory: a USABLE item whose check fails becomes UNUSABLE (R47). -/
def loadItem (id : ItemId) (s : State) : State × LoadAnswer :=
  match findItem id s with
  | none => (s, .absent)
  | some i =>
    if !i.usable then (s, .unusable)
    else if i.checks then (s, .content i.content)
    else (raise (.storeEvent (.checkFailed id)) (mapItem id (fun i => { i with usable := false }) s), .unusable)

/-- A load joins the waiting loads (R47, point 1). -/
def joinWaiting (w : Waiter) (s : State) : State := { s with ps.waiting := s.ps.waiting ++ [w] }

/-- Mark every item by its content check; the marks only (R50). -/
def markItems (s : State) : State :=
  { s with ps.items := s.ps.items.map fun i => { i with usable := i.checks } }

/-- The check pass: every mark set afresh, CHECK_FAILED raised for each failing item in directory order (R50). -/
def checkPass (s : State) : State :=
  ((markItems s).ps.items.filter fun i => !i.usable).foldl
    (fun s i => raise (.storeEvent (.checkFailed i.id)) s) (markItems s)

/-- The item content a block takes its copy of, if the load is answered with content. -/
def loadCopy {α : Type} (id : ItemId) (parse : List Byte → Option α) (s : State) : State × Option α :=
  match loadItem id s with
  | (s, .content bs) => (s, parse bs)
  | (s, _) => (s, none)

/-! ## The summary (R55) -/

/-- The words of an item's content, an odd last byte padded with a high half of 0. -/
def sumWords : List Byte → Nat
  | [] => 0
  | [a] => a.toNat
  | a :: b :: r => le16 a b + sumWords r

/-- The protection word (R55). -/
def protectionWord (s : State) : Nat :=
  s.ps.writeLevel.val + (if s.ps.readLock then 4 else 0) + (if s.ps.protLock then 8 else 0)

def storeSum (s : State) : Half :=
  if s.ps.readLock then BitVec.ofNat 16 (protectionWord s + (s.ps.identity.toList.map BitVec.toNat).sum)
  else
    BitVec.ofNat 16
      (protectionWord s + ((s.ps.items.filter (·.usable)).map fun i => sumWords i.content).sum)

/-! ## Operations -/

/-- The staged content: the first staged-length bytes of the buffer (R41). -/
def stagedContent (s : State) : List Byte := Memory.readBytes s.ps.staging 0 s.ps.stagedLen

/-- The store's checks of a commit or an erase up to the operation in progress (R41, R43). -/
def changeRefusal (kind number : Nat) (s : State) : Option Status :=
  match itemId kind number with
  | none => some .badValue
  | some id =>
    if protectedAt s.ps.writeLevel id.kind then some .locked
    else if (match findItem id s with | some i => decide (i.pins ≠ 0) | none => false) then some .inUse
    else if s.ps.op.isSome then some .busy
    else none

def beginOp (what : StoreOp) (ms : Nat) (s : State) : State :=
  { s with ps.op := some { what := what, due := s.tb.elapsed + ms } }

/-- The directory at a commit's completion (R42); the staging buffer is emptied. -/
def commitItem (id : ItemId) (content : List Byte) (check : Half) (s : State) : State :=
  let x : Item := { id := id, content := content, check := check, usable := true, pins := 0 }
  { s with ps.items := putItem x s.ps.items, ps.staging := [], ps.stagedLen := 0, ps.op := none }

/-- The directory at an erase's completion (R43). -/
def eraseItem (id : ItemId) (s : State) : State := { s with ps.items := dropItem id s.ps.items, ps.op := none }

/-- The store at an erase-all's completion: every item and all protection gone (R54). -/
def eraseAllItems (s : State) : State :=
  { s with
    ps.items := [], ps.op := none, ps.writeLevel := 0, ps.readLock := false, ps.protLock := false,
    ps.identity := Vector.replicate 4 0 }

def addPin (id : ItemId) (s : State) : State := mapItem id (fun i => { i with pins := i.pins + 1 }) s
def dropPin (id : ItemId) (s : State) : State := mapItem id (fun i => { i with pins := i.pins - 1 }) s

end Sys2Proof.Machine
end

