-- ==== Sys2Proof/Machine/Scheduler.lean ====
section
/-! DEFINITION. The Scheduler: arming, firing, follow-ons, the step and validity events, and the active programme
(R17 to R37). A request it makes waits in `sch.held` until it is handed over (R36), and what a step, a setting or a
commit leaves to be done with the entries waits in `sch.work`, so that each request is handed over whole before the next
is made (R22). -/
namespace Sys2Proof.Machine

def State.trig (s : State) (i : Trig) : TrigRec := s.sch.trigs.get i
def State.setTrig (s : State) (i : Trig) (r : TrigRec) : State := { s with sch.trigs := s.sch.trigs.set i r }
def State.mapTrig (s : State) (i : Trig) (f : TrigRec → TrigRec) : State := s.setTrig i (f (s.trig i))

def allTrigs : List Trig := List.finRange 32

/-! ## Seasons (R28, R29) -/

/-- The better of two matching seasons: the higher priority, then the lower index (R29). -/
def betterSeason (best : Option (Nat × Season)) (i : Nat) (e : Season) : Option (Nat × Season) :=
  match best with
  | some (j, b) => if b.priority < e.priority then some (i, e) else some (j, b)
  | none => some (i, e)

/-- The matching season entry in force on a date, over entries numbered from `i`. -/
def chooseSeason (md : Nat × Nat) : Nat → List Season → Option (Nat × Season) → Option (Nat × Season)
  | _, [], best => best
  | i, e :: es, best => chooseSeason md (i + 1) es (if e.matches md then betterSeason best i e else best)

/-- The season in force, if show time is SET and an entry matches (R29). -/
def seasonNow (s : State) : Option (Nat × Season) :=
  match s.tb.valid, s.sch.seasons with
  | true, some es => chooseSeason (monthDay (dayNumber s.tb.showTime)) 0 es none
  | _, _ => none

/-- Evaluate the seasons: choose the active programme for the present date (R29). -/
def evalSeasons (s : State) : State :=
  let s := { s with sch.today := dayNumber s.tb.showTime }
  match seasonNow s with
  | some (i, e) => { s with sch.active := e.programme, sch.chosenBy := some i }
  | none => { s with sch.active := s.hlc.live.defaultProgramme, sch.chosenBy := none }

/-! ## Fires (R21, R23, R24, R30) -/

/-- The script a target resolves to against the active programme; none for an empty slot (R30). -/
def resolve (t : Target) (s : State) : Option Nat :=
  match t with
  | .script n => some n
  | .slot n =>
    match s.sch.programmes with
    | some ps => (ps.get s.sch.active).toList.getD n none
    | none => none

/-- Hand a request over, or report the empty slot (R21, R24). -/
def handOver (i : Trig) (t : Target) (time : Int) (s : State) : State :=
  let d := (s.trig i).defn
  match resolve t s, t with
  | some n, _ =>
    let q : ShowReq :=
      { subject := .script n, origin := .trigger i, fireTime := time, policy := d.policy, staleness := d.staleness }
    { s with sch.held := s.sch.held ++ [q] }
  | none, .slot k =>
    raise (.triggerMissed .emptySlot (.trigger i) none time (some (s.sch.active, k)) (some (s.trig i).first)) s
  | none, .script _ => s

/-- The request of an HOURS entry: the twelve-hour count of its fire time's hour (R23). -/
def handCount (i : Trig) (time : Int) (s : State) : State :=
  let d := (s.trig i).defn
  let q : ShowReq :=
    { subject := .count (twelveHour (hourOf time)), origin := .trigger i, fireTime := time, policy := d.policy,
      staleness := d.staleness }
  { s with sch.held := s.sch.held ++ [q] }

/-- Give an entry a next fire time, or make it SPENT (R17). -/
def settleNext (next : Option Int) (first : Bool) (r : TrigRec) : TrigRec :=
  match next with
  | some t => { r with state := .armed, next := some t, first := first }
  | none => { r with state := .spent, next := none, first := false }

/-- The record after a fire (R21, steps 3 to 5). -/
def afterFire (time : Int) (r : TrigRec) : TrigRec :=
  let d := r.defn
  let once := decide (d.kind = .once) || (decide (d.kind = .periodic) && decide (d.period = 0))
  let next := if once then none else earliestAfter d (some time) time
  let r := settleNext next false { r with lastFire := some time, count := satInc r.count }
  match d.followOn with
  | some (off, t) => { r with followOn := some { due := time + off * 1000, target := t } }
  | none => r

/-- An entry fires for an occurrence (R21). -/
def fire (i : Trig) (time : Int) (s : State) : State :=
  let d := (s.trig i).defn
  let s := match d.kind with
    | .hours => handCount i time s
    | _ => handOver i d.target time s
  s.mapTrig i (afterFire time)

/-- A pending follow-on fires (R24). -/
def fireFollowOn (i : Trig) (s : State) : State :=
  match (s.trig i).followOn with
  | some f => (handOver i f.target f.due s).mapTrig i fun r => { r with followOn := none }
  | none => s

/-- TRIGGER_MISSED with reason LATE, with the entry's first-fire-pending flag (R17; log entry 46). -/
def raiseLate (i : Trig) (time : Int) (s : State) : State :=
  raise (.triggerMissed .late (.trigger i) none time none (some (s.trig i).first)) s

def windowMs (d : TrigDef) : Int := d.window * 1000

/-! ## Arming (R20) -/

/-- An enabled entry is armed at an instant (R20). -/
def arm (i : Trig) (now : Int) (s : State) : State :=
  let r := s.trig i
  let d := r.defn
  if !s.tb.valid then s.setTrig i { r with state := .waitingTime, next := none, first := false }
  else
    let rest := settleNext (earliestAfter d r.lastFire now) true
    match latestTo d r.lastFire now with
    | some l =>
      if now - l ≤ windowMs d then fire i l s
      else
        match d.kind with
        | .once => raiseLate i l (s.setTrig i (settleNext none false r))
        | .periodic => raiseLate i l (s.setTrig i (rest r))
        | _ => s.setTrig i (rest r)
    | none => s.setTrig i (rest r)

/-- An entry that is not enabled is DISABLED (R17). -/
def disable (r : TrigRec) : TrigRec :=
  { r with state := .disabled, next := none, first := false, followOn := none, defn := { r.defn with enabled := false } }

/-- Arm an entry that is enabled, disable one that is not. -/
def armOrDisable (i : Trig) (now : Int) (s : State) : State :=
  if (s.trig i).defn.enabled then arm i now s else s.mapTrig i disable

/-! ## Step and validity events (R25 to R27) -/

/-- The latest skipped occurrence of a forward step (R25). -/
def skipped (r : TrigRec) (old new : Int) : Option Int :=
  (latestTo r.defn r.lastFire (new - 1)).filter fun o => decide (old < o)

/-- An ARMED entry at a forward step (R25). -/
def stepForward (old new : Int) (i : Trig) (s : State) : State :=
  let r := s.trig i
  if r.state ≠ .armed then s
  else
    let next := earliestFrom r.defn r.lastFire new
    match skipped r old new with
    | none => s.setTrig i (settleNext next r.first r)
    | some o =>
      if new - o ≤ windowMs r.defn then fire i o s
      else
        match r.defn.kind with
        | .once => raiseLate i o (s.setTrig i (settleNext none false r))
        | _ => raiseLate i o (s.setTrig i (settleNext next r.first r))

/-- An ARMED entry at a backward step (R26). -/
def stepBackward (new : Int) (i : Trig) (s : State) : State :=
  let r := s.trig i
  if r.state ≠ .armed then s else s.setTrig i (settleNext (earliestFrom r.defn r.lastFire new) r.first r)

/-- A pending follow-on keeps its distance from show time across a step (R24 to R26). -/
def TrigRec.shift (d : Int) (r : TrigRec) : TrigRec :=
  { r with followOn := r.followOn.map fun f => { f with due := f.due + d } }

/-- Every pending follow-on keeps its distance from show time (R25, R26). -/
def shiftFollowOns (d : Int) (s : State) : State := { s with sch.trigs := s.sch.trigs.map (TrigRec.shift d) }

/-- The tasks of a step (R25, R26), entry by entry in ascending index: the follow-on and the fire that show time had
reached before the step come first, then the follow-on pending is moved, and then the entry is taken at the step (R22; log
entry 44). What has fallen due at the new show time itself comes after them all (log entry 70). -/
def stepTasks (old new : Int) : List Task :=
  allTrigs.flatMap fun i =>
    [.due i old, .shift i (new - old), if old < new then .forward i old new else .backward i new]

/-- The step event (R25, R26). Before start-up recomputes the table the entries are left to it (R36), their pending
follow-ons keeping their distance, and a step of zero changes nothing. -/
def stepEvent (old new : Int) (s : State) : State :=
  let s := evalSeasons s
  if s.hlc.step < 3 then shiftFollowOns (new - old) s
  else if old = new then s
  else { s with sch.work := s.sch.work ++ stepTasks old new }

/-- The validity event with SET (R27): the entries that wait for time are armed in ascending index, before what has fallen
due at the time set (log entry 70). -/
def validEvent (s : State) : State :=
  let s := evalSeasons s
  { s with sch.work := s.sch.work ++ allTrigs.map fun i => .armWaiting i s.tb.showTime }

/-- One entry at the validity event with UNSET (R27). -/
def entryUnset (i : Trig) (s : State) : State :=
  let s := s.mapTrig i fun r =>
    if r.state = .armed then { r with state := .waitingTime, next := none, first := false } else r
  match (s.trig i).followOn with
  | some f =>
    raise (.triggerMissed .timeUnset (.trigger i) none f.due none (some (s.trig i).first))
      (s.mapTrig i fun r => { r with followOn := none })
  | none => s

/-- The validity event with UNSET (R27); the entries are taken in ascending index (log entry 71). -/
def unsetEvent (s : State) : State := evalSeasons (allTrigs.foldl (fun s i => entryUnset i s) s)

/-! ## Start-up and commits (R35 to R37) -/

/-- A date change has still to be acted on (R3, R22). -/
def dateDue (s : State) : Bool := decide (dayNumber s.tb.showTime ≠ s.sch.today)

/-- An entry of the table that a load builds (R35). Its last fire and its count, none and 0 after a power-on reset, are
kept by its index through every other reset (R19). -/
def TrigRec.built (d : TrigDef) (r : TrigRec) : TrigRec :=
  { TrigRec.empty with
    defn := d, state := if d.enabled then .waitingTime else .disabled, lastFire := r.lastFire, count := r.count }

/-- The table that a load of the TRIGGERS item builds (R35), every entry empty where the content is absent. -/
def buildTable (defs : Option (Vector TrigDef 32)) (old : Vector TrigRec 32) : Vector TrigRec 32 :=
  Vector.ofFn fun i => (old.get i).built ((defs.map (·.get i)).getD TrigRec.empty.defn)

/-- One entry at the recomputation of a soft reset: a follow-on or an occurrence that has passed is reported LATE
(R36; log entry 21), the follow-on first where both have (log entry 58). -/
def recomputeEntry (i : Trig) (s : State) : State :=
  let now := s.tb.showTime
  let s := match (s.trig i).followOn with
    | some f =>
      if f.due < now then raiseLate i f.due (s.mapTrig i fun r => { r with followOn := none }) else s
    | none => s
  let r := s.trig i
  if r.state ≠ .armed then s
  else
    let next := earliestFrom r.defn r.lastFire now
    match r.next with
    | some t =>
      if t < now then
        let o := (latestTo r.defn r.lastFire (now - 1)).getD t
        match r.defn.kind with
        | .once => raiseLate i o (s.setTrig i (settleNext none false r))
        | _ => raiseLate i o (s.setTrig i (settleNext next r.first r))
      else s.setTrig i (settleNext next r.first r)
    | none => s.setTrig i (settleNext next r.first r)

/-- The recomputation of the table after a soft reset (R36). -/
def recomputeTable (s : State) : State :=
  if s.tb.valid then allTrigs.foldl (fun s i => recomputeEntry i s) s else s

/-- A change of date that has still to be acted on is acted on first (R22). -/
def takeDate (s : State) : State := if dateDue s then evalSeasons s else s

/-- A committed TRIGGERS item replaces the live definitions; the entries are then armed in ascending index (R37), before
what falls due at that instant (log entry 70). -/
def takeTriggers (defs : Vector TrigDef 32) (s : State) : State :=
  let s := takeDate s
  { s with
    sch.trigs := Vector.ofFn fun i =>
      { s.sch.trigs.get i with defn := defs.get i, followOn := none, first := false, next := none }
    sch.work := s.sch.work ++ allTrigs.map fun i => .armOrDisable i s.tb.showTime }

/-- An erased TRIGGERS item disables every entry with the definitions of an empty one (R37). -/
def eraseTriggers (s : State) : State :=
  { s with sch.trigs := s.sch.trigs.map fun r =>
      { TrigRec.empty with lastFire := r.lastFire, count := r.count } }

/-! ## What is due (R22) -/

/-- An entry's next fire time is not beyond an instant (R21). -/
def TrigRec.firesBy (upTo : Int) (r : TrigRec) : Bool :=
  r.state == .armed && match r.next with | some t => decide (t ≤ upTo) | none => false

/-- An entry's pending follow-on is due by an instant (R24). -/
def TrigRec.followsBy (upTo : Int) (r : TrigRec) : Bool :=
  match r.followOn with | some f => decide (f.due ≤ upTo) | none => false

/-- Show time has reached an entry's next fire time; until start-up has built or recomputed the table, nothing
fires (R21, R36). -/
def fireDue (i : Trig) (s : State) : Bool := decide (3 ≤ s.hlc.step) && (s.trig i).firesBy s.tb.showTime

def followOnDue (i : Trig) (s : State) : Bool := decide (3 ≤ s.hlc.step) && (s.trig i).followsBy s.tb.showTime

/-- An entry fires at its next fire time (R21). -/
def fireNext (i : Trig) (s : State) : State :=
  match (s.trig i).next with
  | some t => fire i t s
  | none => s

/-- The entry taken next: ascending index, a pending follow-on before the entry's own fire, and nothing before a
date change (R22). -/
def nextFire (s : State) : Option (Trig × Bool) :=
  if dateDue s then none
  else allTrigs.findSome? fun i =>
    if followOnDue i s then some (i, true) else if fireDue i s then some (i, false) else none

/-! ## Work on the entries (R22) -/

/-- What of an entry an instant has reached is taken, its pending follow-on before its own fire, and the entry is tested
again (R21, R22, R24). -/
def fireUpTo (i : Trig) (upTo : Int) (s : State) : State :=
  let again : State := { s with sch.work := .due i upTo :: s.sch.work }
  if (s.trig i).followsBy upTo then fireFollowOn i again
  else if (s.trig i).firesBy upTo then fireNext i again
  else s

/-- One task is done. -/
def doTask (t : Task) (s : State) : State :=
  match t with
  | .due i upTo => fireUpTo i upTo s
  | .shift i d => s.mapTrig i (TrigRec.shift d)
  | .forward i old new => stepForward old new i s
  | .backward i new => stepBackward new i s
  | .armWaiting i now => if (s.trig i).state = .waitingTime then arm i now s else s
  | .armOrDisable i now => armOrDisable i now s

end Sys2Proof.Machine
end

