-- ==== Sys2Proof/Machine/Timebase.lean ====
section
/-! DEFINITION. The Timebase: steps of show time, the end of the range, the minute pulse and the discipline settings
(R4 to R15). -/
namespace Sys2Proof.Machine

/-- The discipline state after a step, a setting from UNSET or the end of the range (R11, step 4). -/
def settledDiscipline (t : TB) : Discipline :=
  if t.disc = .off then .off
  else
    match t.lastPulse with
    | some p => if t.elapsed ≤ p.elapsed + Config.lossMs then .tracking else .seeking
    | none => .seeking

/-- Show time moves by an offset, and the instants of work still to come move with it (R11, R12). The held step is
discarded and the correction becomes 0. -/
def moveShow (d : Int) (s : State) : State :=
  let s := shiftWork d s
  { s with
    tb := { s.tb with
      showTime := s.tb.showTime + d, held := none, correction := 0, slewPhase := 0, jumped := false
      disc := settledDiscipline s.tb }
    sch.today := dayNumber (s.tb.showTime + d) }

/-- The end of the range (R13): show time becomes 0 and UNSET. -/
def endRange (s : State) : State :=
  let s := moveShow (-s.tb.showTime) s
  raise (.timeEvent .rangeEnd) (unsetEvent { s with tb.valid := false })

/-- Apply a step of an offset (R11). A follow-on or a fire that show time had reached before the step is taken with the
step's work (R22, `stepTasks`). -/
def applyStep (d : Int) (s : State) : State :=
  let old := s.tb.showTime
  if Config.maxTime < old + d then endRange s
  else
    let s := moveShow d s
    let s := if s.tb.valid then stepEvent old (old + d) s else s
    raise (.timeEvent (.stepApplied d)) s

def HeldStep.offset (h : HeldStep) : Int := h.target - h.computed

/-- The error of a capture: its distance from the nearest whole minute (R5). -/
def pulseError (c : Int) : Int :=
  let r := c % 60000
  if r < 30000 then r else r - 60000

/-- A discipline state other than OFF becomes another (R6, R14). -/
def setDisc (d : Discipline) (s : State) : State := if s.tb.disc = .off then s else { s with tb.disc := d }

/-- A step becomes the held step (R6, R14, R15). A correction that a TIME-SET finds under way goes on being worked off
while the step is held: R14 and R15 name no change of it (log entry 50). -/
def holdStep (target : Int) (forced : Bool) (s : State) : State :=
  setDisc .held
    { s with tb.held := some { target := target, computed := s.tb.showTime, forced := forced } }

/-- The error of an accepted pulse is acted on while no step is held (R5, R6). -/
def actOnError (e : Int) (s : State) : State :=
  if e.natAbs ≤ s.hlc.live.slewLimit then
    { s with tb.correction := -e, tb.slewPhase := 0, tb.disc := if e = 0 then .tracking else .slewing }
  else
    let s := { s with tb.correction := 0, tb.slewPhase := 0 }
    if s.bothIdle then applyStep (-e) s
    else raise (.timeEvent (.stepHeld (-e))) (holdStep (s.tb.showTime - e) false s)

/-- A pulse accepted while a step is held renews it (R7). The remaining correction is 0 from then on: one that a TIME-SET
left under way ends here (log entry 50). -/
def renewStep (h : HeldStep) (s : State) : State :=
  let c := s.tb.showTime
  let e := pulseError (c + h.offset)
  let s := { s with
    tb.held := some { target := c + h.offset - e, computed := c, forced := h.forced }
    tb.correction := 0, tb.slewPhase := 0 }
  if s.hlc.live.slewLimit < e.natAbs then raise (.timeEvent (.stepHeld (h.offset - e))) s else s

/-- A pulse is accepted: the loss timer starts afresh, and the error is acted on (R4). -/
def acceptPulse (s : State) : State :=
  let s := { s with tb.lastPulse := some s.stamp, tb.lossAt := some (s.tb.elapsed + Config.lossMs) }
  match s.tb.held with
  | some h => renewStep h s
  | none => actOnError (pulseError s.tb.showTime) s

/-- The pulse comes too early after the last accepted one (R4). -/
def pulseEarly (t : TB) : Bool :=
  match t.lastPulse with
  | some p => decide (t.elapsed < p.elapsed + Config.minSpacing)
  | none => false

/-- A minute-pulse capture reaches the Timebase (R4). -/
def takePulse (s : State) : State :=
  if s.tb.disc = .off then s
  else if pulseEarly s.tb then { s with tb.rejected := satInc s.tb.rejected }
  else acceptPulse s

/-- The pulse is lost (R9). -/
def losePulse (s : State) : State :=
  let s := { s with
    tb.lossAt := none
    tb.disc := match s.tb.disc with | .tracking | .slewing => .seeking | d => d }
  raise (.timeEvent .pulseLost) s

/-- A slewing period ends: the correction moves one step towards zero (R8). -/
def endSlewPeriod (s : State) : State :=
  let c := if 0 < s.tb.correction then s.tb.correction - 1 else s.tb.correction + 1
  { s with
    tb.correction := c, tb.slewPhase := 0
    tb.disc := if c = 0 ∧ s.tb.disc = .slewing then .tracking else s.tb.disc }

/-- The discipline setting changes (R10). -/
def setDiscipline (on : Bool) (s : State) : State :=
  if on then
    if s.tb.disc = .off then
      { s with tb.disc := if s.tb.held.isSome then .held else .seeking, tb.lastPulse := none, tb.lossAt := none }
    else s
  else
    { s with tb.disc := .off, tb.correction := 0, tb.slewPhase := 0, tb.lastPulse := none, tb.lossAt := none }

/-- The idle notice: a held step is applied (R11). -/
def idleNotice (s : State) : State :=
  match s.tb.held with
  | some h => applyStep h.offset s
  | none => s

end Sys2Proof.Machine
end

