-- ==== Sys2Proof/Machine/Runs.lean ====
section
/-! DEFINITION. The Show Sequencer: arrival of show requests, runs from their start to their end, cues, hold, resume,
abort, and the lamps (R59 to R86). -/
namespace Sys2Proof.Machine

/-! ## Lamps (R80, R81) -/

/-- The level of a fade with some time remaining, truncated towards the start level (R80). -/
def fadeLevel (start target : Byte) (length remaining : Nat) : Byte :=
  let a : Int := start.toNat
  let b : Int := target.toNat
  if length = 0 then target
  else BitVec.ofInt 8 (a + ((b - a) * ((length : Int) - remaining)).tdiv length)

/-- A setting of a channel (R80). -/
def LampRec.put (level : Byte) (fade : Nat) (who : Setter) (r : LampRec) : LampRec :=
  { level := if fade = 0 then level else r.level, target := level, remaining := fade, startLevel := r.level,
    length := fade, fading := fade != 0, frozen := false, setter := who }

/-- The duty of the LPn output: the level divided by 255 (R80). -/
def LampRec.duty (r : LampRec) : ℚ := r.level.toNat / 255

def mapLamp (ch : Lamp) (f : LampRec → LampRec) (s : State) : State :=
  { s with seq.lamps := s.seq.lamps.set ch (f (s.seq.lamps.get ch)) }

/-- One millisecond of a fade; the last one leaves the level to LAMP_FADE_END (R80). -/
def LampRec.tick (r : LampRec) : LampRec :=
  if r.frozen || r.remaining = 0 then r
  else
    { r with remaining := r.remaining - 1, level := fadeLevel r.startLevel r.target r.length (r.remaining - 1) }

/-- A fade whose time has run out and which has not yet ended. -/
def LampRec.fadeOver (r : LampRec) : Bool := !r.frozen && r.fading && r.remaining == 0

/-- The level equals the target at the end of a fade (R80). -/
def LampRec.finish (r : LampRec) : LampRec := { r with level := r.target, fading := false }

/-- A hold freezes the channels of its lane (R81). -/
def LampRec.freeze (l : Lane) (r : LampRec) : LampRec := if r.setter = .lane l then { r with frozen := true } else r

/-- A resume lets the channels of its lane go on (R76, R81). -/
def LampRec.thaw (l : Lane) (r : LampRec) : LampRec := if r.setter = .lane l then { r with frozen := false } else r

def mapLamps (f : Lamp → LampRec → LampRec) (s : State) : State :=
  { s with seq.lamps := Vector.ofFn fun ch => f ch (s.seq.lamps.get ch) }

/-- An abort fades the channels of its lane to their rest levels (R81). -/
def restLamps (l : Lane) (s : State) : State :=
  mapLamps (fun ch r =>
    if r.setter = .lane l then r.put (s.hlc.live.lampRests.get ch) Config.restFade .rest else r) s

/-! ## Capture units of a run (R165) -/

def State.unit (s : State) (u : CapUnit) : CapRec := s.inm.units.get u
def State.setUnit (s : State) (u : CapUnit) (r : CapRec) : State := { s with inm.units := s.inm.units.set u r }
def allUnits : List CapUnit := List.finRange 4

def CapRec.ofLane (l : Lane) (r : CapRec) : Bool := match r.owner with | .run l' _ => l' == l | _ => false

/-- The capture claims of a lane's run. -/
def captureClaims (l : Lane) (s : State) : List CapUnit := allUnits.filter fun u => (s.unit u).ofLane l

def mapUnits (f : CapRec → CapRec) (s : State) : State := { s with inm.units := s.inm.units.map f }

/-- A unit claimed for a MARK cue (R165). -/
def markUnit (l : Lane) (cue : Nat) (input : GInput) (e : Edge) (opens closes : Int) : CapRec :=
  { CapRec.free with
    owner := .run l cue, input := input
    riseMode := if e = .rise then .single else .off
    fallMode := if e = .fall then .single else .off
    window := some { opens := opens, closes := closes, suspended := false } }

/-- A MARK cue asks for a capture unit: the lowest-numbered FREE one, or NO_CAPTURE is reported (R165). -/
def claimUnit (l : Lane) (cue : Nat) (input : GInput) (e : Edge) (opens closes : Int) (s : State) : State :=
  match allUnits.find? fun u => (s.unit u).owner == .free with
  | some u => s.setUnit u (markUnit l cue input e opens closes)
  | none => cueFault l .noCapture cue none none s

/-- The verdicts at a window's close (R165). -/
inductive MarkVerdict | early | onTime | missed
deriving DecidableEq, Repr

/-- The edge a RUN-owned unit watches for. -/
def CapRec.markCapture (r : CapRec) : Option Int :=
  if r.riseMode = .single then (if r.riseFlag then r.riseCap else none)
  else if r.fallFlag then r.fallCap else none

/-- The instant at which a window's close falls due: a close that slewing passes over falls due in the millisecond that
passes it (R8). -/
def CapWindow.closeDue (w : CapWindow) (t : TB) : Int :=
  if t.jumped = true ∧ t.showTime = w.closes + 1 then t.showTime else w.closes

/-- The judgement of a window whose close falls due at an instant (R8, R165): an edge taken at that instant, before the
close, is on time. For a capture later than it the table gives none, and the verdict is the free value `v` (log entry 7). -/
def judge (r : CapRec) (w : CapWindow) (due : Int) (v : Fin 3) : MarkVerdict :=
  match r.markCapture with
  | none => .missed
  | some t =>
    if t < w.opens then .early
    else if t ≤ due then .onTime
    else if v = 0 then .early else if v = 1 then .onTime else .missed

/-- A window's close has come and the window is not suspended (R165). -/
def windowDue (u : CapUnit) (s : State) : Bool :=
  match (s.unit u).owner, (s.unit u).window with
  | .run _ _, some w => !w.suspended && decide (w.closes ≤ s.tb.showTime)
  | _, _ => false

/-- The unit is judged, the verdict reported, and the unit becomes FREE (R165). -/
def closeWindow (u : CapUnit) (s : State) : State :=
  let r := s.unit u
  match r.owner, r.window with
  | .run l cue, some w =>
    let v := judge r w (w.closeDue s.tb) (Config.lateMarkVerdict s.free)
    let s := { s.setUnit u .free with free := s.free + 1 }
    match v with
    | .early => cueFault l .markEarly cue none none s
    | .missed => cueFault l .markMissed cue none none s
    | .onTime => s
  | _, _ => s

/-! ## Cues (R68, R69) -/

/-- A cue's due time (R68); for a run that has not started there is none. -/
def Run.dueTime (r : Run) (c : Cue) : Option Int := r.start.map fun t => t + c.offset + r.accHold

/-- A MARK's expected instant (R68). -/
def Run.expected (r : Run) (offset : Nat) : Option Int := r.start.map fun t => t + offset + r.accHold

/-- The instant at which a cue is issued (R68). -/
def Run.issueAt (r : Run) (c : Cue) : Option Int :=
  match c.kind with
  | .strike .. => (r.dueTime c).map (· - Config.strikeLead)
  | .move .. => (r.dueTime c).map (· - Config.stageLead)
  | .mark _ _ e h => (r.expected e).map (· - (h : Int))
  | _ => r.dueTime c

/-- The cues that have fallen due for issue, each with its instant and index. -/
def dueCues (now : Int) (r : Run) : Nat → List CueSlot → List (Int × Nat)
  | _, [] => []
  | i, c :: cs =>
    match c.issued, r.issueAt c.cue with
    | false, some t => if t ≤ now then (t, i) :: dueCues now r (i + 1) cs else dueCues now r (i + 1) cs
    | _, _ => dueCues now r (i + 1) cs

/-- The earliest of instants, the lowest index among equals (R68). Of cues already past their instants when a run enters
RUNNING or resumes, the one with the earlier instant comes first (log entry 51). -/
def earliest : List (Int × Nat) → Option (Int × Nat)
  | [] => none
  | x :: xs =>
    match earliest xs with
    | some y => if y.1 < x.1 then some y else some x
    | none => some x

/-- A run issues cues while it is RUNNING, and while it is ENDING those a hold returned to it (R68). -/
def Run.issues (r : Run) : Bool := !r.abortAsked && (r.state == .running || r.state == .ending)

/-- The cue of a lane that is issued next (R68). -/
def nextCue (l : Lane) (s : State) : Option Nat :=
  match s.run l with
  | some r => if r.issues then (earliest (dueCues s.tb.showTime r 0 r.cues)).map Prod.snd else none
  | none => none

def markIssued (i : Nat) (r : Run) : Run := { r with cues := r.cues.modify i fun c => { c with issued := true } }

/-- What a cue does when it is issued (R69); END is the run's own. -/
def performCue (l : Lane) (i : Nat) (r : Run) (c : Cue) (s : State) : State :=
  match c.kind, r.dueTime c with
  | .strike b v, some due => offerStrike b v due (.lane l i) s
  | .damp bs, _ => dampBells bs s
  | .move d w g t ps, some due =>
    match ps.filter fun p => !r.excluded.getLsbD p.1.val with
    | [] => s
    | rest => takeMove i d w g t due rest false s
  | .door d g, _ => if r.skipDoors.getLsbD d.val then s else takeDoor d g (.run i) s
  | .turn p dir, _ => if r.skipTurn then s else takeTurn (.to p dir) (.run i) s
  | .mark input e x h, _ =>
    match r.expected x with
    | some t => claimUnit l i input e (t - h) (t + h) s
    | none => s
  | .lamp ch level fade, _ => mapLamp ch (LampRec.put level fade (.lane l)) s
  | _, _ => s

/-- Issue a cue (R68, R69). -/
def issueCue (l : Lane) (i : Nat) (s : State) : State :=
  match s.run l with
  | none => s
  | some r =>
    match r.cues[i]? with
    | some c => if c.issued || r.abortAsked then s else performCue l i r c.cue (s.mapRun l (markIssued i))
    | none => s

/-- END falls due: every cue not yet issued is issued in ascending index, and the run enters ENDING (R68, R70). -/
def issueEnd (l : Lane) (s : State) : State :=
  match s.run l with
  | none => s
  | some r =>
    let s := (List.range r.cues.length).foldl (fun s i => issueCue l i s) s
    s.mapRun l fun r => if r.abortAsked then r else { r with state := .ending }

/-! ## Work in progress (R69, R70) -/

/-- A strike or a stroke the lane counts. -/
def bellWork (l : Lane) (s : State) : Bool :=
  (s.bell.strikes.any fun k => k.origin.lane? == some l) ||
  s.bell.bells.toList.any fun r => r.strokes.any fun k => k.lane == some l && !k.done

/-- A move, door command or turn the run of lane M counts. -/
def stageWork (s : State) : Bool :=
  (allFigs.any fun f => (s.fig f).ofRun && ((s.fig f).inStaging || (s.fig f).state == .moving)) ||
  ((List.finRange 2).any fun d => match (s.door d).cmd with | some c => c.owner != .host | none => false) ||
  match s.stg.turn.cmd with | some c => c.owner != .host | none => false

/-- Something the run started is still counted, or a cue is still to be issued (R70). -/
def workLeft (l : Lane) (r : Run) (s : State) : Bool :=
  bellWork l s || (l == .M && stageWork s) || !(captureClaims l s).isEmpty || r.cues.any fun c => !c.issued

/-! ## The start of a run (R64 to R67) -/

/-- A run as it starts, LOADING (R64). -/
def newRun (q : ShowReq) : Run :=
  { subject := q.subject, origin := q.origin, fireTime := q.fireTime, state := .loading, start := none, accHold := 0,
    holdStart := none, heldHost := false, heldGroups := 0, resumeEnding := false, cues := [], abortPolicy := false,
    excluded := 0, skipDoors := 0, skipTurn := false, faults := 0, firstFault := none, abortReason := none,
    abortAsked := false, pinned := false, stoppedDoors := Vector.replicate 2 none, stoppedTurn := none }

def Run.isHeld (r : Run) : Bool := r.heldHost || r.heldGroups != 0

/-- The run takes its cues and its pre-roll, and enters RUNNING, or HOLDING, with its lane's fades frozen, if a hold
was recorded (R66, R72, R73). -/
def beginRun (l : Lane) (cues : List Cue) (abortPolicy : Bool) (s : State) : State :=
  match s.run l with
  | none => s
  | some r =>
    let r := { r with
      cues := cues.map fun c => { cue := c, issued := false }
      abortPolicy := abortPolicy, start := some (s.tb.showTime + Config.preRoll)
      state := if r.isHeld then .holding else .running
      holdStart := if r.isHeld then some s.stamp else none
      resumeEnding := false }
    let s := s.setLane l { s.lane l with run := some r }
    let s := if r.isHeld then mapLamps (fun _ p => p.freeze l) s else s
    raise (.showStarted l r.subject r.origin) s

/-- The cues of the hour count of n strokes (R67). -/
def countCues (n : Nat) (bell : Bell) (spacing : Nat) : List Cue :=
  (List.range n).map (fun k => { offset := k * spacing, kind := .strike bell 6 }) ++
    [{ offset := (n - 1) * spacing, kind := .finish }]

/-- The run is stopped for a reason before it has work; it ends in the same step (R65). -/
def failLoad (l : Lane) (why : AbortReason) (s : State) : State :=
  s.mapRun l fun r => { r with state := .aborting, abortReason := some why, heldHost := false, heldGroups := 0 }

/-- The load of a LOADING run is answered (R47, R48, R65). Content that agrees with its check and spells no script is
STORE_CHECK (log entry 69). -/
def answerLoad (l : Lane) (s : State) : State :=
  match s.run l with
  | some r =>
    match r.state, r.subject with
    | .loading, .script n =>
      let id : ItemId := ⟨.script, n⟩
      let present := (findItem id s).isSome
      let (s, a) := loadItem id s
      let s := if present then (addPin id s).mapRun l fun r => { r with pinned := true } else s
      match a with
      | .absent => failLoad l .noScript s
      | .unusable => failLoad l .storeCheck s
      | .content bs =>
        match parseScript bs with
        | .ok sc => if sc.lane = l then beginRun l sc.cues sc.abortPolicy s else failLoad l .wrongLane s
        | .error _ => failLoad l .storeCheck s
    | _, _ => s
  | none => s

/-- A show request starts a run on an IDLE lane (R61, R64, R67). -/
def startRun (l : Lane) (q : ShowReq) (s : State) : State :=
  let s := s.setLane l { s.lane l with run := some (newRun q) }
  match q.subject with
  | .count n => beginRun l (countCues n s.hlc.live.countBell s.hlc.live.countSpacing) false s
  | .script n =>
    let s := if l = .M ∧ someAsleep s = true then requestWake true s else s
    if opConcerns ⟨.script, n⟩ s then joinWaiting (.lane l) s else answerLoad l s

/-! ## Staleness and the next request (R60, R63) -/

/-- A request's age; below zero it counts as zero (R60). -/
def ShowReq.age (now : Int) (q : ShowReq) : Int := max 0 (now - q.fireTime)

def ShowReq.stale (now : Int) (q : ShowReq) : Bool := q.staleness != 0 && decide ((q.staleness : Int) * 1000 < q.age now)

/-- The first-fire-pending flag of the trigger a request comes from (R17). -/
def firstFlag (o : Origin) (s : State) : Option Bool :=
  match o with
  | .trigger i => some (s.trig i).first
  | .host => none

/-- A request is discarded with TRIGGER_MISSED (section 4.2). -/
def discard (why : MissReason) (q : ShowReq) (s : State) : State :=
  raise (.triggerMissed why q.origin (some q.subject) q.fireTime none (firstFlag q.origin s)) s

/-- Take the heads of the pending queue until a request starts a run or none is left (R63). -/
def takeHeads (l : Lane) : List ShowReq → State → State
  | [], s => s.setLane l { s.lane l with queue := [] }
  | q :: qs, s =>
    if q.stale s.tb.showTime then takeHeads l qs (discard .stale q s)
    else startRun l q (s.setLane l { s.lane l with queue := qs })

/-- An IDLE lane looks for its next request: the successor first, then the queue (R63). -/
def lookNext (l : Lane) (s : State) : State :=
  if !s.laneIdle l || s.restraint then s
  else
    match (s.lane l).successor with
    | some q =>
      let s := s.setLane l { s.lane l with successor := none }
      if q.stale s.tb.showTime then takeHeads l (s.lane l).queue (discard .stale q s) else startRun l q s
    | none => takeHeads l (s.lane l).queue s

/-! ## Abort (R77, R78) -/

/-- Withdraw the strikes of a lane (R99). -/
def withdrawStrikes (l : Lane) (s : State) : State := removeStrikes (fun k => k.origin.lane? == some l) s

/-- The command of a door that the run owns. -/
def DoorRec.runCmd (r : DoorRec) : Option DoorCmd := r.cmd.filter fun c => c.owner != .host

/-- The command of the turntable that the run owns. -/
def TurnRec.runCmd (r : TurnRec) : Option TurnCmd := r.cmd.filter fun c => c.owner != .host

/-- The claims of the drives a run owns. -/
def runDriveKeys (g : STG) : List ClaimKey :=
  ((List.finRange 2).filter fun d => (g.doors.get d).runCmd.isSome).map .door ++
  (if g.turn.runCmd.isSome then [.turntable] else [])

/-- A door that the run moves, stopped (R150). -/
def runDoorStopped (s : State) (d : Door) : DoorRec :=
  match (s.door d).runCmd with
  | some c => (s.door d).ended (s.bothLimits d) (stoppedState (s.door d) c)
  | none => s.door d

/-- The turntable, stopped if the run moves it (R150). -/
def runTurnStopped (r : TurnRec) : TurnRec :=
  match r.runCmd with
  | some c => r.ended (turnStopped r c) r.count
  | none => r

/-- Stop the doors and the turntable that the run commands, at one instant: what one of them gives back starts none of the
others (R73, R77, R150). -/
def stopDrives (s : State) : State :=
  dropKeys (runDriveKeys s.stg)
    { s with stg.doors := Vector.ofFn (runDoorStopped s), stg.turn := runTurnStopped s.stg.turn }

/-- Release the capture claims of a lane without a judgement (R165). -/
def freeClaims (l : Lane) (s : State) : State := mapUnits (fun r => if r.ofLane l then .free else r) s

/-- The run context of a run that is being aborted (R77). -/
def Run.aborted (why : AbortReason) (r : Run) : Run :=
  { r with
    state := .aborting, abortReason := some why, abortAsked := false, heldHost := false, heldGroups := 0
    holdStart := none }

/-- An abort reaches a lane (R77); `guard` marks a guard ABORT, whose broadcast HALT serves the figures. The demands are
made in the rule's order, and what the strikes and the figures give back may start the run's own waiting drive before it is
stopped (R108; log entry 61). A LOADING run's abort makes none of them, the lamps' included (log entry 77). -/
def abortLane (l : Lane) (why : AbortReason) (guard : Bool) (s : State) : State :=
  match s.run l with
  | none => s
  | some r =>
    match r.state with
    | .aborting => s
    | .loading => (s.mapRun l (Run.aborted why)) |> fun s => { s with ps.waiting := s.ps.waiting.filter (· != .lane l) }
    | .running | .holding | .ending =>
      let s := withdrawStrikes l (s.mapRun l (Run.aborted why))
      let s :=
        if l = .C then s
        else if guard then withdrawRun s
        else abortFigs s
      let s := if l = .C then s else stopDrives s
      restLamps l (freeClaims l s)

/-! ## Hold and resume (R72 to R76) -/

/-- The source of a hold (R72). -/
inductive HoldSource
  | host
  | group (g : Group)
deriving DecidableEq, Repr

def Run.addHold (src : HoldSource) (r : Run) : Run :=
  match src with
  | .host => { r with heldHost := true }
  | .group g => { r with heldGroups := r.heldGroups ||| (1#4 <<< g.val) }

/-- The cues of the strikes a hold withdraws. -/
def withdrawnCues (l : Lane) (s : State) : List Nat :=
  s.bell.strikes.filterMap fun k =>
    match k.origin with
    | .lane l' i => if l' = l then some i else none
    | .host => none

/-- STRIKE cues whose strikes were withdrawn become unissued again (R73). -/
def unissue (is : List Nat) (r : Run) : Run :=
  { r with cues := is.foldl (fun cs i => cs.modify i fun c => { c with issued := false }) r.cues }

/-- The cue of a door or turn command a run owns. -/
def ownedCue : Owner → Option Nat
  | .run i => some i
  | .host => none

/-- The run enters HOLDING: its strikes, moves, drives, captures and lamp fades stop, in the rule's order (R73; log entry
61). -/
def enterHold (l : Lane) (s : State) : State :=
  let doors : Vector (Option Nat) 2 :=
    Vector.ofFn fun d => if l = .M then (s.door d).cmd.bind fun c => ownedCue c.owner else none
  let turn : Option Nat := if l = .M then s.stg.turn.cmd.bind fun c => ownedCue c.owner else none
  let back := withdrawnCues l s
  let s := s.mapRun l fun r =>
    { unissue back r with
      resumeEnding := decide (r.state = .ending), state := .holding, holdStart := some s.stamp
      stoppedDoors := doors, stoppedTurn := turn }
  let s := withdrawStrikes l s
  let s := if l = .M then stopDrives (holdFigs s) else s
  let s := mapUnits (fun r =>
    if r.ofLane l then { r with window := r.window.map fun w => { w with suspended := true } } else r) s
  mapLamps (fun _ r => r.freeze l) s

/-- A hold reaches a lane (R72). -/
def holdLane (l : Lane) (src : HoldSource) (s : State) : State :=
  match s.run l with
  | none => s
  | some r =>
    match r.state with
    | .aborting => s
    | .loading | .holding => s.mapRun l (Run.addHold src)
    | .running | .ending => enterHold l (s.mapRun l (Run.addHold src))

/-- Command a stopped door again towards its last commanded goal (R76). -/
def resumeDoor (r : Run) (d : Door) (s : State) : State :=
  match r.stoppedDoors.get d, (s.door d).goal with
  | some i, some g => if r.skipDoors.getLsbD d.val then s else takeDoor d g (.run i) s
  | _, _ => s

/-- Command a stopped turntable again (R76). -/
def resumeTurn (r : Run) (s : State) : State :=
  match r.stoppedTurn, s.stg.turn.goal with
  | some i, some g => if r.skipTurn then s else takeTurn g (.run i) s
  | _, _ => s

/-- The run on a lane, or the given one when there is none. -/
def runOr (l : Lane) (r : Run) (s : State) : Run := (s.run l).getD r

/-- A HOLDING run resumes (R76). The drives that the hold stopped are commanded again in the order D0, D1, turntable (log
entry 86). -/
def resumeRun (l : Lane) (s : State) : State :=
  match s.run l with
  | none => s
  | some r =>
    match r.holdStart with
    | none => s
    | some h =>
      let len := s.tb.elapsed - h.elapsed
      let r := { r with
        accHold := r.accHold + len, holdStart := none, heldHost := false, heldGroups := 0
        state := if r.resumeEnding then .ending else .running }
      let s := s.setLane l { s.lane l with run := some r }
      let s := if l = .M then (recordedCues s).foldl (fun s c => resumeCue (runOr l r s) s c) s else s
      let s :=
        if l = .M then
          let s := (List.finRange 2).foldl (fun s d => resumeDoor (runOr l r s) d s) s
          resumeTurn (runOr l r s) s
        else s
      let s := s.mapRun l fun r => { r with stoppedDoors := Vector.replicate 2 none, stoppedTurn := none }
      let s := mapUnits (fun r =>
        if r.ofLane l then { r with window := r.window.map fun w => { w.shift len with suspended := false } } else r) s
      mapLamps (fun _ r => r.thaw l) s

/-- Remove sources from a lane's held-by set; a HOLDING run whose set becomes empty resumes (R75). -/
def liftHold (l : Lane) (host : Bool) (groups : BitVec 4) (s : State) : State :=
  let s := s.mapRun l fun r =>
    { r with heldHost := r.heldHost && !host, heldGroups := r.heldGroups &&& ~~~groups }
  match s.run l with
  | some r => if r.state = .holding ∧ r.isHeld = false then resumeRun l s else s
  | none => s

/-! ## The end of a run (R70, R79) -/

/-- The figures that the run leaves behind: records are lost, and a move a figure has left to wait for its CLEAR belongs
to no later run (R77). -/
def FigRec.afterRun (r : FigRec) : FigRec :=
  { r with interrupted := none, move := r.move.map fun m => { m with ended := true } }

/-- The work of a lane's run that outlasts it is no longer counted, and its link transactions are no later run's. -/
def forgetWork (l : Lane) (s : State) : State :=
  let s := { s with bell.bells := s.bell.bells.map fun r =>
      { r with strokes := r.strokes.map fun k => if k.lane = some l then { k with lane := none } else k } }
  if l = .M then
    forgetTxns { s with stg.figs := s.stg.figs.map FigRec.afterRun }
  else s

/-- The cause of a run's end. -/
def endCause (l : Lane) (o : RunOutcome) : Detail :=
  match o with
  | .aborted why => .showAborted l why
  | _ => .showEnded l o

/-- A run ends: its result is recorded, its pin released, and the cause raised (R70, R79). -/
def endRun (l : Lane) (r : Run) (o : RunOutcome) (s : State) : State :=
  let res : LastResult :=
    { subject := r.subject, origin := r.origin, start := r.start, ended := s.tb.showTime, outcome := o,
      faults := r.faults, firstFault := r.firstFault }
  let s := s.setLane l { s.lane l with run := none, last := some res }
  let s := match r.subject, r.pinned with
    | .script n, true => dropPin ⟨.script, n⟩ s
    | _, _ => s
  raise (endCause l o) (forgetWork l s)

/-! ## Arrival of show requests (R59, R61, R62) -/

/-- Where a request goes (R59). -/
inductive Place
  | on (l : Lane)
  | noScript
  | storeCheck
deriving DecidableEq, Repr

/-- The lane of a request's subject (R59). -/
def placeOf (q : Subject) (s : State) : Place :=
  match q with
  | .count _ => .on .C
  | .script n =>
    match findItem ⟨.script, n⟩ s, s.ps.op with
    | some i, _ => if i.usable then .on (headerLane i.content) else .storeCheck
    | none, some { what := .commit j c _, .. } => if j = ⟨.script, n⟩ then .on (headerLane c) else .noScript
    | none, _ => .noScript

/-- What became of a request at its arrival. -/
inductive Arrival
  | started (l : Lane)
  | queued (l : Lane) (place : Nat)
  | refusedFull
  | discarded
deriving DecidableEq, Repr

/-- A request taken as QUEUE on a busy lane (R61). -/
def queueReq (l : Lane) (q : ShowReq) (s : State) : State × Arrival :=
  let r := s.lane l
  if q.origin ≠ .host ∧ (r.queue.any fun p => p.origin == q.origin) = true then (discard .duplicate q s, .discarded)
  else if Config.laneDepth ≤ r.queue.length then
    if q.origin = .host then (s, .refusedFull) else (discard .queueFull q s, .discarded)
  else (s.setLane l { r with queue := r.queue ++ [q] }, .queued l (r.queue.length + 1))

/-- A preempting request (R62). -/
def preempt (l : Lane) (q : ShowReq) (s : State) : State × Arrival :=
  match s.run l with
  | none => queueReq l q s
  | some r =>
    if r.state = .aborting then
      if (s.lane l).successor.isSome then queueReq l q s
      else (s.setLane l { s.lane l with successor := some q }, .queued l 0)
    else
      let s := abortLane l .preempted false s
      let s := match (s.lane l).successor with
        | some old => discard .laneBusy old s
        | none => s
      (s.setLane l { s.lane l with successor := some q }, .queued l 0)

/-- A request arrives at its lane (R61). -/
def arriveAt (l : Lane) (q : ShowReq) (s : State) : State × Arrival :=
  if s.laneIdle l && !s.restraint then
    if q.stale s.tb.showTime then (discard .stale q s, .discarded) else (startRun l q s, .started l)
  else
    match q.policy with
    | .queue => queueReq l q s
    | .drop => (discard .laneBusy q s, .discarded)
    | .preempt => if s.laneIdle l then queueReq l q s else preempt l q s

/-- A trigger's request arrives at the Sequencer (R59). -/
def arrive (q : ShowReq) (s : State) : State :=
  match placeOf q.subject s with
  | .on l => (arriveAt l q s).1
  | .noScript => discard .noScript q s
  | .storeCheck => discard .storeCheck q s

/-! ## Settling: what follows in the same step -/

/-- What is still to be done in a step: lanes that look for their next request, and whether the requests that the idle
notice's step has led to are handed over before they look (R63). -/
structure Agenda where
  looks : List Lane
  handFirst : Bool
deriving DecidableEq, Repr

/-- The Scheduler has something to hand over or to work on. -/
def schBusy (s : State) : Bool := !s.sch.held.isEmpty || !s.sch.work.isEmpty

/-- The idle notice, if both lanes are IDLE, and who looks for a request next (R63). A catch-up fire and the lane's
own look may come in either order: a free value decides (log entry 6). Where the notice lifts the restraint of a forced
step, lane M looks before lane C (log entry 76). -/
def afterEnd (l : Lane) (g : Agenda) (s : State) : State × Agenda :=
  let looks (s' : State) : List Lane := if s.restraint && !s'.restraint then [.M, .C] else g.looks ++ [l]
  if s.bothIdle then
    let s' := idleNotice s
    if schBusy s' then
      ({ s' with free := s'.free + 1 }, { looks := looks s', handFirst := Config.catchUpsFirst s'.free })
    else (s', { g with looks := looks s' })
  else (s, { g with looks := g.looks ++ [l] })

/-- The next thing a lane's run does by itself: the abort a cue fault asked for, or its end (R70, R71, R79). -/
inductive LaneAct
  | abort
  | ends (o : RunOutcome)
deriving DecidableEq, Repr

def laneAct (l : Lane) (s : State) : Option LaneAct :=
  match s.run l with
  | none => none
  | some r =>
    if r.abortAsked && r.state != .aborting then some .abort
    else
      match r.state with
      | .aborting => if l = .M ∧ haltWaits s = true then none else some (.ends (.aborted (r.abortReason.getD .hostStop)))
      | .ending =>
        if workLeft l r s then none
        else some (.ends (if r.faults = 0 then .completed else .completedWithFaults))
      | _ => none

def doLane (l : Lane) (a : LaneAct) (g : Agenda) (s : State) : State × Agenda :=
  match a with
  | .abort => (abortLane l .cueFault false s, g)
  | .ends o =>
    match s.run l with
    | some r => afterEnd l g (endRun l r o s)
    | none => (s, g)

/-- Start-up has let the Sequencer take show requests (R180). -/
def seqUp (s : State) : Bool := decide (6 ≤ s.hlc.step)

/-- What the Scheduler does next: the first request made is handed over, once start-up lets it be; with none to hand
over, the first task is done (R22, R36). -/
def handNext (s : State) : Option State :=
  match s.sch.work, s.sch.held, seqUp s with
  | _, q :: qs, true => some (arrive q { s with sch.held := qs })
  | t :: ts, _, _ => some (doTask t { s with sch.work := ts })
  | [], _, _ => none

/-- What follows from an event in the same step, one thing at a time: interlocks and waiting commands, aborts and
ends of runs, the handing over of requests, and the lanes' looks for their next request. A request is met whole, with
every abort and end that follows from it, before the next is made (R22). Where both lanes' runs end in one step, both
have ended before the idle notice and before either lane looks (R11, R63; log entry 52). -/
def settleLoop : Nat → Agenda → State → State
  | 0, _, s => s
  | n + 1, g, s =>
    let s := stageCheck s
    match laneAct .M s, laneAct .C s with
    | some a, _ => let (s, g) := doLane .M a g s; settleLoop n g s
    | none, some a => let (s, g) := doLane .C a g s; settleLoop n g s
    | none, none =>
      match g.looks, handNext s with
      | l :: ls, some s' =>
        if g.handFirst then settleLoop n g s' else settleLoop n { g with looks := ls } (lookNext l s)
      | l :: ls, none => settleLoop n { looks := ls, handFirst := false } (lookNext l s)
      | [], some s' => settleLoop n g s'
      | [], none => s

/-- The bound on the things that one event leads to (log entry 68). -/
def settleBound : Nat := 1024

def settle (s : State) : State := settleLoop settleBound { looks := [], handFirst := false } s

/-- Settle after the restraint of a forced step may have been lifted: every IDLE lane looks for its next request
(R13, R63), lane M first (log entry 76). -/
def settleFreed (before s : State) : State :=
  if before.restraint && !s.restraint then settleLoop settleBound { looks := [.M, .C], handFirst := false } s
  else settle s

/-- The claims a guard ABORT withdraws: those of the strikes in the queue, of the doors and of the turntable (R110). -/
def guardDrops (s : State) (c : Claim) : Bool :=
  match c.kind with
  | .strike .. => (keysOf s.bell.strikes).contains c.kind.key
  | .figures .. => false
  | .door .. | .turntable _ => true

/-- The strike queue is emptied, and the claims that a guard ABORT withdraws leave the list together: no hammer and no
drive that it stops is started by another's units (R99, R110). -/
def guardClear (s : State) : State :=
  { s with bell.strikes := [], dbu.claims := s.dbu.claims.filter fun c => !guardDrops s c }

/-- A guard ABORT (R78, R99, R150, R158). -/
def guardAbort (s : State) : State :=
  let waits := runFigsActive s
  let gone := s.bell.strikes
  let s := abortLane .C .guard true (abortLane .M .guard true (guardClear s))
  let s := stopTurn ((List.finRange 2).foldl (fun s d => stopDoor d s) s)
  sendHalt 0 waits true 0 (grantPass (testRemoved gone s))

end Sys2Proof.Machine
end

