-- ==== Sys2Proof/Machine/Inputs.lean ====
section
/-! DEFINITION. The Input Monitor: sampling and filtering, edges, guard groups and captures (R154 to R166), and the
edges the other blocks are handed (R155). -/
namespace Sys2Proof.Machine

/-! ## Sampling and filtering (R154) -/

/-- The level held by at least two of three samples. -/
def median {w : Nat} (a b c : BitVec w) : BitVec w := (a &&& b) ||| (a &&& c) ||| (b &&& c)

/-- The filtered levels the three latest samples give, the median filter on for the inputs of a set (R154). -/
def Bank.filtered {w : Nat} (on : BitVec w) (k : Bank w) : BitVec w := (on &&& median k.s1 k.s2 k.s3) ||| (~~~on &&& k.s1)

/-- One sample of the lines (R154). -/
def Bank.sample {w : Nat} (k : Bank w) : Bank w := { k with s1 := k.pin, s2 := k.s1, s3 := k.s2 }

/-- The first sample after a reset fills the history (R154). -/
def Bank.fill {w : Nat} (k : Bank w) : Bank w := .raw k.pin

/-- The bits of a set taken from one word, the others from another. -/
def pick {w : Nat} (set new old : BitVec w) : BitVec w := (old &&& ~~~set) ||| (new &&& set)

/-- The filtered levels of a set of inputs become `levels`: where the samples do not give the new level already, the
lines and their history are at it (log entry 31). -/
def Bank.put {w : Nat} (on among levels : BitVec w) (k : Bank w) : Bank w :=
  let m := (k.filtered on ^^^ levels) &&& among
  { pin := pick m levels k.pin, s1 := pick m levels k.s1, s2 := pick m levels k.s2, s3 := pick m levels k.s3
    level := pick among levels k.level }

/-- A word with one bit set. -/
def oneBit {w : Nat} (i : Nat) : BitVec w := BitVec.ofNat w (2 ^ i)

/-- One input of a bank whose filter is always on takes a filtered level. -/
def Bank.putBit {w : Nat} (i : Nat) (v : Bool) (k : Bank w) : Bank w :=
  k.put (BitVec.allOnes w) (oneBit i) (if v then BitVec.allOnes w else 0)

/-- One sample of every input, under the input filter set as it then stands; at the first after a reset every history is
filled and no change is counted (R154). A MINUTE fall is handed to no block (R155): the level follows at the sample. -/
def sampleInputs (s : State) : State :=
  let s := { s with inm.filterOn := s.hlc.live.inputFilter }
  if s.inm.fresh then
    { s with inm := { s.inm with
        fresh := false, general := s.inm.general.fill, echo := s.inm.echo.fill, limits := s.inm.limits.fill,
        misc := s.inm.misc.fill } }
  else
    let misc := s.inm.misc.sample
    let fallen : BitVec 3 := misc.level &&& ~~~(misc.filtered (BitVec.allOnes 3)) &&& 1
    { s with inm := { s.inm with
        general := s.inm.general.sample, echo := s.inm.echo.sample, limits := s.inm.limits.sample,
        misc := { misc with level := misc.level &&& ~~~fallen } } }

/-! ## Guard groups (R157 to R160) -/

def State.group (s : State) (g : Group) : GuardRec := s.inm.groups.get g
def State.setGroup (s : State) (g : Group) (r : GuardRec) : State := { s with inm.groups := s.inm.groups.set g r }
def allGroups : List Group := List.finRange 4

/-- The selected inputs whose filtered level differs from their reference. -/
def mismatches (d : GuardDef) (levels : BitVec 16) : BitVec 16 := d.selection &&& (levels ^^^ d.reference)

/-- A trip's action (R158). Lane M takes a hold or an abort before lane C (log entry 53). -/
def guardAction (g : Group) (a : GuardAction) (s : State) : State :=
  match a with
  | .note => s
  | .hold => holdLane .C (.group g) (holdLane .M (.group g) s)
  | .abort => guardAbort s

/-- A group goes from MATCHING to MISMATCHED by an edge or by GUARD-SET (R157, R160). -/
def trip (g : Group) (m : BitVec 16) (s : State) : State :=
  let r := s.group g
  let s := s.setGroup g { r with mismatched := true, mismatching := m, settleEnd := none, trips := satInc r.trips }
  guardAction g r.defn.action (raise (.guardTrip g r.defn.action m) s)

/-- The settle end of a group that returns to MATCHING (R157). -/
def GuardRec.settling (elapsed : Nat) (r : GuardRec) : Option Nat :=
  if r.defn.action = .hold ∧ r.defn.autoResume = true then some (elapsed + r.defn.settle) else none

/-- An evaluation of a group by an edge or by GUARD-SET (R157, R160). -/
def evalGuard (g : Group) (s : State) : State :=
  let r := s.group g
  let m := mismatches r.defn s.inm.general.level
  if m ≠ 0 then
    if r.mismatched then s.setGroup g { r with mismatching := m } else trip g m s
  else if r.mismatched then
    raise (.guardClear g)
      (s.setGroup g { r with mismatched := false, mismatching := 0, settleEnd := r.settling s.tb.elapsed })
  else s

/-- The evaluation of start-up (R166): no action is taken. -/
def startGuard (g : Group) (s : State) : State :=
  let r := s.group g
  let m := mismatches r.defn s.inm.general.level
  if m ≠ 0 then
    raise (.guardTrip g r.defn.action m)
      (s.setGroup g { r with mismatched := true, mismatching := m, settleEnd := none, trips := satInc r.trips })
  else s.setGroup g { r with mismatched := false, mismatching := 0, settleEnd := none }

/-- An auto-resume has fallen due (R159). -/
def resumeDue (g : Group) (s : State) : Bool :=
  match (s.group g).settleEnd with
  | some t => decide (t ≤ s.tb.elapsed)
  | none => false

/-- A group's auto-resume falls due: the group leaves the held-by set of each lane (R159, R75). -/
def autoResume (g : Group) (s : State) : State :=
  let s := s.setGroup g { s.group g with settleEnd := none }
  liftHold .C false (1#4 <<< g.val) (liftHold .M false (1#4 <<< g.val) s)

/-! ## Captures (R162) -/

/-- One kind of edge at a unit: its mode, flag and capture before; the flag, the capture and whether one was
recorded (R162). -/
def captureKind (mode : CapMode) (flag : Bool) (cap : Option Int) (now : Int) : Bool × Option Int × Bool :=
  match mode with
  | .off => (flag, cap, false)
  | .single => if flag then (flag, cap, false) else (true, some now, true)
  | .continuous => (true, some now, true)

/-- A unit acts on an edge of its input (R162). -/
def captureEdge (u : CapUnit) (e : Edge) (s : State) : State :=
  let r := s.unit u
  let now := s.tb.showTime
  let (r', got) : CapRec × Bool :=
    match e with
    | .rise =>
      let (fl, c, got) := captureKind r.riseMode r.riseFlag r.riseCap now
      ({ r with riseFlag := fl, riseCap := c }, got)
    | .fall =>
      let (fl, c, got) := captureKind r.fallMode r.fallFlag r.fallCap now
      ({ r with fallFlag := fl, fallCap := c }, got)
  let s := s.setUnit u r'
  if got && r.owner == .host then raise (.capture u e now) s else s

/-! ## Edges (R155) -/

/-- The filtered levels of the general inputs at a sample: the captures and the groups act on the edges (R155), the
captures first and then the groups in ascending number (log entry 67). -/
def generalEdges (levels : BitVec 16) (s : State) : State :=
  let old := s.inm.general.level
  let s := { s with inm.general := s.inm.general.put s.inm.filterOn (BitVec.allOnes 16) levels }
  if s.inm.fresh then s
  else
    let changed := old ^^^ levels
    let s := allUnits.foldl (fun s u =>
      let i := (s.unit u).input.val
      if changed.getLsbD i then captureEdge u (if levels.getLsbD i then .rise else .fall) s else s) s
    if s.hlc.step < 4 then s
    else allGroups.foldl (fun s g => if (s.group g).defn.selection &&& changed ≠ 0 then evalGuard g s else s) s

/-- An edge of an echo input (R96, R98). -/
def echoEdge (b : Bell) (v : Bool) (s : State) : State :=
  let old := s.inm.echo.level.getLsbD b.val
  let s := { s with inm.echo := s.inm.echo.putBit b.val v }
  if s.inm.fresh || old == v || !v then s else s.mapBell b hearEcho

/-- An edge of a door limit; the doors take no edge before start-up has set them from their limits (R144, R153). -/
def limitEdge (d : Door) (g : Goal) (v : Bool) (s : State) : State :=
  let old := s.limit d g
  let s := { s with inm.limits := s.inm.limits.putBit (limitIndex d g) v }
  if s.inm.fresh || old == v || decide (s.hlc.step < 4) then s else doorLimitChange d g v s

/-- An edge of the turntable index input: the input gives one edge, a rise or a fall, at each position (R147, R155). -/
def tableIndexEdge (v : Bool) (s : State) : State :=
  let old := s.inm.misc.level.getLsbD 1
  let s := { s with inm.misc := s.inm.misc.putBit 1 v }
  if s.inm.fresh || old == v then s else indexEdge s

/-- An edge of the turntable home input (R147). -/
def tableHomeEdge (v : Bool) (s : State) : State :=
  let old := s.inm.misc.level.getLsbD 2
  let s := { s with inm.misc := s.inm.misc.putBit 2 v }
  if s.inm.fresh || old == v || !v then s else homeEdge s

/-- The MINUTE line falls again after a rise, and its filtered level follows with the samples (log entry 31). -/
def lowerMinute (k : Bank 3) : Bank 3 := { k with pin := k.pin &&& 6#3 }

/-- A rise of MINUTE; captures are taken up from the end of start-up step 1 (R155, R180). -/
def minuteRise (s : State) : State :=
  if s.hlc.step < 1 then s else takePulse { s with inm.misc := lowerMinute (s.inm.misc.putBit 0 true) }

end Sys2Proof.Machine
end

