-- ==== Sys2Proof/Machine/Resets.lean ====
section
/-! DEFINITION. The two resets and the steps of start-up (R35, R36, R58, R86, R105, R113, R132, R153, R166, R171,
R176, R177, R180). -/
namespace Sys2Proof.Machine

/-! ## Resets -/

/-- The pins of every item are 0 after either reset (R58). -/
def unpin (items : List Item) : List Item := items.map fun i => { i with pins := 0 }

/-- The input lines stand as they are, with nothing of their history (R154). -/
def Bank.again {w : Nat} (k : Bank w) : Bank w := .raw k.pin

/-- A power-on reset: the store's nonvolatile state, the guard definitions and the saved copy are kept, a save cut
short leaves a copy that fails its check, and every other state is as after power-up (R180, R58, R166, R179; log
entries 13 and 35). The guard groups are MATCHING until start-up evaluates them (log entry 13). -/
def powerOnReset (s : State) : State :=
  let z := State.reset
  { z with
    ps := { z.ps with
      items := unpin s.ps.items, writeLevel := s.ps.writeLevel, readLock := s.ps.readLock,
      protLock := s.ps.protLock, identity := s.ps.identity }
    inm := { z.inm with
      general := s.inm.general.again, echo := s.inm.echo.again, limits := s.inm.limits.again,
      misc := s.inm.misc.again, groups := s.inm.groups.map fun r => { GuardRec.delivered with defn := r.defn } }
    hlc := { z.hlc with saved := if s.hlc.save.isSome then .broken else s.hlc.saved }
    pending := s.pending
    free := s.free }

/-- The state of a bell that is not in FAULT after a reset (R105). -/
def restState (muted : Bool) : BellState := if muted then .muted else .quiet

/-- A bell's record at a soft reset: its drives go off and its pulse ends without a check (R105). The echo windows and
stuck tests of pulses that had ended before the reset end with it (log entry 54). -/
def BellRec.softReset (muted : Bool) (r : BellRec) : BellRec :=
  { r with
    state := if r.state = .fault then .fault else restState muted
    damperUp := false, struckSinceLift := false, strokes := [] }

/-- A figure's record after either reset: UNKNOWN if it is bound (R153). -/
def FigRec.afterReset (d : FigDef) : FigRec :=
  { FigRec.unbound with state := if d.address.isSome then .unknown else .unbound }

/-- A lamp channel at its rest level (R86). -/
def State.restLamp (s : State) (ch : Lamp) : LampRec := .resting (s.hlc.live.lampRests.get ch)

/-- A soft reset (R176): every block as its chapter gives. The voiced flag is clear until start-up loads the voicing
(R105). The line is free one byte time after the reset (R114); the trigger table is kept as it stands, empty where start-up
has not built it yet, and the guard groups keep their states until start-up evaluates them (log entry 13). -/
def softReset (s : State) : State :=
  { s with
    tb := { s.tb with held := none }
    sch.work := []
    ps := { s.ps with items := unpin s.ps.items, staging := [], stagedLen := 0, waiting := [] }
    seq := { laneM := .idle, laneC := .idle, lamps := Vector.ofFn s.restLamp }
    bell := { s.bell with
      bells := Vector.ofFn fun b => (s.bell.bells.get b).softReset (s.muted b), strikes := [], voicing := none }
    dbu := { claims := [] }
    flc := .idle (s.tb.elapsed + 1)
    stg := { s.stg with
      figs := s.stg.figDefs.map FigRec.afterReset, goTag := 1, moves := 0, goRefused := []
      doors := Vector.replicate 2 .off, turn := .unhomed }
    inm := { s.inm with
      fresh := true, groups := s.inm.groups.map fun r => { r with settleEnd := none }
      units := Vector.replicate 4 .free }
    hlc := { s.hlc with
      step := 0, powerOn := false, rx := .hunting, outstanding := none, replies := []
      causes := Vector.replicate 16 .clear } }

/-! ## Start-up (R180) -/

/-- The live record at power-on: the saved copy when its recomputed CRC agrees with the stored one and every field is in
range, else the factory defaults (R177). -/
def loadSettings (c : SavedCopy) : Settings × Source :=
  match c with
  | .written r crc => if r.crc = crc ∧ r.ok = true then (r, .saved) else (.factory, .defaulted)
  | .never | .broken => (.factory, .defaulted)

/-- The settings taken at power-on, DEFAULTED raised when they are the factory's (R177). -/
def takeSettings (s : State) : State :=
  let (r, src) := loadSettings s.hlc.saved
  let s := { s with hlc.live := r, hlc.source := src }
  if src = .defaulted then raise (.settingsEvent .defaulted) s else s

/-- The Timebase in start-up step 1 (R180). -/
def startTimebase (s : State) : State :=
  { s with tb := { s.tb with
      disc := if s.hlc.live.discipline then .seeking else .off
      held := none, correction := 0, slewPhase := 0, lastPulse := none, lossAt := none } }

/-- A SAVED occurrence that came before the clearing is raised after it (R179). -/
def raiseSaved (s : State) : State :=
  if s.hlc.savedPending then
    raise (.settingsEvent .saved) { s with hlc.savedPending := false }
  else s

/-- At power-on the default programme is the active one until the seasons are evaluated (R35). -/
def startProgramme (s : State) : State :=
  if s.hlc.powerOn then { s with sch.active := s.hlc.live.defaultProgramme, sch.chosenBy := none } else s

/-- Step 1: the causes are cleared, the settings loaded or kept, the lamps take their rest levels, the bells their
mutes, and the receiver begins hunting (R180, R86, R105, R181). The claim list is empty, as the reset left it, when
the budget is put in force (R113). The first sample after the reset is taken under the filter set now in force (R154;
log entry 31). -/
def startSettings (s : State) : State :=
  let s := clearCauses { s with hlc.step := 1, hlc.rx := .hunting, dbu.claims := [] }
  let s := if s.hlc.powerOn then takeSettings s else s
  let s := sampleInputs (startProgramme (raiseSaved (startTimebase s)))
  { s with
    seq.lamps := Vector.ofFn s.restLamp
    bell.bells := Vector.ofFn fun b => (s.bell.bells.get b).softReset (s.muted b) }

/-- Step 2: the check pass (R50). -/
def startStore (s : State) : State := checkPass { s with hlc.step := 2 }

/-- The trigger table is built from the content loaded (R35). -/
def builtFrom (defs : Option (Vector TrigDef 32)) (s : State) : State :=
  { s with sch.trigs := buildTable defs s.sch.trigs, sch.built := true }

/-- A block takes the copy that its load of an item is answered with (R30, R29, R35, R87, R133). -/
def takeLoad (k : ItemKind) (s : State) : State :=
  match k with
  | .seasons =>
    let (s, es) := loadCopy ⟨.seasons, 0⟩ parseSeasonsItem s
    evalSeasons { s with sch.seasons := es }
  | .programmes =>
    let (s, ps) := loadCopy ⟨.programmes, 0⟩ parseProgrammesItem s
    evalSeasons { s with sch.programmes := ps }
  | .triggers =>
    let (s, defs) := loadCopy ⟨.triggers, 0⟩ parseTriggersItem s
    builtFrom defs s
  | .voicing =>
    let (s, v) := loadCopy ⟨.voicing, 0⟩ parseVoicingItem s
    takeVoicing v s
  | .figures =>
    let (s, m) := loadCopy ⟨.figures, 0⟩ parseFiguresItem s
    takeMachinery (m.getD noMachinery) s
  | .script => s

/-- A block's load of its item: answered at once, or joined to the waiting loads while a store operation concerns the
item (R44, R47). The block then goes on without the copy until the load is answered (log entry 55). -/
def loadBlock (k : ItemKind) (s : State) : State :=
  if opConcerns ⟨k, 0⟩ s then joinWaiting (.block k) s else takeLoad k s

/-- The trigger table at start-up: built when a power-on reset has come since it last was, recomputed otherwise (R35,
R36). -/
def loadTable (s : State) : State := if s.sch.built then recomputeTable s else loadBlock .triggers s

/-- Step 3: the Scheduler takes its copies, evaluates the seasons, and builds or recomputes its table; the Bell Controller
and the Stage Controller load their items (R180). -/
def startItems (s : State) : State :=
  let s := evalSeasons (loadBlock .programmes (loadBlock .seasons { s with hlc.step := 3 }))
  loadBlock .figures (loadBlock .voicing (loadTable s))

/-- A waiting load is answered (R49): a run's, or a block's. -/
def answerOne (w : Waiter) (s : State) : State :=
  match w with
  | .lane l => answerLoad l s
  | .block k => takeLoad k s

/-- Waiting loads are answered in the order they were appended (R49). -/
def answerWaiting (s : State) : State :=
  s.ps.waiting.foldl (fun s w => answerOne w s) { s with ps.waiting := [] }

/-- A door's state from its limits (R153). -/
def doorFromLimits (s : State) (d : Door) : DoorRec :=
  { DoorRec.off with
    state := match s.limit d .closed, s.limit d .opened with
      | true, false => .closed
      | false, true => .opened
      | _, _ => .unknown }

/-- The stage's records at start-up (R153). -/
def startStage (s : State) : State :=
  { s with stg := { s.stg with
      figs := s.stg.figDefs.map FigRec.afterReset, goTag := 1, moves := 0, goRefused := []
      doors := Vector.ofFn (doorFromLimits s), turn := .unhomed } }

/-- Step 4: at one sample the stage takes its records and the guard groups are evaluated, in ascending index (R180, R153,
R166; log entry 92). -/
def startDoors (s : State) : State :=
  allGroups.foldl (fun s g => startGuard g s) (startStage { s with hlc.step := 4 })

/-- Step 5: the broadcast HALT and the wake are queued, and the poll ticks begin (R180, R132; log entry 18). -/
def startLink (s : State) : State :=
  let s := { s with hlc.step := 5, flc.nextTick := some (s.tb.elapsed + 20) }
  requestWake false (sendHalt 0 false false 0 s)

/-- Step 6: UNSET is raised, and the requests made during start-up are handed over (R180, R36). -/
def startTime (s : State) : State :=
  let s := { s with hlc.step := 6 }
  settle (if s.tb.valid then s else raise (.timeEvent .unset) s)

/-- An event that takes place only while its condition holds (log entry 1). -/
def whenDue (due : Bool) (f : State → State) (s : State) : State := if due then f s else s

/-- A start-up step begins when the one before it has ended (R180). -/
def afterStep (n : Nat) (f : State → State) (s : State) : State := whenDue (decide (s.hlc.step = n)) f s

end Sys2Proof.Machine
end

