-- ==== Sys2Proof/Machine/BellCmds.lean ====
section
/-! DEFINITION. The commands of the Bell Controller and of the Drive Budget Unit (R88 to R104, R112). -/
namespace Sys2Proof.Machine

/-! ## Requests -/

/-- A BELL-STRIKE whose values are in range (R103). -/
def hostStrike (b : Bell) (velocity : Nat) (s : State) : State :=
  let due := s.tb.showTime + Config.strikeLead
  match strikeRefusal b due s with
  | none => reply 0x40#8 .ok (.strike due) (offerStrike b velocity due .host s)
  | some .full => reply 0x40#8 .full .none (offerStrike b velocity due .host s)
  | some r => reply 0x40#8 .notNow (.strikeRefused r) (offerStrike b velocity due .host s)

/-- BELL-STRIKE (R103). -/
def bellStrikeReq (bell velocity : Nat) : State → State :=
  gated 0x40#8 fun s =>
    match toFin 20 bell with
    | some b => if within 1 8 velocity then hostStrike b velocity s else reply 0x40#8 .badValue .none s
    | none => reply 0x40#8 .badValue .none s

/-- A list of bells as a set; none if it is empty or holds a bell out of range (R92). -/
def bellSet (bs : List Nat) : Option (BitVec 20) :=
  if bs.isEmpty || bs.any (fun b => decide (20 ≤ b)) then none
  else some (bs.foldl (fun w b => w ||| (1#20 <<< b)) 0)

/-- BELL-DAMP (R92). -/
def bellDampReq (bells : List Nat) : State → State :=
  gated 0x41#8 fun s =>
    match bellSet bells with
    | some w => reply 0x41#8 .ok .none (dampBells w s)
    | none => reply 0x41#8 .badValue .none s

/-- BELL-MUTE (R100). -/
def bellMuteReq (bell : Nat) (on : Bool) : State → State :=
  gated 0x42#8 fun s =>
    match toFin 20 bell with
    | some b => settle (reply 0x42#8 .ok .none (setMute b on s))
    | none => reply 0x42#8 .badValue .none s

/-- A bell's record after a BELL-CLEAR (R101). -/
def BellRec.clear (counters muted : Bool) (r : BellRec) : BellRec :=
  let r := if r.state = .fault then { r with state := restState muted, reason := none, missCount := 0 } else r
  if counters then { r with counters := .zero } else r

/-- BELL-CLEAR (R101). -/
def bellClearReq (bell : Nat) (counters : Bool) : State → State :=
  gated 0x43#8 fun s =>
    match toFin 20 bell with
    | none => reply 0x43#8 .badValue .none s
    | some b =>
      if (s.bellRec b).state = .fault ∨ counters = true then
        reply 0x43#8 .ok .none (s.mapBell b (BellRec.clear counters (s.muted b)))
      else reply 0x43#8 .notNow .none s

/-- BELL-STATUS (R104). -/
def bellStatusReq : State → State :=
  gated 0x44#8 fun s =>
    reply 0x44#8 .ok
      (.bellStatus s.bell.voicing.isSome s.bell.queueFull s.hlc.live.bellMutes s.bell.bells s.bell.strikes) s

/-- BUDGET-GET (R112). The GRANTED claims are given in the order of the claim list (log entry 88). -/
def budgetGetReq : State → State :=
  gated 0x48#8 fun s =>
    reply 0x48#8 .ok
      (.budget s.hlc.live.budget s.held (s.dbu.claims.filter (·.granted))
        ((waitingOrder s.dbu.claims).map fun c => (c, s.tb.elapsed - c.arrival))) s

/-- BELL_STRIKE. -/
def execBellStrike (bell velocity : Nat) (s : State) : Host.Outcome State Fault Refusal :=
  .next (bellStrikeReq bell velocity s)

/-- BELL_DAMP. -/
def execBellDamp (bells : List Nat) (s : State) : Host.Outcome State Fault Refusal := .next (bellDampReq bells s)

/-- BELL_MUTE. -/
def execBellMute (bell : Nat) (on : Bool) (s : State) : Host.Outcome State Fault Refusal :=
  .next (bellMuteReq bell on s)

/-- BELL_CLEAR. -/
def execBellClear (bell : Nat) (counters : Bool) (s : State) : Host.Outcome State Fault Refusal :=
  .next (bellClearReq bell counters s)

/-- BELL_STATUS. -/
def execBellStatus (s : State) : Host.Outcome State Fault Refusal := .next (bellStatusReq s)

/-- BUDGET_GET. -/
def execBudgetGet (s : State) : Host.Outcome State Fault Refusal := .next (budgetGetReq s)

/-! ## Events -/

/-- The first queued strike of a bell for which a condition holds, in the queue's order (R89). -/
def strikeWhere (b : Bell) (p : Strike → Bool) (s : State) : Option Strike :=
  s.bell.strikes.find? fun k => k.bell == b && p k

/-- The strike of a bell whose damper lifts now (R90). -/
def strikeToLift (b : Bell) (s : State) : Option Strike := strikeWhere b (fun k => liftDue k s) s

/-- The strike of a bell that claims now (R93). -/
def strikeToClaim (b : Bell) (s : State) : Option Strike := strikeWhere b (fun k => claimDue k s) s

/-- The strike of a bell that has reached its deadline (R95). -/
def strikeToDrop (b : Bell) (s : State) : Option Strike := strikeWhere b (Strike.late s.tb.showTime) s

/-- A pulse of the bell has run its width (R94). -/
def pulseDue (b : Bell) (s : State) : Bool :=
  (s.bellRec b).strokes.any fun k => k.pulseOn && decide (k.pulseEnd ≤ s.tb.elapsed)

/-- An echo window of the bell has run out (R96). -/
def echoDue (b : Bell) (s : State) : Bool :=
  (s.bellRec b).strokes.any fun k => k.echoOpen && decide (k.echoClose ≤ s.tb.elapsed)

/-- The stuck test of a pulse of the bell is due (R97). -/
def stuckDue (b : Bell) (s : State) : Bool :=
  (s.bellRec b).strokes.any fun k => k.stuckDue && decide (k.stuckAt ≤ s.tb.elapsed)

/-- DAMPER_LIFT (R90). -/
def execDamperLift (bell : Bell) (s : State) : Host.Outcome State Fault Refusal :=
  match strikeToLift bell s with
  | some k => .next (liftFor k s)
  | none => .next s

/-- STRIKE_CLAIM (R93). -/
def execStrikeClaim (bell : Bell) (s : State) : Host.Outcome State Fault Refusal :=
  match strikeToClaim bell s with
  | some k => .next (settle (claimStrike k s))
  | none => .next s

/-- PULSE_END (R94). -/
def execPulseEnd (bell : Bell) (s : State) : Host.Outcome State Fault Refusal :=
  .next (whenDue (pulseDue bell s) (fun s => settle (endPulse bell s)) s)

/-- STRIKE_DEADLINE (R95). -/
def execStrikeDeadline (bell : Bell) (s : State) : Host.Outcome State Fault Refusal :=
  match strikeToDrop bell s with
  | some k => .next (settle (dropLate k s))
  | none => .next s

/-- ECHO_WINDOW_CLOSE (R96). -/
def execEchoWindowClose (bell : Bell) (s : State) : Host.Outcome State Fault Refusal :=
  .next (whenDue (echoDue bell s) (fun s => settle (closeEcho bell s)) s)

/-- STUCK_ECHO_TEST (R97). -/
def execStuckEchoTest (bell : Bell) (s : State) : Host.Outcome State Fault Refusal :=
  .next (whenDue (stuckDue bell s) (fun s => settle (testStuck bell s)) s)

/-- DAMPER_DROP (R91). -/
def execDamperDrop (bell : Bell) (s : State) : Host.Outcome State Fault Refusal :=
  .next (testDamper bell s)

/-- ECHO_EDGE (R96, R98). -/
def execEchoEdge (bell : Bell) (level : Bool) (s : State) : Host.Outcome State Fault Refusal :=
  .next (echoEdge bell level s)

end Sys2Proof.Machine
end

