-- ==== Sys2Proof/Machine/InputCmds.lean ====
section
/-! DEFINITION. The commands of the Input Monitor (R155 to R165). -/
namespace Sys2Proof.Machine

/-! ## Requests -/

/-- INPUT-GET (R156): the filter set in force is the one of the latest sample (R154). -/
def inputGetReq : State → State :=
  gated 0x68#8 fun s =>
    reply 0x68#8 .ok
      (.inputs s.inm.general.level s.inm.echo.level s.inm.limits.level s.inm.misc.level s.inm.general.s1
        s.inm.filterOn) s

/-- A group as its new definition finds it: a pending settle end is discarded, and a group that was settling settles
afresh if the new definition provides for it (R160). -/
def GuardRec.redefine (elapsed : Nat) (d : GuardDef) (r : GuardRec) : GuardRec :=
  let r' := { r with defn := d }
  { r' with settleEnd := if r.settleEnd.isSome then r'.settling elapsed else none }

/-- A guard group's new definition, evaluated at once (R160). -/
def setGuard (g : Group) (d : GuardDef) (s : State) : State :=
  evalGuard g (s.setGroup g ((s.group g).redefine s.tb.elapsed d))

/-- GUARD-SET (R160). -/
def guardSetReq (group : Nat) (defn : GuardArgs) : State → State :=
  gated 0x69#8 fun s =>
    match toFin 4 group, guardOf defn with
    | some g, some d =>
      let s := setGuard g d s
      settle (reply 0x69#8 .ok (.guardSet (s.group g).mismatched (s.group g).mismatching) s)
    | _, _ => reply 0x69#8 .badValue .none s

/-- GUARD-GET; with the clear flag the trip counts become 0 after they are read (R161). -/
def guardGetReq (clear : Bool) : State → State :=
  gated 0x6A#8 fun s =>
    reply 0x6A#8 .ok (.guards s.inm.groups s.tb.elapsed)
      (if clear then { s with inm.groups := s.inm.groups.map fun r => { r with trips := 0 } } else s)

def CapRec.ofRun (r : CapRec) : Bool := match r.owner with | .run _ _ => true | _ => false

/-- The unit a CAPTURE-SET makes, none for a value out of range (R163). -/
def captureOf : CaptureArgs → Option CapRec
  | .free => some .free
  | .host input rise fall =>
    match toFin 16 input, rise, fall with
    | some i, .val r, .val f => some { CapRec.free with owner := .host, input := i, riseMode := r, fallMode := f }
    | _, _, _ => none
  | .other _ => none

/-- CAPTURE-SET (R163). -/
def captureSetReq (unit : Nat) (args : CaptureArgs) : State → State :=
  gated 0x6B#8 fun s =>
    match toFin 4 unit, captureOf args with
    | some u, some r => if (s.unit u).ofRun then reply 0x6B#8 .inUse .none s else reply 0x6B#8 .ok .none (s.setUnit u r)
    | _, _ => reply 0x6B#8 .badValue .none s

def readsRise (e : EdgeSel) : Bool := match e with | .fall => false | _ => true
def readsFall (e : EdgeSel) : Bool := match e with | .rise => false | _ => true

/-- A CAPTURE-GET clears the flags it reads of a HOST-owned unit (R164). -/
def CapRec.clearRead (e : EdgeSel) (r : CapRec) : CapRec :=
  if r.owner = .host then
    { r with riseFlag := r.riseFlag && !readsRise e, fallFlag := r.fallFlag && !readsFall e }
  else r

/-- CAPTURE-GET (R164). -/
def captureGetReq (unit : Nat) (edges : Coded EdgeSel) : State → State :=
  gated 0x6C#8 fun s =>
    match toFin 4 unit, edges with
    | some u, .val e =>
      let r := s.unit u
      reply 0x6C#8 .ok
        (.captureGet r.owner r.input r.riseMode r.fallMode
          (if readsRise e then some (r.riseFlag, r.riseCap) else none)
          (if readsFall e then some (r.fallFlag, r.fallCap) else none) r.window)
        (s.setUnit u (r.clearRead e))
    | _, _ => reply 0x6C#8 .badValue .none s

/-- INPUT_GET. -/
def execInputGet (s : State) : Host.Outcome State Fault Refusal := .next (inputGetReq s)

/-- GUARD_SET. -/
def execGuardSet (group : Nat) (defn : GuardArgs) (s : State) : Host.Outcome State Fault Refusal :=
  .next (guardSetReq group defn s)

/-- GUARD_GET. -/
def execGuardGet (clear : Bool) (s : State) : Host.Outcome State Fault Refusal := .next (guardGetReq clear s)

/-- CAPTURE_SET. -/
def execCaptureSet (unit : Nat) (args : CaptureArgs) (s : State) : Host.Outcome State Fault Refusal :=
  .next (captureSetReq unit args s)

/-- CAPTURE_GET. -/
def execCaptureGet (unit : Nat) (edges : Coded EdgeSel) (s : State) : Host.Outcome State Fault Refusal :=
  .next (captureGetReq unit edges s)

/-! ## Events -/

/-- GENERAL_INPUT_EDGE: the filtered levels of the general inputs at a sample (R155, R157, R162). -/
def execGeneralInputEdge (levels : BitVec 16) (s : State) : Host.Outcome State Fault Refusal :=
  .next (settle (generalEdges levels s))

/-- AUTO_RESUME (R159). -/
def execAutoResume (group : Group) (s : State) : Host.Outcome State Fault Refusal :=
  .next (whenDue (resumeDue group s) (fun s => settle (autoResume group s)) s)

/-- CAPTURE_WINDOW_CLOSE (R165). -/
def execCaptureWindowClose (unit : CapUnit) (s : State) : Host.Outcome State Fault Refusal :=
  .next (whenDue (windowDue unit s) (fun s => settle (closeWindow unit s)) s)

end Sys2Proof.Machine
end

