-- ==== Sys2Proof/Machine/LinkCmds.lean ====
section
/-! DEFINITION. The commands of the Figure Link Controller (R118 to R131). -/
namespace Sys2Proof.Machine

/-! ## Requests -/

/-- The line's condition (R131). Where several hold, the first of this order is given (log entry 56); a transaction that
waits for its retry is still in flight (R120). -/
def lineCondition (s : State) : LineCondition :=
  if s.flc.stuck then .stuck
  else if inLow s then .waking
  else if inSettle s then .settling
  else if s.flc.lowSince.isSome then .heldLow
  else if s.flc.flight.isSome || !s.flc.retry.isEmpty then .inTransaction
  else .idle

def Txn.view (t : Txn) : TxnView := { kind := t.kind, address := t.address, cls := t.cls, attempts := t.attempts }

/-- The view of a wake in its low period, in which it is in flight (R126). -/
def wakeView : TxnView := { kind := .wake, address := 0, cls := .show_, attempts := 1 }

/-- The transaction in flight as LINK-STATUS gives it (R131): on the line, waiting for its retry (R120), or a wake in its
low period (R126). -/
def flightView (s : State) : Option TxnView :=
  match s.flc.flight, s.flc.retry with
  | some f, _ => some f.txn.view
  | none, r :: _ => some r.txn.view
  | none, [] => if inLow s then some wakeView else none

/-- The queue in the order it is taken (R123). -/
def takeOrder (q : List Txn) : List Txn :=
  [TxnClass.urgent, .show_, .host, .poll].flatMap fun c => q.filter fun t => t.cls == c

/-- A second sweep is pending: one is under way (R122, R131). -/
def secondSweep (s : State) : Bool := s.flc.sweep.isSome && s.flc.sweepPending

/-- LINK-STATUS; with the clear flag the counters become 0 after they are read (R131). -/
def linkStatusReq (clear : Bool) : State → State :=
  gated 0x50#8 fun s =>
    let d : ReplyData := .linkStatus (lineCondition s) (flightView s) (!s.flc.retry.isEmpty)
      ((takeOrder s.flc.queue).map Txn.view) (s.flc.sweep.map fun _ => sweepLeft s) (secondSweep s) s.flc.nodes
      (watchSet s) s.flc.counters
    reply 0x50#8 .ok d (if clear then { s with flc.counters := .zero } else s)

/-- LINK-WAKE (R131). -/
def linkWakeReq : State → State :=
  gated 0x51#8 fun s =>
    if wakeRefused s then reply 0x51#8 .busy .none (requestWake false s) else reply 0x51#8 .ok .none (requestWake false s)

/-- The link kind a NODE-QUERY names, if its code is in range. -/
def queryKind : Coded QueryKind → Option LinkKind
  | .val .status => some .status
  | .val .ident => some .ident
  | .other _ => none

/-- A NODE-QUERY's transaction enters the queue, and its reply waits (R130). -/
def queryNode (k : LinkKind) (a : Fin 16) (s : State) : State :=
  let o := TxnOwner.query (replyTag 0x52#8 s)
  let s' := enqueue k a [] o s
  match linkAnswer s with
  | .queued => s'
  | .full => linkRefused o s'
  | .stuck => linkFailed o .lineStuck s'

/-- NODE-QUERY (R130). -/
def nodeQueryReq (address : Nat) (kind : Coded QueryKind) : State → State :=
  gated 0x52#8 fun s =>
    match toFin 16 address, queryKind kind with
    | some a, some k => if a = 0 then reply 0x52#8 .badValue .none s else queryNode k a s
    | _, _ => reply 0x52#8 .badValue .none s

/-- LINK_STATUS. -/
def execLinkStatus (clear : Bool) (s : State) : Host.Outcome State Fault Refusal := .next (linkStatusReq clear s)

/-- LINK_WAKE. -/
def execLinkWake (s : State) : Host.Outcome State Fault Refusal := .next (linkWakeReq s)

/-- NODE_QUERY. -/
def execNodeQuery (address : Nat) (kind : Coded QueryKind) (s : State) : Host.Outcome State Fault Refusal :=
  .next (nodeQueryReq address kind s)

/-! ## Attempts -/

/-- TRANSACTION_START (R123). -/
def execTransactionStart (s : State) : Host.Outcome State Fault Refusal :=
  match takeNext s with
  | some x => .next (take x s)
  | none => .next s

/-- RETRY_ATTEMPT (R120). -/
def execRetryAttempt (s : State) : Host.Outcome State Fault Refusal := .next (whenDue (retryReady s) retryNow s)

/-- READBACK_ERROR at a bit of a byte of the frame being sent (R118). -/
def execReadbackError (byte bit : Nat) (s : State) : Host.Outcome State Fault Refusal :=
  match s.flc.flight with
  | some f =>
    .next (whenDue (canMismatch f byte bit s.tb.elapsed)
      (fun s => settle (failAttempt (readbackKind f.txn byte bit) s)) s)
  | none => .next s

/-- An answer has not begun in time (R119). -/
def answerLate (s : State) : Bool :=
  match s.flc.flight with
  | some f => decide (0 < f.txn.kind.answerBytes) && f.answer.isNone && decide (f.noAnswerAt ≤ s.tb.elapsed)
  | none => false

/-- A byte of an answer may have ended (R119). -/
def byteMayEnd (s : State) : Bool :=
  match s.flc.flight with
  | some f => decide (0 < f.txn.kind.answerBytes) && decide (f.firstByteAt ≤ s.tb.elapsed)
  | none => false

/-- The gap limit may have passed between two bytes of an answer (R119). -/
def gapMayPass (s : State) : Bool :=
  match s.flc.flight with
  | some f => decide (1 < f.txn.kind.answerBytes) && decide (f.gapAt s.hlc.live.gapLimit ≤ s.tb.elapsed)
  | none => false

/-- NO_ANSWER (R119). -/
def execNoAnswer (s : State) : Host.Outcome State Fault Refusal :=
  .next (whenDue (answerLate s) (fun s => settle (failAttempt .noAnswer s)) s)

/-- FRAME_ERROR (R119). -/
def execFrameError (s : State) : Host.Outcome State Fault Refusal :=
  .next (whenDue (byteMayEnd s) (fun s => settle (failAttempt .frameError s)) s)

/-- GAP_TIMEOUT (R119). -/
def execGapTimeout (s : State) : Host.Outcome State Fault Refusal :=
  .next (whenDue (gapMayPass s) (fun s => settle (failAttempt .gapTimeout s)) s)

/-- A whole answer arrives for a transaction of a kind, if one awaits it. -/
def answered (k : LinkKind) (f : Txn → State → State) (s : State) : State :=
  match awaits k s with
  | some t => settle (f t s)
  | none => s

/-- STATUS_ANSWER (R134). -/
def execStatusAnswer (bytes : List Byte) (s : State) : Host.Outcome State Fault Refusal :=
  .next (answered .status (fun t s => takeStatus t bytes s) s)

/-- STAGE_ANSWER (R137). -/
def execStageAnswer (byte : Byte) (s : State) : Host.Outcome State Fault Refusal :=
  .next (answered .stage (fun t s => takeStage t byte s) s)

/-- CLEAR_ANSWER (R137). -/
def execClearAnswer (byte : Byte) (s : State) : Host.Outcome State Fault Refusal :=
  .next (answered .clear (fun t s => takeClear t byte s) s)

/-- HOME_ANSWER (R143). -/
def execHomeAnswer (byte : Byte) (s : State) : Host.Outcome State Fault Refusal :=
  .next (answered .home (fun t s => takeHome t byte s) s)

/-- IDENT_ANSWER (R130). -/
def execIdentAnswer (bytes : List Byte) (s : State) : Host.Outcome State Fault Refusal :=
  .next (answered .ident (fun t s => takeIdent t bytes s) s)

/-- The frame in flight, of a kind without an answer, has been sent whole (R116). -/
def sentWhole (k : LinkKind) (s : State) : Option Txn :=
  match s.flc.flight with
  | some f => if f.txn.kind = k ∧ f.stopAfter = none ∧ f.sentAt ≤ s.tb.elapsed then some f.txn else none
  | none => none

/-- A GO has completed (R139); one its owner has withdrawn ends without a report (R124). -/
def finishGo (t : Txn) (s : State) : State :=
  let s := endFlight s
  match t.owner, t.disowned with
  | .go tag, false => goDone tag s
  | _, _ => s

/-- GO_COMPLETE (R139). -/
def execGoComplete (s : State) : Host.Outcome State Fault Refusal :=
  match sentWhole .go s with
  | some t => .next (settle (finishGo t s))
  | none => .next s

/-- HALT_COMPLETE (R125). -/
def execHaltComplete (s : State) : Host.Outcome State Fault Refusal :=
  match sentWhole .halt s with
  | some t => .next (settle (haltDone t.address t.owner (endFlight s)))
  | none => .next s

/-- An overtaking HALT has ended the frame at its present byte (R128). -/
def stopDue (s : State) : Bool :=
  match s.flc.flight with
  | some f =>
    match f.stopAfter with
    | some t => decide (t ≤ s.tb.elapsed)
    | none => false
  | none => false

/-- TRANSACTION_ABANDONED (R128). -/
def execTransactionAbandoned (s : State) : Host.Outcome State Fault Refusal :=
  .next (whenDue (stopDue s) (fun s => settle (abandon s)) s)

/-! ## The line -/

/-- An alert (R122): a low period of the line begins, and the line is held low until it is told to be high (R129; log
entry 23). One that comes on a STUCK line follows a high of less than a byte time, and the line stays STUCK. -/
def takeAlert (s : State) : State :=
  countLink (fun c => { c with alerts := satInc c.alerts })
    { s with flc.sweepPending := true, flc.lowSince := some s.tb.elapsed }

/-- ALERT (R122). -/
def execAlert (s : State) : Host.Outcome State Fault Refusal := .next (whenDue (lineQuiet s) takeAlert s)

/-- The low of the line has lasted 100 ms (R129); a low of which the model has not been told is taken as told. -/
def lowTooLong (s : State) : Bool :=
  lineQuiet s && !s.flc.stuck && match s.flc.lowSince with | some t => decide (t + 100 ≤ s.tb.elapsed) | none => true

/-- LINE_STUCK (R129). -/
def execLineStuck (s : State) : Host.Outcome State Fault Refusal :=
  .next (whenDue (lowTooLong s) (fun s => settle (lineSticks s)) s)

/-- LINE_RELEASED (R129). -/
def execLineReleased (s : State) : Host.Outcome State Fault Refusal := .next (whenDue s.flc.lowSince.isSome lineFrees s)

/-! ## The wake (R126) -/

def lowOver (s : State) : Bool :=
  match s.flc.wake with
  | some (.low t) => decide (t ≤ s.tb.elapsed)
  | _ => false

def settleOver (s : State) : Bool :=
  match s.flc.wake with
  | some (.settle t) => decide (t ≤ s.tb.elapsed)
  | _ => false

/-- The low period ends and the settle period of 10 ms begins (R126). -/
def endLow (s : State) : State := freeLine { s with flc.wake := some (.settle (s.tb.elapsed + 10)) }

/-- An ASLEEP node is AWAKE and unconfirmed after the wake (R121). -/
def NodeRec.wake (n : NodeRec) : NodeRec :=
  if n.state = .asleep then { n with state := .awake, confirmed := false } else n

/-- The settle period ends: ASLEEP nodes are AWAKE and unconfirmed (R126, R121). -/
def endSettle (s : State) : State := { s with flc.wake := none, flc.nodes := s.flc.nodes.map NodeRec.wake }

/-- A refused wake can be made again: the queue has room (R126). -/
def wakeAgain (s : State) : Bool := s.flc.wakePending && decide (s.flc.queue.length < Config.linkDepth)

/-- The pending wake is made, if some bound node is still ASLEEP (R126). -/
def makeWake (s : State) : State :=
  let s := { s with flc.wakePending := false }
  if someAsleep s then requestWake true s else s

/-- WAKE_LOW_END (R126). -/
def execWakeLowEnd (s : State) : Host.Outcome State Fault Refusal := .next (whenDue (lowOver s) endLow s)

/-- WAKE_COMPLETE (R126). -/
def execWakeComplete (s : State) : Host.Outcome State Fault Refusal := .next (whenDue (settleOver s) endSettle s)

/-- WAKE_PENDING (R126). -/
def execWakePending (s : State) : Host.Outcome State Fault Refusal := .next (whenDue (wakeAgain s) makeWake s)

/-! ## The poller and the host's entries -/

/-- A poll tick is due (R127). -/
def tickDue (s : State) : Bool :=
  match s.flc.nextTick with
  | some t => decide (t ≤ s.tb.elapsed)
  | none => false

/-- POLL_TICK (R127). -/
def execPollTick (s : State) : Host.Outcome State Fault Refusal := .next (whenDue (tickDue s) pollTick s)

/-- The oldest host entry that has waited 250 ms (R123). -/
def expired (s : State) : Option Txn :=
  s.flc.queue.find? fun t => t.cls == .host && decide (t.arrival + 250 ≤ s.tb.elapsed)

/-- HOST_ENTRY_TIMEOUT (R123, R130). -/
def execHostEntryTimeout (s : State) : Host.Outcome State Fault Refusal :=
  match expired s with
  | some t => .next (linkRefused t.owner { s with flc.queue := s.flc.queue.erase t })
  | none => .next s

end Sys2Proof.Machine
end

