-- ==== Sys2Proof/Machine/SchedulerCmds.lean ====
section
/-! DEFINITION. The commands of the Scheduler (R21, R24, R31 to R34). -/
namespace Sys2Proof.Machine

/-! ## Requests -/

/-- The trigger table is protected at write level 2 and above (R51). -/
def tableLocked (s : State) : Bool := decide (2 ≤ s.ps.writeLevel.val)

/-- Write an entry's definition and arm or disable it (R31), after a change of date that has still to be acted on
(R22). -/
def writeTrig (i : Trig) (d : TrigDef) (s : State) : State :=
  armOrDisable i s.tb.showTime ((takeDate s).mapTrig i fun r => { r with defn := d, followOn := none })

/-- TRIG-SET (R31). -/
def trigSetReq (index : Nat) (args : TrigArgs) (armed : Bool) : State → State :=
  gated 0x18#8 fun s =>
    if tableLocked s then reply 0x18#8 .locked .none s
    else
      match toFin 32 index, trigOfArgs args armed with
      | some i, some d =>
        let s := writeTrig i d s
        settle (reply 0x18#8 .ok (.trigSet (s.trig i).state (s.trig i).next) s)
      | _, _ => reply 0x18#8 .badValue .none s

/-- TRIG-GET (R33). -/
def trigGetReq (index : Nat) : State → State :=
  gated 0x19#8 fun s =>
    match toFin 32 index with
    | some i => reply 0x19#8 .ok (.trigGet (s.trig i) ((s.trig i).lastFire.map lastFireAt)) s
    | none => reply 0x19#8 .badValue .none s

/-- TRIG-DISARM (R32). -/
def trigDisarmReq (index : Nat) : State → State :=
  gated 0x1A#8 fun s =>
    if tableLocked s then reply 0x1A#8 .locked .none s
    else
      match toFin 32 index with
      | some i => reply 0x1A#8 .ok .none (s.mapTrig i disable)
      | none => reply 0x1A#8 .badValue .none s

/-- SEASON-GET (R34). -/
def seasonGetReq : State → State :=
  gated 0x1B#8 fun s =>
    reply 0x1B#8 .ok
      (.seasonGet s.sch.active s.sch.chosenBy (s.sch.seasons.getD []).length s.sch.programmes.isSome) s

/-- TRIG_SET. -/
def execTrigSet (index : Nat) (args : TrigArgs) (arm : Bool) (s : State) : Host.Outcome State Fault Refusal :=
  .next (trigSetReq index args arm s)

/-- TRIG_GET. -/
def execTrigGet (index : Nat) (s : State) : Host.Outcome State Fault Refusal := .next (trigGetReq index s)

/-- TRIG_DISARM. -/
def execTrigDisarm (index : Nat) (s : State) : Host.Outcome State Fault Refusal := .next (trigDisarmReq index s)

/-- SEASON_GET. -/
def execSeasonGet (s : State) : Host.Outcome State Fault Refusal := .next (seasonGetReq s)

/-! ## Events -/

/-- TRIGGER_FIRE (R21, R23), in the order of R22. -/
def execTriggerFire (index : Trig) (s : State) : Host.Outcome State Fault Refusal :=
  .next (whenDue (decide (nextFire s = some (index, false))) (fun s => settle (fireNext index s)) s)

/-- FOLLOW_ON_FIRE (R24), in the order of R22. -/
def execFollowOnFire (index : Trig) (s : State) : Host.Outcome State Fault Refusal :=
  .next (whenDue (decide (nextFire s = some (index, true))) (fun s => settle (fireFollowOn index s)) s)

end Sys2Proof.Machine
end

