-- ==== Sys2Proof/Machine/SettingsCmds.lean ====
section
/-! DEFINITION. The commands of the causes, of identity and reset, and of the settings (R172 to R179). -/
namespace Sys2Proof.Machine

/-! ## Causes -/

/-- CAUSES-GET (R172). -/
def causesGetReq : State → State :=
  gated 0x70#8 fun s =>
    reply 0x70#8 .ok (.causes (flagWord s.hlc.causes) s.hlc.live.causeMasks s.hlc.causes s.hlc.counts) s

/-- No cause is named twice, and each is 0 to 15 (R173). -/
def entriesOk (es : List (Nat × Option Nat)) : Bool :=
  decide (es.map Prod.fst).Nodup && es.all fun e => decide (e.1 < 16)

/-- Whether an entry clears its cause: ANY, or the cause's present count (R173). -/
def clearsCause (s : State) (e : Nat × Option Nat) : Bool :=
  match toFin 16 e.1, e.2 with
  | some _, none => true
  | some i, some n => decide ((s.hlc.causes.get i).count.toNat = n)
  | none, _ => false

/-- Clear one cause's flag and count; the detail is kept (R173). -/
def clearCause (s : State) (n : Nat) : State :=
  match toFin 16 n with
  | some i => { s with hlc.causes := s.hlc.causes.set i { s.hlc.causes.get i with flag := false, count := 0 } }
  | none => s

/-- A set of causes as a word. -/
def causeSet (ns : List Nat) : BitVec 16 := ns.foldl (fun w n => w ||| (1#16 <<< n)) 0

/-- The causes of a CAUSES-CLEAR that are cleared, and those left standing. -/
def clearEntries (es : List (Nat × Option Nat)) (s : State) : State :=
  (es.filter (clearsCause s)).foldl (fun s e => clearCause s e.1) s

/-- CAUSES-CLEAR (R173). -/
def causesClearReq (es : List (Nat × Option Nat)) : State → State :=
  gated 0x71#8 fun s =>
    if !within 1 16 es.length then reply 0x71#8 .badLength .none s
    else if !entriesOk es then reply 0x71#8 .badValue .none s
    else
      let standing := causeSet ((es.filter fun e => !clearsCause s e).map Prod.fst)
      let s := clearEntries es s
      reply 0x71#8 .ok (.causesLeft (flagWord s.hlc.causes) standing) s

/-- CAUSE-MASK (R174). -/
def causeMaskReq (mask : BitVec 16) : State → State :=
  gated 0x72#8 fun s => reply 0x72#8 .ok .none { s with hlc.live.causeMasks := mask }

/-! ## Identity and reset -/

/-- IDENT (R175). -/
def identReq : State → State :=
  gated 0x73#8 fun s =>
    reply 0x73#8 .ok
      (.ident 0x0B52 412 'A' Config.storeBlocks Config.blockBytes Config.stagingBytes Config.maxBody) s

/-- RESET: refused while a store operation is in progress; otherwise the soft reset begins when the reply has been
sent (R176, R44). -/
def resetReq : State → State :=
  gated 0x74#8 fun s => reply 0x74#8 (if s.ps.op.isSome then .busy else .ok) .none s

/-! ## The settings -/

/-- The answer of the claims that a lower budget no longer fits: each is refused with OVER_BUDGET, and its
claimant acts on it as at an arrival (R111, R107). A move's figures are withdrawn in the order its cue lists them (log entry
80). -/
def refuseClaim (c : Claim) (s : State) : State :=
  let s := { s with dbu.claims := dropKey c.kind.key s.dbu.claims }
  match c.kind with
  | .strike b due _ =>
    match s.bell.strikes.find? (Strike.isFor b due) with
    | some k => dropLate k s
    | none => s
  | .figures (.move _ _) _ shares =>
    (shares.filter fun sh => !sh.released).foldl (fun s sh => withdrawFig sh.fig (reportFig sh.fig .moveLate s)) s
  | .figures (.homing f) _ _ => homeFails f s
  | .door d _ =>
    match (s.door d).cmd with
    | some c => doorTimesOut d c s
    | none => s
  | .turntable _ =>
    match s.stg.turn.cmd with
    | some c => turnTimesOut c s
    | none => s

/-- The WAITING claims whose units exceed the budget in force, in the order of the waiting list (R108, R111). -/
def overBudget (s : State) : List Claim :=
  (waitingOrder s.dbu.claims).filter fun c => decide (s.hlc.live.budget < c.units)

/-- A new budget has been put in force (R111). -/
def budgetChanged (old : Nat) (s : State) : State :=
  let new := s.hlc.live.budget
  if old < new then grantPass s
  else if new < old then grantPass ((overBudget s).foldl (fun s c => refuseClaim c s) s)
  else s

/-- The mutes take effect as BELL-MUTE would, for each bell whose field changes, in ascending order (R100, R178; log entry
79). -/
def mutesChanged (new : BitVec 20) (s : State) : State :=
  (List.finRange 20).foldl
    (fun s b => if s.muted b == new.getLsbD b.val then s else setMute b (new.getLsbD b.val) s) s

/-- A channel whose setter is REST takes a new rest level (R81). -/
def LampRec.newRest (level : Byte) (r : LampRec) : LampRec :=
  { r with
    target := level, startLevel := r.level, length := r.remaining
    level := if r.remaining = 0 then level else r.level }

/-- The rest levels that change act on the channels at rest (R81). -/
def restsChanged (old new : Vector Byte 8) (s : State) : State :=
  mapLamps (fun ch r =>
    if old.get ch ≠ new.get ch ∧ r.setter = .rest then r.newRest (new.get ch) else r) s

/-- Every named field takes its new value at one instant, and its owner takes it up (R178). The bell mutes are put
in force bell by bell, and before the budget (log entry 79). -/
def applySettings (new : Settings) (s : State) : State :=
  let old := s.hlc.live
  let s := { s with hlc.live := { new with bellMutes := old.bellMutes } }
  let s := if old.discipline = new.discipline then s else setDiscipline new.discipline s
  let s := if old.defaultProgramme = new.defaultProgramme then s else evalSeasons s
  let s := restsChanged old.lampRests new.lampRests s
  budgetChanged old.budget (mutesChanged new.bellMutes s)

/-- CONFIG-SET (R178). -/
def configSetReq (fields : List SettingField) : State → State :=
  gated 0x78#8 fun s =>
    if fields.isEmpty then reply 0x78#8 .badLength .none s
    else if !fieldsOk fields then reply 0x78#8 .badValue .none s
    else
      let new := fields.foldl Settings.put s.hlc.live
      if new.budget < s.held then reply 0x78#8 .inUse .none s
      else settle (reply 0x78#8 .ok .none (applySettings new s))

/-- The record the single saved copy holds: the one being written during a save, and none where the copy was never
written or was cut short, so that the live record differs from such a copy (R177, R179; log entry 93). -/
def savedRecord (h : HLC) : Option Settings :=
  match h.save, h.saved with
  | some v, _ => some v.record
  | none, .written r _ => some r
  | none, .never | none, .broken => none

/-- CONFIG-GET (R179). -/
def configGetReq : State → State :=
  gated 0x79#8 fun s =>
    reply 0x79#8 .ok
      (.config s.hlc.live s.hlc.source (decide (savedRecord s.hlc ≠ some s.hlc.live)) s.hlc.save.isSome) s

/-- The time a save takes begins: the record is the live one at acceptance (R179). -/
def beginSave (s : State) : State :=
  { s with hlc.save := some { record := s.hlc.live, due := s.tb.elapsed + Config.saveMs } }

/-- CONFIG-SAVE (R179). -/
def configSaveReq : State → State :=
  gated 0x7A#8 fun s =>
    if s.hlc.save.isSome then reply 0x7A#8 .busy .none s else reply 0x7A#8 .ok .none (beginSave s)

/-- The save in progress whose completion instant has come (R179). -/
def saveDue (s : State) : Option SaveRec :=
  match s.hlc.save with
  | some v => if v.due ≤ s.tb.elapsed then some v else none
  | none => none

/-- The save completes (R179): the copy is the record with its CRC; before start-up has cleared the causes, SAVED waits for the clearing. -/
def finishSave (v : SaveRec) (s : State) : State :=
  let s := { s with hlc.saved := .written v.record v.record.crc, hlc.save := none }
  if s.hlc.step = 0 then { s with hlc.savedPending := true } else raise (.settingsEvent .saved) s

/-- CAUSES_GET. -/
def execCausesGet (s : State) : Host.Outcome State Fault Refusal := .next (causesGetReq s)

/-- CAUSES_CLEAR. -/
def execCausesClear (entries : List (Nat × Option Nat)) (s : State) : Host.Outcome State Fault Refusal :=
  .next (causesClearReq entries s)

/-- CAUSE_MASK. -/
def execCauseMask (mask : BitVec 16) (s : State) : Host.Outcome State Fault Refusal := .next (causeMaskReq mask s)

/-- IDENT. -/
def execIdent (s : State) : Host.Outcome State Fault Refusal := .next (identReq s)

/-- RESET. -/
def execReset (s : State) : Host.Outcome State Fault Refusal := .next (resetReq s)

/-- CONFIG_SET. -/
def execConfigSet (fields : List SettingField) (s : State) : Host.Outcome State Fault Refusal :=
  .next (configSetReq fields s)

/-- CONFIG_GET. -/
def execConfigGet (s : State) : Host.Outcome State Fault Refusal := .next (configGetReq s)

/-- CONFIG_SAVE. -/
def execConfigSave (s : State) : Host.Outcome State Fault Refusal := .next (configSaveReq s)

/-- CONFIG_SAVE_COMPLETE (R179). -/
def execConfigSaveComplete (s : State) : Host.Outcome State Fault Refusal :=
  match saveDue s with
  | some v => .next (finishSave v s)
  | none => .next s

end Sys2Proof.Machine
end

