-- ==== Sys2Proof/Machine/ShowCmds.lean ====
section
/-! DEFINITION. The commands of the Show Sequencer (R68 to R85). -/
namespace Sys2Proof.Machine

/-! ## Requests -/

/-- A SHOW-START's values are in range (R82). -/
def subjectOk : Subject → Bool
  | .script n => decide (n < 128)
  | .count n => within 1 12 n

/-- The request a SHOW-START makes (R82). -/
def hostReq (subject : Subject) (staleness : Nat) (s : State) : ShowReq :=
  { subject := subject, origin := .host, fireTime := s.tb.showTime, policy := .queue, staleness := staleness }

/-- The reply to a SHOW-START by what became of its request (R82). A host request is never discarded otherwise. -/
def arrivalReply (a : Arrival) : State → State :=
  match a with
  | .started l => reply 0x30#8 .ok (.started l)
  | .queued l p => reply 0x30#8 .ok (.queued l p)
  | .refusedFull | .discarded => reply 0x30#8 .full .none

/-- SHOW-START (R82). -/
def showStartReq (subject : Subject) (staleness : Nat) : State → State :=
  gated 0x30#8 fun s =>
    if !(subjectOk subject && decide (staleness ≤ 3600)) then reply 0x30#8 .badValue .none s
    else
      match placeOf subject s with
      | .noScript => reply 0x30#8 .notFound .none s
      | .storeCheck => reply 0x30#8 .badScript .none s
      | .on l =>
        let (s, a) := arriveAt l (hostReq subject staleness s) s
        settle (arrivalReply a s)

/-- A run on which SHOW-STOP or SHOW-HOLD acts (R83). -/
def canStop (l : Lane) (s : State) : Bool :=
  match s.run l with
  | some r => r.state != .aborting
  | none => false

/-- A run on which SHOW-RESUME acts (R83). -/
def canResume (l : Lane) (s : State) : Bool :=
  match s.run l with
  | some r => r.state == .holding || (r.state == .loading && r.isHeld)
  | none => false

/-- A request that names lanes, answered BAD_VALUE for a code that names none (R83, R84; 00_scope.md, Ranges). -/
def onLanes (k : Byte) (lanes : Coded LaneSel) (f : List Lane → State → State) (s : State) : State :=
  match lanes with
  | .val l => f (laneList l) s
  | .other _ => reply k .badValue .none s

/-- SHOW-STOP (R83). -/
def showStopReq (lanes : Coded LaneSel) : State → State :=
  gated 0x31#8 (onLanes 0x31#8 lanes fun ls s =>
    if ls.any fun l => canStop l s then
      settle (reply 0x31#8 .ok .none (ls.foldl (fun s l => abortLane l .hostStop false s) s))
    else reply 0x31#8 .notNow .none s)

/-- SHOW-HOLD (R83). -/
def showHoldReq (lanes : Coded LaneSel) : State → State :=
  gated 0x32#8 (onLanes 0x32#8 lanes fun ls s =>
    if ls.any fun l => canStop l s then
      settle (reply 0x32#8 .ok .none (ls.foldl (fun s l => holdLane l .host s) s))
    else reply 0x32#8 .notNow .none s)

/-- The guard groups that are MATCHING (R75, R159). -/
def matchingGroups (s : State) : BitVec 4 :=
  allGroups.foldl (fun w g => if (s.group g).mismatched then w else w ||| (1#4 <<< g.val)) 0

/-- The groups that hold a lane. -/
def heldGroups (l : Lane) (s : State) : BitVec 4 :=
  match s.run l with
  | some r => r.heldGroups
  | none => 0

/-- SHOW-RESUME (R83, R75). -/
def showResumeReq (lanes : Coded LaneSel) : State → State :=
  gated 0x33#8 (onLanes 0x33#8 lanes fun ls s =>
    if ls.any fun l => canResume l s then
      let gs := matchingGroups s
      let s := ls.foldl (fun s l => liftHold l true gs s) s
      let left := ls.foldl (fun w l => w ||| heldGroups l s) 0
      settle (if left = 0 then reply 0x33#8 .ok .none s else reply 0x33#8 .notNow (.heldBy left) s)
    else reply 0x33#8 .notNow .none s)

/-- A lane as SHOW-STATUS gives it (R84). -/
def laneView (l : Lane) (s : State) : LaneView :=
  { run := s.run l, claims := captureClaims l s, last := (s.lane l).last, successor := (s.lane l).successor.isSome }

/-- SHOW-STATUS (R84). -/
def showStatusReq : State → State :=
  gated 0x34#8 fun s =>
    reply 0x34#8 .ok (.showStatus (laneView .M s) (laneView .C s) s.restraint s.seq.lamps) s

/-- A request with its present age (R84). -/
def reqView (now : Int) (q : ShowReq) : ReqView := { request := q, age := q.age now }

/-- QUEUE-GET (R84). -/
def queueGetReq : State → State :=
  gated 0x35#8 fun s =>
    let v := reqView s.tb.showTime
    reply 0x35#8 .ok
      (.queues (s.seq.laneM.successor.map v) (s.seq.laneM.queue.map v) (s.seq.laneC.successor.map v)
        (s.seq.laneC.queue.map v)) s

/-- The requests waiting for a lane. -/
def waitingCount (l : Lane) (s : State) : Nat :=
  (s.lane l).queue.length + (if (s.lane l).successor.isSome then 1 else 0)

/-- The number QUEUE-FLUSH removes from a lane, none for a lane it does not name. -/
def flushCount (lanes : List Lane) (l : Lane) (s : State) : Option Nat :=
  if lanes.contains l then some (waitingCount l s) else none

def flushLane (s : State) (l : Lane) : State := s.setLane l { s.lane l with successor := none, queue := [] }

/-- QUEUE-FLUSH (R84). -/
def queueFlushReq (lanes : Coded LaneSel) : State → State :=
  gated 0x36#8 (onLanes 0x36#8 lanes fun ls s =>
    reply 0x36#8 .ok (.flushed (flushCount ls .M s) (flushCount ls .C s)) (ls.foldl flushLane s))

/-- LAMP-SET (R85). -/
def lampSetReq (channel level fade : Nat) : State → State :=
  gated 0x37#8 fun s =>
    match toFin 8 channel with
    | some ch =>
      if level ≤ 255 ∧ fade ≤ 10000 then
        reply 0x37#8 .ok .none (mapLamp ch (LampRec.put (BitVec.ofNat 8 level) fade .host) s)
      else reply 0x37#8 .badValue .none s
    | none => reply 0x37#8 .badValue .none s

/-- SHOW_START. -/
def execShowStart (subject : Subject) (staleness : Nat) (s : State) : Host.Outcome State Fault Refusal :=
  .next (showStartReq subject staleness s)

/-- SHOW_STOP. -/
def execShowStop (lanes : Coded LaneSel) (s : State) : Host.Outcome State Fault Refusal := .next (showStopReq lanes s)

/-- SHOW_HOLD. -/
def execShowHold (lanes : Coded LaneSel) (s : State) : Host.Outcome State Fault Refusal := .next (showHoldReq lanes s)

/-- SHOW_RESUME. -/
def execShowResume (lanes : Coded LaneSel) (s : State) : Host.Outcome State Fault Refusal := .next (showResumeReq lanes s)

/-- SHOW_STATUS. -/
def execShowStatus (s : State) : Host.Outcome State Fault Refusal := .next (showStatusReq s)

/-- QUEUE_GET. -/
def execQueueGet (s : State) : Host.Outcome State Fault Refusal := .next (queueGetReq s)

/-- QUEUE_FLUSH. -/
def execQueueFlush (lanes : Coded LaneSel) (s : State) : Host.Outcome State Fault Refusal := .next (queueFlushReq lanes s)

/-- LAMP_SET. -/
def execLampSet (channel level fade : Nat) (s : State) : Host.Outcome State Fault Refusal :=
  .next (lampSetReq channel level fade s)

/-! ## Cues (R68, R69) -/

/-- The rows of the cues. -/
inductive CueRow | strike | damp | move | door | turn | mark | lamp | finish
deriving DecidableEq, Repr

def CueKind.row : CueKind → CueRow
  | .strike .. => .strike | .damp _ => .damp | .move .. => .move | .door .. => .door | .turn .. => .turn
  | .mark .. => .mark | .lamp .. => .lamp | .finish => .finish

/-- The row of a lane's cue of an index. -/
def cueRow (l : Lane) (i : Nat) (s : State) : Option CueRow :=
  match s.run l with
  | some r => r.cues[i]?.map fun c => c.cue.kind.row
  | none => none

/-- A cue of a kind is the one its lane issues now (R68). -/
def cueDue (row : CueRow) (l : Lane) (i : Nat) (s : State) : Bool :=
  decide (nextCue l s = some i) && decide (cueRow l i s = some row)

/-- Issue the cue if it is the lane's next and of the kind, and settle what follows. -/
def cueEvent (row : CueRow) (l : Lane) (i : Nat) (s : State) : State :=
  whenDue (cueDue row l i s) (fun s => settle (issueCue l i s)) s

/-- END is the lane's next cue (R68, R70). -/
def endDue (l : Lane) (s : State) : Bool :=
  match nextCue l s with
  | some i => decide (cueRow l i s = some .finish)
  | none => false

/-- STRIKE_CUE (R69). -/
def execStrikeCue (lane : Lane) (cue : Nat) (s : State) : Host.Outcome State Fault Refusal :=
  .next (cueEvent .strike lane cue s)

/-- DAMP_CUE (R69). -/
def execDampCue (lane : Lane) (cue : Nat) (s : State) : Host.Outcome State Fault Refusal :=
  .next (cueEvent .damp lane cue s)

/-- MOVE_CUE (R69). -/
def execMoveCue (lane : Lane) (cue : Nat) (s : State) : Host.Outcome State Fault Refusal :=
  .next (cueEvent .move lane cue s)

/-- DOOR_CUE (R69). -/
def execDoorCue (lane : Lane) (cue : Nat) (s : State) : Host.Outcome State Fault Refusal :=
  .next (cueEvent .door lane cue s)

/-- TURN_CUE (R69). -/
def execTurnCue (lane : Lane) (cue : Nat) (s : State) : Host.Outcome State Fault Refusal :=
  .next (cueEvent .turn lane cue s)

/-- MARK_CUE (R69). -/
def execMarkCue (lane : Lane) (cue : Nat) (s : State) : Host.Outcome State Fault Refusal :=
  .next (cueEvent .mark lane cue s)

/-- LAMP_CUE (R69). -/
def execLampCue (lane : Lane) (cue : Nat) (s : State) : Host.Outcome State Fault Refusal :=
  .next (cueEvent .lamp lane cue s)

/-- END_CUE (R70). -/
def execEndCue (lane : Lane) (s : State) : Host.Outcome State Fault Refusal :=
  .next (whenDue (endDue lane s) (fun s => settle (issueEnd lane s)) s)

/-! ## Timers -/

/-- A hold has lasted 120,000 ms (R74). -/
def holdOver (l : Lane) (s : State) : Bool :=
  match s.run l with
  | some r =>
    match r.holdStart with
    | some h => r.state == .holding && decide (h.elapsed + Config.holdLimit ≤ s.tb.elapsed)
    | none => false
  | none => false

/-- HOLD_TIMEOUT (R74). -/
def execHoldTimeout (lane : Lane) (s : State) : Host.Outcome State Fault Refusal :=
  .next (whenDue (holdOver lane s) (fun s => settle (abortLane lane .holdTimeout false s)) s)

/-- LAMP_FADE_END (R80). -/
def execLampFadeEnd (channel : Lamp) (s : State) : Host.Outcome State Fault Refusal :=
  .next (whenDue (s.seq.lamps.get channel).fadeOver (mapLamp channel LampRec.finish) s)

end Sys2Proof.Machine
end

