-- ==== Sys2Proof/Machine/StageCmds.lean ====
section
/-! DEFINITION. The commands of the Stage Controller (R138 to R152). -/
namespace Sys2Proof.Machine

/-! ## Requests for the figures -/

def figView (s : State) (f : Fig) : FigView :=
  { address := (s.figDef f).address, rides := (s.figDef f).rides, crossing := (s.figDef f).crossing, record := s.fig f }

/-- FIG-STATUS (R152). -/
def figStatusReq : State → State :=
  gated 0x58#8 fun s => reply 0x58#8 .ok (.figStatus (allFigs.map (figView s)) (watchSet s)) s

/-- The grounds on which FIG-CLEAR and FIG-HOME are refused, in their order (R142). -/
def figRefusal (f : Fig) (s : State) : Option Status :=
  let r := s.fig f
  let d := s.figDef f
  if s.laneIdle .M = false then some .notNow
  else if r.state = .unbound then some .notFound
  else if r.state = .staged ∨ r.state = .moving ∨ (s.node (s.figAddress f)).state = .silent then some .notNow
  else if (match d.crossing with | some c => (s.door c.door).state == .closing | none => false) ||
      (d.rides && (s.stg.turn.state == .turning || s.stg.turn.state == .homing)) then some .inUse
  else none

/-- The figure becomes UNKNOWN and a CLEAR is queued; the reply waits for the CLEAR's end (R142). -/
def clearFig (f : Fig) (s : State) : State :=
  let o := TxnOwner.figClear f (replyTag 0x59#8 s)
  let s := s.mapFig f fun r => { r with state := .unknown, move := none, homing := none, interrupted := none }
  let s' := enqueue .clear (s.figAddress f) [] o s
  match linkAnswer s with
  | .queued => s'
  | .full => linkRefused o s'
  | .stuck => linkFailed o .lineStuck s'

/-- FIG-CLEAR (R142). -/
def figClearReq (figure : Nat) : State → State :=
  gated 0x59#8 fun s =>
    match toFin 12 figure with
    | none => reply 0x59#8 .badValue .none s
    | some f =>
      match figRefusal f s with
      | some st => reply 0x59#8 st .none s
      | none => settle (clearFig f s)

/-- The current move of a homing figure: owned by HOST, its target the home position (R143; log entry 26). -/
def homeMove (f : Fig) (allowed : Nat) (s : State) : Move :=
  { owner := .host, target := (s.figDef f).home, duration := allowed, windowOpen := 0, grace := 0, tolerance := 0,
    tag := 0, serial := 0, ended := false, due := s.tb.showTime, started := none }

/-- A homing that is accepted: its record, its claim and its CLEAR (R143). -/
def beginHome (f : Fig) (allowed : Nat) (s : State) : State :=
  let units := (s.figDef f).units
  let s := s.mapFig f fun r =>
    { r with
      state := .staged, step := .clearing, interrupted := none, move := some (homeMove f allowed s)
      homing := some { allowed := allowed, startBy := s.tb.elapsed + 2000, cleared := false, queued := false,
                       arriveBy := none } }
  let s := makeClaim (.figures (.homing f) .host [{ fig := f, units := units, released := false }]) units s
  let s' := enqueue .clear (s.figAddress f) [] (.homeClear f) s
  match linkAnswer s with
  | .queued => s'
  | .full => linkRefused (.homeClear f) s'
  | .stuck => linkFailed (.homeClear f) .lineStuck s'

/-- FIG-HOME (R143). -/
def figHomeReq (figure allowed : Nat) : State → State :=
  gated 0x5A#8 fun s =>
    match toFin 12 figure with
    | none => reply 0x5A#8 .badValue .none s
    | some f =>
      if !within 200 60000 allowed then reply 0x5A#8 .badValue .none s
      else
        match figRefusal f s with
        | some st => reply 0x5A#8 st .none s
        | none =>
          let units := (s.figDef f).units
          if claimAnswer (.figures (.homing f) .host []) units s = .taken then
            settle (reply 0x5A#8 .ok .none (beginHome f allowed s))
          else reply 0x5A#8 .full .none s

/-! ## Requests for the doors and the turntable (R151, R152) -/

/-- A DOOR-MOVE on an IDLE lane M (R151): a claim that is refused leaves no command. -/
def hostDoor (d : Door) (g : Goal) (s : State) : State :=
  if atGoal (s.door d).state g then reply 0x5B#8 .ok .none (takeDoor d g .host s)
  else if g = .closed ∧ doorForbidden s.stg d = true then reply 0x5B#8 .inUse .none s
  else
    let s := takeDoor d g .host s
    reply 0x5B#8 (if (s.door d).cmd.isSome then .ok else .full) .none s

/-- DOOR-MOVE (R151). -/
def doorMoveReq (door : Nat) (goal : Coded Goal) : State → State :=
  gated 0x5B#8 fun s =>
    match toFin 2 door, goal with
    | some d, .val g => if s.laneIdle .M then settle (hostDoor d g s) else reply 0x5B#8 .notNow .none s
    | _, _ => reply 0x5B#8 .badValue .none s

/-- DOOR-STATUS (R152). -/
def doorStatusReq : State → State :=
  gated 0x5C#8 fun s => reply 0x5C#8 .ok (.doorStatus s.stg.doors s.inm.limits.level s.tb.elapsed) s

/-- A turn command of the host on an IDLE lane M (R151). -/
def hostTurn (k : Byte) (g : TurnGoal) (s : State) : State :=
  if s.stg.turn.state = .fault ∧ g ≠ .home then reply k .notNow .none s
  else if turnAtGoal s.stg.turn.state g then reply k .ok .none (takeTurn g .host s)
  else if turnPermitted s.stg = false then reply k .inUse .none s
  else
    let s := takeTurn g .host s
    reply k (if s.stg.turn.cmd.isSome || turnAtGoal s.stg.turn.state g then .ok else .full) .none s

/-- TURN-HOME (R151). -/
def turnHomeReq : State → State :=
  gated 0x5D#8 fun s =>
    if s.laneIdle .M then settle (hostTurn 0x5D#8 .home s) else reply 0x5D#8 .notNow .none s

/-- TURN-MOVE (R151). -/
def turnMoveReq (position : Nat) (dir : Coded TurnDir) : State → State :=
  gated 0x5E#8 fun s =>
    match toFin 12 position, dir with
    | some p, .val d => if s.laneIdle .M then settle (hostTurn 0x5E#8 (.to p d) s) else reply 0x5E#8 .notNow .none s
    | _, _ => reply 0x5E#8 .badValue .none s

/-- TURN-STATUS (R152). -/
def turnStatusReq : State → State :=
  gated 0x5F#8 fun s =>
    reply 0x5F#8 .ok (.turnStatus s.stg.turn (s.inm.misc.level.getLsbD 1) (s.inm.misc.level.getLsbD 2)) s

/-- FIG_STATUS. -/
def execFigStatus (s : State) : Host.Outcome State Fault Refusal := .next (figStatusReq s)

/-- FIG_CLEAR. -/
def execFigClear (figure : Nat) (s : State) : Host.Outcome State Fault Refusal := .next (figClearReq figure s)

/-- FIG_HOME. -/
def execFigHome (figure allowed : Nat) (s : State) : Host.Outcome State Fault Refusal :=
  .next (figHomeReq figure allowed s)

/-- DOOR_MOVE. -/
def execDoorMove (door : Nat) (goal : Coded Goal) (s : State) : Host.Outcome State Fault Refusal :=
  .next (doorMoveReq door goal s)

/-- DOOR_STATUS. -/
def execDoorStatus (s : State) : Host.Outcome State Fault Refusal := .next (doorStatusReq s)

/-- TURN_HOME. -/
def execTurnHome (s : State) : Host.Outcome State Fault Refusal := .next (turnHomeReq s)

/-- TURN_MOVE. -/
def execTurnMove (position : Nat) (dir : Coded TurnDir) (s : State) : Host.Outcome State Fault Refusal :=
  .next (turnMoveReq position dir s)

/-- TURN_STATUS. -/
def execTurnStatus (s : State) : Host.Outcome State Fault Refusal := .next (turnStatusReq s)

/-! ## Moves -/

/-- GO_QUEUED (R138). -/
def execGoQueued (tag : Nat) (s : State) : Host.Outcome State Fault Refusal :=
  .next (whenDue (goDue tag s) (fun s => settle (queueGo tag s)) s)

/-- GO_DEADLINE (R138). -/
def execGoDeadline (tag : Nat) (s : State) : Host.Outcome State Fault Refusal :=
  .next (whenDue (goLate tag s) (fun s => settle (missGo tag s)) s)

/-- A MOVING figure's window has closed (R140). -/
def arrivalOver (f : Fig) (s : State) : Bool :=
  let r := s.fig f
  decide (r.state = .moving) && r.homing.isNone &&
  match r.move with
  | some m =>
    match m.started with
    | some w => decide (w.closes ≤ s.tb.showTime)
    | none => false
  | none => false

/-- ARRIVAL_WINDOW_CLOSE (R140). -/
def execArrivalWindowClose (figure : Fig) (s : State) : Host.Outcome State Fault Refusal :=
  .next (whenDue (arrivalOver figure s) (fun s => settle (windowCloses figure s)) s)

/-! ## Homing (R143) -/

/-- The door a figure crosses is OPEN, or it crosses none. -/
def crossingOpen (f : Fig) (s : State) : Bool :=
  match (s.figDef f).crossing with
  | some c => (s.door c.door).state == .opened
  | none => true

/-- The HOME of a homing figure can be queued (R143). -/
def homeDue (f : Fig) (s : State) : Bool :=
  match (s.fig f).state, (s.fig f).homing with
  | .staged, some h => h.cleared && !h.queued && claimGranted (.homing f) s && crossingOpen f s
  | _, _ => false

/-- The HOME is queued (R143). -/
def queueHome (f : Fig) (s : State) : State :=
  match (s.fig f).homing with
  | none => s
  | some h =>
    let a := s.figAddress f
    let s := s.mapFig f fun r => { r with homing := some { h with queued := true } }
    let s' := enqueue .home a (homeData a h.allowed) (.home f) s
    match linkAnswer s with
    | .queued => s'
    | .full => linkRefused (.home f) s'
    | .stuck => linkFailed (.home f) .lineStuck s'

/-- A homing has not been started within 2,000 ms of its acceptance (R143). -/
def homingOver (f : Fig) (s : State) : Bool :=
  match (s.fig f).state, (s.fig f).homing with
  | .staged, some h => !h.queued && decide (h.startBy ≤ s.tb.elapsed)
  | _, _ => false

/-- A homing figure has not arrived in its time (R143). -/
def homeLate (f : Fig) (s : State) : Bool :=
  match (s.fig f).state, (s.fig f).homing with
  | .moving, some h => (match h.arriveBy with | some t => decide (t ≤ s.tb.elapsed) | none => false)
  | _, _ => false

/-- A homing figure that has not arrived is halted (R143). -/
def homeStops (f : Fig) (s : State) : State :=
  raise (.figureFault f .homeFailed) (leaveMove f .halted (haltFig false f s))

/-- HOME_QUEUED (R143). -/
def execHomeQueued (figure : Fig) (s : State) : Host.Outcome State Fault Refusal :=
  .next (whenDue (homeDue figure s) (fun s => settle (queueHome figure s)) s)

/-- HOMING_TIMEOUT (R143). -/
def execHomingTimeout (figure : Fig) (s : State) : Host.Outcome State Fault Refusal :=
  .next (whenDue (homingOver figure s) (fun s => settle (homeFails figure s)) s)

/-- HOME_ARRIVAL_TIMEOUT (R143). -/
def execHomeArrivalTimeout (figure : Fig) (s : State) : Host.Outcome State Fault Refusal :=
  .next (whenDue (homeLate figure s) (fun s => settle (homeStops figure s)) s)

/-! ## Doors -/

/-- The command of a door whose travel limit has passed (R145). -/
def doorOverrun (d : Door) (s : State) : Option DoorCmd :=
  match (s.door d).cmd, (s.door d).travelStart with
  | some c, some t => if c.driving ∧ t + (s.door d).travelMs ≤ s.tb.elapsed then some c else none
  | _, _ => none

/-- The WAITING command of a door whose deadline has passed (R145). -/
def doorOverdue (d : Door) (s : State) : Option DoorCmd :=
  match (s.door d).cmd with
  | some c => if c.driving = false ∧ c.deadline ≤ s.tb.elapsed then some c else none
  | none => none

/-- DOOR_LIMIT_EDGE (R144, R145). -/
def execDoorLimitEdge (door : Door) (which : Goal) (level : Bool) (s : State) : Host.Outcome State Fault Refusal :=
  .next (settle (limitEdge door which level s))

/-- DOOR_TRAVEL_LIMIT (R145). -/
def execDoorTravelLimit (door : Door) (s : State) : Host.Outcome State Fault Refusal :=
  match doorOverrun door s with
  | some c => .next (settle (doorStalls door c s))
  | none => .next s

/-- DOOR_DEADLINE (R145). -/
def execDoorDeadline (door : Door) (s : State) : Host.Outcome State Fault Refusal :=
  match doorOverdue door s with
  | some c => .next (settle (doorTimesOut door c s))
  | none => .next s

/-! ## The turntable -/

/-- No index edge has come within the per-position limit (R147). -/
def indexOver (s : State) : Bool :=
  match s.stg.turn.stepping with
  | some w => decide (w.edgeBy ≤ s.tb.elapsed)
  | none => false

/-- The WAITING turn command whose deadline has passed (R148). -/
def turnOverdue (s : State) : Option TurnCmd :=
  match s.stg.turn.cmd with
  | some c => if c.driving = false ∧ c.deadline ≤ s.tb.elapsed then some c else none
  | none => none

/-- TURNTABLE_INDEX_EDGE (R147). -/
def execTurntableIndexEdge (level : Bool) (s : State) : Host.Outcome State Fault Refusal :=
  .next (settle (tableIndexEdge level s))

/-- TURNTABLE_HOME_EDGE (R147). -/
def execTurntableHomeEdge (level : Bool) (s : State) : Host.Outcome State Fault Refusal :=
  .next (settle (tableHomeEdge level s))

/-- TURN_INDEX_TIMEOUT (R147). -/
def execTurnIndexTimeout (s : State) : Host.Outcome State Fault Refusal :=
  .next (whenDue (indexOver s) (fun s => settle (turnFails .missingIndex s)) s)

/-- TURN_DEADLINE (R148). -/
def execTurnDeadline (s : State) : Host.Outcome State Fault Refusal :=
  match turnOverdue s with
  | some c => .next (settle (turnTimesOut c s))
  | none => .next s

end Sys2Proof.Machine
end

