-- ==== Sys2Proof/Machine/StoreCmds.lean ====
section
/-! DEFINITION. The commands of the Programme Store (R40 to R58). -/
namespace Sys2Proof.Machine

/-- Answer BUSY while a store operation is in progress (R44). -/
def unlessBusy (k : Byte) (f : State → State) (s : State) : State :=
  if s.ps.op.isSome then reply k .busy .none s else f s

/-! ## Staging -/

/-- The staging buffer after a chunk is written (R40). -/
def putChunk (start : Bool) (offset : Nat) (data : List Byte) (s : State) : State :=
  let base := if start then [] else s.ps.staging
  let len := if start then 0 else s.ps.stagedLen
  { s with
    ps.staging := Memory.writeBytes base offset data
    ps.stagedLen := max len (offset + data.length) }

/-- STORE-PUT (R40). One without data is answered BUSY while its owner is busy or not yet started, before BAD_LENGTH (log
entry 75). -/
def storePutReq (start : Bool) (offset : Nat) (data : List Byte) : State → State :=
  gated 0x20#8 (unlessBusy 0x20#8 fun s =>
    if data.length = 0 ∨ Config.chunkBytes < data.length then reply 0x20#8 .badLength .none s
    else if Config.stagingBytes < offset + data.length then reply 0x20#8 .badValue .none s
    else
      let s := putChunk start offset data s
      reply 0x20#8 .ok (.staged s.ps.stagedLen) s)

/-! ## Commit, erase and erase-all -/

/-- The time a commit of a number of blocks takes (R41). -/
def commitMs (blocks : Nat) : Nat := 30 + 20 * blocks

/-- The reply to a commit that passes the checks of the directory (R41, steps 5 to 7), none if it is accepted. -/
def contentRefusal (id : ItemId) (s : State) : Option (Status × ReplyData) :=
  if s.ps.stagedLen = 0 then some (.badLength, .none)
  else
    match validate id.kind (stagedContent s) with
    | .badScript c => some (.badScript, .badCue c)
    | .badValue => some (.badValue, .none)
    | .valid => if freeBlocks s < blocksOf s.ps.stagedLen then some (.full, .none) else none

/-- A commit is accepted (R41). -/
def acceptCommit (id : ItemId) (s : State) : State :=
  let c := stagedContent s
  beginOp (.commit id c (crc16 c)) (commitMs (blocksOf s.ps.stagedLen)) s

/-- STORE-COMMIT (R41). -/
def storeCommitReq (kind number : Nat) : State → State :=
  gated 0x21#8 fun s =>
    match changeRefusal kind number s, itemId kind number with
    | some st, _ => reply 0x21#8 st .none s
    | none, none => s
    | none, some id =>
      match contentRefusal id s with
      | some (st, d) => reply 0x21#8 st d s
      | none => reply 0x21#8 .ok .none (acceptCommit id s)

/-- STORE-ERASE (R43). -/
def storeEraseReq (kind number : Nat) : State → State :=
  gated 0x22#8 fun s =>
    match changeRefusal kind number s, itemId kind number with
    | some st, _ => reply 0x22#8 st .none s
    | none, none => s
    | none, some id =>
      if (findItem id s).isNone then reply 0x22#8 .notFound .none s
      else reply 0x22#8 .ok .none (beginOp (.erase id) 30 s)

/-- The time an erase-all takes (R54). -/
def eraseAllMs (s : State) : Nat := 30 + 5 * usedBlocks s.ps.items

def somePinned (s : State) : Bool := s.ps.items.any fun i => decide (i.pins ≠ 0)

/-- STORE-ERASE-ALL (R54). -/
def storeEraseAllReq : State → State :=
  gated 0x23#8 fun s =>
    if somePinned s then reply 0x23#8 .inUse .none s
    else unlessBusy 0x23#8 (fun s => reply 0x23#8 .ok .none (beginOp .eraseAll (eraseAllMs s) s)) s

/-! ## Reading -/

def Item.view (i : Item) : ItemView :=
  { id := i.id, length := i.content.length, blocks := i.blocks, usable := i.usable, pins := i.pins }

/-- STORE-LIST (R56). -/
def storeListReq : State → State :=
  gated 0x24#8 (unlessBusy 0x24#8 fun s =>
    reply 0x24#8 .ok
      (.storeList (s.ps.items.map Item.view) (freeBlocks s) s.ps.stagedLen s.ps.writeLevel s.ps.readLock s.ps.protLock
        (if s.ps.readLock then none else some s.ps.identity)) s)

/-- STORE-READ's checks and answer in its own order, in which the values come before the start-up and the operation
in progress (R57; log entry 10). -/
def storeReadReq (kind number offset count : Nat) (s : State) : State :=
  if s.hlc.step = 0 then s
  else
    match itemId kind number with
    | none => reply 0x25#8 .badValue .none s
    | some id =>
      if !within 1 Config.chunkBytes count then reply 0x25#8 .badValue .none s
      else if s.hlc.step < gateStep 0x25#8 ∨ s.ps.op.isSome = true then reply 0x25#8 .busy .none s
      else if s.ps.readLock then reply 0x25#8 .locked .none s
      else
        match findItem id s with
        | none => reply 0x25#8 .notFound .none s
        | some i =>
          if i.content.length ≤ offset then reply 0x25#8 .badValue .none s
          else reply 0x25#8 .ok (.storeRead ((i.content.drop offset).take count) i.usable) s

/-- STORE-SUM (R55). -/
def storeSumReq : State → State :=
  gated 0x26#8 (unlessBusy 0x26#8 fun s => reply 0x26#8 .ok (.storeSum (storeSum s)) s)

/-! ## Protection -/

/-- STORE-PROTECT (R51; log entry 40). -/
def storeProtectReq (level : Nat) (readLock : Bool) : State → State :=
  gated 0x27#8 fun s =>
    match toFin 4 level with
    | none => reply 0x27#8 .badValue .none s
    | some l =>
      unlessBusy 0x27#8 (fun s =>
        if s.ps.protLock then reply 0x27#8 .locked .none s
        else reply 0x27#8 .ok .none { s with ps.writeLevel := l, ps.readLock := readLock }) s

/-- STORE-LOCK (R52). -/
def storeLockReq : State → State :=
  gated 0x28#8 (unlessBusy 0x28#8 fun s => reply 0x28#8 .ok .none { s with ps.protLock := true })

/-- STORE-IDENTITY (R53; log entry 40). -/
def storeIdentityReq (w0 w1 w2 w3 : Nat) : State → State :=
  gated 0x29#8 fun s =>
    if [w0, w1, w2, w3].all (fun w => decide (w ≤ 65535)) then
      unlessBusy 0x29#8 (fun s =>
        if s.ps.protLock then reply 0x29#8 .locked .none s
        else
          reply 0x29#8 .ok .none
            { s with ps.identity :=
                #v[BitVec.ofNat 16 w0, BitVec.ofNat 16 w1, BitVec.ofNat 16 w2, BitVec.ofNat 16 w3] }) s
    else reply 0x29#8 .badValue .none s

/-! ## Completions -/

/-- The block that keeps a copy of an item takes up its new content or its absence (R42, R43). -/
def takeUp (k : ItemKind) (content : Option (List Byte)) (s : State) : State :=
  match k with
  | .triggers =>
    match content.bind parseTriggersItem with
    | some d => takeTriggers d s
    | none => eraseTriggers s
  | .seasons => evalSeasons { s with sch.seasons := content.bind parseSeasonsItem }
  | .programmes => evalSeasons { s with sch.programmes := content.bind parseProgrammesItem }
  | .voicing => takeVoicing (content.bind parseVoicingItem) s
  | .figures => takeMachinery ((content.bind parseFiguresItem).getD noMachinery) s
  | .script => s

/-- A commit completes (R42, R49). The blocks take up the new content before a run that its load's answer ends goes IDLE,
here and at an erase (log entry 59). -/
def finishCommit (id : ItemId) (content : List Byte) (check : Half) (s : State) : State :=
  let s := raise (.storeEvent (.commitDone id)) (commitItem id content check s)
  settle (takeUp id.kind (some content) (answerWaiting s))

/-- An erase completes (R43, R49; log entry 59). -/
def finishErase (id : ItemId) (s : State) : State :=
  let s := raise (.storeEvent (.eraseDone id)) (eraseItem id s)
  settle (takeUp id.kind none (answerWaiting s))

/-- An erase-all completes (R54, R49; log entry 59). The blocks take the absence of their items in this order, which R54
lists and does not fix (log entry 85). -/
def finishEraseAll (s : State) : State :=
  let s := answerWaiting (raise (.storeEvent .erasedAll) (eraseAllItems s))
  settle ([ItemKind.triggers, .seasons, .programmes, .voicing, .figures].foldl (fun s k => takeUp k none s) s)

/-- The operation in progress whose completion instant has come. -/
def opDue (s : State) : Option StoreOp :=
  match s.ps.op with
  | some o => if o.due ≤ s.tb.elapsed then some o.what else none
  | none => none

/-- STORE_PUT. -/
def execStorePut (start : Bool) (offset : Nat) (data : List Byte) (s : State) : Host.Outcome State Fault Refusal :=
  .next (storePutReq start offset data s)

/-- STORE_COMMIT. -/
def execStoreCommit (kind number : Nat) (s : State) : Host.Outcome State Fault Refusal :=
  .next (storeCommitReq kind number s)

/-- STORE_ERASE. -/
def execStoreErase (kind number : Nat) (s : State) : Host.Outcome State Fault Refusal :=
  .next (storeEraseReq kind number s)

/-- STORE_ERASE_ALL. -/
def execStoreEraseAll (s : State) : Host.Outcome State Fault Refusal := .next (storeEraseAllReq s)

/-- STORE_LIST. -/
def execStoreList (s : State) : Host.Outcome State Fault Refusal := .next (storeListReq s)

/-- STORE_READ. -/
def execStoreRead (kind number offset count : Nat) (s : State) : Host.Outcome State Fault Refusal :=
  .next (storeReadReq kind number offset count s)

/-- STORE_SUM. -/
def execStoreSum (s : State) : Host.Outcome State Fault Refusal := .next (storeSumReq s)

/-- STORE_PROTECT. -/
def execStoreProtect (level : Nat) (readLock : Bool) (s : State) : Host.Outcome State Fault Refusal :=
  .next (storeProtectReq level readLock s)

/-- STORE_LOCK. -/
def execStoreLock (s : State) : Host.Outcome State Fault Refusal := .next (storeLockReq s)

/-- STORE_IDENTITY. -/
def execStoreIdentity (w0 w1 w2 w3 : Nat) (s : State) : Host.Outcome State Fault Refusal :=
  .next (storeIdentityReq w0 w1 w2 w3 s)

/-- COMMIT_COMPLETE (R42). -/
def execCommitComplete (s : State) : Host.Outcome State Fault Refusal :=
  match opDue s with
  | some (.commit id c check) => .next (finishCommit id c check s)
  | _ => .next s

/-- ERASE_COMPLETE (R43). -/
def execEraseComplete (s : State) : Host.Outcome State Fault Refusal :=
  match opDue s with
  | some (.erase id) => .next (finishErase id s)
  | _ => .next s

/-- ERASE_ALL_COMPLETE (R54). -/
def execEraseAllComplete (s : State) : Host.Outcome State Fault Refusal :=
  match opDue s with
  | some .eraseAll => .next (finishEraseAll s)
  | _ => .next s

end Sys2Proof.Machine
end

