-- ==== Sys2Proof/Machine/TimebaseCmds.lean ====
section
/-! DEFINITION. The commands of the Timebase (R3, R4, R8, R9, R13 to R16). -/
namespace Sys2Proof.Machine

/-! ## Requests -/

/-- Show time is set from UNSET (R14): no step, and the Scheduler has a validity event with SET. -/
def setFromUnset (v : Int) (s : State) : State :=
  let s := moveShow (v - s.tb.showTime) s
  validEvent { s with tb.valid := true }

/-- A TIME-SET whose value is in range (R14, R15). -/
def timeSetTaken (v : Int) (force : Bool) (s : State) : State :=
  if !s.tb.valid then reply 0x10#8 .ok .none (setFromUnset v s)
  else if s.bothIdle then reply 0x10#8 .ok .none (applyStep (v - s.tb.showTime) s)
  else if force then
    reply 0x10#8 .ok .none (abortLane .C .timeStep false (abortLane .M .timeStep false (holdStep v true s)))
  else reply 0x10#8 .held .none (holdStep v false s)

/-- TIME-SET at the Timebase (R14). -/
def timeSetReq (v : Int) (force : Bool) : State → State :=
  gated 0x10#8 fun s =>
    if withinI 0 Config.maxTime v then settleFreed s (timeSetTaken v force s)
    else reply 0x10#8 .badValue .none s

/-- TIME-GET (R16). -/
def timeGetReq : State → State :=
  gated 0x11#8 fun s =>
    reply 0x11#8 .ok
      (.timeGet s.tb.showTime s.tb.valid s.tb.elapsed s.tb.disc s.tb.correction s.tb.held
        (s.tb.lastPulse.map Stamp.shown) s.tb.rejected) s

/-! ## Events -/

/-- A slewing period of 100 ms has ended (R8). -/
def slewDue (s : State) : Bool := decide (s.tb.correction ≠ 0) && decide (100 ≤ s.tb.slewPhase)

/-- The loss timer has run out (R9). -/
def lossDue (s : State) : Bool :=
  match s.tb.lossAt with
  | some t => decide (t ≤ s.tb.elapsed)
  | none => false

/-- Show time has run past the end of its range (R13). -/
def rangeDue (s : State) : Bool := decide (Config.maxTime < s.tb.showTime)

/-- TIME_SET. -/
def execTimeSet (value : Int) (force : Bool) (s : State) : Host.Outcome State Fault Refusal :=
  .next (timeSetReq value force s)

/-- TIME_GET. -/
def execTimeGet (s : State) : Host.Outcome State Fault Refusal := .next (timeGetReq s)

/-- MINUTE_PULSE (R4 to R7). -/
def execMinutePulse (s : State) : Host.Outcome State Fault Refusal := .next (settle (minuteRise s))

/-- SLEW_PERIOD_END (R8). -/
def execSlewPeriodEnd (s : State) : Host.Outcome State Fault Refusal := .next (whenDue (slewDue s) endSlewPeriod s)

/-- PULSE_LOST (R9). -/
def execPulseLost (s : State) : Host.Outcome State Fault Refusal := .next (whenDue (lossDue s) losePulse s)

/-- DATE_CHANGE (R3, R29). -/
def execDateChange (s : State) : Host.Outcome State Fault Refusal := .next (whenDue (dateDue s) evalSeasons s)

/-- RANGE_END (R13). -/
def execRangeEnd (s : State) : Host.Outcome State Fault Refusal :=
  .next (whenDue (rangeDue s) (fun s => settleFreed s (endRange s)) s)

end Sys2Proof.Machine
end

