-- ==== Sys2Proof/Machine/HostLink.lean ====
section
/-! DEFINITION. The host line: frames, the overlap rule, the dispatch of requests, and replies (R167 to R169, R176,
R181). -/
namespace Sys2Proof.Machine

/-- A request handed to the block that owns it (R168). -/
def serve (r : Request) : State → State :=
  match r with
  | .timeSet v f => timeSetReq v f
  | .timeGet => timeGetReq
  | .trigSet i a b => trigSetReq i a b
  | .trigGet i => trigGetReq i
  | .trigDisarm i => trigDisarmReq i
  | .seasonGet => seasonGetReq
  | .storePut b o d => storePutReq b o d
  | .storeCommit k n => storeCommitReq k n
  | .storeErase k n => storeEraseReq k n
  | .storeEraseAll => storeEraseAllReq
  | .storeList => storeListReq
  | .storeRead k n o c => storeReadReq k n o c
  | .storeSum => storeSumReq
  | .storeProtect l r => storeProtectReq l r
  | .storeLock => storeLockReq
  | .storeIdentity a b c d => storeIdentityReq a b c d
  | .showStart q l => showStartReq q l
  | .showStop l => showStopReq l
  | .showHold l => showHoldReq l
  | .showResume l => showResumeReq l
  | .showStatus => showStatusReq
  | .queueGet => queueGetReq
  | .queueFlush l => queueFlushReq l
  | .lampSet c l f => lampSetReq c l f
  | .bellStrike b v => bellStrikeReq b v
  | .bellDamp bs => bellDampReq bs
  | .bellMute b on => bellMuteReq b on
  | .bellClear b c => bellClearReq b c
  | .bellStatus => bellStatusReq
  | .budgetGet => budgetGetReq
  | .linkStatus c => linkStatusReq c
  | .linkWake => linkWakeReq
  | .nodeQuery a k => nodeQueryReq a k
  | .figStatus => figStatusReq
  | .figClear f => figClearReq f
  | .figHome f a => figHomeReq f a
  | .doorMove d g => doorMoveReq d g
  | .doorStatus => doorStatusReq
  | .turnHome => turnHomeReq
  | .turnMove p d => turnMoveReq p d
  | .turnStatus => turnStatusReq
  | .inputGet => inputGetReq
  | .guardSet g d => guardSetReq g d
  | .guardGet c => guardGetReq c
  | .captureSet u a => captureSetReq u a
  | .captureGet u e => captureGetReq u e
  | .causesGet => causesGetReq
  | .causesClear es => causesClearReq es
  | .causeMask m => causeMaskReq m
  | .ident => identReq
  | .reset => resetReq
  | .configSet fs => configSetReq fs
  | .configGet => configGetReq
  | .configSave => configSaveReq

/-- The row of the command table that a request is. -/
def rowOf : Request → Instr
  | .timeSet v f => .timeSet v f
  | .timeGet => .timeGet
  | .trigSet i a b => .trigSet i a b
  | .trigGet i => .trigGet i
  | .trigDisarm i => .trigDisarm i
  | .seasonGet => .seasonGet
  | .storePut b o d => .storePut b o d
  | .storeCommit k n => .storeCommit k n
  | .storeErase k n => .storeErase k n
  | .storeEraseAll => .storeEraseAll
  | .storeList => .storeList
  | .storeRead k n o c => .storeRead k n o c
  | .storeSum => .storeSum
  | .storeProtect l r => .storeProtect l r
  | .storeLock => .storeLock
  | .storeIdentity w0 w1 w2 w3 => .storeIdentity w0 w1 w2 w3
  | .showStart q st => .showStart q st
  | .showStop l => .showStop l
  | .showHold l => .showHold l
  | .showResume l => .showResume l
  | .showStatus => .showStatus
  | .queueGet => .queueGet
  | .queueFlush l => .queueFlush l
  | .lampSet c l f => .lampSet c l f
  | .bellStrike b v => .bellStrike b v
  | .bellDamp bs => .bellDamp bs
  | .bellMute b on => .bellMute b on
  | .bellClear b c => .bellClear b c
  | .bellStatus => .bellStatus
  | .budgetGet => .budgetGet
  | .linkStatus c => .linkStatus c
  | .linkWake => .linkWake
  | .nodeQuery a k => .nodeQuery a k
  | .figStatus => .figStatus
  | .figClear f => .figClear f
  | .figHome f a => .figHome f a
  | .doorMove d g => .doorMove d g
  | .doorStatus => .doorStatus
  | .turnHome => .turnHome
  | .turnMove p d => .turnMove p d
  | .turnStatus => .turnStatus
  | .inputGet => .inputGet
  | .guardSet g d => .guardSet g d
  | .guardGet c => .guardGet c
  | .captureSet u a => .captureSet u a
  | .captureGet u e => .captureGet u e
  | .causesGet => .causesGet
  | .causesClear es => .causesClear es
  | .causeMask m => .causeMask m
  | .ident => .ident
  | .reset => .reset
  | .configSet fs => .configSet fs
  | .configGet => .configGet
  | .configSave => .configSave

/-! ## Frames that arrive (R168, R169) -/

/-- A frame that arrives while a request is outstanding (R169): a BUSY reply, or nothing while one is held. The reply's kind
is taken modulo 256 (log entry 74). -/
def overlapped (k tag : Byte) (s : State) : State :=
  if s.hlc.replies.any (·.overlap) then { s with hlc.counts.overlap := satInc s.hlc.counts.overlap }
  else
    { s with hlc.replies :=
        s.hlc.replies ++ [{ kind := k + 0x80#8, tag := tag, status := .busy, data := .none, overlap := true }] }

/-- The request a frame's body spells, if its length is one that a form of the frame's kind allows (R168). -/
def spelled (f : HostFrame) : Option Request :=
  match f.body with
  | .request r => if r.kind == f.kind && r.wellFormed then some r else none
  | .wrongLength => none

/-- A frame arrives (R168): the overlap rule, the kind and the length are checked in that order, and the request is
then carried out by its owner. -/
def takeFrame (f : HostFrame) (s : State) : State :=
  if s.hlc.outstanding.isSome then overlapped f.kind f.tag s
  else
    let s := { s with hlc.outstanding := some { kind := f.kind, tag := f.tag } }
    if !isRequestKind f.kind then reply f.kind .badKind .none s
    else
      match spelled f with
      | none => reply f.kind .badLength .none s
      | some r => serve r s

/-- The receiver takes bytes from the end of start-up step 1 on (R181). -/
def listening (s : State) : Bool := decide (1 ≤ s.hlc.step)

def hunting (s : State) : State := { s with hlc.rx := .hunting }

/-- HOST_FRAME_ARRIVED (R168, R169, R181): the frame brings its own sync byte, and is taken while hunting too (log entry
73). -/
def execHostFrameArrived (frame : HostFrame) (s : State) : Host.Outcome State Fault Refusal :=
  .next (whenDue (listening s) (fun s => takeFrame frame (hunting s)) s)

/-! ## Replies (R168, R169, R176) -/

/-- The reply is the OK of a RESET (R176). -/
def Reply.resets (r : Reply) : Bool := r.kind == 0xF4#8 && r.status == .ok && !r.overlap

/-- The last byte of the first reply has been sent (R169, R176). The reply to a request given as its own row ends the
outstanding request as its own reply does (log entry 9). -/
def sendFirst (s : State) : State :=
  match s.hlc.replies with
  | [] => s
  | r :: rest =>
    let s := { s with hlc.replies := rest }
    let s := if r.overlap then s else { s with hlc.outstanding := none }
    if r.resets then softReset s else s

/-- REPLY_SENT (R169, R176). -/
def execReplySent (s : State) : Host.Outcome State Fault Refusal := .next (sendFirst s)

/-! ## Bytes (R167) -/

/-- The receiver is in a frame. -/
def inFrame (s : State) : Bool := listening s && decide (s.hlc.rx = .inFrame)

/-- The receiver is hunting. -/
def isHunting (s : State) : Bool := listening s && decide (s.hlc.rx = .hunting)

/-- Count a discarded frame or byte. -/
def countHost (f : HostCounts → HostCounts) (s : State) : State := { s with hlc.counts := f s.hlc.counts }

/-- More than 20 ms can have passed between two bytes of the frame (R167). -/
def gapMayHave (s : State) : Bool := inFrame s && decide (s.hlc.syncAt + Config.hostGapMs < s.tb.elapsed)

/-- HOST_GAP_TIMEOUT (R167). -/
def execHostGapTimeout (s : State) : Host.Outcome State Fault Refusal :=
  .next (whenDue (gapMayHave s) (fun s => countHost (fun c => { c with gap := satInc c.gap }) (hunting s)) s)

/-- SYNC_BYTE (R167). -/
def execSyncByte (s : State) : Host.Outcome State Fault Refusal :=
  .next (whenDue (isHunting s)
    (fun s => { s with hlc.rx := .inFrame, hlc.syncAt := s.tb.elapsed, hlc.lastByte := s.tb.elapsed }) s)

/-- STRAY_BYTE (R167): the sync byte is none. -/
def execStrayByte (byte : Byte) (s : State) : Host.Outcome State Fault Refusal :=
  .next (whenDue (isHunting s && byte != 0xA5#8) (countHost fun c => { c with stray := satInc c.stray }) s)

/-- FRAME_LENGTH_ERROR (R167). -/
def execFrameLengthError (length : Nat) (s : State) : Host.Outcome State Fault Refusal :=
  .next (whenDue (inFrame s && decide (Config.maxBody < length))
    (fun s => countHost (fun c => { c with length := satInc c.length }) (hunting s)) s)

/-- The check of a frame fails: the CRC received differs from the one computed, or a byte of the frame had its stop bit
low (R167). -/
def crcFails (rx : RxBytes) (crc : Half) : Bool := rx.stopLow || crc16 rx.bytes != crc

/-- FRAME_CRC_ERROR: the bytes from the first length byte to the last body byte, the CRC received, and whether a byte's stop
bit was low (R167). -/
def execFrameCrcError (bytes : RxBytes) (crc : Half) (s : State) : Host.Outcome State Fault Refusal :=
  .next (whenDue (inFrame s && crcFails bytes crc)
    (fun s => countHost (fun c => { c with crc := satInc c.crc }) (hunting s)) s)

end Sys2Proof.Machine
end

