-- ==== Sys2Proof/Machine/Clock.lean ====
section
/-! DEFINITION. The block's own clock: the next of its own events that is due, and one millisecond (log entries 2
to 5). -/
namespace Sys2Proof.Machine

/-! ## The block's own events, in the model's fixed order (log entry 3) -/

/-- The first index, lowest first, for which a condition holds. -/
def firstWhere {n : Nat} (p : Fin n → Bool) : Option (Fin n) := (List.finRange n).find? p

/-- The start-up step that comes next (R180). -/
def startupDue (s : State) : Option Instr :=
  match s.hlc.step with
  | 0 => some .startupSettings
  | 1 => some .startupStore
  | 2 => some .startupItems
  | 3 => some .startupDoorsAndGuards
  | 4 => some .startupLink
  | 5 => some .startupTime
  | _ => none

/-- An event of a condition. -/
def onlyIf (b : Bool) (i : Instr) : Option Instr := if b then some i else none

/-- The Timebase's events; a date change comes before every fire (R22). -/
def timeDue (s : State) : Option Instr :=
  onlyIf (slewDue s) .slewPeriodEnd <|> onlyIf (rangeDue s) .rangeEnd <|> onlyIf (dateDue s) .dateChange

/-- A filtered level that the latest samples have changed: the edge of the lowest-numbered input of its bank. -/
def changedBit {w : Nat} (k : Bank w) : Option (Fin w × Bool) :=
  let f := k.filtered (BitVec.allOnes w)
  (firstWhere fun i : Fin w => f.getLsbD i.val != k.level.getLsbD i.val).map fun i => (i, f.getLsbD i.val)

/-- The door limit of a place in its bank. -/
def limitOf (i : Fin 4) : Door × Goal :=
  (if i.val < 2 then 0 else 1, if i.val % 2 = 0 then .closed else .opened)

/-- The edge row of an input of the bank of MINUTE, index and home. -/
def miscEdge (i : Fin 3) (v : Bool) : Instr :=
  if i = 0 then .minutePulse else if i = 1 then .turntableIndexEdge v else .turntableHomeEdge v

/-- The bank of MINUTE, index and home with a MINUTE fall already taken, which is handed to no block (R155). -/
def miscRises (k : Bank 3) : Bank 3 := { k with level := k.level &&& (k.filtered (BitVec.allOnes 3) ||| 6#3) }

/-- Edges that sampling has made (R155). -/
def edgeDue (s : State) : Option Instr :=
  let general := s.inm.general.filtered s.inm.filterOn
  ((changedBit (miscRises s.inm.misc)).map fun (i, v) => miscEdge i v) <|>
  onlyIf (general != s.inm.general.level) (.generalInputEdge general) <|>
  ((changedBit s.inm.echo).map fun (b, v) => .echoEdge b v) <|>
  (changedBit s.inm.limits).map fun (i, v) => .doorLimitEdge (limitOf i).1 (limitOf i).2 v

/-- The completion of the store operation in progress. -/
def storeDue (s : State) : Option Instr :=
  (opDue s).map fun o =>
    match o with
    | .commit .. => .commitComplete
    | .erase _ => .eraseComplete
    | .eraseAll => .eraseAllComplete

/-- The Scheduler's next fire or follow-on (R22). -/
def schedulerDue (s : State) : Option Instr :=
  (nextFire s).map fun (i, follow) => if follow then .followOnFire i else .triggerFire i

/-- The row of a cue. -/
def cueInstr (l : Lane) (i : Nat) : CueRow → Instr
  | .strike => .strikeCue l i
  | .damp => .dampCue l i
  | .move => .moveCue l i
  | .door => .doorCue l i
  | .turn => .turnCue l i
  | .mark => .markCue l i
  | .lamp => .lampCue l i
  | .finish => .endCue l

/-- The next cue of a lane. -/
def laneCue (l : Lane) (s : State) : Option Instr :=
  (nextCue l s).bind fun i => (cueRow l i s).map (cueInstr l i)

/-- The bells' events. -/
def bellDue (s : State) : Option Instr :=
  (firstWhere fun b => pulseDue b s).map .pulseEnd <|>
  (firstWhere fun b => echoDue b s).map .echoWindowClose <|>
  (firstWhere fun b => stuckDue b s).map .stuckEchoTest <|>
  (firstWhere fun b => (strikeToLift b s).isSome).map .damperLift <|>
  (firstWhere fun b => (strikeToClaim b s).isSome).map .strikeClaim <|>
  (firstWhere fun b => (strikeToDrop b s).isSome).map .strikeDeadline <|>
  (firstWhere fun b => dropsNow s b).map .damperDrop

/-- The tags of the moves before their GO. -/
def tagsHeld (s : State) : List Nat :=
  allFigs.filterMap fun f => if (s.fig f).inStaging then (s.fig f).move.map Move.tag else none

/-- The events of figures, doors and the turntable. -/
def stageDue (s : State) : Option Instr :=
  ((tagsHeld s).find? fun t => goDue t s).map .goQueued <|>
  ((tagsHeld s).find? fun t => goLate t s).map .goDeadline <|>
  (firstWhere fun f => arrivalOver f s).map .arrivalWindowClose <|>
  (firstWhere fun f => homeDue f s).map .homeQueued <|>
  (firstWhere fun f => homingOver f s).map .homingTimeout <|>
  (firstWhere fun f => homeLate f s).map .homeArrivalTimeout <|>
  (firstWhere fun d => (doorOverrun d s).isSome).map .doorTravelLimit <|>
  (firstWhere fun d => (doorOverdue d s).isSome).map .doorDeadline <|>
  onlyIf (indexOver s) .turnIndexTimeout <|>
  onlyIf (turnOverdue s).isSome .turnDeadline

/-- A lane's hold has lasted its limit. -/
def holdDue (s : State) : Option Instr :=
  onlyIf (holdOver .M s) (.holdTimeout .M) <|> onlyIf (holdOver .C s) (.holdTimeout .C)

/-- The events of captures, guards, holds and lamps. -/
def showDue (s : State) : Option Instr :=
  (firstWhere fun u => windowDue u s).map .captureWindowClose <|>
  (firstWhere fun g => resumeDue g s).map .autoResume <|>
  holdDue s <|>
  (firstWhere fun ch : Lamp => (s.seq.lamps.get ch).fadeOver).map .lampFadeEnd

/-- How an answer ends that has begun and has not come whole in the time that gaps within the limit allow: a line idle for
too long after one of its bytes, or, of an answer of one byte, a bad byte (log entry 5). -/
def answerEnds (s : State) : Option Instr :=
  match s.flc.flight with
  | some f =>
    match f.answer with
    | some b =>
      if b.endBy f.txn.kind.answerBytes ≤ s.tb.elapsed then
        some (if 1 < f.txn.kind.answerBytes then .gapTimeout else .frameError)
      else none
    | none => none
  | none => none

/-- The low of the line of which the model has been told has lasted 100 ms (R129). -/
def lowLasts (s : State) : Bool := s.flc.lowSince.isSome && lowTooLong s

/-- The link's events. -/
def linkDue (s : State) : Option Instr :=
  onlyIf (lowOver s) .wakeLowEnd <|>
  onlyIf (settleOver s) .wakeComplete <|>
  onlyIf (sentWhole .halt s).isSome .haltComplete <|>
  onlyIf (sentWhole .go s).isSome .goComplete <|>
  onlyIf (answerLate s) .noAnswer <|>
  answerEnds s <|>
  onlyIf (lowLasts s) .lineStuck <|>
  onlyIf (stopDue s) .transactionAbandoned <|>
  onlyIf (expired s).isSome .hostEntryTimeout <|>
  onlyIf (wakeAgain s) .wakePending <|>
  onlyIf (tickDue s) .pollTick <|>
  onlyIf (retryReady s) .retryAttempt <|>
  onlyIf (takeNext s).isSome .transactionStart

/-- No byte of the frame being received has come for more than 20 ms (R167). -/
def frameStops (s : State) : Bool := inFrame s && decide (s.hlc.lastByte + Config.hostGapMs < s.tb.elapsed)

/-- The next of the block's own events that is due (log entry 3). -/
def nextDue (s : State) : Option Instr :=
  startupDue s <|> timeDue s <|> edgeDue s <|>
  onlyIf (lossDue s) .pulseLost <|>
  onlyIf (frameStops s) .hostGapTimeout <|>
  storeDue s <|>
  onlyIf (saveDue s).isSome .configSaveComplete <|>
  schedulerDue s <|> laneCue .M s <|> laneCue .C s <|> bellDue s <|> stageDue s <|> showDue s <|> linkDue s

/-! ## One millisecond (R1, R8) -/

/-- The Timebase after a millisecond (R1, R8): show time runs with the elapsed count, and the last millisecond of a
slewing period takes it on by 2, over an instant, or by 0. -/
def TB.tick (t : TB) : TB :=
  if t.correction = 0 then { t with elapsed := t.elapsed + 1, showTime := t.showTime + 1, jumped := false }
  else
    let last := decide (t.slewPhase + 1 = 100)
    { t with
      elapsed := t.elapsed + 1, slewPhase := t.slewPhase + 1, jumped := last && decide (0 < t.correction)
      showTime := if last then (if 0 < t.correction then t.showTime + 2 else t.showTime) else t.showTime + 1 }

/-- An answer that is awaited may begin in a millisecond: whether it does is a free value, and the gap limit is taken as it
then stands (R119; log entry 5). -/
def beginAnswer (s : State) : State :=
  match s.flc.flight with
  | some f =>
    if 0 < f.txn.kind.answerBytes ∧ f.answer = none ∧ f.sentAt ≤ s.tb.elapsed ∧ s.tb.elapsed ≤ f.noAnswerAt then
      let begun : Option Begun :=
        if Config.answerBegins s.free then some { since := s.tb.elapsed, gap := s.hlc.live.gapLimit } else none
      { s with flc.flight := some { f with answer := begun }, free := s.free + 1 }
    else s
  | none => s

/-- A byte of the frame being received may come in a millisecond: whether it does is a free value (R167; log entry 5). -/
def takeByte (s : State) : State :=
  if inFrame s then
    { s with
      hlc.lastByte := if Config.byteComes s.free then s.tb.elapsed else s.hlc.lastByte, free := s.free + 1 }
  else s

/-- The clocks and the lamp fades go on by a millisecond (R1, R8, R80). -/
def advance (s : State) : State := { s with tb := s.tb.tick, seq.lamps := s.seq.lamps.map LampRec.tick }

/-- One millisecond of the elapsed count in which nothing falls due: the deadlines of strikes that have reached their due
times are fixed as the instant ends, the clocks and the lamp fades go on, what comes on the two lines comes, and the inputs
are sampled (R1, R8, R80, R95, R154). -/
def tick (s : State) : State := sampleInputs (takeByte (beginAnswer (advance (fixDeadlines s))))

end Sys2Proof.Machine
end

