-- ==== Sys2Proof/Machine/PowerUp.lean ====
section
/-! DEFINITION. The commands of power-on reset and start-up (R180). -/
namespace Sys2Proof.Machine

/-- POWER_ON_RESET (R180). -/
def execPowerOnReset (s : State) : Host.Outcome State Fault Refusal := .next (powerOnReset s)

/-- STARTUP_SETTINGS (R180, step 1). -/
def execStartupSettings (s : State) : Host.Outcome State Fault Refusal := .next (afterStep 0 startSettings s)

/-- STARTUP_STORE (R180, step 2). -/
def execStartupStore (s : State) : Host.Outcome State Fault Refusal := .next (afterStep 1 startStore s)

/-- STARTUP_ITEMS (R180, step 3). -/
def execStartupItems (s : State) : Host.Outcome State Fault Refusal := .next (afterStep 2 startItems s)

/-- STARTUP_DOORS_AND_GUARDS (R180, step 4). -/
def execStartupDoorsAndGuards (s : State) : Host.Outcome State Fault Refusal := .next (afterStep 3 startDoors s)

/-- STARTUP_LINK (R180, step 5). -/
def execStartupLink (s : State) : Host.Outcome State Fault Refusal := .next (afterStep 4 startLink s)

/-- STARTUP_TIME (R180, step 6). -/
def execStartupTime (s : State) : Host.Outcome State Fault Refusal := .next (afterStep 5 startTime s)

end Sys2Proof.Machine
end

