-- ==== Sys2Proof/Machine/Dispatch.lean ====
section
/-! DEFINITION. The meaning of every command: one arm for each row of spec/opcode_table.json. -/
namespace Sys2Proof.Machine

def exec (i : Instr) (s : State) : Host.Outcome State Fault Refusal :=
  match i with
  | .powerOnReset => Sys2Proof.Machine.execPowerOnReset s
  | .startupSettings => Sys2Proof.Machine.execStartupSettings s
  | .startupStore => Sys2Proof.Machine.execStartupStore s
  | .startupItems => Sys2Proof.Machine.execStartupItems s
  | .startupDoorsAndGuards => Sys2Proof.Machine.execStartupDoorsAndGuards s
  | .startupLink => Sys2Proof.Machine.execStartupLink s
  | .startupTime => Sys2Proof.Machine.execStartupTime s
  | .hostFrameArrived frame => Sys2Proof.Machine.execHostFrameArrived frame s
  | .hostGapTimeout => Sys2Proof.Machine.execHostGapTimeout s
  | .replySent => Sys2Proof.Machine.execReplySent s
  | .timeSet value force => Sys2Proof.Machine.execTimeSet value force s
  | .timeGet => Sys2Proof.Machine.execTimeGet s
  | .trigSet index args arm => Sys2Proof.Machine.execTrigSet index args arm s
  | .trigGet index => Sys2Proof.Machine.execTrigGet index s
  | .trigDisarm index => Sys2Proof.Machine.execTrigDisarm index s
  | .seasonGet => Sys2Proof.Machine.execSeasonGet s
  | .storePut start offset data => Sys2Proof.Machine.execStorePut start offset data s
  | .storeCommit kind number => Sys2Proof.Machine.execStoreCommit kind number s
  | .storeErase kind number => Sys2Proof.Machine.execStoreErase kind number s
  | .storeEraseAll => Sys2Proof.Machine.execStoreEraseAll s
  | .storeList => Sys2Proof.Machine.execStoreList s
  | .storeRead kind number offset count => Sys2Proof.Machine.execStoreRead kind number offset count s
  | .storeSum => Sys2Proof.Machine.execStoreSum s
  | .storeProtect level readLock => Sys2Proof.Machine.execStoreProtect level readLock s
  | .storeLock => Sys2Proof.Machine.execStoreLock s
  | .storeIdentity w0 w1 w2 w3 => Sys2Proof.Machine.execStoreIdentity w0 w1 w2 w3 s
  | .commitComplete => Sys2Proof.Machine.execCommitComplete s
  | .eraseComplete => Sys2Proof.Machine.execEraseComplete s
  | .eraseAllComplete => Sys2Proof.Machine.execEraseAllComplete s
  | .minutePulse => Sys2Proof.Machine.execMinutePulse s
  | .slewPeriodEnd => Sys2Proof.Machine.execSlewPeriodEnd s
  | .pulseLost => Sys2Proof.Machine.execPulseLost s
  | .dateChange => Sys2Proof.Machine.execDateChange s
  | .rangeEnd => Sys2Proof.Machine.execRangeEnd s
  | .triggerFire index => Sys2Proof.Machine.execTriggerFire index s
  | .followOnFire index => Sys2Proof.Machine.execFollowOnFire index s
  | .showStart subject staleness => Sys2Proof.Machine.execShowStart subject staleness s
  | .showStop lanes => Sys2Proof.Machine.execShowStop lanes s
  | .showHold lanes => Sys2Proof.Machine.execShowHold lanes s
  | .showResume lanes => Sys2Proof.Machine.execShowResume lanes s
  | .showStatus => Sys2Proof.Machine.execShowStatus s
  | .queueGet => Sys2Proof.Machine.execQueueGet s
  | .queueFlush lanes => Sys2Proof.Machine.execQueueFlush lanes s
  | .lampSet channel level fade => Sys2Proof.Machine.execLampSet channel level fade s
  | .strikeCue lane cue => Sys2Proof.Machine.execStrikeCue lane cue s
  | .dampCue lane cue => Sys2Proof.Machine.execDampCue lane cue s
  | .moveCue lane cue => Sys2Proof.Machine.execMoveCue lane cue s
  | .doorCue lane cue => Sys2Proof.Machine.execDoorCue lane cue s
  | .turnCue lane cue => Sys2Proof.Machine.execTurnCue lane cue s
  | .markCue lane cue => Sys2Proof.Machine.execMarkCue lane cue s
  | .lampCue lane cue => Sys2Proof.Machine.execLampCue lane cue s
  | .endCue lane => Sys2Proof.Machine.execEndCue lane s
  | .holdTimeout lane => Sys2Proof.Machine.execHoldTimeout lane s
  | .lampFadeEnd channel => Sys2Proof.Machine.execLampFadeEnd channel s
  | .bellStrike bell velocity => Sys2Proof.Machine.execBellStrike bell velocity s
  | .bellDamp bells => Sys2Proof.Machine.execBellDamp bells s
  | .bellMute bell on => Sys2Proof.Machine.execBellMute bell on s
  | .bellClear bell counters => Sys2Proof.Machine.execBellClear bell counters s
  | .bellStatus => Sys2Proof.Machine.execBellStatus s
  | .damperLift bell => Sys2Proof.Machine.execDamperLift bell s
  | .strikeClaim bell => Sys2Proof.Machine.execStrikeClaim bell s
  | .pulseEnd bell => Sys2Proof.Machine.execPulseEnd bell s
  | .strikeDeadline bell => Sys2Proof.Machine.execStrikeDeadline bell s
  | .echoWindowClose bell => Sys2Proof.Machine.execEchoWindowClose bell s
  | .stuckEchoTest bell => Sys2Proof.Machine.execStuckEchoTest bell s
  | .damperDrop bell => Sys2Proof.Machine.execDamperDrop bell s
  | .echoEdge bell level => Sys2Proof.Machine.execEchoEdge bell level s
  | .budgetGet => Sys2Proof.Machine.execBudgetGet s
  | .linkStatus clear => Sys2Proof.Machine.execLinkStatus clear s
  | .linkWake => Sys2Proof.Machine.execLinkWake s
  | .nodeQuery address kind => Sys2Proof.Machine.execNodeQuery address kind s
  | .transactionStart => Sys2Proof.Machine.execTransactionStart s
  | .retryAttempt => Sys2Proof.Machine.execRetryAttempt s
  | .readbackError byte bit => Sys2Proof.Machine.execReadbackError byte bit s
  | .noAnswer => Sys2Proof.Machine.execNoAnswer s
  | .frameError => Sys2Proof.Machine.execFrameError s
  | .gapTimeout => Sys2Proof.Machine.execGapTimeout s
  | .statusAnswer bytes => Sys2Proof.Machine.execStatusAnswer bytes s
  | .stageAnswer byte => Sys2Proof.Machine.execStageAnswer byte s
  | .clearAnswer byte => Sys2Proof.Machine.execClearAnswer byte s
  | .homeAnswer byte => Sys2Proof.Machine.execHomeAnswer byte s
  | .identAnswer bytes => Sys2Proof.Machine.execIdentAnswer bytes s
  | .goComplete => Sys2Proof.Machine.execGoComplete s
  | .haltComplete => Sys2Proof.Machine.execHaltComplete s
  | .transactionAbandoned => Sys2Proof.Machine.execTransactionAbandoned s
  | .alert => Sys2Proof.Machine.execAlert s
  | .lineStuck => Sys2Proof.Machine.execLineStuck s
  | .lineReleased => Sys2Proof.Machine.execLineReleased s
  | .wakeLowEnd => Sys2Proof.Machine.execWakeLowEnd s
  | .wakeComplete => Sys2Proof.Machine.execWakeComplete s
  | .wakePending => Sys2Proof.Machine.execWakePending s
  | .pollTick => Sys2Proof.Machine.execPollTick s
  | .hostEntryTimeout => Sys2Proof.Machine.execHostEntryTimeout s
  | .figStatus => Sys2Proof.Machine.execFigStatus s
  | .figClear figure => Sys2Proof.Machine.execFigClear figure s
  | .figHome figure allowed => Sys2Proof.Machine.execFigHome figure allowed s
  | .doorMove door goal => Sys2Proof.Machine.execDoorMove door goal s
  | .doorStatus => Sys2Proof.Machine.execDoorStatus s
  | .turnHome => Sys2Proof.Machine.execTurnHome s
  | .turnMove position dir => Sys2Proof.Machine.execTurnMove position dir s
  | .turnStatus => Sys2Proof.Machine.execTurnStatus s
  | .goQueued tag => Sys2Proof.Machine.execGoQueued tag s
  | .goDeadline tag => Sys2Proof.Machine.execGoDeadline tag s
  | .arrivalWindowClose figure => Sys2Proof.Machine.execArrivalWindowClose figure s
  | .homeQueued figure => Sys2Proof.Machine.execHomeQueued figure s
  | .homingTimeout figure => Sys2Proof.Machine.execHomingTimeout figure s
  | .homeArrivalTimeout figure => Sys2Proof.Machine.execHomeArrivalTimeout figure s
  | .doorLimitEdge door which level => Sys2Proof.Machine.execDoorLimitEdge door which level s
  | .doorTravelLimit door => Sys2Proof.Machine.execDoorTravelLimit door s
  | .doorDeadline door => Sys2Proof.Machine.execDoorDeadline door s
  | .turntableIndexEdge level => Sys2Proof.Machine.execTurntableIndexEdge level s
  | .turntableHomeEdge level => Sys2Proof.Machine.execTurntableHomeEdge level s
  | .turnIndexTimeout => Sys2Proof.Machine.execTurnIndexTimeout s
  | .turnDeadline => Sys2Proof.Machine.execTurnDeadline s
  | .inputGet => Sys2Proof.Machine.execInputGet s
  | .guardSet group defn => Sys2Proof.Machine.execGuardSet group defn s
  | .guardGet clear => Sys2Proof.Machine.execGuardGet clear s
  | .captureSet unit args => Sys2Proof.Machine.execCaptureSet unit args s
  | .captureGet unit edges => Sys2Proof.Machine.execCaptureGet unit edges s
  | .generalInputEdge levels => Sys2Proof.Machine.execGeneralInputEdge levels s
  | .autoResume group => Sys2Proof.Machine.execAutoResume group s
  | .captureWindowClose unit => Sys2Proof.Machine.execCaptureWindowClose unit s
  | .causesGet => Sys2Proof.Machine.execCausesGet s
  | .causesClear entries => Sys2Proof.Machine.execCausesClear entries s
  | .causeMask mask => Sys2Proof.Machine.execCauseMask mask s
  | .ident => Sys2Proof.Machine.execIdent s
  | .reset => Sys2Proof.Machine.execReset s
  | .configSet fields => Sys2Proof.Machine.execConfigSet fields s
  | .configGet => Sys2Proof.Machine.execConfigGet s
  | .configSave => Sys2Proof.Machine.execConfigSave s
  | .configSaveComplete => Sys2Proof.Machine.execConfigSaveComplete s
  | .syncByte => Sys2Proof.Machine.execSyncByte s
  | .strayByte byte => Sys2Proof.Machine.execStrayByte byte s
  | .frameLengthError length => Sys2Proof.Machine.execFrameLengthError length s
  | .frameCrcError bytes crc => Sys2Proof.Machine.execFrameCrcError bytes crc s

end Sys2Proof.Machine
end

