-- ==== Sys2Proof/Safety.lean ====
section
/-! DEFINITION. The invariant every step of the block keeps: the bounds the spec sets on what the block holds, and the
canonical form of the staging buffer. -/
namespace Sys2Proof.Machine

/-- The held sum is within the budget in force (R106); the strike queue, the link queue and the lanes' queues are
within their depths (R88, R123, R61); the staging buffer is in canonical form (R40). -/
abbrev Bounded (s : State) : Prop :=
  s.held ≤ s.hlc.live.budget ∧ s.bell.strikes.length ≤ Config.strikeDepth ∧
  s.flc.queue.length ≤ Config.linkDepth ∧ s.seq.laneM.queue.length ≤ Config.laneDepth ∧
  s.seq.laneC.queue.length ≤ Config.laneDepth ∧ Memory.wf s.ps.staging = true

/-- The store's protection: the write level, the read lock, the protection lock and the identity words (R51 to R53). -/
def protection (s : State) := (s.ps.writeLevel, s.ps.readLock, s.ps.protLock, s.ps.identity)

end Sys2Proof.Machine
end

