-- ==== Sys2Proof/Certificates/Slice0/Obligations.lean ====
section
/-! DEFINITION. The statements for the provers. A request's statement has as its hypothesis the start-up step from
whose end its owner carries requests out (R181): 6 for the Timebase, the Sequencer, the Drive Budget Unit and the Figure
Link Controller, 3 for the Scheduler and the bells, 2 for the store, 4 for the stage and the inputs, 1 for the Host Link
Controller. -/

open Sys2Proof Sys2Proof.Machine

/-! ## The machine as a whole -/

/-- A step with a command at the front of the queue is that command's effect on the state with the queue's rest. -/
def Obligations.StepRunsFrontCommand : Prop :=
  ∀ (c : Instr) (rest : List Instr) (s : State),
    step { s with pending := c :: rest } = exec c { s with pending := rest }

/-- A step on an empty queue is the block's own next event that is due, or one millisecond (the model's choice, log
entry 2). Instants on the link are rounded up to whole milliseconds (log entry 4), and a low of the line that has
lasted 100 ms is taken as LINE_STUCK (log entry 23). Which events are due, and in what order they are taken (the
model's choice, log entry 3; of these, a change of date before every fire is R22's): start-up, the Timebase, edges that
sampling has made, the loss of the pulse, a host frame that stops, the store and the save, the Scheduler, the lanes'
cues, the bells, the stage, captures, groups, holds and fades, and the link; of one kind the lowest number first. A
millisecond fixes the deadlines of strikes whose due time has come (R95), takes the clocks (R1, R8) and the fades (R80)
on, tells by a free value whether an awaited answer begins and whether a byte of a host frame comes (log entry 5), and
samples the inputs (R154). -/
def Obligations.StepOnEmptyQueue : Prop :=
  (∀ s : State, s.pending = [] →
    (∀ c, nextDue s = some c → step s = exec c s) ∧ (nextDue s = none → step s = .next (tick s))) ∧
  (∀ s : State,
    let now := s.tb.showTime
    let elapsed := s.tb.elapsed
    let is (b : Bool) (i : Instr) : Option Instr := if b then some i else none
    let reached (t : Option Nat) : Bool := match t with | some t => decide (t ≤ elapsed) | none => false
    let first (n : Nat) (p : Fin n → Bool) (i : Fin n → Instr) : Option Instr := ((List.finRange n).find? p).map i
    let hears (b : Bell) (p : Stroke → Bool) : Bool := (s.bellRec b).strokes.any p
    let tags := (List.finRange 12).filterMap fun f =>
      if (s.fig f).inStaging then (s.fig f).move.map Move.tag else none
    let cue (l : Lane) : Option Instr := (nextCue l s).bind fun i => (s.run l).bind fun r => r.cues[i]?.map fun c =>
      match c.cue.kind with
      | .strike .. => .strikeCue l i | .damp _ => .dampCue l i | .move .. => .moveCue l i | .door .. => .doorCue l i
      | .turn .. => .turnCue l i | .mark .. => .markCue l i | .lamp .. => .lampCue l i | .finish => .endCue l
    let misc := s.inm.misc.filtered (BitVec.allOnes 3)
    let general := s.inm.general.filtered s.inm.filterOn
    let echo := s.inm.echo.filtered (BitVec.allOnes 20)
    let limits := s.inm.limits.filtered (BitVec.allOnes 4)
    nextDue s = ([
      [Instr.startupSettings, .startupStore, .startupItems, .startupDoorsAndGuards, .startupLink,
        .startupTime][s.hlc.step]?,
      is (s.tb.correction ≠ 0 ∧ 100 ≤ s.tb.slewPhase) .slewPeriodEnd,
      is (3155759999999 < now) .rangeEnd,
      is (now / 86400000 ≠ s.sch.today) .dateChange,
      is (misc.getLsbD 0 && !s.inm.misc.level.getLsbD 0) .minutePulse,
      is (misc.getLsbD 1 != s.inm.misc.level.getLsbD 1) (.turntableIndexEdge (misc.getLsbD 1)),
      is (misc.getLsbD 2 != s.inm.misc.level.getLsbD 2) (.turntableHomeEdge (misc.getLsbD 2)),
      is (general != s.inm.general.level) (.generalInputEdge general),
      first 20 (fun b => echo.getLsbD b.val != s.inm.echo.level.getLsbD b.val) fun b =>
        .echoEdge b (echo.getLsbD b.val),
      first 4 (fun i => limits.getLsbD i.val != s.inm.limits.level.getLsbD i.val) fun i =>
        .doorLimitEdge (if i.val < 2 then 0 else 1) (if i.val % 2 = 0 then .closed else .opened)
          (limits.getLsbD i.val),
      is (reached s.tb.lossAt) .pulseLost,
      is (1 ≤ s.hlc.step ∧ s.hlc.rx = .inFrame ∧ s.hlc.lastByte + 20 < elapsed) .hostGapTimeout,
      s.ps.op.bind fun o => is (o.due ≤ elapsed) (match o.what with
        | .commit .. => .commitComplete | .erase _ => .eraseComplete | .eraseAll => .eraseAllComplete),
      is (reached (s.hlc.save.map SaveRec.due)) .configSaveComplete,
      (nextFire s).map fun p => if p.2 then .followOnFire p.1 else .triggerFire p.1,
      cue .M, cue .C,
      first 20 (fun b => hears b fun k => k.pulseOn && decide (k.pulseEnd ≤ elapsed)) .pulseEnd,
      first 20 (fun b => hears b fun k => k.echoOpen && decide (k.echoClose ≤ elapsed)) .echoWindowClose,
      first 20 (fun b => hears b fun k => k.stuckDue && decide (k.stuckAt ≤ elapsed)) .stuckEchoTest,
      first 20 (fun b => (strikeToLift b s).isSome) .damperLift,
      first 20 (fun b => (strikeToClaim b s).isSome) .strikeClaim,
      first 20 (fun b => (strikeToDrop b s).isSome) .strikeDeadline,
      first 20 (fun b => dropsNow s b) .damperDrop,
      (tags.find? fun t => goDue t s).map .goQueued,
      (tags.find? fun t => goLate t s).map .goDeadline,
      first 12 (fun f => arrivalOver f s) .arrivalWindowClose,
      first 12 (fun f => homeDue f s) .homeQueued,
      first 12 (fun f => homingOver f s) .homingTimeout,
      first 12 (fun f => homeLate f s) .homeArrivalTimeout,
      first 2 (fun d => (doorOverrun d s).isSome) .doorTravelLimit,
      first 2 (fun d => (doorOverdue d s).isSome) .doorDeadline,
      is (reached (s.stg.turn.stepping.map Stepping.edgeBy)) .turnIndexTimeout,
      is (turnOverdue s).isSome .turnDeadline,
      first 4 (fun u => windowDue u s) .captureWindowClose,
      first 4 (fun g => reached (s.group g).settleEnd) .autoResume,
      is (holdOver .M s) (.holdTimeout .M),
      is (holdOver .C s) (.holdTimeout .C),
      first 8 (fun ch => (s.seq.lamps.get ch).fadeOver) .lampFadeEnd,
      is (lowOver s) .wakeLowEnd,
      is (settleOver s) .wakeComplete,
      is (sentWhole .halt s).isSome .haltComplete,
      is (sentWhole .go s).isSome .goComplete,
      is (answerLate s) .noAnswer,
      answerEnds s,
      is (lowLasts s) .lineStuck,
      is (stopDue s) .transactionAbandoned,
      is (expired s).isSome .hostEntryTimeout,
      is (s.flc.wakePending && decide (s.flc.queue.length < 8)) .wakePending,
      is (reached s.flc.nextTick) .pollTick,
      is (retryReady s) .retryAttempt,
      is (takeNext s).isSome .transactionStart] : List (Option Instr)).findSome? id) ∧
  (∀ s : State,
    let elapsed := s.tb.elapsed
    (∀ b, dropsNow s b = true ↔ (s.bellRec b).damperUp = true ∧ (∀ k ∈ (s.bellRec b).strokes, k.pulseOn = false) ∧
      (∀ k ∈ s.bell.strikes, k.bell ≠ b) ∧ ((s.bellRec b).struckSinceLift = true →
        ∀ v l, s.voicingOf b = some v → (s.bellRec b).lastStrike = some l → l.elapsed + v.ring ≤ elapsed)) ∧
    (∀ tag, goLate tag s = true ↔
      (∃ m, moveOf tag s = some m ∧ m.due + m.tolerance ≤ s.tb.showTime) ∧ goFlying tag s = false) ∧
    (∀ f, arrivalOver f s = true ↔ (s.fig f).state = .moving ∧ (s.fig f).homing = none ∧
      ∃ m w, (s.fig f).move = some m ∧ m.started = some w ∧ w.closes ≤ s.tb.showTime) ∧
    (∀ f, homeDue f s = true ↔ (s.fig f).state = .staged ∧ ∃ h, (s.fig f).homing = some h ∧ h.cleared = true ∧
      h.queued = false ∧ claimGranted (.homing f) s = true ∧
      ∀ c, (s.figDef f).crossing = some c → (s.door c.door).state = .opened) ∧
    (∀ f, homingOver f s = true ↔ (s.fig f).state = .staged ∧ ∃ h, (s.fig f).homing = some h ∧ h.queued = false ∧
      h.startBy ≤ elapsed) ∧
    (∀ f, homeLate f s = true ↔ (s.fig f).state = .moving ∧ ∃ h t, (s.fig f).homing = some h ∧
      h.arriveBy = some t ∧ t ≤ elapsed) ∧
    (∀ d, (doorOverrun d s).isSome = true ↔ ∃ c t, (s.door d).cmd = some c ∧ c.driving = true ∧
      (s.door d).travelStart = some t ∧ t + (s.door d).travelMs ≤ elapsed) ∧
    (∀ d, (doorOverdue d s).isSome = true ↔ ∃ c, (s.door d).cmd = some c ∧ c.driving = false ∧ c.deadline ≤ elapsed) ∧
    ((turnOverdue s).isSome = true ↔ ∃ c, s.stg.turn.cmd = some c ∧ c.driving = false ∧ c.deadline ≤ elapsed) ∧
    (∀ u, windowDue u s = true ↔ ∃ l i w, (s.unit u).owner = .run l i ∧ (s.unit u).window = some w ∧
      w.suspended = false ∧ w.closes ≤ s.tb.showTime) ∧
    (∀ l, holdOver l s = true ↔ ∃ r h, s.run l = some r ∧ r.state = .holding ∧ r.holdStart = some h ∧
      h.elapsed + 120000 ≤ elapsed) ∧
    (∀ r : LampRec, r.fadeOver = true ↔ r.frozen = false ∧ r.fading = true ∧ r.remaining = 0)) ∧
  (∀ s : State,
    let elapsed := s.tb.elapsed
    let flies (p : Flight → Prop) := ∃ f, s.flc.flight = some f ∧ p f
    (lowOver s = true ↔ ∃ t, s.flc.wake = some (.low t) ∧ t ≤ elapsed) ∧
    (settleOver s = true ↔ ∃ t, s.flc.wake = some (.settle t) ∧ t ≤ elapsed) ∧
    (∀ k, (sentWhole k s).isSome = true ↔ flies fun f => f.txn.kind = k ∧ f.stopAfter = none ∧
      f.since + msOf (50 * f.txn.kind.sendBytes) ≤ elapsed) ∧
    (answerLate s = true ↔ flies fun f => 0 < f.txn.kind.answerBytes ∧ f.answer = none ∧
      f.since + msOf (50 * f.txn.kind.sendBytes + 384) ≤ elapsed) ∧
    (∀ i, answerEnds s = some i ↔ flies fun f => ∃ b, f.answer = some b ∧
      b.since + msOf ((50 + 5 * b.gap) * f.txn.kind.answerBytes) ≤ elapsed ∧
      i = if 1 < f.txn.kind.answerBytes then .gapTimeout else .frameError) ∧
    (lowLasts s = true ↔ ∃ t, s.flc.lowSince = some t ∧ t + 100 ≤ elapsed ∧ s.flc.flight = none ∧
      s.flc.stuck = false ∧ ∀ t, s.flc.wake ≠ some (.low t)) ∧
    (stopDue s = true ↔ flies fun f => ∃ t, f.stopAfter = some t ∧ t ≤ elapsed) ∧
    (retryReady s = true ↔ ∃ r rest, s.flc.retry = r :: rest ∧ r.due ≤ elapsed ∧ linePermits s = true ∧
      s.flc.flight = none ∧ (inSettle s = false ∨ r.txn.cls = .urgent) ∧ oldest .urgent s.flc.queue = none) ∧
    (inSettle s = true ↔ ∃ t, s.flc.wake = some (.settle t))) ∧
  (∀ s : State,
    let elapsed := s.tb.elapsed
    tick s = sampleInputs (takeByte (beginAnswer
      { fixDeadlines s with tb := s.tb.tick, seq.lamps := s.seq.lamps.map LampRec.tick })) ∧
    (s.hlc.rx = .inFrame → 1 ≤ s.hlc.step → takeByte s = { s with
      hlc.lastByte := if Config.byteComes s.free then elapsed else s.hlc.lastByte, free := s.free + 1 }) ∧
    (s.hlc.rx ≠ .inFrame ∨ s.hlc.step = 0 → takeByte s = s) ∧
    (let awaited (f : Flight) := 0 < f.txn.kind.answerBytes ∧ f.answer = none ∧
       f.since + msOf (50 * f.txn.kind.sendBytes) ≤ elapsed ∧ elapsed ≤ f.since + msOf (50 * f.txn.kind.sendBytes + 384)
     let begun : Begun := { since := elapsed, gap := s.hlc.live.gapLimit }
     (∀ f, s.flc.flight = some f → awaited f → beginAnswer s = { s with
       flc.flight := some { f with answer := if Config.answerBegins s.free then some begun else none }
       free := s.free + 1 }) ∧
     ((∀ f, s.flc.flight = some f → ¬awaited f) → beginAnswer s = s))) ∧
  (∀ t : TB,
    let one : TB := { t with elapsed := t.elapsed + 1, showTime := t.showTime + 1, jumped := false }
    (t.correction = 0 → t.tick = one) ∧
    (t.correction ≠ 0 → t.slewPhase + 1 ≠ 100 → t.tick = { one with slewPhase := t.slewPhase + 1 }) ∧
    (0 < t.correction → t.slewPhase + 1 = 100 → t.tick =
      { one with showTime := t.showTime + 2, slewPhase := t.slewPhase + 1, jumped := true }) ∧
    (t.correction < 0 → t.slewPhase + 1 = 100 → t.tick =
      { one with showTime := t.showTime, slewPhase := t.slewPhase + 1 }))

/-- Every command answers a next state (the model's reading, log entry 36), which has the same commands waiting; that
POWER_ON_RESET keeps them too is the model's choice (log entry 35). -/
def Obligations.EveryCommandAnswersNext : Prop :=
  ∀ (i : Instr) (s : State), ∃ t, exec i s = .next t ∧ t.pending = s.pending

/-- What the spec gives the machine after a power-on reset, and what the command leaves: show time 0 and UNSET, the
elapsed count 0; the store's items stay with no pins, its protection and the guard definitions stay; staging,
operation, lanes, strikes, claims and the link are as after reset; a save that was in progress leaves a copy that fails
its check. Whole blocks are given as equal to those of reset: the values they hold before start-up that the spec does
not give (the discipline state, QUIET bells, doors, figures, MATCHING guard groups) are the model's (log entry 13), and
so is the line that is not STUCK any more (log entry 23). -/
def Obligations.PowerOnReset : Prop :=
  (let s := State.reset
   s.tb.showTime = 0 ∧ s.tb.valid = false ∧ s.tb.elapsed = 0 ∧ s.tb.held = none ∧ s.tb.correction = 0 ∧
   s.ps.staging = [] ∧ s.ps.stagedLen = 0 ∧ s.ps.op = none ∧ s.ps.waiting = [] ∧
   s.laneIdle .M = true ∧ s.laneIdle .C = true ∧ s.seq.laneM.queue = [] ∧ s.seq.laneC.queue = [] ∧
   s.bell.strikes = [] ∧ s.dbu.claims = [] ∧ s.held = 0 ∧ s.flc.queue = [] ∧ s.flc.flight = none ∧
   s.stg.goTag = 1 ∧ s.stg.turn.count = none ∧ s.stg.turn.lastDir = .cw ∧
   s.inm.units = Vector.replicate 4 .free ∧ s.hlc.causes = Vector.replicate 16 .clear ∧ s.attn = false ∧
   s.hlc.replies = [] ∧ s.hlc.step = 0) ∧
  (∀ s : State, ∃ t, exec .powerOnReset s = .next t ∧
     t.tb = State.reset.tb ∧ t.sch = State.reset.sch ∧ t.seq = State.reset.seq ∧ t.bell = State.reset.bell ∧
     t.dbu = State.reset.dbu ∧ t.flc = State.reset.flc ∧ t.stg = State.reset.stg ∧
     t.ps.items = s.ps.items.map (fun i => { i with pins := 0 }) ∧ protection t = protection s ∧
     t.ps.staging = [] ∧ t.ps.stagedLen = 0 ∧ t.ps.op = none ∧ t.ps.waiting = [] ∧
     (∀ g, (t.inm.groups.get g).defn = (s.inm.groups.get g).defn ∧ (t.inm.groups.get g).mismatched = false) ∧
     t.inm.units = Vector.replicate 4 .free ∧
     t.hlc.saved = (if s.hlc.save.isSome then .broken else s.hlc.saved) ∧ t.hlc.save = none ∧
     t.hlc.step = 0 ∧ t.hlc.causes = Vector.replicate 16 .clear ∧ t.hlc.replies = [])

/-- The bounds hold after reset. -/
def Obligations.ResetIsBounded : Prop := Bounded State.reset

/-- Every step keeps the bounds: the held sum within the budget in force (R106), the strike queue, the link queue and
the lanes' queues within their depths, the staging buffer in canonical form. -/
def Obligations.StepKeepsBounded : Prop :=
  ∀ s t : State, Bounded s → step s = .next t → Bounded t

/-- The elapsed count: no command but a power-on reset changes it, that one makes it 0, and a step in which nothing is
due raises it by exactly one (that such a step is a millisecond is the model's choice, log entry 2). -/
def Obligations.ElapsedCountAdvances : Prop :=
  (∀ (i : Instr) (s t : State), i ≠ .powerOnReset → exec i s = .next t → t.tb.elapsed = s.tb.elapsed) ∧
  (∀ s t : State, exec .powerOnReset s = .next t → t.tb.elapsed = 0) ∧
  (∀ s t : State, s.pending = [] → nextDue s = none → step s = .next t → t.tb.elapsed = s.tb.elapsed + 1)

/-- While a correction is worked off, the hundred milliseconds of a slewing period advance show time by 101 or 99 ms,
and the elapsed count by 100 (R8); without one they advance it by 100 (R1). The millisecond that takes show time over
an instant is marked, so that the instant falls due in it (R8). -/
def Obligations.SlewingPeriodGainsOrLosesOne : Prop :=
  ∀ t : TB, t.slewPhase = 0 →
    ((TB.tick^[100]) t).elapsed = t.elapsed + 100 ∧
    (0 < t.correction → ((TB.tick^[100]) t).showTime = t.showTime + 101) ∧
    (t.correction < 0 → ((TB.tick^[100]) t).showTime = t.showTime + 99) ∧
    (t.correction = 0 → ((TB.tick^[100]) t).showTime = t.showTime + 100) ∧
    ∀ u : TB, u.tick.jumped = true ↔ u.tick.showTime = u.showTime + 2

/-- What follows from an event in the same step leaves these as they were: the waiting commands, the elapsed count, the
staging buffer, the operation in progress, the protection, the start-up step, the settings and their saved copy, and
the host link's counts; and it keeps the bounds. -/
def Obligations.SettlingLeaves : Prop :=
  ∀ s : State,
    let t := settle s
    t.pending = s.pending ∧ t.tb.elapsed = s.tb.elapsed ∧ t.ps.staging = s.ps.staging ∧
    t.ps.stagedLen = s.ps.stagedLen ∧ t.ps.op = s.ps.op ∧ protection t = protection s ∧ t.hlc.step = s.hlc.step ∧
    t.hlc.live = s.hlc.live ∧ t.hlc.saved = s.hlc.saved ∧ t.hlc.save = s.hlc.save ∧ t.hlc.counts = s.hlc.counts ∧
    (Bounded s → Bounded t)

/-! ## Resets and start-up -/

/-- The six steps of start-up, each when the one before it has ended (R180). Step 1: the settings are loaded after a
power-on reset, under the copy's CRC and the ranges, with DEFAULTED raised for the factory's, and kept otherwise
(R177), a SAVED that came before the clearing is raised after DEFAULTED (R179; log entry 15), no last pulse is recorded
and no loss timer runs (R180), the default programme is active (R35), lamps, bells and discipline start afresh, the
claim list is empty (log entry 44), and the first sample is taken (log entry 31). Step 2: the check pass (R50). Step 3:
the loads, one after another, each answered against the directory or, where an operation concerns the item, made to
wait (R47; log entry 55); what each block makes of its copy (R29, R30, R35, R87, R133; dampers gained or lost: log
entry 78), last fires and counts, none after a power-on reset (log entry 13), being kept by their index (R19), and the
recomputation of a table already built (R36), entry by entry: a follow-on that has passed is discarded and reported
LATE, before the entry's own report (log entry 58), one still ahead is kept; of several occurrences passed the latest
is reported (log entry 21), with the entry's flag (log entry 46). Step 4: doors by their limits, figures, and groups,
those found mismatching with GUARD_TRIP (R153, R166), in ascending index (the model's choice, log entry 92). Step 5:
the broadcast HALT, the wake and the poll ticks (R132; the first tick's instant: log entry 18). Step 6: UNSET is
raised. -/
def Obligations.StartupStepsRun : Prop :=
  (∀ s : State, s.hlc.step = 0 → ∃ t, exec .startupSettings s = .next t ∧ t.hlc.step = 1 ∧ t.hlc.rx = .hunting ∧
    (s.hlc.powerOn = true →
      ((t.hlc.live, t.hlc.source) = match s.hlc.saved with
        | .written r crc => if r.crc = crc ∧ r.ok = true then (r, .saved) else (.factory, .defaulted)
        | .never | .broken => (.factory, .defaulted)) ∧
      t.sch.active = t.hlc.live.defaultProgramme ∧
      t.sch.chosenBy = none) ∧
    (let told : Bool := s.hlc.powerOn && decide (t.hlc.source = .defaulted)
     let event (n : Half) (what : Detail) : CauseRec :=
       { flag := true, count := n, detail := some { what := what, stamp := s.stamp } }
     t.hlc.savedPending = false ∧
     t.hlc.causes.get (Detail.settingsEvent .defaulted).cause =
       if s.hlc.savedPending then event (if told then 2 else 1) (.settingsEvent .saved)
       else if told then event 1 (.settingsEvent .defaulted) else .clear) ∧
    (s.hlc.powerOn = false → t.hlc.live = s.hlc.live ∧ t.sch.active = s.sch.active) ∧
    (∀ ch, t.seq.lamps.get ch = .resting (t.hlc.live.lampRests.get ch)) ∧
    (∀ b, (t.bell.bells.get b).state =
      if (s.bell.bells.get b).state = .fault then .fault else if t.muted b then .muted else .quiet) ∧
    t.tb.disc = (if t.hlc.live.discipline then .seeking else .off) ∧ t.tb.correction = 0 ∧ t.tb.lastPulse = none ∧
    t.tb.lossAt = none ∧ t.dbu.claims = [] ∧ t.inm.fresh = false ∧ t.inm.filterOn = t.hlc.live.inputFilter) ∧
  (∀ s : State, s.hlc.step = 1 →
    let items := s.ps.items.map fun i => { i with usable := i.checks }
    exec .startupStore s = .next ((items.filter fun i => !i.usable).foldl
      (fun s i => raise (.storeEvent (.checkFailed i.id)) s) { s with hlc.step := 2, ps.items := items })) ∧
  (∀ s : State, s.hlc.step = 2 → ∃ t, exec .startupItems s = .next t ∧ t.hlc.step = 3 ∧
    t = loadBlock .figures (loadBlock .voicing (loadTable
      (evalSeasons (loadBlock .programmes (loadBlock .seasons { s with hlc.step := 3 })))))) ∧
  (∀ s : State,
    let load (k : ItemKind) := loadItem ⟨k, 0⟩ s
    let bytes (k : ItemKind) := match (load k).2 with | .content bs => some bs | _ => none
    loadTable s = (if s.sch.built then recomputeTable s else loadBlock .triggers s) ∧
    (∀ k, loadBlock k s =
      if opConcerns ⟨k, 0⟩ s then { s with ps.waiting := s.ps.waiting ++ [.block k] } else takeLoad k s) ∧
    takeLoad .seasons s =
      evalSeasons { (load .seasons).1 with sch.seasons := (bytes .seasons).bind parseSeasonsItem } ∧
    takeLoad .programmes s =
      evalSeasons { (load .programmes).1 with sch.programmes := (bytes .programmes).bind parseProgrammesItem } ∧
    takeLoad .triggers s = { (load .triggers).1 with
      sch.built := true
      sch.trigs := Vector.ofFn fun i =>
        let d : TrigDef := match (bytes .triggers).bind parseTriggersItem with
          | some ds => ds.get i
          | none =>
            { kind := .once, enabled := false, time := 0, period := 0, weekdays := 0, hours := 0, target := .slot 0
              followOn := none, policy := .queue, staleness := 0, window := 60 }
        { defn := d, state := if d.enabled then .waitingTime else .disabled, next := none
          lastFire := (s.trig i).lastFire, count := (s.trig i).count, first := false, followOn := none } } ∧
    takeLoad .voicing s = takeVoicing ((bytes .voicing).bind parseVoicingItem) (load .voicing).1 ∧
    takeLoad .figures s =
      takeMachinery (((bytes .figures).bind parseFiguresItem).getD noMachinery) (load .figures).1) ∧
  (∀ (id : ItemId) (s : State),
    (findItem id s = none → loadItem id s = (s, .absent)) ∧
    (∀ x, findItem id s = some x →
      (x.usable = false → loadItem id s = (s, .unusable)) ∧
      (x.usable = true → crc16 x.content = x.check → loadItem id s = (s, .content x.content)) ∧
      (x.usable = true → crc16 x.content ≠ x.check → loadItem id s =
        (raise (.storeEvent (.checkFailed id)) { s with
           ps.items := s.ps.items.map fun i => if i.id = id then { i with usable := false } else i },
         .unusable)))) ∧
  (∀ (v : Vector Voicing 20) (s : State), takeVoicing (some v) s = { s with bell.voicing := some v }) ∧
  (∀ s : State, takeVoicing none s =
    let u := removeStrikes (fun _ => true) { s with bell.voicing := none }
    { u with bell.bells := u.bell.bells.map BellRec.drop }) ∧
  (∀ (m : Machinery) (s : State), (takeMachinery m s).stg.figDefs = m.figs ∧
    (takeMachinery m s).stg.doorDefs = m.doors ∧ (takeMachinery m s).stg.turnDef = m.turn) ∧
  (∀ s : State, recomputeTable s =
    if s.tb.valid then (List.finRange 32).foldl (fun t i => recomputeEntry i t) s else s) ∧
  (∀ (i : Trig) (s : State),
    let ahead := ∀ f, (s.trig i).followOn = some f → s.tb.showTime ≤ f.due
    (∀ f, (s.trig i).followOn = some f → f.due < s.tb.showTime → recomputeEntry i s =
      recomputeEntry i (raiseLate i f.due (s.setTrig i { s.trig i with followOn := none }))) ∧
    (ahead → (s.trig i).state ≠ .armed → recomputeEntry i s = s)) ∧
  (∀ (i : Trig) (t : Int) (s : State), (∀ f, (s.trig i).followOn = some f → s.tb.showTime ≤ f.due) →
    (s.trig i).state = .armed → (s.trig i).next = some t →
    let r := s.trig i
    let now := s.tb.showTime
    let next := earliestFrom r.defn r.lastFire now
    let passed := (latestTo r.defn r.lastFire (now - 1)).getD t
    (now ≤ t → recomputeEntry i s = s.setTrig i (settleNext next r.first r)) ∧
    (t < now → r.defn.kind = .once →
      recomputeEntry i s = raiseLate i passed (s.setTrig i (settleNext none false r))) ∧
    (t < now → r.defn.kind ≠ .once →
      recomputeEntry i s = raiseLate i passed (s.setTrig i (settleNext next r.first r)))) ∧
  (∀ s : State, s.hlc.step = 3 → ∃ t, exec .startupDoorsAndGuards s = .next t ∧ t.hlc.step = 4 ∧
    (∀ f, (t.stg.figs.get f).state = (if (s.figDef f).address.isSome then .unknown else .unbound)) ∧
    (∀ d, t.stg.doors.get d = { DoorRec.off with
      state := if s.limit d .closed = true ∧ s.limit d .opened = false then .closed
        else if s.limit d .opened = true ∧ s.limit d .closed = false then .opened else .unknown }) ∧
    t.stg.turn = .unhomed ∧ t.stg.goTag = 1 ∧
    (∀ g,
      let m := (s.group g).defn.selection &&& (s.inm.general.level ^^^ (s.group g).defn.reference)
      t.inm.groups.get g = { s.group g with
        mismatched := decide (m ≠ 0), mismatching := m, settleEnd := none
        trips := if m ≠ 0 then satInc (s.group g).trips else (s.group g).trips }) ∧
    t.hlc.causes = ((List.finRange 4).foldl (fun u g =>
      let m := (s.group g).defn.selection &&& (s.inm.general.level ^^^ (s.group g).defn.reference)
      if m ≠ 0 then raise (.guardTrip g (s.group g).defn.action m) u else u) { s with hlc.step := 4 }).hlc.causes) ∧
  (∀ s : State, s.hlc.step = 4 →
    let u : State := { s with hlc.step := 5, flc.nextTick := some (s.tb.elapsed + 20) }
    let txn (k : LinkKind) (o : TxnOwner) : Txn :=
      { kind := k, address := 0, data := [], owner := o, attempts := 0, arrival := s.tb.elapsed, disowned := false }
    exec .startupLink s = .next (requestWake false (sendHalt 0 false false 0 u)) ∧
    (s.flc.queue = [] → s.flc.flight = none → s.flc.wake = none → s.flc.stuck = false →
      exec .startupLink s = .next { u with
        flc.queue := [txn .halt (.halt false false 0), txn .wake (.wake false)] })) ∧
  (∀ s : State, s.hlc.step = 5 → exec .startupTime s =
    .next (settle (if s.tb.valid then { s with hlc.step := 6 }
      else raise (.timeEvent .unset) { s with hlc.step := 6 })))

/-- A request to a block whose own start-up step has not ended is answered BUSY, and nothing else changes; before the
end of step 1 it is not answered. The steps, by owner (R181): the store 2; the Scheduler and the bells 3; the stage and
the inputs 4; the Timebase, the Sequencer, the Drive Budget Unit and the Figure Link Controller 6; the host link and
the settings 1. That BUSY comes before every check of the values is the model's deduction (log entry 10); STORE-READ
makes its check of the values first (R57). A STORE-PUT without data, which the length check of the host link passes, is
answered BUSY here (the model's choice, log entry 75). -/
def Obligations.RequestsBeforeStartup : Prop :=
  (∀ (kind number offset count : Nat) (s : State), s.hlc.step = 0 →
    exec (.storeRead kind number offset count) s = .next s) ∧
  ∀ (r : Request) (s : State), (∀ k n o c, r ≠ .storeRead k n o c) →
    let kinds (a b : Nat) := a ≤ r.kind.toNat ∧ r.kind.toNat ≤ b
    let store := kinds 0x20 0x29
    let schedulerOrBells := kinds 0x18 0x1B ∨ kinds 0x40 0x44
    let stageOrInputs := kinds 0x58 0x5F ∨ kinds 0x68 0x6C
    let timeShowsBudgetOrLink := kinds 0x10 0x11 ∨ kinds 0x30 0x37 ∨ kinds 0x48 0x48 ∨ kinds 0x50 0x52
    let hostLinkOrSettings := kinds 0x70 0x74 ∨ kinds 0x78 0x7A
    (store ∨ schedulerOrBells ∨ stageOrInputs ∨ timeShowsBudgetOrLink ∨ hostLinkOrSettings) ∧
    (1 ≤ s.hlc.step →
      (store ∧ s.hlc.step < 2) ∨ (schedulerOrBells ∧ s.hlc.step < 3) ∨ (stageOrInputs ∧ s.hlc.step < 4) ∨
        (timeShowsBudgetOrLink ∧ s.hlc.step < 6) →
      exec (rowOf r) s = .next (reply r.kind .busy .none s)) ∧
    (s.hlc.step = 0 → exec (rowOf r) s = .next s)

/-! ## The host link -/

/-- A frame that arrives (R168, R169): with a request outstanding it is answered BUSY, or counted while such a reply is
held; otherwise it becomes outstanding, an unknown kind is answered BAD_KIND, a body of a length that no form of its
kind allows BAD_LENGTH, and a request, whatever its values, is carried out as its own row is. A frame whose body spells
a request of another kind, or one that no body of the kind spells, is taken as one of a wrong length (the model's
choice, log entry 8), and a STORE-PUT without data as one of an allowed length (the model's choice, log entry 75). The
frame brings its own sync byte, so it is taken while the receiver hunts too (the model's choice, log entry 73). A reply
has the request's kind plus 0x80, modulo 256 where the kind is 0x80 or more (the model's choice, log entry 74), and the
request's tag, or 0 for a request given as its own row (the model's choice, log entry 9), and takes its place after the
replies that are ready. -/
def Obligations.HostFrameArrives : Prop :=
  (∀ (f : HostFrame) (s : State), 1 ≤ s.hlc.step →
    (s.hlc.outstanding.isSome = true → s.hlc.replies.any (·.overlap) = false →
      exec (.hostFrameArrived f) s = .next { s with
        hlc.rx := .hunting
        hlc.replies := s.hlc.replies ++
          [{ kind := f.kind + 0x80#8, tag := f.tag, status := .busy, data := .none, overlap := true }] }) ∧
    (s.hlc.outstanding.isSome = true → s.hlc.replies.any (·.overlap) = true →
      exec (.hostFrameArrived f) s = .next { s with
        hlc.rx := .hunting, hlc.counts.overlap := satInc s.hlc.counts.overlap }) ∧
    (s.hlc.outstanding = none →
      let u : State := { s with hlc.rx := .hunting, hlc.outstanding := some { kind := f.kind, tag := f.tag } }
      (isRequestKind f.kind = false → exec (.hostFrameArrived f) s = .next (reply f.kind .badKind .none u)) ∧
      (isRequestKind f.kind = true →
        f.body = .wrongLength ∨ (∃ r, f.body = .request r ∧ (r.kind ≠ f.kind ∨ r.wellFormed = false)) →
        exec (.hostFrameArrived f) s = .next (reply f.kind .badLength .none u)) ∧
      (∀ r, isRequestKind f.kind = true → f.body = .request r → r.kind = f.kind → r.wellFormed = true →
        exec (.hostFrameArrived f) s = exec (rowOf r) u))) ∧
  (∀ k : Byte, isRequestKind k = true ↔ ∃ r : Request, r.kind = k) ∧
  (∀ r : Request, r.wellFormed = true ↔
    (∀ start offset data, r = .storePut start offset data → data.length ≤ 1024) ∧
    (∀ es, r = .causesClear es → 1 ≤ es.length ∧ es.length ≤ 16) ∧ ∀ fs, r = .configSet fs → fs ≠ []) ∧
  (∀ (k tag : Byte) (st : Status) (data : ReplyData) (s : State),
    sendReply k tag st data s = { s with hlc.replies := s.hlc.replies ++
      [{ kind := k + 0x80#8, tag := tag, status := st, data := data, overlap := false }] } ∧
    reply k st data s = sendReply k (replyTag k s) st data s ∧
    (∀ o, s.hlc.outstanding = some o → o.kind = k → replyTag k s = o.tag) ∧
    (∀ o, s.hlc.outstanding = some o → o.kind ≠ k → replyTag k s = 0) ∧
    (s.hlc.outstanding = none → replyTag k s = 0)) ∧
  (∀ r : Reply,
    let code : Nat := match r.status with
      | .ok => 0 | .held => 1 | .busy => 2 | .badKind => 3 | .badLength => 4 | .badValue => 5 | .notNow => 6
      | .inUse => 7 | .locked => 8 | .full => 9 | .notFound => 10 | .badScript => 12
    r.statusByte.toNat = code)

/-- The receiver's bytes (R167): a sync byte begins a frame; any other byte while hunting is counted; a gap of more
than 20 ms, a length over 2,048, or a CRC that is wrong or of a frame with a stop bit low discards the frame, counts it
and resumes hunting. The block's own clock ends a frame no byte of which has come for more than 20 ms; whether a byte
comes in a millisecond is a free value (log entry 5). -/
def Obligations.HostBytes : Prop :=
  ∀ s : State, 1 ≤ s.hlc.step →
    (s.hlc.rx = .hunting → exec .syncByte s = .next { s with
      hlc.rx := .inFrame, hlc.syncAt := s.tb.elapsed, hlc.lastByte := s.tb.elapsed }) ∧
    (s.hlc.rx = .hunting → ∀ b, b ≠ 0xA5#8 →
      exec (.strayByte b) s = .next { s with hlc.counts.stray := satInc s.hlc.counts.stray }) ∧
    (s.hlc.rx = .inFrame → s.hlc.syncAt + 20 < s.tb.elapsed →
      exec .hostGapTimeout s = .next { s with hlc.rx := .hunting, hlc.counts.gap := satInc s.hlc.counts.gap }) ∧
    (frameStops s = true ↔ s.hlc.rx = .inFrame ∧ s.hlc.lastByte + 20 < s.tb.elapsed) ∧
    (s.hlc.rx = .inFrame → ∀ n, 2048 < n →
      exec (.frameLengthError n) s =
        .next { s with hlc.rx := .hunting, hlc.counts.length := satInc s.hlc.counts.length }) ∧
    (s.hlc.rx = .inFrame → ∀ (rx : RxBytes) (crc : Half), rx.stopLow = true ∨ crc16 rx.bytes ≠ crc →
      exec (.frameCrcError rx crc) s =
        .next { s with hlc.rx := .hunting, hlc.counts.crc := satInc s.hlc.counts.crc })

/-- RESET is refused with BUSY while a store operation is in progress, and otherwise answered OK (R176). When the last
byte of the first reply has been sent, the reply of the outstanding request ends it, the BUSY reply of the overlap rule
does not (R169), as any other reply does, that to a request given as its own row too (the model's choice, log entry 9),
and the OK of a RESET begins the soft reset. What a soft reset leaves: show time, the elapsed count
and the settings stay; the held step, the staging buffer, the runs and their queues, the strikes, the claims, the
link's queue, the moves and the commands of the drives, the captures, the causes and the replies are gone (R15, R58,
R86, R105, R113, R132, R153, R166, R171, R180). That the operation in progress is kept is log entry 42; what the
Timebase, the trigger table and the guard groups keep until start-up is log entry 13; that echo windows end with their
pulses is log entry 54; that the line is free again one byte time later, rounded up to a millisecond, is log entry 4.
-/
def Obligations.ResetAndReplies : Prop :=
  (∀ s : State, 1 ≤ s.hlc.step →
     (s.ps.op.isSome = true → exec .reset s = .next (reply 0x74#8 .busy .none s)) ∧
     (s.ps.op = none → exec .reset s = .next (reply 0x74#8 .ok .none s))) ∧
  (∀ (r : Reply) (rest : List Reply) (s : State), s.hlc.replies = r :: rest →
     (r.overlap = true → exec .replySent s = .next { s with hlc.replies := rest }) ∧
     (r.overlap = false → ¬(r.kind = 0xF4#8 ∧ r.status = .ok) →
       exec .replySent s = .next { s with hlc.replies := rest, hlc.outstanding := none }) ∧
     (r.overlap = false → r.kind = 0xF4#8 → r.status = .ok →
       exec .replySent s = .next (softReset { s with hlc.replies := rest, hlc.outstanding := none }))) ∧
  (∀ s : State,
     let t := softReset s
     t.tb = { s.tb with held := none } ∧ t.sch = { s.sch with work := [] } ∧
     t.ps = { s.ps with
       items := s.ps.items.map (fun i => { i with pins := 0 }), staging := [], stagedLen := 0, waiting := [] } ∧
     t.seq.laneM = .idle ∧ t.seq.laneC = .idle ∧ t.bell.strikes = [] ∧ t.bell.voicing = none ∧
     (∀ b, ((t.bell.bells.get b).state =
         if (s.bell.bells.get b).state = .fault then .fault else if s.muted b then .muted else .quiet) ∧
       (t.bell.bells.get b).damperUp = false ∧ (t.bell.bells.get b).counters = (s.bell.bells.get b).counters) ∧
     t.dbu.claims = [] ∧ t.flc.queue = [] ∧ t.flc.flight = none ∧ t.flc.retry = [] ∧ t.flc.counters = .zero ∧
     t.flc.freeAt = s.tb.elapsed + 1 ∧
     (∀ f, (t.stg.figs.get f).move = none ∧ (t.stg.figs.get f).interrupted = none ∧ (t.stg.figs.get f).report = none) ∧
     (∀ d, (t.stg.doors.get d).cmd = none ∧ (t.stg.doors.get d).goal = none) ∧ t.stg.turn = .unhomed ∧
     t.stg.goTag = 1 ∧ t.inm.units = Vector.replicate 4 .free ∧
     (∀ g, (t.inm.groups.get g).settleEnd = none ∧ (t.inm.groups.get g).defn = (s.inm.groups.get g).defn) ∧
     t.hlc.step = 0 ∧ t.hlc.causes = Vector.replicate 16 .clear ∧ t.hlc.replies = [] ∧ t.hlc.outstanding = none ∧
     t.hlc.live = s.hlc.live ∧ t.hlc.saved = s.hlc.saved ∧ t.hlc.save = s.hlc.save ∧ t.pending = s.pending)

/-! ## The Timebase -/

/-- TIME-GET answers with the Timebase's values of one instant and changes no state but the reply it makes (R16). -/
def Obligations.TimeGetReplies : Prop :=
  ∀ s : State, 6 ≤ s.hlc.step →
    exec .timeGet s = .next (reply 0x11#8 .ok
      (.timeGet s.tb.showTime s.tb.valid s.tb.elapsed s.tb.disc s.tb.correction s.tb.held
        (s.tb.lastPulse.map (·.shown)) s.tb.rejected) s)

/-- TIME-SET (R14, R15): out of range, BAD_VALUE; from UNSET, show time takes the value and the Scheduler has its
validity event; SET with both lanes IDLE, the step is applied at once; otherwise it becomes the held step, with HELD as
the reply, or, forced, with OK and an abort of both lanes with reason TIME_STEP, lane M before lane C (log entry 53). A
correction under way goes on slewing while the step is held (log entry 50). The validity event evaluates the seasons
and has the entries that wait for time armed in ascending index at the show time set (R27); what has fallen due at that
time is taken after them all (the model's choice, log entry 70). Where the restraint of a forced step is lifted, each
IDLE lane looks for its next request (R63), lane M first (the model's choice, log entry 76). -/
def Obligations.TimeSetSets : Prop :=
  (∀ (v : Int) (force : Bool) (s : State), 6 ≤ s.hlc.step →
    (v < 0 ∨ 3155759999999 < v → exec (.timeSet v force) s = .next (reply 0x10#8 .badValue .none s)) ∧
    (0 ≤ v → v ≤ 3155759999999 →
      let held : State := { s with
        tb.held := some { target := v, computed := s.tb.showTime, forced := force }
        tb.disc := if s.tb.disc = .off then .off else .held }
      (s.tb.valid = false →
        (moveShow (v - s.tb.showTime) s).tb.showTime = v ∧
        exec (.timeSet v force) s = .next (settleFreed s (reply 0x10#8 .ok .none
          (validEvent { moveShow (v - s.tb.showTime) s with tb.valid := true })))) ∧
      (s.tb.valid = true → s.bothIdle = true →
        exec (.timeSet v force) s =
          .next (settleFreed s (reply 0x10#8 .ok .none (applyStep (v - s.tb.showTime) s)))) ∧
      (s.tb.valid = true → s.bothIdle = false → force = false →
        exec (.timeSet v force) s = .next (settleFreed s (reply 0x10#8 .held .none held))) ∧
      (s.tb.valid = true → s.bothIdle = false → force = true →
        exec (.timeSet v force) s = .next (settleFreed s (reply 0x10#8 .ok .none
          (abortLane .C .timeStep false (abortLane .M .timeStep false held))))))) ∧
  (∀ s : State, validEvent s = { evalSeasons s with
    sch.work := s.sch.work ++ (List.finRange 32).map fun i => .armWaiting i s.tb.showTime }) ∧
  (∀ before s : State,
    let forced (t : State) := ∃ h, t.tb.held = some h ∧ h.forced = true
    (before.restraint = true ↔ forced before) ∧
    (forced before → ¬forced s →
      settleFreed before s = settleLoop 1024 { looks := [.M, .C], handFirst := false } s) ∧
    (¬forced before ∨ forced s → settleFreed before s = settle s))

/-- A capture of MINUTE (R4 to R7), whose error is its distance from the nearest whole minute (R5): with discipline OFF
it is ignored; one too early is rejected and counted; an accepted one starts the loss timer afresh, and its error is
slewed off, stepped, held, or renews the held step. That the line falls again by itself is log entry 31; that a renewal
ends a correction still under way is log entry 50. -/
def Obligations.MinutePulseDisciplines : Prop :=
  (∀ c : Int,
    (c % 60000 < 30000 → pulseError c = c % 60000) ∧ (30000 ≤ c % 60000 → pulseError c = c % 60000 - 60000)) ∧
  ∀ s : State, 1 ≤ s.hlc.step →
    let u : State := { s with inm.misc := lowerMinute (s.inm.misc.putBit 0 true) }
    let a : State := { u with tb.lastPulse := some s.stamp, tb.lossAt := some (s.tb.elapsed + 130000) }
    let e := pulseError s.tb.showTime
    (s.tb.disc = .off → exec .minutePulse s = .next (settle u)) ∧
    (s.tb.disc ≠ .off → ∀ p, s.tb.lastPulse = some p → s.tb.elapsed < p.elapsed + 50000 →
      exec .minutePulse s = .next (settle { u with tb.rejected := satInc s.tb.rejected })) ∧
    (s.tb.disc ≠ .off → (∀ p, s.tb.lastPulse = some p → p.elapsed + 50000 ≤ s.tb.elapsed) →
      (s.tb.held = none → e.natAbs ≤ s.hlc.live.slewLimit →
        exec .minutePulse s = .next (settle { a with
          tb.correction := -e, tb.slewPhase := 0, tb.disc := if e = 0 then .tracking else .slewing })) ∧
      (s.tb.held = none → s.hlc.live.slewLimit < e.natAbs → s.bothIdle = true →
        exec .minutePulse s = .next (settle (applyStep (-e) { a with tb.correction := 0, tb.slewPhase := 0 }))) ∧
      (s.tb.held = none → s.hlc.live.slewLimit < e.natAbs → s.bothIdle = false →
        exec .minutePulse s = .next (settle (raise (.timeEvent (.stepHeld (-e))) { a with
          tb.held := some { target := s.tb.showTime - e, computed := s.tb.showTime, forced := false }
          tb.correction := 0, tb.slewPhase := 0, tb.disc := .held }))) ∧
      (∀ h, s.tb.held = some h →
        let offset := h.target - h.computed
        let e' := pulseError (s.tb.showTime + offset)
        let w : State := { a with
          tb.held := some
            { target := s.tb.showTime + offset - e', computed := s.tb.showTime, forced := h.forced }
          tb.correction := 0, tb.slewPhase := 0 }
        exec .minutePulse s = .next (settle (if s.hlc.live.slewLimit < e'.natAbs then
          raise (.timeEvent (.stepHeld (offset - e'))) w else w))))

/-- The Timebase's own events: the end of a slewing period moves the correction one step towards zero (R8); the loss of
the pulse (R9); a date change has the seasons evaluated (R3), which choose the active programme (R29); the end of the
range makes show time 0 and UNSET (R13). A step moves show time, discards the held step and the correction (R11), and
moves every instant of work still to come with it, the elapsed count and what has happened staying (R12); after it the
Timebase is TRACKING up to 130,000 ms after the latest pulse, that instant included (log entry 20). The Scheduler then
has its step event and STEP_APPLIED is raised. The event evaluates the seasons; its work on the entries is done in the
same step, entry by entry: what show time had reached before the step, the move of the pending follow-on, and the entry
at the step (R22, R24 to R26; log entry 44). Before start-up step 3 it moves the follow-ons alone, and a step of zero
moves nothing. A missed occurrence of a forward step fires or is reported, its LATE detail with the entry's flag (log
entry 46); a backward step has entries wait again. What has fallen due at the new time itself is taken after every
entry's work (the model's choice, log entry 70). A season matches by month and day (R28), the months counted from
2000-01-01 with a leap year every fourth (R3). At the end of the range (R13, R27) each entry that is ARMED waits for
time, and each pending follow-on is discarded with TIME_UNSET, in ascending index (the model's choice, log entry 71),
the default programme is active, RANGE_END is raised, and where it lifts the restraint of a forced step each IDLE lane
looks for its next request (R63), lane M first (the model's choice, log entry 76). Skipped is the latest permitted
occurrence before the new time, if it is later than the old (R25), and an entry with no next fire time is SPENT (R17).
-/
def Obligations.TimebaseEvents : Prop :=
  (∀ s : State, s.tb.correction ≠ 0 → 100 ≤ s.tb.slewPhase →
    let c := if 0 < s.tb.correction then s.tb.correction - 1 else s.tb.correction + 1
    exec .slewPeriodEnd s = .next { s with
      tb.correction := c, tb.slewPhase := 0
      tb.disc := if c = 0 ∧ s.tb.disc = .slewing then .tracking else s.tb.disc }) ∧
  (∀ (s : State) (t : Nat), s.tb.lossAt = some t → t ≤ s.tb.elapsed →
    exec .pulseLost s = .next (raise (.timeEvent .pulseLost) { s with
      tb.lossAt := none
      tb.disc := if s.tb.disc = .tracking ∨ s.tb.disc = .slewing then .seeking else s.tb.disc })) ∧
  (∀ s : State, s.tb.showTime / 86400000 ≠ s.sch.today → exec .dateChange s = .next (evalSeasons s)) ∧
  (∀ s : State,
    let today := s.tb.showTime / 86400000
    ((s.tb.valid = false ∨ s.sch.seasons = none ∨
        ∃ es, s.sch.seasons = some es ∧ ∀ e ∈ es, e.matches (monthDay today) = false) →
      evalSeasons s = { s with
        sch.today := today, sch.active := s.hlc.live.defaultProgramme, sch.chosenBy := none }) ∧
    (∀ es e, s.tb.valid = true → s.sch.seasons = some es → e ∈ es → e.matches (monthDay today) = true →
      ∃ (i : Nat) (x : Season), es[i]? = some x ∧ x.matches (monthDay today) = true ∧
        (∀ j y, es[j]? = some y → y.matches (monthDay today) = true →
          y.priority ≤ x.priority ∧ (y.priority = x.priority → i ≤ j)) ∧
        evalSeasons s = { s with sch.today := today, sch.active := x.programme, sch.chosenBy := some i })) ∧
  (∀ s : State, 3155759999999 < s.tb.showTime →
    exec .rangeEnd s = .next (if s.restraint then
      settleLoop 1024 { looks := [.M, .C], handFirst := false } (endRange s) else settle (endRange s)) ∧
    endRange s = raise (.timeEvent .rangeEnd) (evalSeasons
      ((List.finRange 32).foldl (fun t i => entryUnset i t) { moveShow (-s.tb.showTime) s with tb.valid := false })) ∧
    (endRange s).sch.active = s.hlc.live.defaultProgramme ∧ (endRange s).tb.showTime = 0 ∧ (endRange s).tb.valid = false ∧ (endRange s).tb.held = none ∧
    (endRange s).tb.correction = 0) ∧
  (∀ (i : Trig) (s : State),
    let r := s.trig i
    let waits : TrigRec :=
      if r.state = .armed then { r with state := .waitingTime, next := none, first := false } else r
    (r.followOn = none → entryUnset i s = s.setTrig i waits) ∧
    (∀ f, r.followOn = some f → entryUnset i s =
      raise (.triggerMissed .timeUnset (.trigger i) none f.due none (some waits.first))
        (s.setTrig i { waits with followOn := none }))) ∧
  (∀ (e : Season) (m d : Nat),
    let starts := e.startMonth < m ∨ (e.startMonth = m ∧ e.startDay ≤ d)
    let stays := m < e.endMonth ∨ (m = e.endMonth ∧ d ≤ e.endDay)
    let wraps := e.endMonth < e.startMonth ∨ (e.endMonth = e.startMonth ∧ e.endDay < e.startDay)
    (¬wraps → (e.matches (m, d) = true ↔ starts ∧ stays)) ∧ (wraps → (e.matches (m, d) = true ↔ starts ∨ stays))) ∧
  (∀ year month day time : Nat, year ≤ 99 → 1 ≤ month → month ≤ 12 → time < 86400000 →
    let days (m : Nat) : Nat :=
      if m = 2 then (if year % 4 = 0 then 29 else 28) else if m = 4 ∨ m = 6 ∨ m = 9 ∨ m = 11 then 30 else 31
    let number : Nat :=
      365 * year + (year + 3) / 4 + ((List.range (month - 1)).map fun k => days (k + 1)).sum + (day - 1)
    1 ≤ day → day ≤ days month →
      monthDay number = (month, day) ∧ dateOf (number * 86400000 + time) = (2000 + year, month, day)) ∧
  (∀ (d : Int) (s : State),
    let t := moveShow d s
    t.tb.showTime = s.tb.showTime + d ∧ t.tb.elapsed = s.tb.elapsed ∧ t.tb.valid = s.tb.valid ∧ t.tb.held = none ∧
    t.tb.correction = 0 ∧
    t.tb.disc = (if s.tb.disc = .off then .off else
      match s.tb.lastPulse with
      | some p => if s.tb.elapsed ≤ p.elapsed + 130000 then .tracking else .seeking
      | none => .seeking) ∧
    t.bell.strikes = s.bell.strikes.map (fun k =>
      { k with due := k.due + d, deadline := k.deadline.map (· + d) }) ∧
    (∀ l, t.run l = (s.run l).map fun r => { r with
      start := r.start.map (· + d), holdStart := r.holdStart.map fun h => { h with shown := h.shown + d } }) ∧
    (∀ f, (t.fig f).move = (s.fig f).move.map fun m => { m with
      due := m.due + d
      started := m.started.map fun w =>
        { w with goTime := w.goTime + d, opens := w.opens + d, closes := w.closes + d } }) ∧
    (∀ u, t.unit u = { s.unit u with
      window := (s.unit u).window.map fun w => { w with opens := w.opens + d, closes := w.closes + d } }) ∧
    (∀ b, t.bellRec b = { s.bellRec b with nextPermitted := (s.bellRec b).nextPermitted.map (· + d) }) ∧
    t.flc = s.flc ∧ t.ps = s.ps ∧ t.hlc = s.hlc) ∧
  (∀ (d : Int) (s : State),
    let old := s.tb.showTime
    (3155759999999 < old + d → applyStep d s = endRange s) ∧
    (old + d ≤ 3155759999999 → applyStep d s = raise (.timeEvent (.stepApplied d))
      (if s.tb.valid then stepEvent old (old + d) (moveShow d s) else moveShow d s))) ∧
  (∀ (old new : Int) (s : State),
    let u := evalSeasons s
    (s.hlc.step < 3 → stepEvent old new s = { u with sch.trigs := u.sch.trigs.map fun r =>
      { r with followOn := r.followOn.map fun f => { f with due := f.due + (new - old) } } }) ∧
    (3 ≤ s.hlc.step → old = new → stepEvent old new s = u) ∧
    (3 ≤ s.hlc.step → old ≠ new → stepEvent old new s = { u with
      sch.work := u.sch.work ++ (List.finRange 32).flatMap fun i =>
        [.due i old, .shift i (new - old), if old < new then .forward i old new else .backward i new] })) ∧
  (∀ (old new : Int) (r : TrigRec) (first : Bool),
    (∀ o, skipped r old new = some o ↔ latestTo r.defn r.lastFire (new - 1) = some o ∧ old < o) ∧
    (∀ t, settleNext (some t) first r = { r with state := .armed, next := some t, first := first }) ∧
    settleNext none first r = { r with state := .spent, next := none, first := false }) ∧
  (∀ (old new : Int) (i : Trig) (s : State), (s.trig i).state = .armed →
    let r := s.trig i
    let next := earliestFrom r.defn r.lastFire new
    let late (o : Int) := r.defn.window * 1000 < new - o
    stepBackward new i s = s.setTrig i (settleNext next r.first r) ∧
    (skipped r old new = none → stepForward old new i s = s.setTrig i (settleNext next r.first r)) ∧
    (∀ o, skipped r old new = some o →
      (¬late o → stepForward old new i s = fire i o s) ∧
      (late o → r.defn.kind = .once →
        stepForward old new i s = raiseLate i o (s.setTrig i (settleNext none false r))) ∧
      (late o → r.defn.kind ≠ .once →
        stepForward old new i s = raiseLate i o (s.setTrig i (settleNext next r.first r)))))

/-! ## The Scheduler -/

/-- TRIG-SET (R31): LOCKED at write level 2 or more; BAD_VALUE for an index or a field out of range, and for a field of
the kind that is left out (log entry 45); otherwise the entry takes the definition, any pending follow-on is discarded,
and the entry is armed or disabled. Arming (R20): without a valid show time the entry waits for it; an occurrence still
within its window fires at once; a passed one of a ONCE or PERIODIC entry is reported LATE once the entry has settled,
with the flag it then has (log entry 46); and the next fire time is the earliest permitted occurrence after the
instant, with the first fire pending. The occurrences of an entry are those of its kind within the range (R18), and one
is permitted when it lies beyond the last fire in the entry's measure (R19): of these, the earliest from an instant and
the latest up to one. The fields of the kind and their ranges are those of section 2.1; a catch-up window the host does
not give is 60 s. -/
def Obligations.TrigSetWrites : Prop :=
  (∀ (index : Nat) (a : TrigArgs) (armed : Bool) (s : State), 3 ≤ s.hlc.step →
    (2 ≤ s.ps.writeLevel.val → exec (.trigSet index a armed) s = .next (reply 0x18#8 .locked .none s)) ∧
    (s.ps.writeLevel.val < 2 → 32 ≤ index ∨ trigOfArgs a armed = none →
      exec (.trigSet index a armed) s = .next (reply 0x18#8 .badValue .none s)) ∧
    ((∃ k, a.kind = .other k) ∨ (∃ k, a.policy = .other k) → trigOfArgs a armed = none) ∧
    (∀ k p, a.kind = .val k → a.policy = .val p →
      let known (g : Target) : Prop := match g with | .slot n => n < 16 | .script n => n < 128
      let shared := (∀ o g, a.followOn = some (o, g) → 1 ≤ o ∧ o ≤ 600 ∧ known g) ∧ a.staleness ≤ 3600 ∧
        a.window.getD 60 ≤ 600
      let aimed := a.hours = none ∧ ∃ g, a.target = some g ∧ known g
      let own : Prop := match k with
        | .daily => (∃ t, a.time = some t ∧ t ≤ 86399999) ∧ a.period = none ∧ (∃ w, a.weekdays = some w ∧ w ≠ 0) ∧ aimed
        | .periodic => (∃ t, a.time = some t ∧ t ≤ 3155759999999) ∧ (∃ t, a.period = some t ∧ t ≤ 86400000) ∧
            a.weekdays = none ∧ aimed
        | .once => (∃ t, a.time = some t ∧ t ≤ 3155759999999) ∧ a.period = none ∧ a.weekdays = none ∧ aimed
        | .hours => a.time = none ∧ a.period = none ∧ a.weekdays = none ∧ a.target = none ∧
            ∃ h, a.hours = some h ∧ h ≠ 0
      (¬(shared ∧ own) → trigOfArgs a armed = none) ∧
      (shared ∧ own → trigOfArgs a armed = some
        { kind := k, enabled := armed, time := a.time.getD 0, period := a.period.getD 0
          weekdays := a.weekdays.getD 0, hours := a.hours.getD 0, target := a.target.getD (.slot 0)
          followOn := a.followOn, policy := p, staleness := a.staleness, window := a.window.getD 60 })) ∧
    (s.ps.writeLevel.val < 2 → ∀ (i : Trig) (d : TrigDef), index = i.val → trigOfArgs a armed = some d →
      let v := if s.tb.showTime / 86400000 ≠ s.sch.today then evalSeasons s else s
      let u := armOrDisable i s.tb.showTime (v.setTrig i { v.trig i with defn := d, followOn := none })
      d.enabled = armed ∧
      (armed = false → (u.trig i).state = .disabled ∧ (u.trig i).next = none) ∧
      (armed = true → s.tb.valid = false → (u.trig i).state = .waitingTime) ∧
      exec (.trigSet index a armed) s =
        .next (settle (reply 0x18#8 .ok (.trigSet (u.trig i).state (u.trig i).next) u)))) ∧
  (∀ (i : Trig) (now : Int) (s : State),
    let r := s.trig i
    let next := earliestFrom r.defn r.lastFire (now + 1)
    let rest := match next with
      | some t => { r with state := .armed, next := some t, first := true }
      | none => { r with state := .spent, next := none, first := false }
    ((s.trig i).defn.enabled = true → armOrDisable i now s = arm i now s) ∧
    (s.tb.valid = false → arm i now s = s.setTrig i { r with state := .waitingTime, next := none, first := false }) ∧
    (s.tb.valid = true →
      (latestTo r.defn r.lastFire now = none → arm i now s = s.setTrig i rest) ∧
      (∀ l, latestTo r.defn r.lastFire now = some l →
        (now - l ≤ r.defn.window * 1000 → arm i now s = fire i l s) ∧
        (r.defn.window * 1000 < now - l → r.defn.kind = .once → arm i now s =
          raiseLate i l (s.setTrig i { r with state := .spent, next := none, first := false })) ∧
        (r.defn.window * 1000 < now - l → r.defn.kind = .periodic →
          arm i now s = raiseLate i l (s.setTrig i rest)) ∧
        (r.defn.window * 1000 < now - l → r.defn.kind = .daily ∨ r.defn.kind = .hours →
          arm i now s = s.setTrig i rest)))) ∧
  (∀ (d : TrigDef) (last : Option Int) (t : Int), (d.kind = .daily → d.time < 86400000) →
    let occurs (o : Int) : Prop := 0 ≤ o ∧ o ≤ 3155759999999 ∧ match d.kind with
      | .daily => ∃ day : Nat, d.weekdays.getLsbD ((day + 5) % 7) = true ∧ o = (day * 86400000 + d.time : Nat)
      | .periodic => ∃ k : Nat, o = (d.time + k * d.period : Nat)
      | .once => o = d.time
      | .hours => ∃ day hour : Nat, hour < 24 ∧ d.hours.getLsbD hour = true ∧
          o = (day * 86400000 + hour * 3600000 : Nat)
    let allowed (o : Int) : Prop := ∀ l, last = some l → match d.kind with
      | .daily => l / 86400000 < o / 86400000
      | .periodic => l + d.period ≤ o
      | .once => True
      | .hours => l / 3600000 < o / 3600000
    let good (o : Int) := occurs o ∧ allowed o
    (∀ o, earliestFrom d last t = some o ↔ (good o ∧ t ≤ o) ∧ ∀ x, good x → t ≤ x → o ≤ x) ∧
    (earliestFrom d last t = none ↔ ∀ x, good x → x < t) ∧
    (∀ o, latestTo d last t = some o ↔ (good o ∧ o ≤ t) ∧ ∀ x, good x → x ≤ t → x ≤ o) ∧
    (latestTo d last t = none ↔ ∀ x, good x → t < x))

/-- TRIG-GET returns the entry whole, its last fire with its date and its hour, and changes no state but the reply it
makes (R33). -/
def Obligations.TrigGetReplies : Prop :=
  ∀ (index : Nat) (s : State), 3 ≤ s.hlc.step →
    (32 ≤ index → exec (.trigGet index) s = .next (reply 0x19#8 .badValue .none s)) ∧
    (∀ i : Trig, index = i.val → exec (.trigGet index) s = .next (reply 0x19#8 .ok
      (.trigGet (s.trig i) ((s.trig i).lastFire.map fun t =>
        { time := t, date := dateOf t, hour := (t % 86400000 / 3600000).toNat })) s))

/-- TRIG-DISARM (R32) and SEASON-GET (R34). A fire (R21) and a follow-on (R24): the entry next in the order of R22
fires, the lowest index with something due, its follow-on first, and nothing before a change of date; a fire records
its time and raises the count, takes the next fire time after it, ARMED, or is SPENT where there is none, schedules the
entry's follow-on, and hands a request over for its target's script (R30) or its hour's count (R23); a slot is that of
the active programme, and empty where the Scheduler holds no programmes (R30); an empty slot is reported, with the
entry's first-fire-pending flag (log entry 46); a follow-on's request is handed over, and none is pending any more. -/
def Obligations.TriggersFireAndDisarm : Prop :=
  ((∀ (index : Nat) (s : State), 3 ≤ s.hlc.step →
     (2 ≤ s.ps.writeLevel.val → exec (.trigDisarm index) s = .next (reply 0x1A#8 .locked .none s)) ∧
     (s.ps.writeLevel.val < 2 → 32 ≤ index →
       exec (.trigDisarm index) s = .next (reply 0x1A#8 .badValue .none s)) ∧
     (s.ps.writeLevel.val < 2 → ∀ i : Trig, index = i.val →
       exec (.trigDisarm index) s = .next (reply 0x1A#8 .ok .none (s.setTrig i { s.trig i with
         state := .disabled, next := none, first := false, followOn := none
         defn := { (s.trig i).defn with enabled := false } })))) ∧
   (∀ s : State, 3 ≤ s.hlc.step →
     exec .seasonGet s = .next (reply 0x1B#8 .ok
       (.seasonGet s.sch.active s.sch.chosenBy (s.sch.seasons.getD []).length s.sch.programmes.isSome) s))) ∧
  ((∀ (i : Trig) (t : Int) (s : State), nextFire s = some (i, false) → (s.trig i).next = some t →
     exec (.triggerFire i) s = .next (settle (fire i t s)) ∧
     ((fire i t s).trig i).lastFire = some t ∧ ((fire i t s).trig i).count = satInc (s.trig i).count) ∧
   (∀ (i : Trig) (f : FollowOn) (s : State), nextFire s = some (i, true) → (s.trig i).followOn = some f →
     exec (.followOnFire i) s = .next (settle
       ((handOver i f.target f.due s).mapTrig i fun r => { r with followOn := none })))) ∧
  (∀ s : State,
    let follows (i : Trig) := 3 ≤ s.hlc.step ∧ ∃ f, (s.trig i).followOn = some f ∧ f.due ≤ s.tb.showTime
    let fires (i : Trig) :=
      3 ≤ s.hlc.step ∧ (s.trig i).state = .armed ∧ ∃ t, (s.trig i).next = some t ∧ t ≤ s.tb.showTime
    (s.tb.showTime / 86400000 ≠ s.sch.today → nextFire s = none) ∧
    (s.tb.showTime / 86400000 = s.sch.today →
      (∀ i, nextFire s = some (i, true) ↔ follows i ∧ ∀ j, j < i → ¬follows j ∧ ¬fires j) ∧
      (∀ i, nextFire s = some (i, false) ↔
        fires i ∧ ¬follows i ∧ ∀ j, j < i → ¬follows j ∧ ¬fires j))) ∧
  (∀ (n : Nat) (k : Fin 16) (s : State),
    resolve (.script n) s = some n ∧ (s.sch.programmes = none → resolve (.slot n) s = none) ∧
    ∀ ps, s.sch.programmes = some ps → resolve (.slot k.val) s = (ps.get s.sch.active).get k) ∧
  (∀ (i : Trig) (time : Int) (t : Target) (s : State),
    let d := (s.trig i).defn
    let hour := (time % 86400000 / 3600000).toNat
    let count := if hour % 12 = 0 then 12 else hour % 12
    let ask (q : Subject) : State := { s with sch.held := s.sch.held ++
      [{ subject := q, origin := .trigger i, fireTime := time, policy := d.policy, staleness := d.staleness }] }
    (∀ n, t = .script n → handOver i t time s = ask (.script n)) ∧
    (∀ k n, t = .slot k → resolve t s = some n → handOver i t time s = ask (.script n)) ∧
    (∀ k, t = .slot k → resolve t s = none → handOver i t time s = raise
      (.triggerMissed .emptySlot (.trigger i) none time (some (s.sch.active, k)) (some (s.trig i).first)) s) ∧
    (d.kind = .hours → fire i time s = (ask (.count count)).mapTrig i (afterFire time)) ∧
    (d.kind ≠ .hours → fire i time s = (handOver i d.target time s).mapTrig i (afterFire time)) ∧
    (∀ r : TrigRec,
      let next := if r.defn.kind = .once ∨ (r.defn.kind = .periodic ∧ r.defn.period = 0) then none
        else earliestFrom r.defn (some time) (time + 1)
      let fired : TrigRec := { r with
        lastFire := some time, count := satInc r.count, next := next, first := false
        state := if next.isSome then .armed else .spent }
      (r.defn.followOn = none → afterFire time r = fired) ∧
      (∀ off g, r.defn.followOn = some (off, g) →
        afterFire time r = { fired with followOn := some { due := time + off * 1000, target := g } })))

/-! ## The Programme Store -/

/-- STORE-PUT (R40), with what every byte of the buffer reads as afterwards. -/
def Obligations.StorePutWrites : Prop :=
  ∀ (start : Bool) (offset : Nat) (data : List Byte) (s : State),
    2 ≤ s.hlc.step → Memory.wf s.ps.staging = true →
    (s.ps.op.isSome = true → exec (.storePut start offset data) s = .next (reply 0x20#8 .busy .none s)) ∧
    (s.ps.op = none → data.length = 0 →
      exec (.storePut start offset data) s = .next (reply 0x20#8 .badLength .none s)) ∧
    (s.ps.op = none → 1 ≤ data.length → data.length ≤ 1024 → 16384 < offset + data.length →
      exec (.storePut start offset data) s = .next (reply 0x20#8 .badValue .none s)) ∧
    (s.ps.op = none → 1 ≤ data.length → data.length ≤ 1024 → offset + data.length ≤ 16384 →
      let n := max (if start then 0 else s.ps.stagedLen) (offset + data.length)
      ∃ m, exec (.storePut start offset data) s =
          .next (reply 0x20#8 .ok (.staged n) { s with ps.staging := m, ps.stagedLen := n }) ∧
        Memory.wf m = true ∧
        (∀ k, k < data.length → Memory.read m (offset + k) = data.getD k 0) ∧
        (∀ a, a < offset ∨ offset + data.length ≤ a →
          Memory.read m a = if start then 0 else Memory.read s.ps.staging a))

/-- STORE-COMMIT (R41), STORE-ERASE (R43) and STORE-ERASE-ALL (R54): the checks in their order, and what becomes the
operation in progress, with its completion instant; which items there are (R38), which a write level protects (R51),
and the blocks of a length (R39). Which content is valid at a commit: an item of another kind when its records are read
whole (R46), a SCRIPT (R45, section 10.6) when its header names a lane, a policy and 1 to 512 cues and every cue
passes: its bytes spell a kind and fields within their ranges, its offset is at most 600,000 ms and no smaller than the
one before, lane C holds no MOVE, DOOR or TURN, and END is the last cue and no other. The first cue that fails is
named; bytes left over are the header's failure (log entry 16). -/
def Obligations.StoreOperationsBegin : Prop :=
  (∀ (kind number : Nat) (id : ItemId), itemId kind number = some id ↔
    (kind = 0 ∧ number = 0 ∧ id = ⟨.voicing, 0⟩) ∨ (kind = 1 ∧ number = 0 ∧ id = ⟨.figures, 0⟩) ∨
    (kind = 2 ∧ number = 0 ∧ id = ⟨.seasons, 0⟩) ∨ (kind = 3 ∧ number = 0 ∧ id = ⟨.programmes, 0⟩) ∨
    (kind = 4 ∧ number = 0 ∧ id = ⟨.triggers, 0⟩) ∨ (kind = 5 ∧ number < 128 ∧ id = ⟨.script, number⟩)) ∧
  (∀ (level : Fin 4) (k : ItemKind), protectedAt level k = true ↔
    (match k with | .voicing | .figures => 1 | .seasons | .programmes | .triggers => 2 | .script => 3) ≤ level.val) ∧
  (∀ n : Nat, blocksOf n = (n + 255) / 256) ∧
  (∀ (kind number : Nat) (s : State), 2 ≤ s.hlc.step → itemId kind number = none →
    exec (.storeCommit kind number) s = .next (reply 0x21#8 .badValue .none s) ∧
    exec (.storeErase kind number) s = .next (reply 0x22#8 .badValue .none s)) ∧
  (∀ (kind number : Nat) (id : ItemId) (s : State), 2 ≤ s.hlc.step → itemId kind number = some id →
    let pinned := match findItem id s with | some i => decide (i.pins ≠ 0) | none => false
    let content := Memory.readBytes s.ps.staging 0 s.ps.stagedLen
    let blocks := blocksOf s.ps.stagedLen
    exec (.storeCommit kind number) s = .next (
      if protectedAt s.ps.writeLevel id.kind = true then reply 0x21#8 .locked .none s
      else if pinned = true then reply 0x21#8 .inUse .none s
      else if s.ps.op.isSome = true then reply 0x21#8 .busy .none s
      else if s.ps.stagedLen = 0 then reply 0x21#8 .badLength .none s
      else match validate id.kind content with
        | .badScript c => reply 0x21#8 .badScript (.badCue c) s
        | .badValue => reply 0x21#8 .badValue .none s
        | .valid =>
          if freeBlocks s < blocks then reply 0x21#8 .full .none s
          else reply 0x21#8 .ok .none { s with
            ps.op := some
              { what := .commit id content (crc16 content), due := s.tb.elapsed + (30 + 20 * blocks) } }) ∧
    exec (.storeErase kind number) s = .next (
      if protectedAt s.ps.writeLevel id.kind = true then reply 0x22#8 .locked .none s
      else if pinned = true then reply 0x22#8 .inUse .none s
      else if s.ps.op.isSome = true then reply 0x22#8 .busy .none s
      else if (findItem id s).isNone = true then reply 0x22#8 .notFound .none s
      else reply 0x22#8 .ok .none { s with ps.op := some { what := .erase id, due := s.tb.elapsed + 30 } })) ∧
  (∀ s : State, 2 ≤ s.hlc.step →
    exec .storeEraseAll s = .next (
      if (s.ps.items.any fun i => decide (i.pins ≠ 0)) = true then reply 0x23#8 .inUse .none s
      else if s.ps.op.isSome = true then reply 0x23#8 .busy .none s
      else reply 0x23#8 .ok .none { s with
        ps.op := some { what := .eraseAll, due := s.tb.elapsed + (30 + 5 * usedBlocks s.ps.items) } })) ∧
  (∀ bs : List Byte,
    let whole (b : Bool) : Validation := if b then .valid else .badValue
    (∀ sc, parseScript bs = .ok sc → validate .script bs = .valid) ∧
    (∀ e, parseScript bs = .error e → validate .script bs = .badScript e) ∧
    validate .voicing bs = whole (parseVoicingItem bs).isSome ∧
    validate .figures bs = whole (parseFiguresItem bs).isSome ∧
    validate .seasons bs = whole (parseSeasonsItem bs).isSome ∧
    validate .programmes bs = whole (parseProgrammesItem bs).isSome ∧
    validate .triggers bs = whole (parseTriggersItem bs).isSome) ∧
  (∀ (l p n0 n1 : Byte) (rest : List Byte),
    let n := n0.toNat + 256 * n1.toNat
    let lane : Lane := if l.toNat = 0 then .M else .C
    let header := l.toNat ≤ 1 ∧ p.toNat ≤ 1 ∧ 1 ≤ n ∧ n ≤ 512
    (¬header → parseScript (l :: p :: n0 :: n1 :: rest) = .error none) ∧
    (∀ e, header → parseCues lane n 0 0 rest = .error e → parseScript (l :: p :: n0 :: n1 :: rest) = .error e) ∧
    (∀ cs, header → parseCues lane n 0 0 rest = .ok cs → parseScript (l :: p :: n0 :: n1 :: rest) =
      .ok { lane := lane, abortPolicy := decide (p.toNat = 1), cues := cs })) ∧
  (∀ bs : List Byte, bs.length < 4 → parseScript bs = .error none) ∧
  (∀ (lane : Lane) (n i low : Nat) (bs : List Byte),
    let good (c : Cue) := low ≤ c.offset ∧ (c.kind = .finish ↔ n = 0) ∧
      (lane = .C → (∀ d w g t ps, c.kind ≠ .move d w g t ps) ∧ (∀ d g, c.kind ≠ .door d g) ∧ ∀ p d, c.kind ≠ .turn p d)
    parseCues lane 0 i low bs = (if bs = [] then .ok [] else .error none) ∧
    ((∀ c r, parseCue bs = some (c, r) → ¬good c) → parseCues lane (n + 1) i low bs = .error (some i)) ∧
    (∀ c r, parseCue bs = some (c, r) → good c →
      (∀ e, parseCues lane n (i + 1) c.offset r = .error e → parseCues lane (n + 1) i low bs = .error e) ∧
      (∀ cs, parseCues lane n (i + 1) c.offset r = .ok cs → parseCues lane (n + 1) i low bs = .ok (c :: cs)))) ∧
  (∀ (bs r : List Byte) (c : Cue), parseCue bs = some (c, r) ↔
    ∃ o0 o1 o2 o3 k rest, bs = o0 :: o1 :: o2 :: o3 :: k :: rest ∧ c.offset ≤ 600000 ∧
      c.offset = o0.toNat + 256 * o1.toNat + 65536 * (o2.toNat + 256 * o3.toNat) ∧
      parseFields k.toNat rest = some (c.kind, r)) ∧
  (∀ (bs r : List Byte) (c : CueKind),
    let two (a b : Byte) : Nat := a.toNat + 256 * b.toNat
    (parseFields 0 bs = some (c, r) ↔ ∃ x v, ∃ b : Bell, bs = x :: v :: r ∧ x.toNat = b.val ∧ 1 ≤ v.toNat ∧
      v.toNat ≤ 8 ∧ c = .strike b v.toNat) ∧
    (parseFields 1 bs = some (c, r) ↔ ∃ x y z, bs = x :: y :: z :: r ∧ 0 < two x y + 65536 * z.toNat ∧
      two x y + 65536 * z.toNat < 2 ^ 20 ∧ c = .damp (BitVec.ofNat 20 (two x y + 65536 * z.toNat))) ∧
    (parseFields 2 bs = some (c, r) ↔ ∃ d0 d1 w g0 g1 t0 t1 k rest ps,
      bs = d0 :: d1 :: w :: g0 :: g1 :: t0 :: t1 :: k :: rest ∧ parsePairs k.toNat rest = some (ps, r) ∧
      200 ≤ two d0 d1 ∧ two d0 d1 ≤ 60000 ∧ w.toNat ≤ 100 ∧ two g0 g1 ≤ 2000 ∧ two t0 t1 ≤ 2000 ∧ 1 ≤ k.toNat ∧
      k.toNat ≤ 12 ∧ (ps.map Prod.fst).Nodup ∧ c = .move (two d0 d1) w.toNat (two g0 g1) (two t0 t1) ps) ∧
    (parseFields 3 bs = some (c, r) ↔ ∃ x y, ∃ d : Door, ∃ g, bs = x :: y :: r ∧ x.toNat = d.val ∧
      ((y.toNat = 0 ∧ g = .opened) ∨ (y.toNat = 1 ∧ g = .closed)) ∧ c = .door d g) ∧
    (parseFields 4 bs = some (c, r) ↔ ∃ x y, ∃ p : Fin 12, ∃ d, bs = x :: y :: r ∧ x.toNat = p.val ∧
      ((y.toNat = 0 ∧ d = .shortest) ∨ (y.toNat = 1 ∧ d = .cw) ∨ (y.toNat = 2 ∧ d = .ccw)) ∧ c = .turn p d) ∧
    (parseFields 5 bs = some (c, r) ↔ ∃ x y x0 x1 x2 x3 h0 h1, ∃ i : GInput, ∃ e,
      bs = x :: y :: x0 :: x1 :: x2 :: x3 :: h0 :: h1 :: r ∧ x.toNat = i.val ∧
      ((y.toNat = 0 ∧ e = .rise) ∨ (y.toNat = 1 ∧ e = .fall)) ∧ two x0 x1 + 65536 * two x2 x3 ≤ 600000 ∧
      10 ≤ two h0 h1 ∧ two h0 h1 ≤ 5000 ∧ c = .mark i e (two x0 x1 + 65536 * two x2 x3) (two h0 h1)) ∧
    (parseFields 6 bs = some (c, r) ↔ ∃ x l f0 f1, ∃ ch : Lamp, bs = x :: l :: f0 :: f1 :: r ∧ x.toNat = ch.val ∧
      two f0 f1 ≤ 10000 ∧ c = .lamp ch l (two f0 f1)) ∧
    (parseFields 7 bs = some (c, r) ↔ c = .finish ∧ r = bs) ∧
    ∀ k, 8 ≤ k → parseFields k bs = none) ∧
  (∀ (k : Nat) (bs r : List Byte) (ps : List (Fig × Int)),
    (parsePairs 0 bs = some (ps, r) ↔ ps = [] ∧ r = bs) ∧
    (parsePairs (k + 1) bs = some (ps, r) ↔ ∃ x lo hi rest qs, ∃ f : Fig,
      bs = x :: lo :: hi :: rest ∧ x.toNat = f.val ∧ parsePairs k rest = some (qs, r) ∧
      ps = (f, (BitVec.ofNat 16 (lo.toNat + 256 * hi.toNat)).toInt) :: qs))

/-- STORE-READ's checks in their order, and its answer; it changes no state but the reply it makes (R57). -/
def Obligations.StoreReadReplies : Prop :=
  ∀ (kind number offset count : Nat) (s : State), 1 ≤ s.hlc.step →
    (itemId kind number = none ∨ count = 0 ∨ 1024 < count →
      exec (.storeRead kind number offset count) s = .next (reply 0x25#8 .badValue .none s)) ∧
    (∀ id, itemId kind number = some id → 1 ≤ count → count ≤ 1024 →
      (s.hlc.step < 2 ∨ s.ps.op.isSome = true →
        exec (.storeRead kind number offset count) s = .next (reply 0x25#8 .busy .none s)) ∧
      (2 ≤ s.hlc.step → s.ps.op = none →
        (s.ps.readLock = true →
          exec (.storeRead kind number offset count) s = .next (reply 0x25#8 .locked .none s)) ∧
        (s.ps.readLock = false → findItem id s = none →
          exec (.storeRead kind number offset count) s = .next (reply 0x25#8 .notFound .none s)) ∧
        (∀ x, s.ps.readLock = false → findItem id s = some x → x.content.length ≤ offset →
          exec (.storeRead kind number offset count) s = .next (reply 0x25#8 .badValue .none s)) ∧
        (∀ x, s.ps.readLock = false → findItem id s = some x → offset < x.content.length →
          exec (.storeRead kind number offset count) s =
            .next (reply 0x25#8 .ok (.storeRead ((x.content.drop offset).take count) x.usable) s))))

/-- STORE-LIST (R56) and STORE-SUM (R55): BUSY while an operation is in progress, otherwise the answer, with the
identity words withheld and the sum in its locked form while the read lock is on. STORE-PROTECT (R51) and
STORE-IDENTITY (R53); that a value out of range is refused before BUSY and LOCKED is the model's choice (log entry 40).
-/
def Obligations.StoreListSumProtectAndIdentity : Prop :=
  (∀ s : State, 2 ≤ s.hlc.step →
     let protect := s.ps.writeLevel.val + (if s.ps.readLock then 4 else 0) + (if s.ps.protLock then 8 else 0)
     (s.ps.op.isSome = true → exec .storeList s = .next (reply 0x24#8 .busy .none s) ∧
       exec .storeSum s = .next (reply 0x26#8 .busy .none s)) ∧
     (s.ps.op = none →
       exec .storeList s = .next (reply 0x24#8 .ok
         (.storeList
           (s.ps.items.map fun i =>
             { id := i.id, length := i.content.length, blocks := blocksOf i.content.length, usable := i.usable,
               pins := i.pins })
           (896 - usedBlocks s.ps.items) s.ps.stagedLen s.ps.writeLevel s.ps.readLock s.ps.protLock
           (if s.ps.readLock then none else some s.ps.identity)) s) ∧
       (s.ps.readLock = true → exec .storeSum s = .next (reply 0x26#8 .ok
         (.storeSum (BitVec.ofNat 16 (protect + (s.ps.identity.toList.map BitVec.toNat).sum))) s)) ∧
       (s.ps.readLock = false → exec .storeSum s = .next (reply 0x26#8 .ok
         (.storeSum (BitVec.ofNat 16
           (protect + ((s.ps.items.filter (·.usable)).map fun i => sumWords i.content).sum))) s)))) ∧
  (∀ s : State, 2 ≤ s.hlc.step →
     (∀ level readLock,
       (3 < level → exec (.storeProtect level readLock) s = .next (reply 0x27#8 .badValue .none s)) ∧
       (level ≤ 3 → s.ps.op.isSome = true →
         exec (.storeProtect level readLock) s = .next (reply 0x27#8 .busy .none s)) ∧
       (level ≤ 3 → s.ps.op = none → s.ps.protLock = true →
         exec (.storeProtect level readLock) s = .next (reply 0x27#8 .locked .none s)) ∧
       (∀ l : Fin 4, level = l.val → s.ps.op = none → s.ps.protLock = false →
         exec (.storeProtect level readLock) s =
           .next (reply 0x27#8 .ok .none { s with ps.writeLevel := l, ps.readLock := readLock }))) ∧
     (∀ w0 w1 w2 w3,
       (65535 < w0 ∨ 65535 < w1 ∨ 65535 < w2 ∨ 65535 < w3 →
         exec (.storeIdentity w0 w1 w2 w3) s = .next (reply 0x29#8 .badValue .none s)) ∧
       (w0 ≤ 65535 → w1 ≤ 65535 → w2 ≤ 65535 → w3 ≤ 65535 →
         (s.ps.op.isSome = true → exec (.storeIdentity w0 w1 w2 w3) s = .next (reply 0x29#8 .busy .none s)) ∧
         (s.ps.op = none → s.ps.protLock = true →
           exec (.storeIdentity w0 w1 w2 w3) s = .next (reply 0x29#8 .locked .none s)) ∧
         (s.ps.op = none → s.ps.protLock = false →
           exec (.storeIdentity w0 w1 w2 w3) s = .next (reply 0x29#8 .ok .none { s with
             ps.identity :=
               #v[BitVec.ofNat 16 w0, BitVec.ofNat 16 w1, BitVec.ofNat 16 w2, BitVec.ofNat 16 w3] })))))

/-- STORE-LOCK and the protection lock (R52): the request, the refusals while the lock is set, and the write level,
read lock, lock and identity words staying as they are through every command, resets included, but the completion of an
erase-all. -/
def Obligations.ProtectionLockHolds : Prop :=
  (∀ s : State, 2 ≤ s.hlc.step →
    (s.ps.op.isSome = true → exec .storeLock s = .next (reply 0x28#8 .busy .none s)) ∧
    (s.ps.op = none → exec .storeLock s = .next (reply 0x28#8 .ok .none { s with ps.protLock := true })) ∧
    (s.ps.op = none → s.ps.protLock = true →
      (∀ l r, l ≤ 3 → exec (.storeProtect l r) s = .next (reply 0x27#8 .locked .none s)) ∧
      (∀ w0 w1 w2 w3, w0 ≤ 65535 → w1 ≤ 65535 → w2 ≤ 65535 → w3 ≤ 65535 →
        exec (.storeIdentity w0 w1 w2 w3) s = .next (reply 0x29#8 .locked .none s)))) ∧
  (∀ (i : Instr) (s t : State), s.ps.protLock = true → i ≠ .eraseAllComplete → exec i s = .next t →
    protection t = protection s)

/-- The completions of the store's operations at their instants (R42, R43, R54): the directory, the staging buffer and
the protection, with STORE_EVENT raised; then the waiting loads are answered in the order they were appended (R49), a
run's or a block's (log entry 55), and each block that keeps a copy takes up the new content or its absence (R37, R29,
R30, R87, R133), before a run that an answer stops is IDLE (log entry 59); at an erase-all the trigger table, the
seasons, the programmes, the voicing, then the figures (the model's choice, log entry 85). An erase-all leaves no item
and no protection. An item is put at the place its kind and number give, in place of a former copy (R38). A committed
TRIGGERS item replaces the definitions, after a change of date still to be acted on, and has the entries armed or
disabled in ascending index; an erased one leaves 32 empty entries, last fires and counts kept. A figure whose node
address changes ends its part in any move, in ascending index (the model's choice, log entry 81), its share going back
while it is UNKNOWN (the model's choice, log entry 95), and is UNKNOWN or unbound without a report (R133); every change
of bindings tells the link the bound addresses, which makes the newly bound ASLEEP and requests a wake (R121), and
leaves a poll STATUS or a FIG-CLEAR's CLEAR under way to its end (the model's choice, log entry 89). An item's content
is taken when its records, of the layout of section 10.6, are read whole, each within its ranges (R46). -/
def Obligations.StoreOperationsComplete : Prop :=
  (∀ (s : State) (due : Nat), due ≤ s.tb.elapsed →
    (∀ id content check, s.ps.op = some { what := .commit id content check, due := due } →
      exec .commitComplete s = .next (settle (takeUp id.kind (some content) (answerWaiting
        (raise (.storeEvent (.commitDone id)) { s with
          ps.items := putItem { id := id, content := content, check := check, usable := true, pins := 0 } s.ps.items
          ps.staging := [], ps.stagedLen := 0, ps.op := none }))))) ∧
    (∀ id, s.ps.op = some { what := .erase id, due := due } →
      exec .eraseComplete s = .next (settle (takeUp id.kind none (answerWaiting
        (raise (.storeEvent (.eraseDone id)) { s with
          ps.items := s.ps.items.filter fun i => i.id != id
          ps.op := none }))))) ∧
    (s.ps.op = some { what := .eraseAll, due := due } →
      exec .eraseAllComplete s = .next (settle (takeUp .figures none (takeUp .voicing none (takeUp .programmes none
        (takeUp .seasons none (takeUp .triggers none (answerWaiting (raise (.storeEvent .erasedAll) { s with
          ps.items := [], ps.op := none, ps.writeLevel := 0, ps.readLock := false, ps.protLock := false
          ps.identity := Vector.replicate 4 0 })))))))) ∧
      ∃ t, exec .eraseAllComplete s = .next t ∧ protection t = (0, false, false, Vector.replicate 4 0) ∧
        t.ps.op = none ∧ t.ps.staging = s.ps.staging ∧ t.ps.stagedLen = s.ps.stagedLen)) ∧
  (∀ s : State, answerWaiting s = s.ps.waiting.foldl
    (fun t w => match w with | .lane l => answerLoad l t | .block k => takeLoad k t) { s with ps.waiting := [] }) ∧
  (∀ (x : Item) (items : List Item), items.Pairwise (fun a b => itemRank a.id < itemRank b.id) →
    (putItem x items).Pairwise (fun a b => itemRank a.id < itemRank b.id) ∧
    ∀ y, y ∈ putItem x items ↔ y = x ∨ (y ∈ items ∧ itemRank y.id ≠ itemRank x.id)) ∧
  (∀ (s : State) (c : Option (List Byte)),
    (∀ ds, c.bind parseTriggersItem = some ds →
      let v := if s.tb.showTime / 86400000 ≠ s.sch.today then evalSeasons s else s
      takeUp .triggers c s = { v with
        sch.trigs := Vector.ofFn fun i =>
          { s.trig i with defn := ds.get i, followOn := none, first := false, next := none }
        sch.work := s.sch.work ++ (List.finRange 32).map fun i => .armOrDisable i s.tb.showTime }) ∧
    (c.bind parseTriggersItem = none → takeUp .triggers c s = { s with
      sch.trigs := s.sch.trigs.map fun r => { TrigRec.empty with lastFire := r.lastFire, count := r.count } }) ∧
    takeUp .seasons c s = evalSeasons { s with sch.seasons := c.bind parseSeasonsItem } ∧
    takeUp .programmes c s = evalSeasons { s with sch.programmes := c.bind parseProgrammesItem } ∧
    takeUp .voicing c s = takeVoicing (c.bind parseVoicingItem) s ∧
    takeUp .figures c s = takeMachinery ((c.bind parseFiguresItem).getD noMachinery) s ∧
    takeUp .script c s = s) ∧
  (∀ (f : Fig) (next : Option (Fin 16)) (s : State),
    ((s.figDef f).address = next → rebindFig f next s = s) ∧
    ((s.figDef f).address ≠ next →
      let gone (t : State) := t.mapFig f fun r =>
        { r with state := if next.isSome then .unknown else .unbound, report := none, interrupted := none }
      ((s.fig f).state = .staged ∨ (s.fig f).state = .moving → rebindFig f next s =
        gone (leaveMove f .unknown (haltFig false f (withdrawTxns (TxnOwner.ofFig f) (reportFig f .figureLost s))))) ∧
      ((s.fig f).state ≠ .staged → (s.fig f).state ≠ .moving → rebindFig f next s =
        gone (loseRecord f (withdrawTxns (TxnOwner.ofFig f) s))))) ∧
  (∀ (m : Machinery) (s : State),
    let bound := m.figs.toList.filterMap FigDef.address
    let u := (List.finRange 12).foldl (fun t f => rebindFig f (m.figs.get f).address t) s
    let v : State := { u with stg.figDefs := m.figs, stg.doorDefs := m.doors, stg.turnDef := m.turn }
    takeMachinery m s =
      if (∃ a ∈ bound, (v.node a).state = .absent) ∧ 5 ≤ (bindNodes bound v).hlc.step then
        requestWake true (bindNodes bound v)
      else bindNodes bound v) ∧
  (∀ (bound : List (Fin 16)) (s : State), bindNodes bound s = tidySweep { s with
    flc.nodes := Vector.ofFn fun a =>
      let n := s.flc.nodes.get a
      if a ∈ bound then
        if n.state = .absent then { n with state := .asleep, confirmed := false, failures := 0 } else n
      else { NodeRec.absent with lastAnswer := n.lastAnswer } }) ∧
  (∀ (α : Type) (p : List Byte → Option (α × List Byte)) (n : Nat) (bs r : List Byte) (l : List α),
    (parseMany p 0 bs = some (l, r) ↔ l = [] ∧ r = bs) ∧
    (parseMany p (n + 1) bs = some (l, r) ↔
      ∃ a rest as, p bs = some (a, rest) ∧ parseMany p n rest = some (as, r) ∧ l = a :: as)) ∧
  (∀ bs : List Byte,
    (∀ v, parseVoicingItem bs = some v ↔ parseMany parseVoicing 20 bs = some (v.toList, [])) ∧
    (∀ v, parseProgrammesItem bs = some v ↔ parseMany parseProgramme 8 bs = some (v.toList, [])) ∧
    (∀ v, parseTriggersItem bs = some v ↔ parseMany parseTrigger 32 bs = some (v.toList, [])) ∧
    (∀ es, parseSeasonsItem bs = some es ↔
      1 ≤ es.length ∧ es.length ≤ 16 ∧ parseMany parseSeason es.length bs = some (es, [])) ∧
    (∀ m, parseFiguresItem bs = some m ↔ ∃ r1 r2, parseMany parseFigure 12 bs = some (m.figs.toList, r1) ∧
      parseMany parseDoor 2 r1 = some (m.doors.toList, r2) ∧ parseTurn r2 = some (m.turn, []) ∧
      (m.figs.toList.filterMap FigDef.address).Nodup)) ∧
  (∀ bs r : List Byte,
    let record (n : Nat) (p : (Nat → Nat) → Prop) : Prop :=
      ∃ h : List Byte, h.length = n ∧ bs = h ++ r ∧ p fun i => (h.getD i 0).toNat
    let two (b : Nat → Nat) (i : Nat) : Nat := b i + 256 * b (i + 1)
    let signed (b : Nat → Nat) (i : Nat) : Int := (BitVec.ofNat 16 (two b i)).toInt
    let date (m d : Nat) : Prop :=
      1 ≤ m ∧ m ≤ 12 ∧ 1 ≤ d ∧ d ≤ if m = 2 then 29 else if m = 4 ∨ m = 6 ∨ m = 9 ∨ m = 11 then 30 else 31
    let aim (n : Nat) : Option Target :=
      if n < 16 then some (.slot n) else if 128 ≤ n then some (.script (n - 128)) else none
    (∀ v, parseVoicing bs = some (v, r) ↔ record 15 fun b => v.pulse.toList = (List.range 8).map b ∧
      (∀ x ∈ v.pulse.toList, 2 ≤ x ∧ x ≤ 40) ∧ v.window = b 8 ∧ 2 ≤ b 8 ∧ b 8 ≤ 60 ∧ v.recovery = two b 9 ∧
      60 ≤ two b 9 ∧ two b 9 ≤ 2000 ∧ v.lead = b 11 ∧ b 11 ≤ 50 ∧ v.ring = two b 12 ∧ two b 12 ≤ 10000 ∧
      v.units = b 14 ∧ 1 ≤ b 14 ∧ b 14 ≤ 8) ∧
    (∀ d, parseFigure bs = some (d, r) ↔ record 14 fun b =>
      ((b 0 = 0 ∧ d.address = none) ∨ ∃ a : Fin 16, a ≠ 0 ∧ b 0 = a.val ∧ d.address = some a) ∧
      d.travelMin = signed b 1 ∧ d.travelMax = signed b 3 ∧ d.home = signed b 5 ∧ d.travelMin ≤ d.home ∧
      d.home ≤ d.travelMax ∧ d.units = b 7 ∧ b 7 ≤ 4 ∧ b 8 ≤ 1 ∧ d.rides = decide (b 8 = 1) ∧
      ((b 9 = 0 ∧ signed b 10 = 0 ∧ signed b 12 = 0 ∧ d.crossing = none) ∨
        ∃ c, d.crossing = some c ∧ b 9 = c.door.val + 1 ∧ c.low = signed b 10 ∧ c.high = signed b 12 ∧ c.low ≤ c.high)) ∧
    (∀ d, parseDoor bs = some (d, r) ↔ record 4 fun b => d.travel = b 0 ∧ 1 ≤ b 0 ∧ b 0 ≤ 30 ∧ d.units = b 1 ∧
      1 ≤ b 1 ∧ b 1 ≤ 16 ∧ d.wait = two b 2 ∧ two b 2 ≤ 2000) ∧
    (∀ d, parseTurn bs = some (d, r) ↔ record 5 fun b => d.perPosition = two b 0 ∧ 500 ≤ two b 0 ∧ two b 0 ≤ 10000 ∧
      d.units = b 2 ∧ 1 ≤ b 2 ∧ b 2 ≤ 16 ∧ d.wait = two b 3 ∧ two b 3 ≤ 2000) ∧
    (∀ e, parseSeason bs = some (e, r) ↔ record 6 fun b => e.startMonth = b 0 ∧ e.startDay = b 1 ∧ e.endMonth = b 2 ∧
      e.endDay = b 3 ∧ date (b 0) (b 1) ∧ date (b 2) (b 3) ∧ e.priority = b 4 ∧ b 4 ≤ 15 ∧ e.programme.val = b 5) ∧
    (∀ v, parseProgramme bs = some (v, r) ↔ parseMany parseSlot 16 bs = some (v.toList, r)) ∧
    (∀ x, parseSlot bs = some (x, r) ↔ record 1 fun b =>
      (b 0 = 255 ∧ x = none) ∨ (b 0 < 128 ∧ x = some (b 0))) ∧
    (∀ d, parseTrigger bs = some (d, r) ↔ record 26 fun b =>
      let days := b 14 + 256 * b 15 + 65536 * b 16
      b 1 ≤ 1 ∧ d.enabled = decide (b 1 = 1) ∧ d.time = two b 2 + 65536 * two b 4 + 4294967296 * (two b 6 + 65536 * two b 8) ∧
      d.period = two b 10 + 65536 * two b 12 ∧ aim (b 17) = some d.target ∧
      ((two b 18 = 0 ∧ b 20 = 0 ∧ d.followOn = none) ∨
        ∃ g, 1 ≤ two b 18 ∧ two b 18 ≤ 600 ∧ aim (b 20) = some g ∧ d.followOn = some (two b 18, g)) ∧
      ((b 21 = 0 ∧ d.policy = .queue) ∨ (b 21 = 1 ∧ d.policy = .drop) ∨ (b 21 = 2 ∧ d.policy = .preempt)) ∧
      d.staleness = two b 22 ∧ two b 22 ≤ 3600 ∧ d.window = two b 24 ∧ two b 24 ≤ 600 ∧
      ((b 0 = 0 ∧ d.kind = .daily ∧ d.time ≤ 86399999 ∧ d.period = 0 ∧ 0 < days ∧ days < 128 ∧
          d.weekdays = BitVec.ofNat 7 days ∧ d.hours = 0) ∨
        (b 0 = 1 ∧ d.kind = .periodic ∧ d.time ≤ 3155759999999 ∧ d.period ≤ 86400000 ∧ days = 0 ∧ d.weekdays = 0 ∧
          d.hours = 0) ∨
        (b 0 = 2 ∧ d.kind = .once ∧ d.time ≤ 3155759999999 ∧ d.period = 0 ∧ days = 0 ∧ d.weekdays = 0 ∧ d.hours = 0) ∨
        (b 0 = 3 ∧ d.kind = .hours ∧ d.time = 0 ∧ d.period = 0 ∧ 0 < days ∧ b 17 = 0 ∧ d.weekdays = 0 ∧
          d.hours = BitVec.ofNat 24 days))))

/-! ## The Show Sequencer -/

/-- SHOW-START (R82, R61): BAD_VALUE, NOT_FOUND and BAD_SCRIPT; on a lane that is IDLE the run starts; on another, or
under the restraint of a forced step, the request takes the end of the pending queue, and a full queue refuses it. A
run as it starts (R64) is LOADING; the hour count of n has n STRIKE cues of velocity 6 and an END (R67); a script is
loaded, the load waiting while a store operation concerns the script (R47), and lane M's run asks for a wake if a bound
node is ASLEEP (R64). Its load's answer (R65): absent NO_SCRIPT, unusable STORE_CHECK, another lane's script
WRONG_LANE, each an abort; otherwise the run, which pins the item (R48), enters RUNNING with its pre-roll of 200 ms, or
HOLDING with its lane's fades frozen if a hold was recorded, and SHOW_STARTED is raised (R66, R72, R73). That every
channel the lane set is marked frozen is log entry 38; that content which agrees with its check and spells no script is
STORE_CHECK is the model's choice (log entry 69). -/
def Obligations.ShowStartStarts : Prop :=
  (∀ (subject : Subject) (staleness : Nat) (s : State), 6 ≤ s.hlc.step →
    let inRange := staleness ≤ 3600 ∧ match subject with | .script n => n < 128 | .count n => 1 ≤ n ∧ n ≤ 12
    let q : ShowReq :=
      { subject := subject, origin := .host, fireTime := s.tb.showTime, policy := .queue, staleness := staleness }
    (¬inRange → exec (.showStart subject staleness) s = .next (reply 0x30#8 .badValue .none s)) ∧
    (inRange → placeOf subject s = .noScript →
      exec (.showStart subject staleness) s = .next (reply 0x30#8 .notFound .none s)) ∧
    (inRange → placeOf subject s = .storeCheck →
      exec (.showStart subject staleness) s = .next (reply 0x30#8 .badScript .none s)) ∧
    (∀ l, inRange → placeOf subject s = .on l →
      (s.run l = none → s.restraint = false →
        exec (.showStart subject staleness) s =
          .next (settle (reply 0x30#8 .ok (.started l) (startRun l q s)))) ∧
      (s.run l ≠ none ∨ s.restraint = true → (s.lane l).queue.length < 4 →
        exec (.showStart subject staleness) s =
          .next (settle (reply 0x30#8 .ok (.queued l ((s.lane l).queue.length + 1))
            (s.setLane l { s.lane l with queue := (s.lane l).queue ++ [q] })))) ∧
      (s.run l ≠ none ∨ s.restraint = true → 4 ≤ (s.lane l).queue.length →
        exec (.showStart subject staleness) s = .next (settle (reply 0x30#8 .full .none s))))) ∧
  (∀ (l : Lane) (q : ShowReq) (s : State),
    let r : Run :=
      { subject := q.subject, origin := q.origin, fireTime := q.fireTime, state := .loading, start := none, accHold := 0,
        holdStart := none, heldHost := false, heldGroups := 0, resumeEnding := false, cues := [], abortPolicy := false,
        excluded := 0, skipDoors := 0, skipTurn := false, faults := 0, firstFault := none, abortReason := none,
        abortAsked := false, pinned := false, stoppedDoors := Vector.replicate 2 none, stoppedTurn := none }
    let u : State := s.setLane l { s.lane l with run := some r }
    (∀ n, q.subject = .count n → startRun l q s = beginRun l
      ((List.range n).map (fun k =>
          { offset := k * s.hlc.live.countSpacing, kind := .strike s.hlc.live.countBell 6 }) ++
        [{ offset := (n - 1) * s.hlc.live.countSpacing, kind := .finish }]) false u) ∧
    (∀ n, q.subject = .script n →
      let w := if l = .M ∧ ∃ n ∈ s.flc.nodes.toList, n.state = .asleep then requestWake true u else u
      (opConcerns ⟨.script, n⟩ w = true →
        startRun l q s = { w with ps.waiting := w.ps.waiting ++ [.lane l] }) ∧
      (opConcerns ⟨.script, n⟩ w = false → startRun l q s = answerLoad l w))) ∧
  (∀ (l : Lane) (n : Nat) (r : Run) (s : State), s.run l = some r → r.state = .loading → r.subject = .script n →
    let stop (why : AbortReason) (t : State) : State := t.mapRun l fun r =>
      { r with state := .aborting, abortReason := some why, heldHost := false, heldGroups := 0 }
    let load := loadItem ⟨.script, n⟩ s
    let pinned : State := { load.1 with
      ps.items := load.1.ps.items.map fun i => if i.id = ⟨.script, n⟩ then { i with pins := i.pins + 1 } else i }
    let u : State := pinned.mapRun l fun r => { r with pinned := true }
    (findItem ⟨.script, n⟩ s = none → answerLoad l s = stop .noScript s) ∧
    (findItem ⟨.script, n⟩ s ≠ none →
      (load.2 = .unusable → answerLoad l s = stop .storeCheck u) ∧
      (∀ bs, load.2 = .content bs →
        (∀ e, parseScript bs = .error e → answerLoad l s = stop .storeCheck u) ∧
        (∀ sc, parseScript bs = .ok sc → sc.lane ≠ l → answerLoad l s = stop .wrongLane u) ∧
        (∀ sc, parseScript bs = .ok sc → sc.lane = l →
          answerLoad l s = beginRun l sc.cues sc.abortPolicy u)))) ∧
  (∀ (l : Lane) (cues : List Cue) (policy : Bool) (r : Run) (s : State), s.run l = some r →
    let begun : Run := { r with
      cues := cues.map fun c => { cue := c, issued := false }
      abortPolicy := policy, start := some (s.tb.showTime + 200), state := .running, holdStart := none
      resumeEnding := false }
    (r.heldHost = false ∧ r.heldGroups = 0 → beginRun l cues policy s =
      raise (.showStarted l r.subject r.origin) (s.setLane l { s.lane l with run := some begun })) ∧
    (r.heldHost = true ∨ r.heldGroups ≠ 0 →
      let u : State := s.setLane l { s.lane l with run := some { begun with
        state := .holding, holdStart := some { shown := s.tb.showTime, elapsed := s.tb.elapsed } } }
      beginRun l cues policy s = raise (.showStarted l r.subject r.origin) { u with
        seq.lamps := Vector.ofFn fun ch =>
          let p := s.seq.lamps.get ch
          if p.setter = .lane l then { p with frozen := true } else p }))

/-- SHOW-STOP, SHOW-HOLD and SHOW-RESUME (R83): BAD_VALUE for a lane code out of range; each acts if a named lane is in
a state on which it acts, and otherwise answers NOT_NOW and changes nothing; a lane still held by a MISMATCHED group is
named in the reply to SHOW-RESUME; lane M is met before lane C (log entry 53). A hold of 120,000 ms aborts its run
(R74). An abort (R77): a LOADING run gives up its load, its lane's lamps left as they are (the model's choice, log
entry 77); another withdraws its strikes, has its figures withdrawn, then halted (order: log entry 60), and its drives
stopped together, frees its captures unjudged, and fades its lamps to their rest levels in 1,000 ms (R81); at a guard
ABORT the broadcast HALT serves the figures (log entry 24). The CLEARs that the run's holds queued are withdrawn,
whatever has become of their figures, and a figure with an interrupted move loses the record and stays HALTED (R141). A
hold takes the figures in ascending index (log entry 60), each HALTED before its units can be granted (the model's
choice, log entry 95). A hold (R72, R73): the source is recorded, and a RUNNING or ENDING run is HOLDING, the cues of
its withdrawn strikes unissued again, its figures held (one whose GO is on the line halted and sent no CLEAR: log entry
27), its drives stopped (one with both limits active UNKNOWN: log entry 37) and remembered, its windows suspended, its
fades frozen (every channel marked: log entry 38). What strikes and figures give back may start the run's own waiting
drive first (log entry 61). A hold lifted from every source resumes the run (R75, R76): the hold's length joins the
accumulated hold, the recorded figures move again, cue by cue in ascending index (log entry 57), an excluded one losing
its record and staying HALTED, then the doors, D0 first, and the turntable (the model's choice, log entry 86); windows
move on by the hold, and fades go on. -/
def Obligations.RunsStopHoldAndResume : Prop :=
  (∀ (code : Nat) (s : State), 6 ≤ s.hlc.step →
     exec (.showStop (.other code)) s = .next (reply 0x31#8 .badValue .none s) ∧
     exec (.showHold (.other code)) s = .next (reply 0x32#8 .badValue .none s) ∧
     exec (.showResume (.other code)) s = .next (reply 0x33#8 .badValue .none s)) ∧
  (∀ (lanes : LaneSel) (s : State), 6 ≤ s.hlc.step →
     ((∃ l ∈ laneList lanes, ∃ r, s.run l = some r ∧ r.state ≠ .aborting) →
       exec (.showStop (.val lanes)) s = .next (settle (reply 0x31#8 .ok .none
         ((laneList lanes).foldl (fun s l => abortLane l .hostStop false s) s))) ∧
       exec (.showHold (.val lanes)) s = .next (settle (reply 0x32#8 .ok .none
         ((laneList lanes).foldl (fun s l => holdLane l .host s) s)))) ∧
     ((∀ l ∈ laneList lanes, ∀ r, s.run l = some r → r.state = .aborting) →
       exec (.showStop (.val lanes)) s = .next (reply 0x31#8 .notNow .none s) ∧
       exec (.showHold (.val lanes)) s = .next (reply 0x32#8 .notNow .none s)) ∧
     ((∃ l ∈ laneList lanes, ∃ r, s.run l = some r ∧
         (r.state = .holding ∨ (r.state = .loading ∧ r.isHeld = true))) →
       let u := (laneList lanes).foldl (fun t l => liftHold l true (matchingGroups s) t) s
       let left := (laneList lanes).foldl (fun w l => w ||| heldGroups l u) 0
       exec (.showResume (.val lanes)) s = .next (settle
         (if left = 0 then reply 0x33#8 .ok .none u else reply 0x33#8 .notNow (.heldBy left) u))) ∧
     ((∀ l ∈ laneList lanes, ∀ r, s.run l = some r →
         r.state ≠ .holding ∧ (r.state = .loading → r.isHeld = false)) →
       exec (.showResume (.val lanes)) s = .next (reply 0x33#8 .notNow .none s))) ∧
  (∀ (l : Lane) (r : Run) (h : Stamp) (s : State), s.run l = some r → r.state = .holding → r.holdStart = some h →
     h.elapsed + 120000 ≤ s.tb.elapsed →
     exec (.holdTimeout l) s = .next (settle (abortLane l .holdTimeout false s))) ∧
  (∀ (l : Lane) (why : AbortReason) (guard : Bool) (r : Run) (s : State), s.run l = some r →
     let u : State := s.setLane l { s.lane l with run := some { r with
       state := .aborting, abortReason := some why, abortAsked := false, heldHost := false, heldGroups := 0
       holdStart := none } }
     let v := removeStrikes (fun k => k.origin.lane? == some l) u
     let w := if l = .C then v else stopDrives (if guard then withdrawRun v else abortFigs v)
     (r.state = .aborting → abortLane l why guard s = s) ∧
     (r.state = .loading →
       abortLane l why guard s = { u with ps.waiting := u.ps.waiting.filter (· != .lane l) }) ∧
     (r.state = .running ∨ r.state = .holding ∨ r.state = .ending → abortLane l why guard s = { w with
       inm.units := w.inm.units.map fun c => if c.ofLane l then .free else c
       seq.lamps := Vector.ofFn fun ch =>
         let p := w.seq.lamps.get ch
         if p.setter = .lane l then
           { level := p.level, target := w.hlc.live.lampRests.get ch, remaining := 1000, startLevel := p.level
             length := 1000, fading := true, frozen := false, setter := .rest }
         else p })) ∧
  (∀ s : State,
     withdrawRun s = (List.finRange 12).foldl (fun t f => abortWithdraw f t)
       { s with flc.queue := s.flc.queue.filter fun t => decide (∀ f, t.owner ≠ .holdClear f false) } ∧
     abortFigs s = (List.finRange 12).foldl (fun t f => abortHalt f t) (withdrawRun s) ∧
     ∀ f, let r := s.fig f
       let active := r.ofRun = true ∧ (r.state = .staged ∨ r.state = .moving)
       (active → abortHalt f s = leaveMove f .halted (sendHalt (s.figAddress f) true false (1#12 <<< f.val) s)) ∧
       (¬active → abortHalt f s = s ∧ abortWithdraw f s = s.setFig f { r with interrupted := none }) ∧
       (∀ m, active → r.move = some m → abortWithdraw f s =
         { s.setFig f { r with interrupted := none } with
           flc.queue := s.flc.queue.filter fun t => !(TxnOwner.ofFig f t.owner || t.owner == .go m.tag) })) ∧
  (∀ s : State,
     holdFigs s = (List.finRange 12).foldl (fun t f => if (t.fig f).ofRun then holdFig f t else t) s ∧
     (∀ r : FigRec, r.ofRun = true ↔
       r.homing = none ∧ ∃ m, r.move = some m ∧ m.owner ≠ .host ∧ m.ended = false) ∧
     (recordedCues s).Pairwise (· < ·) ∧
     ∀ c, c ∈ recordedCues s ↔ ∃ f i, (s.fig f).interrupted = some i ∧ i.cue = c) ∧
  (∀ s : State,
     let mine (o : Owner) := o ≠ .host
     let byRun (d : Door) := ∃ c, (s.door d).cmd = some c ∧ mine c.owner
     let keys : List ClaimKey :=
       ((List.finRange 2).filter fun d => (s.door d).runCmd.isSome).map .door ++
         (if s.stg.turn.runCmd.isSome then [.turntable] else [])
     let t := stopDrives s
     (∀ d, (s.door d).runCmd.isSome = true ↔ byRun d) ∧
     (s.stg.turn.runCmd.isSome = true ↔ ∃ c, s.stg.turn.cmd = some c ∧ mine c.owner) ∧
     (∃ u : State, t = (if ∃ c ∈ s.dbu.claims, c.kind.key ∈ keys then
         grantPass { u with dbu.claims := u.dbu.claims.filter fun c => decide (c.kind.key ∉ keys) } else u) ∧
       u = { s with stg.doors := u.stg.doors, stg.turn := u.stg.turn } ∧
       (∀ d, (¬byRun d → u.door d = s.door d) ∧
         ∀ c, (s.door d).cmd = some c → mine c.owner →
           let both := s.limit d .closed = true ∧ s.limit d .opened = true
           u.door d = { s.door d with
             state := if both then .unknown else if c.driving then .stopped else (s.door d).state
             cmd := none, travelStart := none }) ∧
       ((∀ c, s.stg.turn.cmd = some c → ¬mine c.owner) → u.stg.turn = s.stg.turn) ∧
       ∀ c, s.stg.turn.cmd = some c → mine c.owner → u.stg.turn = { s.stg.turn with
         state := if c.driving then .stopped else s.stg.turn.state, cmd := none, stepping := none })) ∧
  (∀ (l : Lane) (src : HoldSource) (r : Run) (s : State), s.run l = some r →
     let held : Run := match src with
       | .host => { r with heldHost := true }
       | .group g => { r with heldGroups := r.heldGroups ||| (1#4 <<< g.val) }
     let u : State := s.setLane l { s.lane l with run := some held }
     let owned (o : Owner) : Option Nat := match o with | .run i => some i | .host => none
     let back := s.bell.strikes.filterMap fun k =>
       match k.origin with | .lane l' i => if l' = l then some i else none | .host => none
     let v : State := s.setLane l { s.lane l with run := some { held with
       cues := back.foldl (fun cs i => cs.modify i fun c => { c with issued := false }) r.cues
       resumeEnding := decide (r.state = .ending), state := .holding
       holdStart := some { shown := s.tb.showTime, elapsed := s.tb.elapsed }
       stoppedDoors := Vector.ofFn fun d => if l = .M then (s.door d).cmd.bind fun c => owned c.owner else none
       stoppedTurn := if l = .M then s.stg.turn.cmd.bind fun c => owned c.owner else none } }
     let w := removeStrikes (fun k => k.origin.lane? == some l) v
     let z := if l = .M then stopDrives (holdFigs w) else w
     (r.state = .aborting → holdLane l src s = s) ∧
     (r.state = .loading ∨ r.state = .holding → holdLane l src s = u) ∧
     (r.state = .running ∨ r.state = .ending → holdLane l src s = { z with
       inm.units := z.inm.units.map fun c =>
         if c.ofLane l then { c with window := c.window.map fun w => { w with suspended := true } } else c
       seq.lamps := Vector.ofFn fun ch =>
         let p := z.seq.lamps.get ch
         if p.setter = .lane l then { p with frozen := true } else p })) ∧
  (∀ (f : Fig) (m : Move) (s : State), (s.fig f).move = some m →
     let record (t : State) : State := t.mapFig f fun r => { r with
       state := .halted, move := none
       interrupted := some
         { cue := m.owner.cue, target := m.target, remaining := remaining s.tb.elapsed m, windowOpen := m.windowOpen,
           grace := m.grace, tolerance := m.tolerance, tag := m.tag } }
     (m.started = none → remaining s.tb.elapsed m = m.duration) ∧
     (∀ w, m.started = some w → remaining s.tb.elapsed m = max 200 (m.duration - (s.tb.elapsed - w.goElapsed))) ∧
     ((s.fig f).state = .moving → holdFig f s = release m.ref f ((haltFig true f s).mapFig f fun r => { r with
       state := .halted, move := none
       interrupted := some (interruptedOf m.owner.cue (haltFig true f s).tb.elapsed m) })) ∧
     ((s.fig f).inStaging = true →
       let u := dropClaim (.figures m.ref) (record { s with
         flc.queue := s.flc.queue.filter fun t => !(t.owner.isStage f || t.owner == .go m.tag) })
       holdFig f s = if goFlying m.tag s then haltFig true f u
         else enqueue .clear (u.figAddress f) [] (.holdClear f false) u)) ∧
  (∀ (l : Lane) (host : Bool) (groups : BitVec 4) (r : Run) (s : State), s.run l = some r →
     let left : Run := { r with heldHost := r.heldHost && !host, heldGroups := r.heldGroups &&& ~~~groups }
     let u : State := s.setLane l { s.lane l with run := some left }
     (r.state = .holding → left.heldHost = false → left.heldGroups = 0 →
       liftHold l host groups s = resumeRun l u) ∧
     (r.state ≠ .holding ∨ left.heldHost = true ∨ left.heldGroups ≠ 0 → liftHold l host groups s = u)) ∧
  (∀ (l : Lane) (r : Run) (h : Stamp) (s : State), s.run l = some r → r.holdStart = some h →
     let len := s.tb.elapsed - h.elapsed
     let gone : Run := { r with
       accHold := r.accHold + len, holdStart := none, heldHost := false, heldGroups := 0
       state := if r.resumeEnding then .ending else .running }
     let now (t : State) : Run := (t.run l).getD gone
     let u : State := s.setLane l { s.lane l with run := some gone }
     let v := if l = .M then (recordedCues u).foldl (fun t c => resumeCue (now t) t c) u else u
     let w := if l = .M then (List.finRange 2).foldl (fun t d => resumeDoor (now t) d t) v else v
     let x := if l = .M then resumeTurn (now w) w else w
     let y := x.mapRun l fun r => { r with stoppedDoors := Vector.replicate 2 none, stoppedTurn := none }
     resumeRun l s = { y with
       inm.units := y.inm.units.map fun c => if c.ofLane l then { c with
         window := c.window.map fun w => { opens := w.opens + len, closes := w.closes + len, suspended := false } }
         else c
       seq.lamps := Vector.ofFn fun ch =>
         let p := y.seq.lamps.get ch
         if p.setter = .lane l then { p with frozen := false } else p }) ∧
  (∀ (r : Run) (d : Door) (cue : Nat) (s : State),
     (∀ i g, r.stoppedDoors.get d = some i → (s.door d).goal = some g →
       resumeDoor r d s = if r.skipDoors.getLsbD d.val then s else takeDoor d g (.run i) s) ∧
     (r.stoppedDoors.get d = none → resumeDoor r d s = s) ∧
     (∀ i g, r.stoppedTurn = some i → s.stg.turn.goal = some g →
       resumeTurn r s = if r.skipTurn then s else takeTurn g (.run i) s) ∧
     (r.stoppedTurn = none → resumeTurn r s = s) ∧
     (∀ slot d w g tol ps, r.cues[cue]? = some slot → slot.cue.kind = .move d w g tol ps →
       let recorded := recordedPairs cue (ps.map Prod.fst) s
       let left := recorded.filter fun p => !r.excluded.getLsbD p.1.val
       let u := (recorded.filter fun p => r.excluded.getLsbD p.1.val).foldl
         (fun t p => t.setFig p.1 { t.fig p.1 with interrupted := none }) s
       (∀ f i, (f, i) ∈ recorded ↔ f ∈ ps.map Prod.fst ∧ (s.fig f).interrupted = some i ∧ i.cue = cue) ∧
       (left = [] → resumeCue r s cue = u) ∧
       (∀ f i rest, left = (f, i) :: rest → resumeCue r s cue =
         takeMove cue i.remaining i.windowOpen i.grace i.tolerance (s.tb.showTime + 300)
           (left.map fun p => (p.1, p.2.target)) true u)))

/-- SHOW-STATUS, QUEUE-GET and QUEUE-FLUSH, BAD_VALUE for a lane code out of range (R84). -/
def Obligations.ShowStatusAndQueues : Prop :=
  ∀ s : State, 6 ≤ s.hlc.step →
    let view (l : Lane) : LaneView :=
      { run := s.run l, claims := captureClaims l s, last := (s.lane l).last,
        successor := (s.lane l).successor.isSome }
    let age (q : ShowReq) : ReqView := { request := q, age := max 0 (s.tb.showTime - q.fireTime) }
    let count (l : Lane) : Nat := (s.lane l).queue.length + (if (s.lane l).successor.isSome then 1 else 0)
    let emptyM (s : State) : State := { s with seq.laneM.successor := none, seq.laneM.queue := [] }
    let emptyC (s : State) : State := { s with seq.laneC.successor := none, seq.laneC.queue := [] }
    exec .showStatus s =
      .next (reply 0x34#8 .ok (.showStatus (view .M) (view .C) s.restraint s.seq.lamps) s) ∧
    exec .queueGet s = .next (reply 0x35#8 .ok
      (.queues (s.seq.laneM.successor.map age) (s.seq.laneM.queue.map age) (s.seq.laneC.successor.map age)
        (s.seq.laneC.queue.map age)) s) ∧
    exec (.queueFlush (.val .M)) s = .next (reply 0x36#8 .ok (.flushed (some (count .M)) none) (emptyM s)) ∧
    exec (.queueFlush (.val .C)) s = .next (reply 0x36#8 .ok (.flushed none (some (count .C))) (emptyC s)) ∧
    exec (.queueFlush (.val .both)) s =
      .next (reply 0x36#8 .ok (.flushed (some (count .M)) (some (count .C))) (emptyC (emptyM s))) ∧
    ∀ code, exec (.queueFlush (.other code)) s = .next (reply 0x36#8 .badValue .none s)

/-- LAMP-SET (R85, R80): the channel takes its target, its fade length and its setter; without a fade its level is the
target at once. A fade in progress and not frozen goes on by a millisecond, its level truncated towards the start
level, and at its end the level equals the target (R80). A channel is driven with duty level / 255. -/
def Obligations.LampsFade : Prop :=
  (∀ (channel level fade : Nat) (s : State), 6 ≤ s.hlc.step →
    (8 ≤ channel ∨ 255 < level ∨ 10000 < fade →
      exec (.lampSet channel level fade) s = .next (reply 0x37#8 .badValue .none s)) ∧
    (∀ (ch : Lamp) (v : Byte), channel = ch.val → level = v.toNat → fade ≤ 10000 →
      let r := s.seq.lamps.get ch
      exec (.lampSet channel level fade) s = .next (reply 0x37#8 .ok .none { s with
        seq.lamps := s.seq.lamps.set ch
          { level := if fade = 0 then v else r.level, target := v, remaining := fade, startLevel := r.level,
            length := fade, fading := fade != 0, frozen := false, setter := .host } }))) ∧
  (∀ (ch : Lamp) (s : State),
    let r := s.seq.lamps.get ch
    r.frozen = false → r.remaining = 0 → r.fading = true →
      exec (.lampFadeEnd ch) s = .next { s with
        seq.lamps := s.seq.lamps.set ch { r with level := r.target, fading := false } }) ∧
  (∀ r : LampRec,
    (r.frozen = true ∨ r.remaining = 0 → r.tick = r) ∧
    (r.frozen = false → 0 < r.remaining → 0 < r.length → r.remaining ≤ r.length →
      let a : Int := r.startLevel.toNat
      let b : Int := r.target.toNat
      r.tick = { r with
        remaining := r.remaining - 1
        level := BitVec.ofInt 8 (a + ((b - a) * ((r.length : Int) - (r.remaining - 1 : Nat))).tdiv r.length) }) ∧
    r.duty * 255 = r.level.toNat)

/-- The cues (R68, R69, R70): the lane's next cue is marked issued and does what its kind does, a DAMP damping its
bells (R92); END issues in ascending index each cue not yet issued, unless an abort is asked for, and makes the run
ENDING. A cue's issue instant is its due time, which is the run's start plus its offset and the accumulated hold: 100
ms before it for a STRIKE, 300 ms before it for a MOVE, and the opening of its window for a MARK; a run issues while it
is RUNNING or ENDING, the cue of the earliest instant first (of cues past different instants the model's choice, log
entry 51), and of cues of one instant the lowest index. -/
def Obligations.CuesAreIssued : Prop :=
  (∀ (l : Lane) (i : Nat) (r : Run) (c : Cue) (s : State),
    s.run l = some r → nextCue l s = some i → r.cues[i]? = some { cue := c, issued := false } →
    let does (row : Instr) := exec row s = .next (settle (performCue l i r c (s.mapRun l (markIssued i))))
    (∀ b v, c.kind = .strike b v → does (.strikeCue l i)) ∧ (∀ bs, c.kind = .damp bs → does (.dampCue l i)) ∧
    (∀ d w g tol ps, c.kind = .move d w g tol ps → does (.moveCue l i)) ∧
    (∀ d g, c.kind = .door d g → does (.doorCue l i)) ∧ (∀ p dir, c.kind = .turn p dir → does (.turnCue l i)) ∧
    (∀ input e (x h : Nat), c.kind = .mark input e x h → does (.markCue l i)) ∧
    (∀ ch level fade, c.kind = .lamp ch level fade → does (.lampCue l i)) ∧
    (c.kind = .finish → exec (.endCue l) s = .next (settle
      (((List.range r.cues.length).foldl (fun s j => issueCue l j s) s).mapRun l
        fun r => if r.abortAsked then r else { r with state := .ending })))) ∧
  (∀ (l : Lane) (i : Nat) (s : State),
    (∀ r, markIssued i r = { r with cues := r.cues.modify i fun c => { c with issued := true } }) ∧
    (s.run l = none → issueCue l i s = s) ∧
    (∀ r, s.run l = some r →
      (r.abortAsked = true ∨ (∀ c, r.cues[i]? = some c → c.issued = true) → issueCue l i s = s) ∧
      (∀ c, r.abortAsked = false → r.cues[i]? = some { cue := c, issued := false } →
        issueCue l i s = performCue l i r c (s.mapRun l (markIssued i))))) ∧
  (∀ (l : Lane) (i : Nat) (r : Run) (c : Cue) (t : Int) (s : State), r.start = some t →
    let due := t + c.offset + r.accHold
    let does (u : State) := performCue l i r c s = u
    (∀ b v, c.kind = .strike b v → does (offerStrike b v due (.lane l i) s)) ∧
    (∀ bs, c.kind = .damp bs → does (dampBells bs s)) ∧
    (∀ d w g tol ps, c.kind = .move d w g tol ps →
      let left := ps.filter fun p => !r.excluded.getLsbD p.1.val
      does (if left = [] then s else takeMove i d w g tol due left false s)) ∧
    (∀ d g, c.kind = .door d g → does (if r.skipDoors.getLsbD d.val then s else takeDoor d g (.run i) s)) ∧
    (∀ p dir, c.kind = .turn p dir → does (if r.skipTurn then s else takeTurn (.to p dir) (.run i) s)) ∧
    (∀ input e (x h : Nat), c.kind = .mark input e x h →
      does (claimUnit l i input e (t + x + r.accHold - h) (t + x + r.accHold + h) s)) ∧
    (∀ ch level fade, c.kind = .lamp ch level fade → does (mapLamp ch (LampRec.put level fade (.lane l)) s)) ∧
    (c.kind = .finish → does s)) ∧
  (∀ (r : Run) (c : Cue),
    (r.start = none → r.issueAt c = none) ∧
    (∀ t, r.start = some t →
      let due := t + c.offset + r.accHold
      (∀ b v, c.kind = .strike b v → r.issueAt c = some (due - 100)) ∧
      (∀ d w g tol ps, c.kind = .move d w g tol ps → r.issueAt c = some (due - 300)) ∧
      (∀ input e (x h : Nat), c.kind = .mark input e x h → r.issueAt c = some (t + x + r.accHold - h)) ∧
      ((∃ bs, c.kind = .damp bs) ∨ (∃ d g, c.kind = .door d g) ∨ (∃ p dir, c.kind = .turn p dir) ∨
        (∃ ch level fade, c.kind = .lamp ch level fade) ∨ c.kind = .finish → r.issueAt c = some due))) ∧
  (∀ (l : Lane) (r : Run) (s : State), s.run l = some r →
    let due (i : Nat) (t : Int) :=
      ∃ c, r.cues[i]? = some { cue := c, issued := false } ∧ r.issueAt c = some t ∧ t ≤ s.tb.showTime
    (r.abortAsked = true ∨ (r.state ≠ .running ∧ r.state ≠ .ending) → nextCue l s = none) ∧
    (r.abortAsked = false → r.state = .running ∨ r.state = .ending →
      ∀ i, nextCue l s = some i ↔ ∃ t, due i t ∧ ∀ j u, due j u → t < u ∨ (t = u ∧ i ≤ j)))

/-! ## The bells and the drive budget -/

/-- A strike is admitted or refused by the checks of R88 in their order; a refusal raises its counter and changes no
other state. A bell in FAULT whose mute flag is set too is refused as FAULT (the model's choice, log entry 62). -/
def Obligations.StrikesAreAdmitted : Prop :=
  ∀ (b : Bell) (velocity : Nat) (due : Int) (o : StrikeOrigin) (s : State),
    (s.voicingOf b = none → strikeRefusal b due s = some .unvoiced) ∧
    (∀ v, s.voicingOf b = some v →
      let near := (∃ t, (s.bellRec b).nextPermitted = some t ∧ due < t) ∨
        ∃ k ∈ s.bell.strikes, k.bell = b ∧ k.due - due < v.recovery ∧ due - k.due < v.recovery
      ((s.bellRec b).state = .fault → strikeRefusal b due s = some .fault) ∧
      ((s.bellRec b).state ≠ .fault → s.muted b = true → strikeRefusal b due s = some .muted) ∧
      ((s.bellRec b).state ≠ .fault → s.muted b = false → near → strikeRefusal b due s = some .tooSoon) ∧
      ((s.bellRec b).state ≠ .fault → s.muted b = false → ¬near → 16 ≤ s.bell.strikes.length →
        strikeRefusal b due s = some .full) ∧
      ((s.bellRec b).state ≠ .fault → s.muted b = false → ¬near → s.bell.strikes.length < 16 →
        strikeRefusal b due s = none ∧
        ∃ before after, s.bell.strikes = before ++ after ∧ (∀ k ∈ before, k.due ≤ due) ∧
          (∀ k, after.head? = some k → due < k.due) ∧
          offerStrike b velocity due o s = { s with
            bell.strikes := before ++
              { bell := b, velocity := velocity, due := due, origin := o, claiming := false, lifted := false,
                deadline := if due < s.tb.showTime then some (due + s.hlc.live.lateness) else none } :: after })) ∧
    (∀ r, strikeRefusal b due s = some r →
      let c := (s.bellRec b).counters
      (r = .full → offerStrike b velocity due o s = { s with bell.queueFull := satInc s.bell.queueFull }) ∧
      (r = .tooSoon → offerStrike b velocity due o s =
        s.setBell b { s.bellRec b with counters := { c with tooSoon := satInc c.tooSoon } }) ∧
      (r ≠ .full → r ≠ .tooSoon → offerStrike b velocity due o s =
        s.setBell b { s.bellRec b with counters := { c with refused := satInc c.refused } }))

/-- BELL-STRIKE (R103): the strike is due 100 ms after its arrival; the reply tells what became of it, and in every
case of refusal a counter of R88 rises. -/
def Obligations.BellStrikeStrikes : Prop :=
  ∀ (bell velocity : Nat) (s : State), 3 ≤ s.hlc.step →
    (20 ≤ bell ∨ velocity = 0 ∨ 8 < velocity →
      exec (.bellStrike bell velocity) s = .next (reply 0x40#8 .badValue .none s)) ∧
    (∀ b : Bell, bell = b.val → 1 ≤ velocity → velocity ≤ 8 →
      let due := s.tb.showTime + 100
      let u := offerStrike b velocity due .host s
      (strikeRefusal b due s = none →
        exec (.bellStrike bell velocity) s = .next (reply 0x40#8 .ok (.strike due) u)) ∧
      (strikeRefusal b due s = some .full →
        u = { s with bell.queueFull := satInc s.bell.queueFull } ∧
        exec (.bellStrike bell velocity) s = .next (reply 0x40#8 .full .none u)) ∧
      (∀ k, strikeRefusal b due s = some k → k ≠ .full →
        exec (.bellStrike bell velocity) s = .next (reply 0x40#8 .notNow (.strikeRefused k) u)))

/-- BELL-DAMP (R92), BELL-MUTE (R100), BELL-CLEAR (R101) and BELL-STATUS (R104); a list of bells names the set of its
members; a DAMP of a set makes each RINGING bell of it that has a damper QUIET, its damper down, and affects no other
bell and nothing else. A mute set (R100) takes the bell's queued strikes off the queue, and makes a QUIET, LIFTED or
RINGING bell with no stroke under way MUTED with its damper down; a mute cleared makes a MUTED bell QUIET. -/
def Obligations.BellRequestsAndDamping : Prop :=
  (∀ s : State, 3 ≤ s.hlc.step →
     (∀ bells : List Nat,
       (bells = [] ∨ (∃ b ∈ bells, 20 ≤ b) → exec (.bellDamp bells) s = .next (reply 0x41#8 .badValue .none s)) ∧
       (∀ w, bellSet bells = some w → exec (.bellDamp bells) s = .next (reply 0x41#8 .ok .none (dampBells w s))) ∧
       (bells ≠ [] → (∀ b ∈ bells, b < 20) → ∃ w, bellSet bells = some w) ∧
       (∀ w, bellSet bells = some w ↔ bells ≠ [] ∧ (∀ b ∈ bells, b < 20) ∧
         ∀ b : Bell, w.getLsbD b.val = true ↔ b.val ∈ bells)) ∧
     (∀ (bell : Nat) (on : Bool),
       (20 ≤ bell → exec (.bellMute bell on) s = .next (reply 0x42#8 .badValue .none s)) ∧
       (∀ b : Bell, bell = b.val →
         exec (.bellMute bell on) s = .next (settle (reply 0x42#8 .ok .none (setMute b on s))))) ∧
     (∀ (bell : Nat) (counters : Bool),
       (20 ≤ bell → exec (.bellClear bell counters) s = .next (reply 0x43#8 .badValue .none s)) ∧
       (∀ b : Bell, bell = b.val →
         let r := s.bellRec b
         let c := if counters then BellCounters.zero else r.counters
         (r.state = .fault → exec (.bellClear bell counters) s = .next (reply 0x43#8 .ok .none
           (s.setBell b { r with
             state := if s.muted b then .muted else .quiet, reason := none, missCount := 0, counters := c }))) ∧
         (r.state ≠ .fault → counters = true → exec (.bellClear bell counters) s =
           .next (reply 0x43#8 .ok .none (s.setBell b { r with counters := c }))) ∧
         (r.state ≠ .fault → counters = false →
           exec (.bellClear bell counters) s = .next (reply 0x43#8 .notNow .none s)))) ∧
     exec .bellStatus s = .next (reply 0x44#8 .ok
       (.bellStatus s.bell.voicing.isSome s.bell.queueFull s.hlc.live.bellMutes s.bell.bells s.bell.strikes) s)) ∧
  (∀ (b : Bell) (s : State),
     ((s.bellRec b).state = .ringing → s.hasDamper b = true →
       dampBell b s = s.setBell b { s.bellRec b with damperUp := false, state := .quiet }) ∧
     ((s.bellRec b).state ≠ .ringing ∨ s.hasDamper b = false → dampBell b s = s)) ∧
  (∀ (w : BitVec 20) (s : State), dampBells w s = { s with
     bell.bells := Vector.ofFn fun b =>
       if w.getLsbD b.val = true ∧ (s.bellRec b).state = .ringing ∧ s.hasDamper b = true then
         { s.bellRec b with damperUp := false, state := .quiet }
       else s.bellRec b }) ∧
  (∀ (b : Bell) (s : State), s.hasDamper b = true ↔ ∃ v, s.voicingOf b = some v ∧ v.ring ≠ 0) ∧
  (∀ (b : Bell) (s : State),
     let u := removeStrikes (fun k => k.bell == b)
       { s with hlc.live.bellMutes := s.hlc.live.bellMutes ||| (1#20 <<< b.val) }
     let rests := (u.bellRec b).state = .quiet ∨ (u.bellRec b).state = .lifted ∨ (u.bellRec b).state = .ringing
     let still := ∀ k ∈ (u.bellRec b).strokes, k.pulseOn = false ∧ k.echoOpen = false
     let c : State := { s with hlc.live.bellMutes := s.hlc.live.bellMutes &&& ~~~(1#20 <<< b.val) }
     (rests ∧ still →
       setMute b true s = u.setBell b { u.bellRec b with damperUp := false, state := .muted }) ∧
     (¬(rests ∧ still) → setMute b true s = u) ∧
     ((s.bellRec b).state = .muted → setMute b false s = c.setBell b { s.bellRec b with state := .quiet }) ∧
     ((s.bellRec b).state ≠ .muted → setMute b false s = c.setBell b (s.bellRec b)))

/-- The strikes' own events, each for the first strike of the bell in the queue whose instant has come: the damper
lifts a lead before the due time (R90), the lead being that of the voicing in force, so that a commit which puts the
instant into the past has the lift made at once (the model's choice, log entry 87); the strike claims its bell's units
at its due time, not before its recovery after the bell's last strike, and not while another strike of the bell is
claiming (R93; log entry 49); a strike at its deadline is dropped with STRIKE_LATE (R95). A claim fixes the deadline
that a strike has not yet been given, and the end of the instant of the due time fixes it for a strike that has not
claimed (R95). A strike claiming more than the budget in force is dropped in the same way (R107). Strikes removed have
their claims withdrawn, in one grant pass, and their bells' dampers tested (R99). -/
def Obligations.StrikeEvents : Prop :=
  (∀ (b : Bell) (k : Strike) (s : State),
    (strikeToLift b s = some k →
      exec (.damperLift b) s = .next
        ({ s with bell.strikes := s.bell.strikes.map fun j => if j = k then { j with lifted := true } else j }.mapBell
          k.bell fun r => { r with
            struckSinceLift := r.damperUp && r.struckSinceLift
            damperUp := true
            state := if r.state = BellState.quiet ∨ r.state = BellState.ringing then .lifted else r.state })) ∧
    dropLate k s = removeStrikes (· == k) (raise (.strikeLate k.bell k.origin k.due)
      (s.mapBell k.bell fun r => { r with
        counters := { r.counters with lateDrops := satInc r.counters.lateDrops } })) ∧
    (∀ v, strikeToClaim b s = some k → s.voicingOf k.bell = some v →
      (v.units ≤ s.hlc.live.budget →
        exec (.strikeClaim b) s =
          .next (settle (makeClaim (.strike k.bell k.due k.origin) v.units (markClaiming k s)))) ∧
      (v.units ≠ 0 → s.hlc.live.budget < v.units →
        exec (.strikeClaim b) s = .next (settle (dropLate k s)))) ∧
    (strikeToDrop b s = some k →
      exec (.strikeDeadline b) s = .next (settle (removeStrikes (· == k) (raise (.strikeLate k.bell k.origin k.due)
        (s.mapBell k.bell fun r => { r with
          counters := { r.counters with lateDrops := satInc r.counters.lateDrops } })))))) ∧
  (∀ (b : Bell) (k : Strike) (s : State),
    let lifts (j : Strike) := j.bell = b ∧ j.lifted = false ∧
      ∃ v, s.voicingOf b = some v ∧ v.ring ≠ 0 ∧ j.due - v.lead ≤ s.tb.showTime
    let claims (j : Strike) := j.bell = b ∧ j.claiming = false ∧ j.due ≤ s.tb.showTime ∧
      (∀ i ∈ s.bell.strikes, i.bell = b → i.claiming = false) ∧
      ∃ v, s.voicingOf b = some v ∧ ∀ l, (s.bellRec b).lastStrike = some l → l.elapsed + v.recovery ≤ s.tb.elapsed
    let drops (j : Strike) := j.bell = b ∧ ∃ t, j.deadline = some t ∧ t ≤ s.tb.showTime
    let first (p : Strike → Prop) :=
      ∃ before after, s.bell.strikes = before ++ k :: after ∧ p k ∧ ∀ j ∈ before, ¬p j
    (strikeToLift b s = some k ↔ first lifts) ∧ (strikeToClaim b s = some k ↔ first claims) ∧
    (strikeToDrop b s = some k ↔ first drops)) ∧
  (∀ (k : Strike) (s : State),
    markClaiming k s = { s with bell.strikes := s.bell.strikes.map fun j => if j = k then { j with
      claiming := true, deadline := some (k.deadline.getD (k.due + s.hlc.live.lateness)) } else j } ∧
    fixDeadlines s = { s with bell.strikes := s.bell.strikes.map fun j =>
      if j.deadline = none ∧ j.due ≤ s.tb.showTime then { j with deadline := some (j.due + s.hlc.live.lateness) }
      else j }) ∧
  (∀ (p : Strike → Bool) (s : State),
    let keys := (s.bell.strikes.filter p).filterMap fun k => if k.claiming then some (ClaimKey.strike k.bell k.due) else none
    let u : State := { s with bell.strikes := s.bell.strikes.filter fun k => !p k }
    let v := if ∃ c ∈ s.dbu.claims, c.kind.key ∈ keys then
      grantPass { u with dbu.claims := s.dbu.claims.filter fun c => decide (c.kind.key ∉ keys) } else u
    removeStrikes p s = (s.bell.strikes.filter p).foldl (fun t k => afterRemoval k.bell t) v)

/-- The strokes' own events. The end of a pulse (R94): the hammer goes off, a STRIKING bell is RINGING, its units go
back, and its damper is tested. The close of an echo window (R96): a pulse no echo of which was seen is a miss, and the
third in a row FAULT, which cuts a pulse short, with its echo window closed at the cut (log entry 48), puts the damper
down, discards the bell's strikes, gives its units back, which its own strikes can no longer be granted (log entry 94),
and raises BELL_FAULT. The stuck test (R97): an echo input still active is FAULT STUCK. When the bell's strokes are
done a mute set meanwhile takes effect (R100), and a RINGING bell without a damper is QUIET (R91). The damper's fall
(R91): hammer off, no strike of the bell queued, and the ring time passed or the bell not struck since the lift; a
queued strike once lifted is past its lift instant, whatever a VOICING commit makes of its lead (the model's choice,
log entry 87). A bell to which a VOICING commit gives or takes a damper meets these rules as it stands (the model's
choice, log entry 78). An echo input (R96, R98): one that goes active in an open window clears the miss count; one that
goes active in none is spurious and changes one counter; one in a window that has seen an echo, like a fall, changes
only the input. That an edge given as a row sets the filtered level and the samples with it is log entry 31. -/
def Obligations.StrokesAndEchoes : Prop :=
  (∀ (b : Bell) (s : State),
     let r := s.bellRec b
     let tidy (t : State) : State := t.mapBell b fun r => { r with
       strokes := r.strokes.filter fun k => k.pulseOn || k.echoOpen || k.stuckDue }
     ((∃ k ∈ r.strokes, k.pulseOn = true ∧ k.pulseEnd ≤ s.tb.elapsed) →
       let u := s.setBell b { r with
         state := if r.state = .striking then .ringing else r.state
         strokes := r.strokes.map fun k => if k.pulseOn = true ∧ k.pulseEnd ≤ s.tb.elapsed then { k with pulseOn := false } else k }
       exec (.pulseEnd b) s = .next (settle (tidy (whenDone b (testDamper b (releasePulse b u)))))) ∧
     ((∃ k ∈ r.strokes, k.echoOpen = true ∧ k.echoClose ≤ s.tb.elapsed) →
       let closes (k : Stroke) := k.echoOpen = true ∧ k.echoClose ≤ s.tb.elapsed
       let u := s.setBell b { r with
         strokes := r.strokes.map fun k => if k.echoOpen = true ∧ k.echoClose ≤ s.tb.elapsed then { k with echoOpen := false } else k }
       let missed := u.mapBell b fun r => { r with
         missCount := min 3 (r.missCount + 1)
         counters := { r.counters with misses := satInc r.counters.misses } }
       ((∀ k ∈ r.strokes, closes k → k.seen = true) →
         exec (.echoWindowClose b) s = .next (settle (tidy (whenDone b u)))) ∧
       ((∃ k ∈ r.strokes, closes k ∧ k.seen = false) → r.missCount ≠ 2 →
         exec (.echoWindowClose b) s = .next (settle (tidy (whenDone b missed)))) ∧
       ((∃ k ∈ r.strokes, closes k ∧ k.seen = false) → r.missCount = 2 →
         exec (.echoWindowClose b) s = .next (settle (tidy (whenDone b (enterFault b .miss missed)))))) ∧
     ((∃ k ∈ r.strokes, k.stuckDue = true ∧ k.stuckAt ≤ s.tb.elapsed) →
       let u := s.setBell b { r with
         strokes := r.strokes.map fun k => if k.stuckDue = true ∧ k.stuckAt ≤ s.tb.elapsed then { k with stuckDue := false } else k }
       exec (.stuckEchoTest b) s = .next (settle (tidy (whenDone b
         (if s.inm.echo.level.getLsbD b.val then enterFault b .stuck u else u))))) ∧
     (∀ why, enterFault b why s =
       let u := s.setBell b { r with
         state := .fault, reason := some why, damperUp := false
         strokes := r.strokes.map fun k => if k.pulseOn then { k with pulseOn := false, echoOpen := false } else k }
       raise (.bellFault b why) (releasePulse b (removeStrikes (fun k => k.bell == b) u))) ∧
     (let mine (c : Claim) := c.granted = true ∧ ∃ due o, c.kind = .strike b due o
      ((∀ c ∈ s.dbu.claims, ¬mine c) → releasePulse b s = s) ∧
      ((∃ c ∈ s.dbu.claims, mine c) → ∃ cs, releasePulse b s = grantPass { s with dbu.claims := cs } ∧
        cs.Sublist s.dbu.claims ∧ ∀ c ∈ s.dbu.claims, c ∈ cs ↔ ¬mine c)) ∧
     (let busy := ∃ k ∈ r.strokes, k.pulseOn = true ∨ k.echoOpen = true
      (busy → whenDone b s = s) ∧
      (¬busy → r.state ≠ .fault → s.muted b = true →
        whenDone b s = s.setBell b { r with damperUp := false, state := .muted }) ∧
      (¬busy → r.state = .fault ∨ s.muted b = false →
        (r.state = .ringing → s.hasDamper b = false → r.damperUp = false →
          whenDone b s = s.setBell b { r with state := .quiet }) ∧
        (r.state ≠ .ringing ∨ s.hasDamper b = true ∨ r.damperUp = true → whenDone b s = s))) ∧
     (let falls := r.damperUp = true ∧ (∀ k ∈ r.strokes, k.pulseOn = false) ∧ (∀ k ∈ s.bell.strikes, k.bell ≠ b) ∧
        (r.struckSinceLift = true → ∀ v l, s.voicingOf b = some v → r.lastStrike = some l →
          l.elapsed + v.ring ≤ s.tb.elapsed)
      (falls → testDamper b s = s.setBell b { r with
        damperUp := false, state := if r.state = .lifted ∨ r.state = .ringing then .quiet else r.state }) ∧
      (¬falls → testDamper b s = s) ∧ exec (.damperDrop b) s = .next (testDamper b s) ∧
      (falls → afterRemoval b s = testDamper b s) ∧
      (¬falls → r.state = .lifted → (∀ k ∈ s.bell.strikes, k.bell = b → k.lifted = false) →
        afterRemoval b s = s.setBell b { r with state := .ringing }) ∧
      (¬falls → r.state ≠ .lifted ∨ (∃ k ∈ s.bell.strikes, k.bell = b ∧ k.lifted = true) → afterRemoval b s = s))) ∧
  (∀ (b : Bell) (s : State), s.inm.fresh = false →
     let u (v : Bool) : State := { s with inm.echo := s.inm.echo.putBit b.val v }
     exec (.echoEdge b false) s = .next (u false) ∧
     (s.inm.echo.level.getLsbD b.val = false → (∀ k ∈ (s.bellRec b).strokes, k.echoOpen = false) →
       exec (.echoEdge b true) s = .next ((u true).mapBell b fun r => { r with
         counters := { r.counters with spurious := satInc r.counters.spurious } })) ∧
     (s.inm.echo.level.getLsbD b.val = false →
       (∃ k ∈ (s.bellRec b).strokes, k.echoOpen = true ∧ k.seen = false) →
       exec (.echoEdge b true) s = .next ((u true).mapBell b fun r => { r with
         missCount := 0
         strokes := r.strokes.map fun k => if k.echoOpen then { k with seen := true } else k })) ∧
     (s.inm.echo.level.getLsbD b.val = false → (∃ k ∈ (s.bellRec b).strokes, k.echoOpen = true) →
       (∀ k ∈ (s.bellRec b).strokes, k.echoOpen = true → k.seen = true) → exec (.echoEdge b true) s = .next (u true)) ∧
     (s.inm.echo.level.getLsbD b.val = true → exec (.echoEdge b true) s = .next (u true)))

/-- A granted strike (R94): it leaves the queue, its hammer is energised for the width of its velocity, its bell is
STRIKING with its last strike and next-permitted time set, struck since its damper was last lifted (R91), the echo
window opens (R96), and the stuck test of the pulse is due a recovery after its start, on the elapsed count (R97). -/
def Obligations.GrantedStrikeStrikes : Prop :=
  ∀ (b : Bell) (due : Int) (k : Strike) (v : Voicing) (s : State),
    s.bell.strikes.find? (Strike.isFor b due) = some k → s.voicingOf b = some v →
    let t := startPulse b due s
    let r := s.bellRec b
    t.bell.strikes = s.bell.strikes.erase k ∧
    t = { s with bell.strikes := t.bell.strikes, bell.bells := s.bell.bells.set b (t.bellRec b) } ∧
    (t.bellRec b).state = .striking ∧ (t.bellRec b).struckSinceLift = true ∧ (t.bellRec b).damperUp = (r.damperUp || v.ring != 0) ∧
    (t.bellRec b).lastStrike = some { shown := s.tb.showTime, elapsed := s.tb.elapsed } ∧
    (t.bellRec b).nextPermitted = some (s.tb.showTime + v.recovery) ∧
    (t.bellRec b).counters = { r.counters with strikes := satInc r.counters.strikes } ∧
    ∃ stroke, (t.bellRec b).strokes = r.strokes ++ [stroke] ∧ stroke.pulseOn = true ∧
      stroke.pulseEnd = s.tb.elapsed + v.pulse.toList.getD (k.velocity - 1) 0 ∧ stroke.echoOpen = true ∧
      stroke.echoClose = s.tb.elapsed + v.window ∧ stroke.seen = false ∧
      stroke.stuckDue = true ∧ stroke.stuckAt = s.tb.elapsed + v.recovery ∧
      (∀ l i, k.origin = .lane l i → stroke.lane = some l) ∧ (k.origin = .host → stroke.lane = none)

/-- BUDGET-GET (R112): the budget in force, the held sum, each GRANTED claim, in the order of the list (the model's
choice, log entry 88), and each WAITING claim with the time it has waited, in the order in which a grant pass would
take them: the strike claims by due time, those of equal due times by arrival, then the move claims by arrival. It
changes no state but the reply it makes. -/
def Obligations.BudgetGetReplies : Prop :=
  (∀ s : State, 6 ≤ s.hlc.step →
    exec .budgetGet s = .next (reply 0x48#8 .ok
      (.budget s.hlc.live.budget s.held (s.dbu.claims.filter (·.granted))
        ((waitingOrder s.dbu.claims).map fun c => (c, s.tb.elapsed - c.arrival))) s)) ∧
  (∀ c : Claim,
    (∀ due, c.strikeDue = some due ↔ c.granted = false ∧ ∃ b o, c.kind = .strike b due o) ∧
    (c.waitingMove = true ↔ c.granted = false ∧ ∀ b due o, c.kind ≠ .strike b due o)) ∧
  (∀ cs : List Claim, ∃ strikes : List Claim,
    waitingOrder cs = strikes ++ cs.filter (·.waitingMove) ∧
    strikes.Pairwise (fun a b => ∀ x y, a.strikeDue = some x → b.strikeDue = some y → x ≤ y) ∧
    (∀ c ∈ strikes, c.strikeDue ≠ none) ∧
    ∀ due : Int, strikes.filter (fun c => decide (c.strikeDue = some due)) =
      cs.filter fun c => decide (c.strikeDue = some due))

/-- A claim at its arrival (R107): one for 0 units is taken; for more than the budget, OVER_BUDGET; a move claim while
four wait, LIST_FULL; otherwise it is taken. One that is taken goes to the end of the list with its arrival, GRANTED if
it is for 0 units, and a grant pass follows. What a pass grants next (R108): the WAITING strike claim with the earliest
due time, the first of equals, exactly when it fits; while no strike claim is WAITING, the first WAITING move claim,
exactly when it fits; and nothing otherwise. A grant makes that claim GRANTED, its units joining the held sum (R106),
and tells its claimant at that instant: a strike's pulse begins (R94), a door's or the turntable's drive has its grant
(R145, R148), and a move finds the grant among its GO's conditions (R138). A pass makes these grants one after another
until there is none to make, keeps the held sum within the budget, and adds no claim. -/
def Obligations.ClaimsAndGrants : Prop :=
  (∀ (k : ClaimKind) (units : Nat) (s : State),
     let waiting := (s.dbu.claims.filter Claim.waitingMove).length
     let isMove := ∀ b due o, k ≠ .strike b due o
     (units = 0 → claimAnswer k units s = .taken) ∧
     (units ≠ 0 → s.hlc.live.budget < units → claimAnswer k units s = .overBudget) ∧
     (units ≠ 0 → units ≤ s.hlc.live.budget → isMove → 4 ≤ waiting → claimAnswer k units s = .listFull) ∧
     (units ≠ 0 → units ≤ s.hlc.live.budget → ¬isMove ∨ waiting < 4 → claimAnswer k units s = .taken) ∧
     makeClaim k units s = grantPass { s with dbu.claims := s.dbu.claims ++
       [{ kind := k, units := units, granted := decide (units = 0), arrival := s.tb.elapsed }] }) ∧
  (∀ c : Claim,
     (∀ due, c.strikeDue = some due ↔ c.granted = false ∧ ∃ b o, c.kind = .strike b due o) ∧
     (c.waitingMove = true ↔ c.granted = false ∧ ∀ b due o, c.kind ≠ .strike b due o)) ∧
  (∀ (free : Nat) (cs : List Claim),
     let firstStrike (i : Nat) (c : Claim) := cs[i]? = some c ∧ ∃ due, c.strikeDue = some due ∧
       ∀ j x e, cs[j]? = some x → x.strikeDue = some e → due ≤ e ∧ (j < i → due < e)
     let firstMove (i : Nat) (c : Claim) := cs[i]? = some c ∧ c.waitingMove = true ∧ (∀ x ∈ cs, x.strikeDue = none) ∧
       ∀ j x, j < i → cs[j]? = some x → x.waitingMove = false
     (∀ i, nextGrant free cs = some i ↔ ∃ c, (firstStrike i c ∨ firstMove i c) ∧ c.units ≤ free) ∧
     (nextGrant free cs = none ↔ ∀ i c, firstStrike i c ∨ firstMove i c → free < c.units)) ∧
  (∀ (i : Nat) (c : Claim) (s : State), s.dbu.claims[i]? = some c →
     let u : State := { s with dbu.claims := s.dbu.claims.set i { c with granted := true } }
     (c.granted = false → u.held = s.held + c.units) ∧
     (∀ b due o, c.kind = .strike b due o → grantOne i s = startPulse b due u) ∧
     (∀ ref o shares, c.kind = .figures ref o shares → grantOne i s = u) ∧
     (∀ d g, c.kind = .door d g → grantOne i s = doorGranted d u) ∧
     (∀ g, c.kind = .turntable g → grantOne i s = turnGranted u)) ∧
  (∀ s : State,
     let t := grantPass s
     let free := s.hlc.live.budget - s.held
     s.held = ((s.dbu.claims.filter (·.granted)).map Claim.units).sum ∧
     (nextGrant free s.dbu.claims = none → t = s) ∧
     (∀ i, nextGrant free s.dbu.claims = some i → t = grantPass (grantOne i s)) ∧
     nextGrant (t.hlc.live.budget - t.held) t.dbu.claims = none ∧
     (s.held ≤ s.hlc.live.budget → t.held ≤ t.hlc.live.budget) ∧ t.dbu.claims.length ≤ s.dbu.claims.length)

/-! ## The Figure Link Controller -/

/-- LINK-STATUS, LINK-WAKE and NODE-QUERY (R130, R131). The transaction in flight is the one on the line, one that
waits for its retry, or a wake in its low period (R120, R126); where several line conditions hold, the first in the
order STUCK, WAKING, SETTLING, HELD_LOW, IN_TRANSACTION, IDLE is given (log entry 56). The sweep under way is given
with the addresses it has still to take, and whether a second one is pending behind it (R122). A transaction that
arrives is queued, refused and counted at a full queue, or not taken on a STUCK line (R124, R129); a withdrawn one
leaves the queue, its retry is not made, and in flight it is carried to its end without a report (R124). A HALT is
always admitted (R124): merged with one that is queued for its address or for all, in place of the addressed HALTs
queued, displacing the newest entry of the host class, else of the show class, else the poll entry, or one broadcast in
place of a queue of HALTs; the displaced entry's owner is told of a refusal at a full queue, with what that is to each
owner (R124, R126, R130, R137, R138, R142, R143). It ends a frame with bytes still to come at the byte being sent
(R128), rounded up to a whole millisecond (log entry 4). The reply to a request given as its own row has the tag 0 (log
entry 9). A wake requested is merged, queued, or refused, and pending again where the Sequencer or a binding asked
(R126); a transaction on a STUCK line is not taken (R129). -/
def Obligations.LinkRequests : Prop :=
  (∀ s : State, 6 ≤ s.hlc.step →
    let flight := (s.flc.flight.map fun f => f.txn.view) <|> (s.flc.retry.head?.map fun r => r.txn.view) <|>
      (if inLow s then (some { kind := .wake, address := 0, cls := .show_, attempts := 1 } : Option TxnView) else none)
    let d : ReplyData := .linkStatus (lineCondition s) flight (!s.flc.retry.isEmpty)
      ((takeOrder s.flc.queue).map Txn.view) (s.flc.sweep.map fun _ => sweepLeft s)
      (s.flc.sweep.isSome && s.flc.sweepPending) s.flc.nodes
      (watchSet s) s.flc.counters
    (∀ a, a ∈ sweepLeft s ↔ (s.node a).state = .awake ∧ ∃ l, s.flc.sweep = some l ∧ a ∈ l) ∧
    exec (.linkStatus false) s = .next (reply 0x50#8 .ok d s) ∧
    exec (.linkStatus true) s = .next (reply 0x50#8 .ok d { s with flc.counters := .zero }) ∧
    (hasWake s = true ∨ s.flc.stuck = true ∨ s.flc.queue.length < 8 →
      exec .linkWake s = .next (reply 0x51#8 .ok .none (requestWake false s))) ∧
    (hasWake s = false → s.flc.stuck = false → 8 ≤ s.flc.queue.length →
      exec .linkWake s = .next (reply 0x51#8 .busy .none { s with
        flc.counters := { s.flc.counters with full := satInc s.flc.counters.full } })) ∧
    (∀ address k, address = 0 ∨ 16 ≤ address ∨ queryKind k = none →
      exec (.nodeQuery address k) s = .next (reply 0x52#8 .badValue .none s)) ∧
    (∀ code, queryKind (.other code) = none) ∧
    (∀ (a : Fin 16) (k : LinkKind) (q : Coded QueryKind), a ≠ 0 → queryKind q = some k →
      s.flc.stuck = false → s.flc.queue.length < 8 →
      exec (.nodeQuery a.val q) s = .next { s with
        flc.queue := s.flc.queue ++
          [{ kind := k, address := a, data := [], owner := .query (replyTag 0x52#8 s), attempts := 0,
             arrival := s.tb.elapsed, disowned := false }] }) ∧
    (∀ (a : Fin 16) (k : LinkKind) (q : Coded QueryKind), a ≠ 0 → queryKind q = some k →
      s.flc.stuck = false → 8 ≤ s.flc.queue.length →
      exec (.nodeQuery a.val q) s = .next (reply 0x52#8 .busy .none { s with
        flc.counters := { s.flc.counters with full := satInc s.flc.counters.full } })) ∧
    (∀ (a : Fin 16) (k : LinkKind) (q : Coded QueryKind), a ≠ 0 → queryKind q = some k → s.flc.stuck = true →
      exec (.nodeQuery a.val q) s = .next (reply 0x52#8 .notNow (.linkError .lineStuck) s))) ∧
  (∀ s : State,
    (inLow s = true ↔ ∃ t, s.flc.wake = some (.low t)) ∧
    (s.flc.stuck = true → lineCondition s = .stuck) ∧
    (s.flc.stuck = false →
      (∀ t, s.flc.wake = some (.low t) → lineCondition s = .waking) ∧
      (∀ t, s.flc.wake = some (.settle t) → lineCondition s = .settling) ∧
      (s.flc.wake = none →
        (s.flc.lowSince.isSome = true → lineCondition s = .heldLow) ∧
        (s.flc.lowSince = none →
          (s.flc.flight.isSome = true ∨ s.flc.retry ≠ [] → lineCondition s = .inTransaction) ∧
          (s.flc.flight = none → s.flc.retry = [] → lineCondition s = .idle))))) ∧
  (∀ (k : LinkKind) (a : Fin 16) (data : List Byte) (o : TxnOwner) (s : State),
    (s.flc.stuck = true → enqueue k a data o s = s) ∧
    (s.flc.stuck = false → 8 ≤ s.flc.queue.length → enqueue k a data o s = { s with
      flc.counters := { s.flc.counters with full := satInc s.flc.counters.full } }) ∧
    (s.flc.stuck = false → s.flc.queue.length < 8 → enqueue k a data o s = { s with
      flc.queue := s.flc.queue ++
        [{ kind := k, address := a, data := data, owner := o, attempts := 0, arrival := s.tb.elapsed,
           disowned := false }] })) ∧
  (∀ (p : TxnOwner → Bool) (s : State), withdrawTxns p s = { s with
    flc.queue := s.flc.queue.filter fun t => !p t.owner
    flc.retry := s.flc.retry.filter fun r => !p r.txn.owner
    flc.flight := s.flc.flight.map fun f =>
      if p f.txn.owner then { f with txn := { f.txn with disowned := true } } else f }) ∧
  (∀ (a : Fin 16) (o : TxnOwner) (s : State),
    let q := s.flc.queue
    let urgent (t : Txn) : Bool := t.cls == .urgent
    let same (t : Txn) : Bool := urgent t && (t.address == a || t.address == 0)
    let halt (b : Fin 16) (owner : TxnOwner) : Txn :=
      { kind := .halt, address := b, data := [], owner := owner, attempts := 0, arrival := s.tb.elapsed
        disowned := false }
    let serving (ts : List Txn) : TxnOwner := ts.foldl (fun x t => mergeOwners x t.owner) o
    let put (l : List Txn) : State := { s with flc.queue := l }
    let newestOf (c : TxnClass) (t : Txn) :=
      ∃ before after, q = before ++ t :: after ∧ t.cls = c ∧ ∀ x ∈ after, x.cls ≠ c
    let noneOf (c : TxnClass) := ∀ x ∈ q, x.cls ≠ c
    ((∃ t ∈ q, same t = true) → placeHalt a o s =
      (put (q.map fun t => if same t then { t with owner := mergeOwners t.owner o } else t), none)) ∧
    ((∀ t ∈ q, same t = false) →
      (a = 0 ∧ (∃ t ∈ q, urgent t = true) → placeHalt a o s =
        (put (q.filter (fun t => !urgent t) ++ [halt 0 (serving (q.filter urgent))]), none)) ∧
      (a ≠ 0 ∨ (∀ t ∈ q, urgent t = false) →
        (q.length < 8 → placeHalt a o s = (put (q ++ [halt a o]), none)) ∧
        (∀ t, 8 ≤ q.length → displaced q = some t →
          placeHalt a o s = (put (q.erase t ++ [halt a o]), some t)) ∧
        (8 ≤ q.length → displaced q = none → placeHalt a o s = (put [halt 0 (serving q)], none)))) ∧
    (∀ t, displaced q = some t ↔ newestOf .host t ∨ (noneOf .host ∧ newestOf .show_ t) ∨
      (noneOf .host ∧ noneOf .show_ ∧ newestOf .poll t)) ∧
    (displaced q = none ↔ ∀ x ∈ q, x.cls = .urgent)) ∧
  (∀ (r r' g g' : Bool) (fs fs' : BitVec 12),
    mergeOwners (.halt r g fs) (.halt r' g' fs') = .halt (r || r') (g || g') (fs ||| fs')) ∧
  (∀ (a : Fin 16) (run guard : Bool) (figs : BitVec 12) (s : State),
    let o := TxnOwner.halt run guard figs
    let u := (placeHalt a o s).1
    let v : State := { u with flc.flight := u.flc.flight.map fun f =>
      { f with stopAfter := f.stopAfter <|> f.overtakenAt s.tb.elapsed } }
    (s.flc.stuck = true → sendHalt a run guard figs s = haltDone a o s) ∧
    (s.flc.stuck = false →
      ((placeHalt a o s).2 = none → sendHalt a run guard figs s = v) ∧
      (∀ t, (placeHalt a o s).2 = some t →
        (t.owner = .poll → sendHalt a run guard figs s = v) ∧
        (t.owner ≠ .poll → sendHalt a run guard figs s = linkRefused t.owner { v with
          flc.counters := { v.flc.counters with full := satInc v.flc.counters.full } })))) ∧
  (∀ (f : Flight) (now : Nat),
    let byte := 96 * (now - f.since) / 50
    let bytes : Nat := match f.txn.kind with
      | .status => 1 | .stage => 8 | .go => 3 | .halt => 1 | .ident => 1 | .clear => 1 | .home => 4 | .wake => 0
    f.txn.kind.sendBytes = bytes ∧
    (byte + 1 < bytes → f.overtakenAt now = some (f.since + msOf (50 * (byte + 1)))) ∧
    (bytes ≤ byte + 1 → f.overtakenAt now = none)) ∧
  (∀ s : State,
    (∀ f tag, linkRefused (.stage f tag) s =
      if inMove f tag s then leaveMove f .idle (reportFig f .stageFailed s) else s) ∧
    (∀ tag, linkRefused (.go tag) s = { s with stg.goRefused := tag :: s.stg.goRefused }) ∧
    (∀ f, linkRefused (.withdrawn f) s =
      if (s.fig f).clearing then s.mapFig f fun r => { r with state := .halted, move := none } else s) ∧
    (∀ f, linkRefused (.homeClear f) s = homeFails f s ∧ linkRefused (.home f) s = homeFails f s) ∧
    (∀ f tag, linkRefused (.figClear f tag) s = sendReply 0x59#8 tag .busy .none s) ∧
    (∀ tag, linkRefused (.query tag) s = sendReply 0x52#8 tag .busy .none s) ∧
    (∀ again, linkRefused (.wake again) s = { s with flc.wakePending := s.flc.wakePending || again }) ∧
    (∀ f ended, linkRefused (.holdClear f ended) s = s)) ∧
  (∀ (again : Bool) (s : State),
    let queued := ∃ t ∈ s.flc.queue, t.kind = .wake
    (s.flc.wake ≠ none → requestWake again s = s) ∧
    (s.flc.wake = none → queued → requestWake again s = { s with flc.queue := s.flc.queue.map fun t =>
      match t.owner with
      | .wake x => { t with owner := .wake (x || again) }
      | _ => t }) ∧
    (s.flc.wake = none → ¬queued →
      (s.flc.stuck = true → requestWake again s = s) ∧
      (s.flc.stuck = false → s.flc.queue.length < 8 → requestWake again s = { s with
        flc.queue := s.flc.queue ++
          [{ kind := .wake, address := 0, data := [], owner := .wake again, attempts := 0, arrival := s.tb.elapsed,
             disowned := false }] }) ∧
      (s.flc.stuck = false → 8 ≤ s.flc.queue.length → requestWake again s = { s with
        flc.counters := { s.flc.counters with full := satInc s.flc.counters.full }
        flc.wakePending := s.flc.wakePending || again })))

/-- What is taken next from the link's queue (R123): nothing while the line does not permit a start or a transaction is
in flight; the oldest urgent entry first; nothing else while a retry waits or a wake settles; then the oldest show
entry, the sweep, the oldest host entry and the poll entry. A pending sweep begins with every AWAKE node, ascending,
and ends at once where there is none (R122; the model's choice, log entry 64). How it starts, a wake by its low period
(R126), and how a retry's next attempt begins (R120): a wake's settle period holds back every retry but a HALT's, and
one that a HALT went before begins a byte time after the HALT (log entry 63). The wake's low end is its length in bit
times rounded up to whole milliseconds (the model's choice, log entry 4). -/
def Obligations.TransactionsAreTaken : Prop :=
  (∀ s : State,
     (linePermits s = true ↔ 5 ≤ s.hlc.step ∧ s.flc.stuck = false ∧ s.flc.lowSince = none ∧
       s.flc.freeAt ≤ s.tb.elapsed ∧ ∀ t, s.flc.wake ≠ some (.low t)) ∧
     (linePermits s = false ∨ s.flc.flight.isSome = true → takeNext s = none) ∧
     (linePermits s = true → s.flc.flight = none →
       (∀ t, oldest .urgent s.flc.queue = some t → takeNext s = some (.entry t)) ∧
       (oldest .urgent s.flc.queue = none →
         (s.flc.retry ≠ [] ∨ inSettle s = true → takeNext s = none) ∧
         (s.flc.retry = [] → inSettle s = false →
           (∀ t, oldest .show_ s.flc.queue = some t → takeNext s = some (.entry t)) ∧
           (oldest .show_ s.flc.queue = none →
             (∀ a rest, sweepLeft s = a :: rest → takeNext s = some (.sweep a rest false)) ∧
             (sweepLeft s = [] → s.flc.sweepPending = true →
               (∀ a rest, awakeNodes s = a :: rest → takeNext s = some (.sweep a rest true)) ∧
               (awakeNodes s = [] → takeNext s = some .emptySweep)) ∧
             (sweepLeft s = [] → s.flc.sweepPending = false →
               (∀ t, oldest .host s.flc.queue = some t → takeNext s = some (.entry t)) ∧
               (oldest .host s.flc.queue = none →
                 takeNext s = (oldest .poll s.flc.queue).map .entry))))))) ∧
  ((∀ (t : Txn) (s : State), takeNext s = some (.entry t) → t.kind ≠ .wake →
     exec .transactionStart s = .next { s with
       flc.queue := s.flc.queue.erase t
       flc.flight := some { txn := { t with attempts := t.attempts + 1 }, since := s.tb.elapsed, stopAfter := none,
                            answer := none } }) ∧
   (∀ (t : Txn) (s : State), takeNext s = some (.entry t) → t.kind = .wake →
     exec .transactionStart s = .next { s with
       flc.queue := s.flc.queue.erase t
       flc.wake := some (.low (s.tb.elapsed + (5 * s.hlc.live.wakeLength + 95) / 96)) }) ∧
   (∀ (a : Fin 16) (rest : List (Fin 16)) (begun : Bool) (s : State), takeNext s = some (.sweep a rest begun) →
     let t : Txn := { kind := .status, address := a, data := [], owner := .sweep, attempts := 1,
                      arrival := s.tb.elapsed, disowned := false }
     exec .transactionStart s = .next { s with
       flc.sweep := some rest, flc.sweepPending := if begun then false else s.flc.sweepPending
       flc.flight := some { txn := t, since := s.tb.elapsed, stopAfter := none, answer := none } }) ∧
   (∀ s : State, takeNext s = some .emptySweep →
     exec .transactionStart s = .next { s with flc.sweep := none, flc.sweepPending := false }) ∧
   (∀ (r : Retry) (rest : List Retry) (s : State), s.flc.retry = r :: rest → r.due ≤ s.tb.elapsed →
     linePermits s = true → s.flc.flight = none → inSettle s = false ∨ r.txn.cls = .urgent →
     oldest .urgent s.flc.queue = none →
     exec .retryAttempt s = .next { s with
       flc.retry := rest
       flc.counters := { s.flc.counters with retries := satInc s.flc.counters.retries }
       flc.flight := some { txn := { r.txn with attempts := r.txn.attempts + 1 }, since := s.tb.elapsed,
                            stopAfter := none, answer := none } }))

/-- An attempt fails (R118 to R120): the line is free once it has been idle for a byte time, which it has been at
NO_ANSWER and, for the gap limit, at GAP_TIMEOUT (R123), the error is counted, a COLLISION makes a sweep pending, and
while retries are left the retry waits two byte times, ahead of one that waited while a HALT went first; the last
failure is the transaction's, is told to its owner, a HALT's as its completion (R125), and counts against its node, the
third in a row making the node SILENT (R121), which a sweep under way then passes over, and its figure LOST, out of its
move before its share can be granted (the model's choice, log entry 95), with FIGURE_LOST to the move's or the record's
owner, that of a record kept in FAULT too (the model's choice, log entry 84), until the host clears it (R135); a sweep
with no AWAKE node left and no STATUS of its own under way has ended (R122). A mismatch ends the attempt at the end of
its byte, a bit of which was sent released; the first such bit of the header is a COLLISION. An answer not begun in 4
ms is NO_ANSWER; a bad byte FRAME_ERROR; a gap beyond the limit as it stood at the answer's first byte GAP_TIMEOUT
(R119). Byte times are rounded up to whole milliseconds (log entry 4); how the model is told of bits and bytes on the
line is log entries 5 and 22. -/
def Obligations.AttemptsFail : Prop :=
  (∀ (f : Flight) (s : State), s.flc.flight = some f →
    let u (e : LinkError) : State := { s with
      flc.flight := none
      flc.freeAt := s.tb.elapsed + (match e with
        | .noAnswer => 0
        | .gapTimeout => msOf (50 - 5 * (match f.answer with | some b => b.gap | none => s.hlc.live.gapLimit))
        | _ => msOf 50)
      flc.counters := s.flc.counters.count e
      flc.sweepPending := s.flc.sweepPending || decide (e = .collision) }
    (∀ e, failAttempt e s =
      if f.txn.disowned = true then u e
      else if f.txn.attempts ≤ s.hlc.live.retries then
        { u e with flc.retry := { txn := f.txn, due := s.tb.elapsed + msOf 100 } :: s.flc.retry }
      else failTxn f.txn e (u e)) ∧
    (∀ byte bit, (canMismatch f byte bit s.tb.elapsed = true ↔
      ∃ b, f.txn.frame[byte]? = some b ∧ bit ≤ 8 ∧ (bit = 8 ∨ b.getLsbD bit = true) ∧
        f.since + msOf (50 * (byte + 1)) = s.tb.elapsed ∧
        ∀ t, f.stopAfter = some t → f.since + msOf (50 * (byte + 1)) ≤ t)) ∧
    (∀ byte bit, canMismatch f byte bit s.tb.elapsed = true →
      exec (.readbackError byte bit) s = .next (settle (failAttempt (readbackKind f.txn byte bit) s))) ∧
    (0 < f.txn.kind.answerBytes → f.answer = none → f.since + msOf (50 * f.txn.kind.sendBytes + 384) ≤ s.tb.elapsed →
      exec .noAnswer s = .next (settle (failAttempt .noAnswer s))) ∧
    (0 < f.txn.kind.answerBytes → f.since + msOf (50 * f.txn.kind.sendBytes + 50) ≤ s.tb.elapsed →
      exec .frameError s = .next (settle (failAttempt .frameError s))) ∧
    (1 < f.txn.kind.answerBytes →
      (f.answer = none → f.since + msOf (50 * f.txn.kind.sendBytes + (50 + 5 * s.hlc.live.gapLimit)) ≤ s.tb.elapsed →
        exec .gapTimeout s = .next (settle (failAttempt .gapTimeout s))) ∧
      (∀ b, f.answer = some b → b.since + msOf (50 + 5 * b.gap) ≤ s.tb.elapsed →
        exec .gapTimeout s = .next (settle (failAttempt .gapTimeout s)))) ∧
    f.sentAt = f.since + msOf (50 * f.txn.kind.sendBytes)) ∧
  (∀ (t : Txn) (byte bit : Nat),
    let h := headerByte t.kind t.address
    let sentHigh (k : Nat) := k = 8 ∨ h.getLsbD k = true
    (readbackKind t byte bit = .collision ↔ byte = 0 ∧ bit ≤ 8 ∧ sentHigh bit ∧ ∀ k, k < bit → ¬sentHigh k) ∧
    (readbackKind t byte bit = .collision ∨ readbackKind t byte bit = .bitError)) ∧
  (∀ (t : Txn) (e : LinkError) (s : State),
    let told := if t.cls = .urgent then haltDone t.address t.owner s else linkFailed t.owner e s
    (t.address = 0 → failTxn t e s = tidySweep told) ∧
    (t.address ≠ 0 → failTxn t e s = tidySweep (nodeFailure t.address e told))) ∧
  (∀ s : State,
    let flying := ∃ t ∈ s.flc.retry.map Retry.txn ++ (s.flc.flight.map Flight.txn).toList, t.owner = .sweep
    let left := ∃ l, s.flc.sweep = some l ∧ ∃ a ∈ l, (s.node a).state = .awake
    (left ∨ flying → tidySweep s = s) ∧ (¬left → ¬flying → tidySweep s = { s with flc.sweep := none }) ∧
    ∀ a, passOver a s = tidySweep { s with flc.sweep := s.flc.sweep.map fun l => l.filter (· ≠ a) }) ∧
  (∀ (a : Fin 16) (e : LinkError) (s : State),
    let n := s.node a
    (n.state = .absent → nodeFailure a e s = s) ∧
    (n.state = .silent ∨ n.failures + 1 < 3 → n.state ≠ .absent →
      nodeFailure a e s = s.mapNode a fun n => { n with failures := min 3 (n.failures + 1) }) ∧
    (n.state = .asleep ∨ n.state = .awake → 3 ≤ n.failures + 1 →
      let u := raise (.linkFault a e) (passOver a (s.mapNode a fun n =>
        { n with state := .silent, failures := 3, nextSilent := s.tb.elapsed + 2000 }))
      (figAt u a = none → nodeFailure a e s = u) ∧
      (∀ f, figAt u a = some f → nodeFailure a e s = figureSilent f u))) ∧
  (∀ (f : Fig) (s : State),
    let r := s.fig f
    let told (t : State) := figureSilent f s = raise (.figureFault f .figureLost) t
    (r.state = .unbound → figureSilent f s = s) ∧
    (r.state = .staged ∨ r.state = .moving →
      told (leaveMove f .lost (withdrawTxns (TxnOwner.ofFig f) (reportFig f .figureLost s)))) ∧
    (r.state ≠ .unbound → r.state ≠ .staged → r.state ≠ .moving →
      (r.interrupted = none → told (s.setFig f { r with state := .lost })) ∧
      (∀ i, r.interrupted = some i → told (cueFault .M .figureLost i.cue (some f) none
        (s.setFig f { r with state := .lost, interrupted := none })))) ∧
    (∀ o, TxnOwner.ofFig f o = true ↔
      (∃ tag, o = .stage f tag) ∨ o = .withdrawn f ∨ (∃ ended, o = .holdClear f ended) ∨ o = .homeClear f ∨ o = .home f) ∧
    (∀ w, r.state = .lost → ((stageReport f w s).fig f).state = .lost))

/-- The nodes' answers (R115, R119), and the headers and data the part sends (R115, section 10.6): an answer whose
check, or whose code, is wrong fails the attempt with CHECK_ERROR; a valid one ends the transaction, leaves a bound
node AWAKE and confirmed with no failures (R121), and reaches the owner: a STATUS the figure at its address (R134,
R139, R140, R141, R143) and a NODE-QUERY (R130), a STAGE its figure's staging (R137), a CLEAR its figure (R137, R142,
R143), a HOME its homing (R143). Transactions without an answer (R116, R125, R128): a GO sent whole makes its figures
MOVING with their windows (R139); a HALT sent whole is reported to the owners it serves, a guard ABORT's halting every
STAGED or MOVING figure (R150), a broadcast reaching those it was not sent for (R140), in ascending index (the model's
choice, log entry 82); a frame that a HALT has overtaken is counted as abandoned, a STAGE being queued afresh (R137)
and a HOME failing (R143). A figure that leaves its move takes its new state before its share can be granted (the
model's choice, log entry 95). A report late for a figure that has left its move acts no more (log entry 41); one in
CLEARING is left to its CLEAR by a HALT of another's (log entry 25). Byte times are rounded up to whole milliseconds
(log entry 4). -/
def Obligations.TransactionsEnd : Prop :=
  (∀ (f : Flight) (s : State), s.flc.flight = some f → f.sentAt ≤ s.tb.elapsed →
     let e : State := { s with flc.flight := none, flc.freeAt := s.tb.elapsed + msOf 50 }
     let good := if (s.node f.txn.address).state = .absent then e else e.mapNode f.txn.address fun n =>
       { n with state := .awake, confirmed := true, failures := 0, lastAnswer := some s.tb.showTime }
     let failed : State := settle (failAttempt .checkError s)
     (∀ bs, f.txn.kind = .status →
       (answerChecks f.txn bs = true →
         let seen := match figAt good f.txn.address, readReport bs with
           | some fig, some w => stageReport fig w good
           | _, _ => good
         exec (.statusAnswer bs) s = .next (settle (tidySweep
           (if f.txn.disowned then seen else answerQuery f.txn.owner bs seen)))) ∧
       (answerChecks f.txn bs = false → exec (.statusAnswer bs) s = .next failed)) ∧
     (∀ bs, f.txn.kind = .ident →
       (answerChecks f.txn bs = true → exec (.identAnswer bs) s = .next (settle
         (if f.txn.disowned then good else answerQuery f.txn.owner bs good))) ∧
       (answerChecks f.txn bs = false → exec (.identAnswer bs) s = .next failed)) ∧
     (∀ b, f.txn.kind = .stage →
       (∀ fig tag x, nodeAnswer b = some x → f.txn.owner = .stage fig tag → f.txn.disowned = false →
         exec (.stageAnswer b) s = .next (settle
           (if inMove fig tag good then
             (if x = .accept then good.mapFig fig fun r => { r with step := .accepted }
              else leaveMove fig .idle (reportFig fig .stageRefused good))
            else good))) ∧
       (nodeAnswer b = none → exec (.stageAnswer b) s = .next failed)) ∧
     (∀ b, f.txn.kind = .home →
       (∀ fig x, nodeAnswer b = some x → f.txn.owner = .home fig → f.txn.disowned = false →
         exec (.homeAnswer b) s = .next (settle
           (if x = .accept then good.mapFig fig fun r => { r with
              state := .moving
              homing := r.homing.map fun h => { h with arriveBy := some (s.tb.elapsed + h.allowed + 2000) } }
            else homeFails fig good))) ∧
       (nodeAnswer b = none → exec (.homeAnswer b) s = .next failed)) ∧
     (∀ b, f.txn.kind = .clear →
       (b = 0xC3#8 → f.txn.disowned = false →
         (∀ fig, f.txn.owner = .withdrawn fig → exec (.clearAnswer b) s = .next (settle
           (if (good.fig fig).clearing then good.mapFig fig fun r => { r with state := .idle, move := none }
            else good))) ∧
         (∀ fig, f.txn.owner = .homeClear fig → exec (.clearAnswer b) s = .next (settle
           (good.mapFig fig fun r => { r with homing := r.homing.map fun h => { h with cleared := true } }))) ∧
         (∀ fig tag, f.txn.owner = .figClear fig tag →
           exec (.clearAnswer b) s = .next (settle (sendReply 0x59#8 tag .ok .none good))) ∧
         (∀ fig ended, f.txn.owner = .holdClear fig ended → exec (.clearAnswer b) s = .next (settle good))) ∧
       (b ≠ 0xC3#8 → exec (.clearAnswer b) s = .next failed))) ∧
  (∀ (t : Txn) (bs : List Byte),
     let code : LinkKind → Nat
       | .status => 0 | .stage => 1 | .go => 2 | .halt => 3 | .ident => 4 | .clear => 5 | .home => 6 | .wake => 7
     let h := 16 * code t.kind + t.address.val
     let ones := ((List.range 8).filter fun i => h.testBit i).length
     (headerByte t.kind t.address).toNat = (if ones % 2 = 1 then h else h + 128) ∧
     LinkKind.status.answerBytes = 8 ∧ LinkKind.ident.answerBytes = 5 ∧
     (answerChecks t bs = true ↔ bs.length = t.kind.answerBytes ∧
       ((headerByte t.kind t.address).toNat + (bs.map BitVec.toNat).sum) % 256 = 0)) ∧
  (∀ (p0 p1 flags staged last e0 e1 : Byte) (rest : List Byte),
     readReport (p0 :: p1 :: flags :: staged :: last :: e0 :: e1 :: rest) = some
       { position := (BitVec.ofNat 16 (p0.toNat + 256 * p1.toNat)).toInt, moving := flags.getLsbD 1
         arrived := flags.getLsbD 2, fault := flags.getLsbD 3, homed := flags.getLsbD 4, lastTag := last.toNat
         elapsed := e0.toNat + 256 * e1.toNat }) ∧
  (∀ (tag : Byte) (bs : List Byte) (s : State),
     nodeAnswer 0x5A#8 = some .accept ∧ nodeAnswer 0xA5#8 = some .refuse ∧ nodeAnswer 0x3C#8 = some .busy ∧
     (∀ b, b ≠ 0x5A#8 → b ≠ 0xA5#8 → b ≠ 0x3C#8 → nodeAnswer b = none) ∧
     answerQuery (.query tag) bs s = sendReply 0x52#8 tag .ok (.answer bs s.tb.showTime) s ∧
     answerQuery .poll bs s = s ∧ answerQuery .sweep bs s = s) ∧
  (∀ (f : Fig) (w : NodeReport) (s : State),
     let u := s.mapFig f fun r => { r with report := some { position := w.position, shown := s.tb.showTime } }
     let faulty (t : State) : State := raise (.figureFault f .nodeFault) (leaveMove f .fault t)
     ((s.fig f).state = .unbound ∨ (s.fig f).state = .fault ∨ (s.fig f).state = .lost → stageReport f w s = u) ∧
     ((s.fig f).state = .unknown → stageReport f w s =
       if w.fault then faulty u else if w.moving then haltFig false f u else u.mapFig f fun r => { r with state := .idle }) ∧
     ((s.fig f).state = .idle → stageReport f w s = if w.fault then faulty u else u) ∧
     ((s.fig f).state = .halted →
       (w.fault = true → stageReport f w s = faulty u) ∧
       (w.fault = false → (s.fig f).interrupted = none → stageReport f w s = u) ∧
       (∀ i, w.fault = false → (s.fig f).interrupted = some i → stageReport f w s =
         if w.moving = false ∧ w.arrived = true ∧ w.lastTag = i.tag then
           u.mapFig f fun r => { r with state := .idle, interrupted := none } else u)) ∧
     ((s.fig f).state = .staged → stageReport f w s =
       if w.fault then faulty (withdrawTxns (TxnOwner.ofFig f) (reportFig f .stageFailed u)) else u) ∧
     ((s.fig f).state = .moving →
       (w.fault = true → stageReport f w s = faulty (haltFig false f (reportFig f .arrivalMissed u))) ∧
       (∀ h, w.fault = false → (s.fig f).homing = some h → stageReport f w s =
         if w.moving = false ∧ w.arrived = true ∧ w.homed = true ∧ w.lastTag = 0 then leaveMove f .idle u else u) ∧
       (∀ m t, w.fault = false → (s.fig f).homing = none → (s.fig f).move = some m → m.started = some t →
         let there := w.moving = false ∧ w.arrived = true ∧ w.lastTag = m.tag
         (¬there → stageReport f w s = u) ∧
         (there → t.goTime + w.elapsed * 10 < t.opens → stageReport f w s =
           raise (.figureFault f .arrivalEarly) (leaveMove f .idle (reportFig f .arrivalEarly u))) ∧
         (there → t.opens ≤ t.goTime + w.elapsed * 10 → stageReport f w s = leaveMove f .idle u)))) ∧
  (∀ (f : Flight) (s : State), s.flc.flight = some f →
     let u : State := { s with flc.flight := none, flc.freeAt := s.tb.elapsed + msOf 50 }
     (∀ tag, f.txn.kind = .go → f.txn.owner = .go tag → f.txn.disowned = false → f.stopAfter = none →
       f.sentAt ≤ s.tb.elapsed → exec .goComplete s = .next (settle (goDone tag u))) ∧
     (f.txn.kind = .halt → f.stopAfter = none → f.sentAt ≤ s.tb.elapsed →
       exec .haltComplete s = .next (settle (haltDone f.txn.address f.txn.owner u))) ∧
     (∀ t, f.stopAfter = some t → t ≤ s.tb.elapsed →
       let a : State := { u with flc.counters := { s.flc.counters with abandoned := satInc s.flc.counters.abandoned } }
       exec .transactionAbandoned s =
         .next (settle (if f.txn.disowned then a else linkAbandoned f.txn.owner a)))) ∧
  (∀ (tag : Nat) (s : State),
     let t := goDone tag s
     t = { s with stg.figs := t.stg.figs } ∧
     (∀ f m, (s.fig f).inStaging = true → (s.fig f).move = some m → m.tag = tag →
       let w : Started :=
         { goTime := s.tb.showTime, goElapsed := s.tb.elapsed,
           opens := s.tb.showTime + (m.duration * m.windowOpen / 100 : Nat),
           closes := s.tb.showTime + m.duration + m.grace }
       t.fig f = { s.fig f with state := .moving, move := some { m with started := some w } }) ∧
     (∀ f, (s.fig f).inStaging = false ∨ (∀ m, (s.fig f).move = some m → m.tag ≠ tag) → t.fig f = s.fig f)) ∧
  (∀ (a : Fin 16) (run : Bool) (figs : BitVec 12) (s : State),
     (haltDone a (.halt run true figs) s = (List.finRange 12).foldl (fun t f =>
       if (t.fig f).state = .staged ∨ (t.fig f).state = .moving then
         leaveMove f .halted (withdrawTxns (TxnOwner.ofFig f) t) else t) s) ∧
     haltDone 0 (.halt run false figs) s = (List.finRange 12).foldl (fun t f =>
       if figs.getLsbD f.val then t
       else if (t.fig f).state = .moving then leaveMove f .halted (reportFig f .arrivalMissed t)
       else if (t.fig f).inStaging then
         leaveMove f .idle (withdrawTxns (TxnOwner.isStage f) (reportFig f .stageFailed t))
       else t) s ∧
     (a ≠ 0 → haltDone a (.halt run false figs) s = s)) ∧
  (∀ (f : Fig) (tag : Nat) (s : State),
     let reached := ∃ t ∈ s.flc.queue, t.cls = .urgent ∧ (t.address = 0 ∨ t.address = s.figAddress f)
     (inMove f tag s = true → ¬reached → linkAbandoned (.stage f tag) s = queueStage f s) ∧
     (inMove f tag s = false ∨ reached → linkAbandoned (.stage f tag) s = s) ∧
     linkAbandoned (.home f) s = homeFails f s ∧ linkAbandoned (.go tag) s = s ∧
     (∀ m, (s.fig f).move = some m →
       let a := s.figAddress f
       let data := stageData a f m
       (s.flc.stuck = false → s.flc.queue.length < 8 → queueStage f s = enqueue .stage a data (.stage f m.tag) s) ∧
       (s.flc.stuck = false → 8 ≤ s.flc.queue.length →
         queueStage f s = linkRefused (.stage f m.tag) (enqueue .stage a data (.stage f m.tag) s)) ∧
       (s.flc.stuck = true → queueStage f s = linkFailed (.stage f m.tag) .lineStuck s))) ∧
  (∀ (k : LinkKind) (a : Fin 16), k ≠ .wake →
     let h := headerByte k a
     let code : Nat := match k with
       | .status => 0 | .stage => 1 | .go => 2 | .halt => 3 | .ident => 4 | .clear => 5 | .home => 6 | .wake => 7
     h.toNat % 16 = a.val ∧ h.toNat / 16 % 8 = code ∧ ((List.finRange 8).filter fun i => h.getLsbD i.val).length % 2 = 1) ∧
  (∀ (a : Fin 16) (f : Fig) (m : Move) (tag allowed : Nat),
     let word (lo hi : Byte) : Nat := lo.toNat + 256 * hi.toNat
     let units (ms : Nat) : Nat := (ms + 9) / 10 % 65536
     (∃ t₀ t₁ d₀ d₁ g p c, stageData a f m = [t₀, t₁, d₀, d₁, g, p, c] ∧ (word t₀ t₁ : Int) = m.target % 65536 ∧
       word d₀ d₁ = units m.duration ∧ g.toNat = m.tag % 256 ∧ p.toNat = f.val ∧
       headerByte .stage a + t₀ + t₁ + d₀ + d₁ + g + p + c = 0) ∧
     (∃ g c, goData tag = [g, c] ∧ g.toNat = tag % 256 ∧ headerByte .go 0 + g + c = 0) ∧
     (∃ d₀ d₁ c, homeData a allowed = [d₀, d₁, c] ∧ word d₀ d₁ = units allowed ∧
       headerByte .home a + d₀ + d₁ + c = 0))

/-- The line (R122, R129): an alert is counted, makes a sweep pending, and begins a low of the line that lasts until
LINE_RELEASED (log entry 23), on a STUCK line too. A low of 100 ms makes the line STUCK with LINK_FAULT: every HALT
queued or waiting for a retry is reported completed to the owners it serves, the Stage Controller is told of a line
stop as of a broadcast HALT, and every other queued entry and waiting retry, a queued wake among them, fails with
LINE_STUCK, the HALTs first, then the line stop, then the rest, of each kind the queue in its order before the retries
(the model's choice, log entry 90); what a failure is to each owner follows R125, R130, R137, R138, R142 and R143. Once
high for a byte time (log entry 4) the line is free, a waiting retry waiting for a second one (R120), and one that was
STUCK has a sweep pending, and a wake if a bound node is ASLEEP. The wake (R126, R121): the low period ends in a settle
period of 10 ms, at whose end ASLEEP nodes are AWAKE and unconfirmed; a refused wake is made again when the queue has
room, if some bound node is still ASLEEP. A failed STAGE acts on a figure still in its move alone (log entry 41), and a
failed GO on its figures in ascending index (the model's choice, log entry 80), the share of each going back before it
is withdrawn (the model's choice, log entry 95). The poller's tick (R127): on a quiet link it takes a SILENT node whose
poll is due, else the watch set in turn, else an AWAKE node not yet confirmed, else the AWAKE nodes in turn; an address
counts as polled when its entry is added (log entry 65). The oldest host entry that has waited 250 ms is dropped (R123,
R130). -/
def Obligations.LineWakeAndPollEvents : Prop :=
  (∀ s : State,
     (s.flc.flight = none → inLow s = false →
       exec .alert s = .next { s with
         flc.sweepPending := true, flc.lowSince := some s.tb.elapsed
         flc.counters := { s.flc.counters with alerts := satInc s.flc.counters.alerts } } ∧
       (s.flc.stuck = false → (∀ t, s.flc.lowSince = some t → t + 100 ≤ s.tb.elapsed) →
         exec .lineStuck s = .next (settle (lineSticks s)))) ∧
     (∀ t, s.flc.lowSince = some t →
       let waits (l : List Retry) : List Retry := l.map fun r => { r with due := max r.due (s.tb.elapsed + msOf 50) }
       (s.flc.stuck = true → exec .lineReleased s = .next { s with
         flc.stuck := false, flc.lowSince := none, flc.freeAt := s.tb.elapsed, flc.sweepPending := true
         flc.retry := waits s.flc.retry
         flc.wakePending := s.flc.wakePending || (s.flc.nodes.toList.any fun n => n.state == .asleep) }) ∧
       (s.flc.stuck = false → exec .lineReleased s = .next { s with
         flc.lowSince := none, flc.freeAt := s.tb.elapsed, flc.retry := waits s.flc.retry })) ∧
     (let u := raise (.linkFault 0 .lineStuck)
        { s with flc.stuck := true, flc.lowSince := s.flc.lowSince <|> some s.tb.elapsed }
      let urgent (t : Txn) := t.cls == .urgent
      let halts := (s.flc.queue ++ s.flc.retry.map Retry.txn).filter urgent
      let v : State := { u with
        flc.queue := s.flc.queue.filter fun t => !urgent t
        flc.retry := s.flc.retry.filter fun r => !urgent r.txn }
      let w := haltDone 0 (.halt false false 0) (halts.foldl (fun t x => haltDone x.address x.owner t) v)
      lineSticks s = tidySweep ((w.flc.queue ++ w.flc.retry.map Retry.txn).foldl
        (fun t x => if x.cls = .urgent then haltDone x.address x.owner t else linkFailed x.owner .lineStuck t)
        { w with flc.queue := [], flc.retry := [] }))) ∧
  (∀ (e : LinkError) (s : State),
     (∀ f tag, linkFailed (.stage f tag) e s = if inMove f tag s then failStaged .stageFailed f s else s) ∧
     (∀ tag, linkFailed (.go tag) e s = (moveFigs tag s).foldl (fun t f => failStaged .stageFailed f t) s) ∧
     (∀ f, linkFailed (.withdrawn f) e s =
       if (s.fig f).clearing then s.mapFig f fun r => { r with state := .halted, move := none } else s) ∧
     (∀ f, linkFailed (.homeClear f) e s = homeFails f s ∧ linkFailed (.home f) e s = homeFails f s) ∧
     (∀ f tag, linkFailed (.figClear f tag) e s = sendReply 0x59#8 tag .notNow (.linkError e) s) ∧
     (∀ tag, linkFailed (.query tag) e s = sendReply 0x52#8 tag .notNow (.linkError e) s) ∧
     (∀ again, linkFailed (.wake again) e s = s) ∧ (∀ f ended, linkFailed (.holdClear f ended) e s = s) ∧
     linkFailed .poll e s = s ∧ linkFailed .sweep e s = s ∧
     (∀ k f, failStaged k f s = withdrawFig f (release (figRef f (s.fig f)) f (reportFig f k s)))) ∧
  (∀ s : State,
     (∀ t, s.flc.wake = some (.low t) → t ≤ s.tb.elapsed →
       exec .wakeLowEnd s = .next { s with
         flc.wake := some (.settle (s.tb.elapsed + 10)), flc.freeAt := s.tb.elapsed + msOf 50 }) ∧
     (∀ t, s.flc.wake = some (.settle t) → t ≤ s.tb.elapsed →
       exec .wakeComplete s = .next { s with
         flc.wake := none
         flc.nodes := s.flc.nodes.map fun n =>
           if n.state = .asleep then { n with state := .awake, confirmed := false } else n }) ∧
     (s.flc.wakePending = true → s.flc.queue.length < 8 →
       exec .wakePending s = .next (if someAsleep s then requestWake true { s with flc.wakePending := false }
         else { s with flc.wakePending := false }))) ∧
  (∀ s : State,
     (∀ t, s.flc.nextTick = some t → t ≤ s.tb.elapsed →
       let u : State := { s with flc.nextTick := some (s.tb.elapsed + 20) }
       (pollQuiet u = false → exec .pollTick s = .next u) ∧
       (pollQuiet u = true → pollChoice u = none → exec .pollTick s = .next u) ∧
       (∀ a v, pollQuiet u = true → pollChoice u = some (a, v) →
         exec .pollTick s = .next (enqueue .status a [] .poll v))) ∧
     (∀ t tag, expired s = some t → t.owner = .query tag →
       exec .hostEntryTimeout s = .next (sendReply 0x52#8 tag .busy .none { s with
         flc.queue := s.flc.queue.erase t })) ∧
     (∀ t,
       let waited (x : Txn) := x.cls = .host ∧ x.arrival + 250 ≤ s.tb.elapsed
       (expired s = some t ↔ waited t ∧ ∃ before after, s.flc.queue = before ++ t :: after ∧ ∀ x ∈ before, ¬waited x) ∧
       (expired s = none ↔ ∀ x ∈ s.flc.queue, ¬waited x))) ∧
  (∀ s : State, pollQuiet s = true ↔ s.flc.queue = [] ∧ s.flc.flight = none ∧ s.flc.retry = [] ∧
     (∀ t, s.flc.wake ≠ some (.low t)) ∧ sweepLeft s = [] ∧ s.flc.sweepPending = false) ∧
  (∀ s : State,
     let lapsed (a : Fin 16) := (s.node a).state = .silent ∧ (s.node a).nextSilent ≤ s.tb.elapsed
     let watched (a : Fin 16) := ∃ f, (s.figDef f).address = some a ∧ (s.fig f).state = .moving
     let fresh (a : Fin 16) := (s.node a).state = .awake ∧ (s.node a).confirmed = false
     let awake (a : Fin 16) := (s.node a).state = .awake
     let lowest (p : Fin 16 → Prop) (a : Fin 16) := p a ∧ ∀ b, b < a → ¬p b
     let next (last : Option (Fin 16)) (p : Fin 16 → Prop) (a : Fin 16) :=
       (∃ l, last = some l ∧ l < a ∧ p a ∧ ∀ b, l < b → b < a → ¬p b) ∨
       ((∀ l, last = some l → ∀ b, l < b → ¬p b) ∧ lowest p a)
     (∀ a, lowest lapsed a → pollChoice s =
       some (a, s.mapNode a fun n => { n with nextSilent := s.tb.elapsed + 2000 })) ∧
     (∀ a, (∀ b, ¬lapsed b) → next s.flc.lastWatch watched a →
       pollChoice s = some (a, { s with flc.lastWatch := some a })) ∧
     (∀ a, (∀ b, ¬lapsed b) → (∀ b, ¬watched b) → lowest fresh a → pollChoice s = some (a, s)) ∧
     (∀ a, (∀ b, ¬lapsed b) → (∀ b, ¬watched b) → (∀ b, ¬fresh b) → next s.flc.lastPoll awake a →
       pollChoice s = some (a, { s with flc.lastPoll := some a })) ∧
     ((∀ b, ¬lapsed b) → (∀ b, ¬watched b) → (∀ b, ¬awake b) → pollChoice s = none))

/-! ## The Stage Controller -/

/-- FIG-STATUS, DOOR-STATUS and TURN-STATUS (R152). FIG-CLEAR and FIG-HOME (R142, R143): out of range, BAD_VALUE; a
ground of refusal, its status; otherwise a CLEAR is queued, with BUSY at a full queue and NOT_NOW on a STUCK line, and
a homing's claim is made. The grounds, in their order (R142): lane M not IDLE, NOT_NOW; an UNBOUND figure, NOT_FOUND; a
figure STAGED or MOVING or a SILENT node, NOT_NOW; a closing door it crosses, or a turntable that turns or homes under
it, IN_USE. A homing accepted (R143) is STAGED in CLEARING, with a move of HOST to its home position (what that move
holds otherwise is log entry 26), its claim made and its CLEAR queued. -/
def Obligations.StageStatusAndFigureRequests : Prop :=
  (∀ s : State, 4 ≤ s.hlc.step →
     exec .figStatus s = .next (reply 0x58#8 .ok
       (.figStatus
         ((List.finRange 12).map fun f =>
           { address := (s.figDef f).address, rides := (s.figDef f).rides, crossing := (s.figDef f).crossing,
             record := s.fig f })
         (watchSet s)) s) ∧
     exec .doorStatus s = .next (reply 0x5C#8 .ok (.doorStatus s.stg.doors s.inm.limits.level s.tb.elapsed) s) ∧
     exec .turnStatus s = .next (reply 0x5F#8 .ok
       (.turnStatus s.stg.turn (s.inm.misc.level.getLsbD 1) (s.inm.misc.level.getLsbD 2)) s)) ∧
  (∀ s : State, 4 ≤ s.hlc.step →
     (∀ figure, 12 ≤ figure → exec (.figClear figure) s = .next (reply 0x59#8 .badValue .none s)) ∧
     (∀ figure allowed, 12 ≤ figure ∨ allowed < 200 ∨ 60000 < allowed →
       exec (.figHome figure allowed) s = .next (reply 0x5A#8 .badValue .none s)) ∧
     (∀ (f : Fig) (allowed : Nat) (st : Status), 200 ≤ allowed → allowed ≤ 60000 → figRefusal f s = some st →
       exec (.figClear f.val) s = .next (reply 0x59#8 st .none s) ∧
       exec (.figHome f.val allowed) s = .next (reply 0x5A#8 st .none s)) ∧
     (∀ f : Fig, figRefusal f s = none → s.flc.stuck = false → s.flc.queue.length < 8 →
       exec (.figClear f.val) s = .next (settle
         { s.setFig f { s.fig f with state := .unknown, move := none, homing := none, interrupted := none } with
           flc.queue := s.flc.queue ++
             [{ kind := .clear, address := s.figAddress f, data := [], owner := .figClear f (replyTag 0x59#8 s),
                attempts := 0, arrival := s.tb.elapsed, disowned := false }] })) ∧
     (∀ f : Fig, figRefusal f s = none →
       let u := s.setFig f { s.fig f with state := .unknown, move := none, homing := none, interrupted := none }
       (s.flc.stuck = true →
         exec (.figClear f.val) s = .next (settle (reply 0x59#8 .notNow (.linkError .lineStuck) u))) ∧
       (s.flc.stuck = false → 8 ≤ s.flc.queue.length →
         exec (.figClear f.val) s = .next (settle (reply 0x59#8 .busy .none { u with
           flc.counters := { s.flc.counters with full := satInc s.flc.counters.full } })))) ∧
     (∀ (f : Fig) (allowed : Nat), 200 ≤ allowed → allowed ≤ 60000 → figRefusal f s = none →
       (claimAnswer (.figures (.homing f) .host []) (s.figDef f).units s = .taken →
         exec (.figHome f.val allowed) s = .next (settle (reply 0x5A#8 .ok .none (beginHome f allowed s)))) ∧
       (claimAnswer (.figures (.homing f) .host []) (s.figDef f).units s ≠ .taken →
         exec (.figHome f.val allowed) s = .next (reply 0x5A#8 .full .none s)))) ∧
  (∀ (f : Fig) (s : State),
     let r := s.fig f
     let busy := r.state = .staged ∨ r.state = .moving ∨ (s.node (s.figAddress f)).state = .silent
     let barred := (∃ c, (s.figDef f).crossing = some c ∧ (s.door c.door).state = .closing) ∨
       ((s.figDef f).rides = true ∧ (s.stg.turn.state = .turning ∨ s.stg.turn.state = .homing))
     (s.run .M ≠ none → figRefusal f s = some .notNow) ∧
     (s.run .M = none →
       (r.state = .unbound → figRefusal f s = some .notFound) ∧
       (r.state ≠ .unbound → busy → figRefusal f s = some .notNow) ∧
       (r.state ≠ .unbound → ¬busy → barred → figRefusal f s = some .inUse) ∧
       (r.state ≠ .unbound → ¬busy → ¬barred → figRefusal f s = none)) ∧
     (∀ allowed, let m : Move :=
         { owner := .host, target := (s.figDef f).home, duration := allowed, windowOpen := 0, grace := 0, tolerance := 0,
           tag := 0, serial := 0, ended := false, due := s.tb.showTime, started := none }
       let h : Homing :=
         { allowed := allowed, startBy := s.tb.elapsed + 2000, cleared := false, queued := false, arriveBy := none }
       let u := makeClaim (.figures (.homing f) .host [{ fig := f, units := (s.figDef f).units, released := false }])
         (s.figDef f).units (s.setFig f { r with
           state := .staged, step := .clearing, interrupted := none, move := some m, homing := some h })
       (linkAnswer u = .queued → beginHome f allowed s = enqueue .clear (u.figAddress f) [] (.homeClear f) u) ∧
       (linkAnswer u = .full → beginHome f allowed s =
         homeFails f (enqueue .clear (u.figAddress f) [] (.homeClear f) u)) ∧
       (linkAnswer u = .stuck → beginHome f allowed s = homeFails f u)))

/-- DOOR-MOVE (R151): BAD_VALUE, then NOT_NOW while lane M is not IDLE; at the goal OK; forbidden by the interlock
IN_USE; otherwise the command is made, with OK, or its claim is refused, with FULL. A door command taken with room in
the budget is the door's command with its goal and the travel limit then defined (R133), its claim is made, and while
it waits its deadline is its arrival plus the door's start wait (R145); a command held is superseded, its drive stopped
(R150), or passed on where the goal is the same. At the grant (R145) the drive starts, the travel limit running from
then on; a closing that the interlock now forbids gives its claim back, a run's command waiting on and a host's ending
with DOOR_FAULT (R146, R151). A door stopped with both limits active is UNKNOWN (log entry 37). -/
def Obligations.DoorMoves : Prop :=
  (∀ s : State, 4 ≤ s.hlc.step →
     (∀ door goal, 2 ≤ door ∨ (∃ k, goal = .other k) →
       exec (.doorMove door goal) s = .next (reply 0x5B#8 .badValue .none s)) ∧
     (∀ (d : Door) (goal : Goal), s.run .M ≠ none →
       exec (.doorMove d.val (.val goal)) s = .next (reply 0x5B#8 .notNow .none s)) ∧
     (∀ (d : Door) (goal : Goal), s.run .M = none →
       let t := takeDoor d goal .host s
       (atGoal (s.door d).state goal = true →
         exec (.doorMove d.val (.val goal)) s = .next (settle (reply 0x5B#8 .ok .none t))) ∧
       (atGoal (s.door d).state goal = false → goal = .closed → doorForbidden s.stg d = true →
         exec (.doorMove d.val (.val goal)) s = .next (settle (reply 0x5B#8 .inUse .none s))) ∧
       (atGoal (s.door d).state goal = false → goal = .opened ∨ doorForbidden s.stg d = false →
         exec (.doorMove d.val (.val goal)) s =
           .next (settle (reply 0x5B#8 (if (t.door d).cmd.isSome then .ok else .full) .none t))))) ∧
  (∀ (d : Door) (g : Goal) (o : Owner) (s : State),
     let fresh : DoorCmd :=
       { owner := o, goal := g, arrival := s.tb.elapsed, deadline := s.tb.elapsed + (s.stg.doorDefs.get d).wait,
         travelMs := (s.stg.doorDefs.get d).travel * 1000, claimed := false, driving := false }
     (atGoal (s.door d).state g = true →
       takeDoor d g o s = (stopDoor d s).setDoor d { (stopDoor d s).door d with goal := some g }) ∧
     (atGoal (s.door d).state g = false →
       (∀ c, (s.door d).cmd = some c → c.driving = true → c.goal = g →
         takeDoor d g o s = s.setDoor d { s.door d with cmd := some { fresh with claimed := true, driving := true } }) ∧
       ((∀ c, (s.door d).cmd = some c → c.driving = false ∨ c.goal ≠ g) →
         let u := stopDoor d s
         let v := u.setDoor d { u.door d with goal := some g, cmd := some fresh }
         (g = .closed ∧ doorForbidden v.stg d = true → takeDoor d g o s = v) ∧
         (g = .opened ∨ doorForbidden v.stg d = false →
           (claimAnswer (.door d g) (v.stg.doorDefs.get d).units v = .taken →
             takeDoor d g o s = makeClaim (.door d g) (v.stg.doorDefs.get d).units
               (v.setDoor d { v.door d with cmd := some { fresh with claimed := true } })) ∧
           (claimAnswer (.door d g) (v.stg.doorDefs.get d).units v ≠ .taken →
             let x := v.setDoor d { v.door d with cmd := none }
             takeDoor d g o s = match o with
               | .run cue => cueFault .M .doorBlocked cue none (some d) x
               | .host => raise (.doorFault d .noUnits) x))))) ∧
  (∀ (d : Door) (s : State),
     ((s.door d).cmd = none → stopDoor d s = s) ∧
     (∀ c, (s.door d).cmd = some c →
       let both := s.limit d .closed = true ∧ s.limit d .opened = true
       stopDoor d s = dropClaim (.door d) (s.setDoor d { s.door d with
         state := if both then .unknown else if c.driving then .stopped else (s.door d).state
         cmd := none, travelStart := none })) ∧
     (∀ c, (s.door d).cmd = some c → c.driving = false → c.claimed = true →
       (c.goal = .opened ∨ doorForbidden s.stg d = false → doorGranted d s = s.setDoor d { s.door d with
         state := (match c.goal with | .opened => .opening | .closed => .closing)
         cmd := some { c with driving := true }, travelStart := some s.tb.elapsed, travelMs := c.travelMs }) ∧
       (c.goal = .closed → doorForbidden s.stg d = true →
         let u : State := { s with dbu.claims := s.dbu.claims.filter fun x => x.kind.key != .door d }
         doorGranted d s = match c.owner with
           | .run _ => u.setDoor d { s.door d with cmd := some { c with claimed := false } }
           | .host => raise (.doorFault d .interlock) (u.setDoor d { s.door d with cmd := none }))))

/-- TURN-HOME and TURN-MOVE (R151). A turn command taken (R148): in FAULT only a HOME is; at its goal it ends; one held
is superseded, its drive stopped, or passed on for the same goal and direction; otherwise it waits on the interlock and
on its claim, its deadline its arrival plus the start wait, with the per-position limit then defined (R133); a claim
that is refused ends it. At the grant the interlock is tested again (R149), and the drive homes for HOME, while UNHOMED
and without a count, or turns from the count, SHORTEST taking the fewer steps and clockwise at 6; it steps at the step
rate in force (R177). That a turn to the position counted ends at its start, and that a STOPPED turntable turning back
meets the edge of that position first, as the side it stands on decides, is log entry 30. -/
def Obligations.TurnRequests : Prop :=
  (∀ s : State, 4 ≤ s.hlc.step →
    (∀ position dir, 12 ≤ position ∨ (∃ k, dir = .other k) →
      exec (.turnMove position dir) s = .next (reply 0x5E#8 .badValue .none s)) ∧
    (∀ (p : Fin 12) (dir : TurnDir), s.run .M ≠ none →
      exec (.turnMove p.val (.val dir)) s = .next (reply 0x5E#8 .notNow .none s) ∧
      exec .turnHome s = .next (reply 0x5D#8 .notNow .none s)) ∧
    (∀ (p : Fin 12) (dir : TurnDir), s.run .M = none →
      exec (.turnMove p.val (.val dir)) s = .next (settle (hostTurn 0x5E#8 (.to p dir) s)) ∧
      exec .turnHome s = .next (settle (hostTurn 0x5D#8 .home s))) ∧
    (∀ k g, let t := takeTurn g .host s
      (s.stg.turn.state = .fault → g ≠ .home → hostTurn k g s = reply k .notNow .none s) ∧
      (s.stg.turn.state ≠ .fault ∨ g = .home →
        (turnAtGoal s.stg.turn.state g = true → hostTurn k g s = reply k .ok .none t) ∧
        (turnAtGoal s.stg.turn.state g = false → turnPermitted s.stg = false →
          hostTurn k g s = reply k .inUse .none s) ∧
        (turnAtGoal s.stg.turn.state g = false → turnPermitted s.stg = true →
          hostTurn k g s =
            reply k (if t.stg.turn.cmd.isSome || turnAtGoal t.stg.turn.state g then .ok else .full) .none t)))) ∧
  (∀ (g : TurnGoal) (o : Owner) (s : State),
    let r := s.stg.turn
    let fresh : TurnCmd :=
      { owner := o, goal := g, arrival := s.tb.elapsed, deadline := s.tb.elapsed + s.stg.turnDef.wait
        limit := s.stg.turnDef.perPosition, claimed := false, driving := false }
    (r.state = .fault → g ≠ .home → takeTurn g o s = match o with
      | .run cue => cueFault .M .turnFault cue none none s
      | .host => s) ∧
    (r.state ≠ .fault ∨ g = .home →
      (turnAtGoal r.state g = true →
        takeTurn g o s = (stopTurn s).setTurn { (stopTurn s).stg.turn with goal := some g }) ∧
      (turnAtGoal r.state g = false →
        (∀ c, r.cmd = some c → c.driving = true → c.goal = g →
          takeTurn g o s = s.setTurn { r with cmd := some { fresh with claimed := true, driving := true } }) ∧
        ((∀ c, r.cmd = some c → c.driving = false ∨ c.goal ≠ g) →
          let u := stopTurn s
          let v := u.setTurn { u.stg.turn with goal := some g, cmd := some fresh }
          (turnPermitted v.stg = false → takeTurn g o s = v) ∧
          (turnPermitted v.stg = true →
            (claimAnswer (.turntable g) v.stg.turnDef.units v = .taken →
              takeTurn g o s = makeClaim (.turntable g) v.stg.turnDef.units
                (v.setTurn { v.stg.turn with cmd := some { fresh with claimed := true } })) ∧
            (claimAnswer (.turntable g) v.stg.turnDef.units v ≠ .taken →
              let x := v.setTurn { v.stg.turn with cmd := none }
              takeTurn g o s = match o with
                | .run cue => cueFault .M .turnBlocked cue none none x
                | .host => raise (.turntableFault .noUnits) x)))))) ∧
  (∀ (c : TurnCmd) (s : State), s.stg.turn.cmd = some c →
    let units := s.stg.turnDef.units
    let x := s.setTurn { s.stg.turn with cmd := none }
    (claimAnswer (.turntable c.goal) units s = .taken → claimTurn s = makeClaim (.turntable c.goal) units
      (s.setTurn { s.stg.turn with cmd := some { c with claimed := true } })) ∧
    (claimAnswer (.turntable c.goal) units s ≠ .taken → claimTurn s = match c.owner with
      | .run cue => cueFault .M .turnBlocked cue none none x
      | .host => raise (.turntableFault .noUnits) x)) ∧
  (∀ s : State,
    let r := s.stg.turn
    (r.cmd = none → stopTurn s = s) ∧
    (∀ c, r.cmd = some c →
      stopTurn s = dropClaim .turntable (s.setTurn { r with
        state := if c.driving then .stopped else r.state, cmd := none, stepping := none }) ∧
      (c.driving = false → c.claimed = true →
        (turnPermitted s.stg = true → turnGranted s = turnStart c s) ∧
        (turnPermitted s.stg = false →
          let u : State := { s with dbu.claims := s.dbu.claims.filter fun x => x.kind.key != .turntable }
          turnGranted s = match c.owner with
            | .run _ => u.setTurn { r with cmd := some { c with claimed := false } }
            | .host => raise (.turntableFault .interlock) (u.setTurn { r with cmd := none }))))) ∧
  (∀ (c : TurnCmd) (s : State),
    let r := s.stg.turn
    let step (spin : Spin) (skip : Bool) : Stepping :=
      { spin := spin, edgeBy := s.tb.elapsed + c.limit, limit := c.limit, rate := s.hlc.live.stepRate, edges := 0
        skipFirst := skip }
    (c.goal = .home ∨ r.count = none ∨ r.state = .unhomed → turnStart c s = s.setTurn { r with
      state := .homing, lastDir := .cw, side := .cw, cmd := some { c with driving := true }
      stepping := some (step .cw false) }) ∧
    (∀ p dir k, c.goal = .to p dir → r.count = some k → r.state ≠ .unhomed →
      let cw := (p.val + 12 - k.val) % 12
      let ccw := (k.val + 12 - p.val) % 12
      let spin : Spin := match dir with
        | .cw => .cw
        | .ccw => .ccw
        | .shortest => if cw ≤ ccw then .cw else .ccw
      (p = k → turnStart c s = { s.setTurn { r with state := .at p, cmd := none, stepping := none } with
        dbu.claims := s.dbu.claims.filter fun x => x.kind.key != .turntable }) ∧
      (p ≠ k → turnStart c s = s.setTurn { r with
        state := .turning, lastDir := spin, side := if r.state = .stopped then r.side else spin
        cmd := some { c with driving := true }
        stepping := some (step spin (decide (r.state = .stopped ∧ r.side ≠ spin))) })))

/-- The doors' events (R144, R145). An edge of a limit, once start-up has set the doors and a sample has been taken,
changes its door: with the drive off the door follows its limits, UNKNOWN with both active; while driving, the goal's
limit ends the command with the units back and the door at its goal, and the other changes nothing. A door whose drive
goes off with both limits active is UNKNOWN (log entry 37). A travel limit that passes stalls the door, and a deadline
ends a waiting command. The door interlock (R146): a door is forbidden to close exactly while some figure that crosses
it is STAGED, MOVING, of unknown position, or in its crossing zone; that a bound figure which has reported no position
counts as unknown is the model's reading (log entry 28). A closing door that becomes forbidden is stopped, with
DOOR_FAULT, and a command that waits on the interlock claims when it is permitted, and ends where the claim is refused
(R145). That an edge given as a row sets the filtered level and the samples with it is log entry 31. -/
def Obligations.DoorsFollowLimitsAndInterlock : Prop :=
  (∀ (d : Door) (s : State),
     (∀ which level, exec (.doorLimitEdge d which level) s = .next (settle (limitEdge d which level s))) ∧
     (∀ which level,
       let u : State := { s with
         inm.limits := s.inm.limits.putBit (2 * d.val + (match which with | .closed => 0 | .opened => 1)) level }
       (s.inm.fresh = false → 4 ≤ s.hlc.step → s.limit d which ≠ level →
         limitEdge d which level s = doorLimitChange d which level u) ∧
       (s.inm.fresh = true ∨ s.hlc.step < 4 ∨ s.limit d which = level → limitEdge d which level s = u)) ∧
     (∀ which level,
       let both := s.limit d .closed = true ∧ s.limit d .opened = true
       let at_ : DoorState := match which with | .closed => .closed | .opened => .opened
       ((∀ c, (s.door d).cmd = some c → c.driving = false) →
         (both → doorLimitChange d which level s = s.setDoor d { s.door d with state := .unknown }) ∧
         (¬both → level = true → doorLimitChange d which level s = s.setDoor d { s.door d with state := at_ }) ∧
         (¬both → level = false → (s.door d).state = at_ →
           doorLimitChange d which level s = s.setDoor d { s.door d with state := .unknown }) ∧
         (¬both → level = false → (s.door d).state ≠ at_ → doorLimitChange d which level s = s)) ∧
       (∀ c, (s.door d).cmd = some c → c.driving = true →
         (level = true → which = c.goal → doorLimitChange d which level s = dropClaim (.door d) (s.setDoor d { s.door d with
           state := if both then .unknown else at_, cmd := none, travelStart := none })) ∧
         (level = false ∨ which ≠ c.goal → doorLimitChange d which level s = s))) ∧
     (∀ st, endDoorCmd d st s = dropClaim (.door d) (s.setDoor d { s.door d with
       state := if s.limit d .closed = true ∧ s.limit d .opened = true then .unknown else st
       cmd := none, travelStart := none })) ∧
     (∀ c t, (s.door d).cmd = some c → c.driving = true → (s.door d).travelStart = some t →
       t + (s.door d).travelMs ≤ s.tb.elapsed →
       exec (.doorTravelLimit d) s = .next (settle (ownerFault c.owner .doorStalled none (some d)
         (raise (.doorFault d .stalled) (endDoorCmd d .stalled s))))) ∧
     (∀ c, (s.door d).cmd = some c → c.driving = false → c.deadline ≤ s.tb.elapsed →
       exec (.doorDeadline d) s = .next (settle (match c.owner with
         | .run cue => cueFault .M .doorBlocked cue none (some d) (endDoorCmd d (s.door d).state s)
         | .host => raise (.doorFault d .noUnits) (endDoorCmd d (s.door d).state s)))) ∧
     (∀ c, (s.door d).cmd = some c →
       let forbidden := c.driving = true ∧ c.goal = .closed ∧ doorForbidden s.stg d = true
       let waits := c.driving = false ∧ c.claimed = false ∧ (c.goal = .opened ∨ doorForbidden s.stg d = false) ∧
         s.tb.elapsed < c.deadline
       (forbidden → doorInterlockStop d s = ownerFault c.owner .doorBlocked none (some d)
         (raise (.doorFault d .interlock) (endDoorCmd d .stopped s))) ∧
       (¬forbidden → doorInterlockStop d s = s) ∧
       (waits → doorRetest d s = claimDoor d s) ∧ (¬waits → doorRetest d s = s) ∧
       (let units := (s.stg.doorDefs.get d).units
        let x := s.setDoor d { s.door d with cmd := none }
        (claimAnswer (.door d c.goal) units s = .taken → claimDoor d s = makeClaim (.door d c.goal) units
          (s.setDoor d { s.door d with cmd := some { c with claimed := true } })) ∧
        (claimAnswer (.door d c.goal) units s ≠ .taken → claimDoor d s = match c.owner with
          | .run cue => cueFault .M .doorBlocked cue none (some d) x
          | .host => raise (.doorFault d .noUnits) x))) ∧
     ((s.door d).cmd = none → doorInterlockStop d s = s ∧ doorRetest d s = s)) ∧
  (∀ (g : STG) (d : Door), doorForbidden g d = true ↔
     ∃ (f : Fig) (c : Crossing), (g.figDefs.get f).crossing = some c ∧ c.door = d ∧
       (g.figs.get f).state ≠ .unbound ∧
       ((g.figs.get f).state = .staged ∨ (g.figs.get f).state = .moving ∨ (g.figs.get f).state = .unknown ∨
         (g.figs.get f).state = .lost ∨ (g.figs.get f).report = none ∨
         ∃ p, (g.figs.get f).report = some p ∧ c.low ≤ p.position ∧ p.position ≤ c.high))

/-- The events of moves and homings (R138, R140, R143), each at its instant. A GO is queued from its move's due time up
to its deadline, the due time and the tolerance, an instant slewed over falling due in the millisecond that passes it
(R8), while none of the tag is under way, every figure still in the move is ACCEPTED and finds the door it crosses
OPEN, the claim is granted, and lane M's run is not ABORTING; refused at a full queue, at the next room; failed on a
STUCK line. A move taken (R136): a figure that fails its check is reported STAGE_REFUSED, and keeps the record of an
interrupted move (the model's choice, log entry 83); the others are STAGED with a fresh tag, the first from the
counter's value on, 1 coming after 255, that no move still STAGED holds, a claim is made of their units, and a STAGE is
queued for each, or, the claim refused, each is reported MOVE_LATE and IDLE, in the order the cue lists them (the
model's choice, log entry 80; none of them having had a STAGE queued: log entry 39). A GO's deadline: a queued GO and
the move's claim are withdrawn, the claim last (the model's choice, log entry 95), and every figure still in the move
is reported MOVE_LATE and withdrawn, in ascending index (the model's choice, log entry 80), IDLE at once where its
STAGE was still queued, else in CLEARING with a CLEAR queued, and HALTED if that cannot be (R137, R138). A window's
close: a HALT is queued, the figure is HALTED with its share released and reported ARRIVAL_MISSED, and FIGURE_FAULT is
raised (R140). A homing that fails: its transactions and its claim are withdrawn, the figure is UNKNOWN, and
FIGURE_FAULT HOME_FAILED is raised, as where the HOME is refused at a full queue (R143). A figure that leaves its move
gives its share back (R109), its new state taken first (the model's choice, log entry 95): a GRANTED claim's is
released, a WAITING claim's removed, the claim leaving the list with its last share or at 0 units, after which figures
of 0 units wait for no grant (log entry 47). One in CLEARING is not reported again (log entry 25). -/
def Obligations.FigureEvents : Prop :=
  (∀ s : State,
    (∀ tag, goDue tag s = true → s.flc.stuck = false → s.flc.queue.length < 8 →
      exec (.goQueued tag) s = .next (settle { s with
        stg.goRefused := s.stg.goRefused.filter (· != tag)
        flc.queue := s.flc.queue ++
          [{ kind := .go, address := 0, data := goData tag, owner := .go tag, attempts := 0,
             arrival := s.tb.elapsed, disowned := false }] })) ∧
    (∀ tag, goDue tag s = true →
      (s.flc.stuck = false → 8 ≤ s.flc.queue.length → exec (.goQueued tag) s = .next (settle { s with
        flc.counters := { s.flc.counters with full := satInc s.flc.counters.full }
        stg.goRefused := tag :: s.stg.goRefused })) ∧
      (s.flc.stuck = true → exec (.goQueued tag) s = .next (settle (linkFailed (.go tag) .lineStuck s)))) ∧
    (∀ tag,
      let still (f : Fig) := (s.fig f).state = .staged ∧ (s.fig f).step ≠ .clearing ∧ (s.fig f).homing = none ∧
        ∃ m, (s.fig f).move = some m ∧ m.tag = tag
      (∀ f, f ∈ moveFigs tag s ↔ still f) ∧ (moveFigs tag s).Pairwise (· < ·) ∧
      moveOf tag s = (moveFigs tag s).head?.bind (fun f => (s.fig f).move) ∧
      moveTimes tag s = (moveOf tag s).map (fun m : Move => (m.due, m.due + m.tolerance)) ∧
      (goDue tag s = true ↔ ∃ m, moveOf tag s = some m ∧ m.due ≤ s.tb.showTime ∧
        (s.tb.showTime ≤ m.due + m.tolerance ∨
          (s.tb.jumped = true ∧ s.tb.showTime = m.due + m.tolerance + 1)) ∧
        (∀ t ∈ heldTxns s, t.owner ≠ .go tag) ∧
        (∀ f, still f → (s.fig f).step = .accepted ∧
          ∀ c, (s.figDef f).crossing = some c → (s.door c.door).state = .opened) ∧
        (∀ c ∈ s.dbu.claims, c.kind.key = .figures (.move m.serial m.tag) → c.granted = true) ∧
        (∀ r, s.run .M = some r → r.state ≠ .aborting) ∧
        (s.flc.stuck = true ∨ s.flc.queue.length < 8 ∨ tag ∉ s.stg.goRefused))) ∧
    (∀ tag due late m, moveTimes tag s = some (due, late) → moveOf tag s = some m → late ≤ s.tb.showTime →
      goFlying tag s = false →
      let u : State := { s with
        flc.queue := s.flc.queue.filter fun t => t.owner != .go tag
        stg.goRefused := s.stg.goRefused.filter (· != tag) }
      exec (.goDeadline tag) s = .next (settle (dropClaim (.figures m.ref)
        ((moveFigs tag s).foldl (fun t f => withdrawFig f (reportFig f .moveLate t)) u)))) ∧
    (∀ f m w, (s.fig f).state = .moving → (s.fig f).homing = none → (s.fig f).move = some m →
      m.started = some w → w.closes ≤ s.tb.showTime →
      exec (.arrivalWindowClose f) s = .next (settle (raise (.figureFault f .arrivalMissed)
        (leaveMove f .halted (reportFig f .arrivalMissed (haltFig false f s)))))) ∧
    (∀ f h, (s.fig f).state = .staged → (s.fig f).homing = some h → h.cleared = true → h.queued = false →
      claimGranted (.homing f) s = true → crossingOpen f s = true → s.flc.stuck = false → s.flc.queue.length < 8 →
      exec (.homeQueued f) s = .next (settle
        { s.setFig f { s.fig f with homing := some { h with queued := true } } with
          flc.queue := s.flc.queue ++
            [{ kind := .home, address := s.figAddress f, data := homeData (s.figAddress f) h.allowed,
               owner := .home f, attempts := 0, arrival := s.tb.elapsed, disowned := false }] })) ∧
    (∀ f h, (s.fig f).state = .staged → (s.fig f).homing = some h → h.cleared = true → h.queued = false →
      claimGranted (.homing f) s = true → crossingOpen f s = true →
      let u := s.setFig f { s.fig f with homing := some { h with queued := true } }
      (s.flc.stuck = false → 8 ≤ s.flc.queue.length → exec (.homeQueued f) s = .next (settle (homeFails f
        { u with flc.counters := { s.flc.counters with full := satInc s.flc.counters.full } }))) ∧
      (s.flc.stuck = true → exec (.homeQueued f) s = .next (settle (homeFails f u)))) ∧
    (∀ f h, (s.fig f).state = .staged → (s.fig f).homing = some h → h.queued = false → h.startBy ≤ s.tb.elapsed →
      exec (.homingTimeout f) s = .next (settle (homeFails f s))) ∧
    (∀ f h t, (s.fig f).state = .moving → (s.fig f).homing = some h → h.arriveBy = some t → t ≤ s.tb.elapsed →
      exec (.homeArrivalTimeout f) s = .next (settle
        (raise (.figureFault f .homeFailed) (leaveMove f .halted (haltFig false f s)))))) ∧
  (∀ (f : Fig) (s : State),
    (∀ st, leaveMove f st s = release (figRef f (s.fig f)) f
      (s.setFig f { s.fig f with state := st, move := none, homing := none })) ∧
    (∀ m, (s.fig f).move = some m → (s.fig f).homing = none → figRef f (s.fig f) = .move m.serial m.tag) ∧
    ((s.fig f).homing ≠ none → figRef f (s.fig f) = .homing f) ∧
    (∀ k m, (s.fig f).move = some m →
      let clears := (s.fig f).state = .staged ∧ (s.fig f).step = .clearing
      (clears ∨ m.owner = .host → reportFig f k s = s) ∧
      (∀ cue, ¬clears → m.owner = .run cue → reportFig f k s = cueFault .M k cue (some f) none s)) ∧
    (let mine (o : TxnOwner) := o.isStage f
     let u : State := { s with flc.queue := s.flc.queue.filter fun t => !mine t.owner }
     ((∃ t ∈ s.flc.queue, mine t.owner = true) →
       withdrawFig f s = u.setFig f { s.fig f with state := .idle, move := none }) ∧
     ((∀ t ∈ s.flc.queue, mine t.owner = false) →
       (linkAnswer s = .queued → withdrawFig f s =
         enqueue .clear (s.figAddress f) [] (.withdrawn f) (s.setFig f { s.fig f with step := .clearing })) ∧
       (linkAnswer s ≠ .queued → withdrawFig f s = enqueue .clear (s.figAddress f) [] (.withdrawn f)
         (s.setFig f { s.fig f with state := .halted, move := none })))) ∧
    (let u := withdrawTxns (fun o => o == .homeClear f || o == .home f) s
     homeFails f s = raise (.figureFault f .homeFailed) (dropClaim (.figures (.homing f))
       (u.setFig f { u.fig f with state := .unknown, move := none, homing := none })))) ∧
  (∀ (k : ClaimKey) (s : State),
    let mine (c : Claim) := c.kind.key = k
    ((∃ c ∈ s.dbu.claims, mine c) → dropClaim k s =
      grantPass { s with dbu.claims := s.dbu.claims.filter fun c => c.kind.key != k }) ∧
    ((∀ c ∈ s.dbu.claims, ¬mine c) → dropClaim k s = s)) ∧
  (∀ (ref : MoveRef) (f : Fig) (s : State),
    ((∃ c ∈ s.dbu.claims, c.kind.key = .figures ref) → release ref f s =
      grantPass { s with dbu.claims := s.dbu.claims.filterMap (releaseShare ref f) }) ∧
    ((∀ c ∈ s.dbu.claims, c.kind.key ≠ .figures ref) → release ref f s = s) ∧
    (∀ c : Claim, c.kind.key ≠ .figures ref → releaseShare ref f c = some c) ∧
    (∀ (c : Claim) o before sh after, c.kind = .figures ref o (before ++ sh :: after) → sh.fig = f →
      (∀ x ∈ before ++ after, x.fig ≠ f) →
      let left := before ++ { sh with released := true } :: after
      (c.granted = true → sh.released = false →
        ((∀ x ∈ left, x.released = true) → releaseShare ref f c = none) ∧
        ((∃ x ∈ left, x.released = false) →
          releaseShare ref f c = some { c with kind := .figures ref o left, units := c.units - sh.units })) ∧
      (c.granted = false →
        (c.units - sh.units = 0 → releaseShare ref f c = none) ∧
        (c.units - sh.units ≠ 0 → releaseShare ref f c =
          some { c with kind := .figures ref o (before ++ after), units := c.units - sh.units })))) ∧
  (∀ (cue d w g tol : Nat) (due : Int) (pairs : List (Fig × Int)) (resumed : Bool) (s : State),
    let kind := if resumed then some cue else none
    let ok := pairs.filter (moveCheck kind s)
    let u := (pairs.filter fun p => !moveCheck kind s p).foldl
      (fun t p => cueFault .M .stageRefused cue (some p.1) none t) s
    let tag := freshTag u 255 u.stg.goTag
    let move (target : Int) : Move :=
      { owner := .run cue, target := target, duration := d, windowOpen := w, grace := g, tolerance := tol, tag := tag
        serial := u.stg.moves, ended := false, due := due, started := none }
    let v := ok.foldl (fun t p => t.setFig p.1 { t.fig p.1 with
        state := .staged, step := .staging, homing := none, interrupted := none, move := some (move p.2) })
      { u with stg.goTag := if tag < 255 then tag + 1 else 1, stg.moves := u.stg.moves + 1 }
    let shares := ok.map fun p => ({ fig := p.1, units := (v.figDef p.1).units, released := false } : Share)
    let units := (shares.map Share.units).sum
    let claim := ClaimKind.figures (.move u.stg.moves tag) (.run cue) shares
    (ok = [] → takeMove cue d w g tol due pairs resumed s = u) ∧
    (ok ≠ [] → claimAnswer claim units v = .taken → takeMove cue d w g tol due pairs resumed s =
      ok.foldl (fun t p => queueStage p.1 t) (makeClaim claim units v)) ∧
    (ok ≠ [] → claimAnswer claim units v ≠ .taken → takeMove cue d w g tol due pairs resumed s =
      ok.foldl (fun t p => leaveMove p.1 .idle (reportFig p.1 .moveLate t)) v) ∧
    (∀ k : Nat, 1 ≤ u.stg.goTag → u.stg.goTag ≤ 255 →
      let value (j : Nat) : Nat := (u.stg.goTag - 1 + j) % 255 + 1
      (∀ j, j < k → tagHeld u (value j) = true) → tagHeld u (value k) = false → tag = value k) ∧
    (∀ t, tagHeld u t = true ↔ ∃ f m, (u.fig f).state = .staged ∧ (u.fig f).homing = none ∧
      (u.fig f).move = some m ∧ m.tag = t)) ∧
  (∀ (f : Fig) (target : Int) (cue : Option Nat) (s : State), moveCheck cue s (f, target) = true ↔
    (cue = none → (s.fig f).state = .idle) ∧
    (∀ c, cue = some c → (s.fig f).state = .halted ∧ ∃ i, (s.fig f).interrupted = some i ∧ i.cue = c) ∧
    (s.figDef f).travelMin ≤ target ∧ target ≤ (s.figDef f).travelMax ∧
    (∀ c, (s.figDef f).crossing = some c → (s.door c.door).state ≠ .closing) ∧
    ((s.figDef f).rides = true → s.stg.turn.state ≠ .turning ∧ s.stg.turn.state ≠ .homing))

/-- The turntable's events (R147 to R149). The index input gives one edge at each position, a rise or a fall, and the
home input acts at its rise (log entry 30); an edge the first sample makes is none (R154), and one given as a row sets
the filtered level and the samples with it (log entry 31). While homing, an index edge is counted and the 13th ends in
FAULT NO_HOME; the home edge sets the count to 0, and ends a HOME command there or lets a turn go on, without touching
the time for the next edge. While turning, an edge moves the count, the first after a reversal excepted (log entry 30),
and the goal ends the command with the units back. A missing index ends in FAULT with no count; a waiting command ends
at its deadline; a rider that leaves its home stops the drive, with TURNTABLE_FAULT, and a command that waits on the
interlock claims when it is permitted. -/
def Obligations.TurntableEvents : Prop :=
  (∀ (v : Bool) (s : State),
    exec (.turntableIndexEdge v) s = .next (settle (tableIndexEdge v s)) ∧
    exec (.turntableHomeEdge v) s = .next (settle (tableHomeEdge v s)) ∧
    (s.inm.fresh = false → s.inm.misc.level.getLsbD 1 ≠ v →
      tableIndexEdge v s = indexEdge { s with inm.misc := s.inm.misc.putBit 1 v }) ∧
    (s.inm.fresh = true ∨ s.inm.misc.level.getLsbD 1 = v →
      tableIndexEdge v s = { s with inm.misc := s.inm.misc.putBit 1 v }) ∧
    (s.inm.fresh = false → s.inm.misc.level.getLsbD 2 = false → v = true →
      tableHomeEdge v s = homeEdge { s with inm.misc := s.inm.misc.putBit 2 v }) ∧
    (s.inm.fresh = true ∨ s.inm.misc.level.getLsbD 2 = true ∨ v = false →
      tableHomeEdge v s = { s with inm.misc := s.inm.misc.putBit 2 v })) ∧
  (∀ s : State,
    let r := s.stg.turn
    (∀ st n, endTurnCmd st n s =
      dropClaim .turntable (s.setTurn { r with state := st, count := n, cmd := none, stepping := none })) ∧
    (r.stepping = none → indexEdge s = s ∧ homeEdge s = s) ∧
    (∀ w, r.stepping = some w →
      let next := s.tb.elapsed + w.limit
      (r.state = .homing →
        (w.edges = 12 → indexEdge s = turnFails .noHome s) ∧
        (w.edges ≠ 12 →
          indexEdge s = s.setTurn { r with stepping := some { w with edges := w.edges + 1, edgeBy := next } }) ∧
        (∀ c, r.cmd = some c →
          (c.goal = .home → homeEdge s = endTurnCmd (.at 0) (some 0) s) ∧
          (∀ p dir, c.goal = .to p dir →
            let spin := spinOf dir 0 p
            (p = 0 → homeEdge s = endTurnCmd (.at p) (some 0) s) ∧
            (p ≠ 0 → homeEdge s = s.setTurn { r with
              state := .turning, count := some 0, lastDir := spin, side := spin
              stepping := some { w with spin := spin, skipFirst := false } })))) ∧
      (r.state = .turning →
        (w.skipFirst = true → indexEdge s = s.setTurn { r with
          side := w.spin, stepping := some { w with skipFirst := false, edgeBy := next } }) ∧
        (∀ k c p dir, w.skipFirst = false → r.count = some k → r.cmd = some c → c.goal = .to p dir →
          let n : Fin 12 := match w.spin with | .cw => k + 1 | .ccw => k - 1
          (n = p → indexEdge s = endTurnCmd (.at p) (some p) (s.setTurn { r with side := w.spin })) ∧
          (n ≠ p → indexEdge s = s.setTurn { r with
            side := w.spin, count := some n, stepping := some { w with edgeBy := next } }))) ∧
      (w.edgeBy ≤ s.tb.elapsed → exec .turnIndexTimeout s = .next (settle (turnFails .missingIndex s)))) ∧
    (∀ k, (r.cmd = none → turnFails k s = raise (.turntableFault k) (endTurnCmd .fault none s)) ∧
      (∀ c, r.cmd = some c → turnFails k s =
        ownerFault c.owner .turnFault none none (raise (.turntableFault k) (endTurnCmd .fault none s)))) ∧
    (∀ c, r.cmd = some c → c.driving = false → c.deadline ≤ s.tb.elapsed →
      exec .turnDeadline s = .next (settle (match c.owner with
        | .run cue => cueFault .M .turnBlocked cue none none (endTurnCmd r.state r.count s)
        | .host => raise (.turntableFault .noUnits) (endTurnCmd r.state r.count s)))) ∧
    (∀ c, r.cmd = some c →
      let waits := c.driving = false ∧ c.claimed = false ∧ turnPermitted s.stg = true ∧ s.tb.elapsed < c.deadline
      (c.driving = true → turnPermitted s.stg = false → turnInterlockStop s =
        ownerFault c.owner .turnBlocked none none (raise (.turntableFault .interlock) (endTurnCmd .stopped r.count s))) ∧
      (c.driving = false ∨ turnPermitted s.stg = true → turnInterlockStop s = s) ∧
      (waits → turnRetest s = claimTurn s) ∧ (¬waits → turnRetest s = s)) ∧
    (turnPermitted s.stg = true ↔ ∀ f, (s.figDef f).rides = true → (s.fig f).state = .idle ∧
      ∃ p, (s.fig f).report = some p ∧ p.position = (s.figDef f).home))

/-! ## The Input Monitor -/

/-- INPUT-GET (R156), GUARD-GET (R161) and GUARD-SET (R160), by which a group that was settling settles afresh; the
evaluation of a group (R157): it trips when it goes from MATCHING to MISMATCHED, clears when it goes back, and
otherwise keeps its state and its trip count. A trip's action (R158): NOTE none; HOLD holds both lanes, lane M first
(log entry 53); ABORT (R78, R99, R110, R150) takes every strike off the queue, withdraws their claims and those of
doors and turntable, aborts both lanes, stops every drive, makes a grant pass, and sends a broadcast HALT, for which
lane M's run waits if a figure of it was STAGED or MOVING. -/
def Obligations.InputsAndGuards : Prop :=
  (∀ s : State, 4 ≤ s.hlc.step →
     exec .inputGet s = .next (reply 0x68#8 .ok
       (.inputs s.inm.general.level s.inm.echo.level s.inm.limits.level s.inm.misc.level s.inm.general.s1
         s.inm.filterOn) s) ∧
     exec (.guardGet false) s = .next (reply 0x6A#8 .ok (.guards s.inm.groups s.tb.elapsed) s) ∧
     exec (.guardGet true) s = .next (reply 0x6A#8 .ok (.guards s.inm.groups s.tb.elapsed) { s with
       inm.groups := s.inm.groups.map fun r => { r with trips := 0 } }) ∧
     (∀ (group : Nat) (d : GuardArgs),
       4 ≤ group ∨ 10000 < d.settle ∨ (∃ k, d.action = .other k) ∨ (d.autoResume = true ∧ d.action ≠ .val .hold) →
       exec (.guardSet group d) s = .next (reply 0x69#8 .badValue .none s)) ∧
     (∀ (g : Group) (a : GuardAction) (d : GuardArgs), d.settle ≤ 10000 → d.action = .val a →
       (d.autoResume = true → a = .hold) →
       let defn : GuardDef :=
         { selection := d.selection, reference := d.reference, action := a, autoResume := d.autoResume
           settle := d.settle }
       let u := evalGuard g (s.setGroup g { s.group g with
         defn := defn
         settleEnd := if (s.group g).settleEnd ≠ none ∧ a = .hold ∧ d.autoResume = true then
           some (s.tb.elapsed + d.settle) else none })
       exec (.guardSet g.val d) s =
         .next (settle (reply 0x69#8 .ok (.guardSet (u.group g).mismatched (u.group g).mismatching) u)))) ∧
  (∀ (g : Group) (s : State),
     let r := s.group g
     let m := r.defn.selection &&& (s.inm.general.level ^^^ r.defn.reference)
     (m ≠ 0 → r.mismatched = false → evalGuard g s = guardAction g r.defn.action
       (raise (.guardTrip g r.defn.action m) (s.setGroup g { r with
         mismatched := true, mismatching := m, settleEnd := none, trips := satInc r.trips }))) ∧
     (m ≠ 0 → r.mismatched = true → evalGuard g s = s.setGroup g { r with mismatching := m }) ∧
     (m = 0 → r.mismatched = true → evalGuard g s = raise (.guardClear g) (s.setGroup g { r with
       mismatched := false, mismatching := 0
       settleEnd := if r.defn.action = .hold ∧ r.defn.autoResume = true then some (s.tb.elapsed + r.defn.settle)
         else none })) ∧
     (m = 0 → r.mismatched = false → evalGuard g s = s)) ∧
  (∀ (g : Group) (s : State),
     guardAction g .note s = s ∧
     guardAction g .hold s = holdLane .C (.group g) (holdLane .M (.group g) s) ∧
     (let u : State := { s with bell.strikes := [], dbu.claims := s.dbu.claims.filter fun c => !guardDrops s c }
      let v := abortLane .C .guard true (abortLane .M .guard true u)
      let w := stopTurn (stopDoor 1 (stopDoor 0 v))
      guardAction g .abort s = sendHalt 0 (runFigsActive s) true 0
        (grantPass (s.bell.strikes.foldl (fun t k => afterRemoval k.bell t) w))) ∧
     (∀ c : Claim, guardDrops s c = true ↔
       (∃ b due o, c.kind = .strike b due o ∧
         ∃ k ∈ s.bell.strikes, k.claiming = true ∧ k.bell = b ∧ k.due = due) ∨
       (∃ d goal, c.kind = .door d goal) ∨ ∃ goal, c.kind = .turntable goal) ∧
     (runFigsActive s = true ↔
       ∃ f, (s.fig f).ofRun = true ∧ ((s.fig f).state = .staged ∨ (s.fig f).state = .moving)))

/-- CAPTURE-SET (R163) and CAPTURE-GET (R164). The inputs' events: the edges of the general inputs at a sample (R155),
on which the captures act and then each group that selects a changed input is evaluated, in ascending order (R157; log
entry 67); what a unit records (R162); an auto-resume (R159); and the close of a MARK's window (R165), one that slewing
passes over falling due in the millisecond that passes it, where an edge of that instant is on time (R8): for a capture
later than that the spec gives no verdict, and nothing is stated but that a free value is used (log entry 7). A MARK
claims the lowest-numbered FREE unit, or is NO_CAPTURE (R165). Sampling (R154): the first sample after a reset fills
the history, and each later one shifts it, under the filter set in force; a filtered input follows two of three
samples. How edges come as commands, and the fall of MINUTE, which no block is handed, are log entry 31; lane M before
lane C at an auto-resume is log entry 53. The input of a FREE unit, IN0, is the model's choice (log entry 66). -/
def Obligations.CapturesAndInputEvents : Prop :=
  (∀ s : State, 4 ≤ s.hlc.step →
     (∀ unit args, 4 ≤ unit ∨ (∃ k, args = .other k) ∨
       (∃ i rise fall, args = .host i rise fall ∧ (16 ≤ i ∨ (∃ k, rise = .other k) ∨ ∃ k, fall = .other k)) →
       exec (.captureSet unit args) s = .next (reply 0x6B#8 .badValue .none s)) ∧
     (∀ (u : CapUnit) (l : Lane) (cue : Nat) (i : GInput) (rise fall : CapMode),
       (s.inm.units.get u).owner = .run l cue →
       exec (.captureSet u.val .free) s = .next (reply 0x6B#8 .inUse .none s) ∧
       exec (.captureSet u.val (.host i.val (.val rise) (.val fall))) s = .next (reply 0x6B#8 .inUse .none s)) ∧
     (∀ (u : CapUnit) (i : GInput) (rise fall : CapMode),
       (∀ l cue, (s.inm.units.get u).owner ≠ .run l cue) →
       exec (.captureSet u.val .free) s =
         .next (reply 0x6B#8 .ok .none { s with inm.units := s.inm.units.set u .free }) ∧
       CapRec.free =
         { owner := .free, input := 0, riseMode := .off, fallMode := .off, riseFlag := false,
           fallFlag := false, riseCap := none, fallCap := none, window := none } ∧
       exec (.captureSet u.val (.host i.val (.val rise) (.val fall))) s = .next (reply 0x6B#8 .ok .none { s with
         inm.units := s.inm.units.set u
           { owner := .host, input := i, riseMode := rise, fallMode := fall, riseFlag := false, fallFlag := false,
             riseCap := none, fallCap := none, window := none } })) ∧
     (∀ unit edges, 4 ≤ unit ∨ (∃ k, edges = .other k) →
       exec (.captureGet unit edges) s = .next (reply 0x6C#8 .badValue .none s)) ∧
     (∀ (u : CapUnit) (edges : EdgeSel),
       let r := s.inm.units.get u
       let rise := decide (edges ≠ .fall)
       let fall := decide (edges ≠ .rise)
       exec (.captureGet u.val (.val edges)) s = .next (reply 0x6C#8 .ok
         (.captureGet r.owner r.input r.riseMode r.fallMode (if rise then some (r.riseFlag, r.riseCap) else none)
           (if fall then some (r.fallFlag, r.fallCap) else none) r.window)
         { s with inm.units := s.inm.units.set u (if r.owner = .host then
             { r with riseFlag := r.riseFlag && !rise, fallFlag := r.fallFlag && !fall } else r) }))) ∧
  (∀ s : State,
     (∀ levels,
       let changed := s.inm.general.level ^^^ levels
       let u : State := { s with inm.general := s.inm.general.put s.inm.filterOn (BitVec.allOnes 16) levels }
       let v := (List.finRange 4).foldl (fun t c =>
         if changed.getLsbD (t.unit c).input.val then
           captureEdge c (if levels.getLsbD (t.unit c).input.val then .rise else .fall) t else t) u
       let w := (List.finRange 4).foldl (fun t g =>
         if (t.group g).defn.selection &&& changed ≠ 0 then evalGuard g t else t) v
       u.inm.general.level = levels ∧
       (s.inm.fresh = true → exec (.generalInputEdge levels) s = .next (settle u)) ∧
       (s.inm.fresh = false → s.hlc.step < 4 → exec (.generalInputEdge levels) s = .next (settle v)) ∧
       (s.inm.fresh = false → 4 ≤ s.hlc.step → exec (.generalInputEdge levels) s = .next (settle w)) ∧
       (generalEdges levels s).hlc.step = s.hlc.step) ∧
     (∀ c e,
       let r := s.unit c
       let now := s.tb.showTime
       let mode := match e with | .rise => r.riseMode | .fall => r.fallMode
       let flag := match e with | .rise => r.riseFlag | .fall => r.fallFlag
       let records := mode = .continuous ∨ (mode = .single ∧ flag = false)
       let v := s.setUnit c (match e with
         | .rise => { r with riseFlag := true, riseCap := some now }
         | .fall => { r with fallFlag := true, fallCap := some now })
       (¬records → captureEdge c e s = s) ∧
       (records → captureEdge c e s = if r.owner = .host then raise (.capture c e now) v else v)) ∧
     (∀ g t, (s.group g).settleEnd = some t → t ≤ s.tb.elapsed →
       exec (.autoResume g) s = .next (settle (liftHold .C false (1#4 <<< g.val) (liftHold .M false (1#4 <<< g.val)
         (s.setGroup g { s.group g with settleEnd := none }))))) ∧
     (∀ u l cue w, (s.unit u).owner = .run l cue → (s.unit u).window = some w → w.suspended = false →
       w.closes ≤ s.tb.showTime →
       let freed : State := { s.setUnit u .free with free := s.free + 1 }
       ((s.unit u).markCapture = none →
         exec (.captureWindowClose u) s = .next (settle (cueFault l .markMissed cue none none freed))) ∧
       (∀ t, (s.unit u).markCapture = some t → t < w.opens →
         exec (.captureWindowClose u) s = .next (settle (cueFault l .markEarly cue none none freed))) ∧
       (∀ t, (s.unit u).markCapture = some t → w.opens ≤ t →
         t ≤ w.closes ∨ (s.tb.jumped = true ∧ s.tb.showTime = w.closes + 1 ∧ t = s.tb.showTime) →
         exec (.captureWindowClose u) s = .next (settle freed)))) ∧
  (∀ r : CapRec,
     (r.riseMode = .single →
       (r.riseFlag = true → r.markCapture = r.riseCap) ∧ (r.riseFlag = false → r.markCapture = none)) ∧
     (r.riseMode ≠ .single →
       (r.fallFlag = true → r.markCapture = r.fallCap) ∧ (r.fallFlag = false → r.markCapture = none))) ∧
  (∀ (l : Lane) (cue : Nat) (i : GInput) (e : Edge) (opens closes : Int) (s : State),
     (∀ u, (s.unit u).owner = .free → (∀ v, v < u → (s.unit v).owner ≠ .free) →
       claimUnit l cue i e opens closes s = s.setUnit u
         { owner := .run l cue, input := i, riseMode := if e = .rise then .single else .off
           fallMode := if e = .fall then .single else .off, riseFlag := false, fallFlag := false, riseCap := none
           fallCap := none, window := some { opens := opens, closes := closes, suspended := false } }) ∧
     ((∀ u, (s.unit u).owner ≠ .free) →
       claimUnit l cue i e opens closes s = cueFault l .noCapture cue none none s)) ∧
  (∀ (w : Nat) (on : BitVec w) (k : Bank w) (i : Nat), i < w →
     let a := k.s1.getLsbD i
     let b := k.s2.getLsbD i
     let c := k.s3.getLsbD i
     (k.filtered on).getLsbD i = if on.getLsbD i then (a && b) || (a && c) || (b && c) else a) ∧
  (∀ s : State,
     let t := sampleInputs s
     let again (w : Nat) (k : Bank w) : Bank w := { pin := k.pin, s1 := k.pin, s2 := k.pin, s3 := k.pin, level := k.pin }
     let later (w : Nat) (k : Bank w) : Bank w := { pin := k.pin, s1 := k.pin, s2 := k.s1, s3 := k.s2, level := k.level }
     t.inm.filterOn = s.hlc.live.inputFilter ∧ t.inm.fresh = false ∧
     (s.inm.fresh = true →
       t.inm.general = again 16 s.inm.general ∧ t.inm.echo = again 20 s.inm.echo ∧
       t.inm.limits = again 4 s.inm.limits ∧ t.inm.misc = again 3 s.inm.misc) ∧
     (s.inm.fresh = false →
       t.inm.general = later 16 s.inm.general ∧ t.inm.echo = later 20 s.inm.echo ∧
       t.inm.limits = later 4 s.inm.limits ∧ { t.inm.misc with level := s.inm.misc.level } = later 3 s.inm.misc) ∧
     (s.inm.general.filtered s.inm.filterOn ≠ s.inm.general.level → edgeDue s ≠ none))

/-! ## The Host Link Controller and the settings -/

/-- An occurrence of a cause (R171): outside the time between a reset and the loading of the settings, its flag is set,
its count rises by one modulo 65,536 and its detail is overwritten, whatever its mask; every other cause stays.
CAUSES-GET and CAUSES-CLEAR (R172, R173): an entry clears its cause when it gives ANY or the cause's present count, and
the reply carries the flags left set and the set of the causes whose count differed. -/
def Obligations.Causes : Prop :=
  (∀ (d : Detail) (s : State), 1 ≤ s.hlc.step →
     raise d s = { s with hlc.causes := (raise d s).hlc.causes } ∧
     (raise d s).hlc.causes.get d.cause =
       { flag := true, count := (s.hlc.causes.get d.cause).count + 1,
         detail := some { what := d, stamp := { shown := s.tb.showTime, elapsed := s.tb.elapsed } } } ∧
     ∀ i, i ≠ d.cause → (raise d s).hlc.causes.get i = s.hlc.causes.get i) ∧
  (∀ s : State, 1 ≤ s.hlc.step →
     exec .causesGet s = .next (reply 0x70#8 .ok
       (.causes (flagWord s.hlc.causes) s.hlc.live.causeMasks s.hlc.causes s.hlc.counts) s) ∧
     (∀ es, 1 ≤ es.length → es.length ≤ 16 →
       ((¬(es.map Prod.fst).Nodup ∨ ∃ e ∈ es, 16 ≤ e.1) →
         exec (.causesClear es) s = .next (reply 0x71#8 .badValue .none s)) ∧
       ((es.map Prod.fst).Nodup → (∀ e ∈ es, e.1 < 16) →
         ∃ cs : Vector CauseRec 16,
           exec (.causesClear es) s = .next (reply 0x71#8 .ok
             (.causesLeft (flagWord cs) (causeSet ((es.filter fun e => !clearsCause s e).map Prod.fst)))
             { s with hlc.causes := cs }) ∧
           ∀ i : Fin 16,
             ((∃ n, (i.val, n) ∈ es ∧ ∀ m, n = some m → (s.hlc.causes.get i).count.toNat = m) →
               cs.get i = { s.hlc.causes.get i with flag := false, count := 0 }) ∧
             ((∀ n, (i.val, n) ∈ es → ∃ m, n = some m ∧ (s.hlc.causes.get i).count.toNat ≠ m) →
               cs.get i = s.hlc.causes.get i)))) ∧
  (∀ (s : State) (e : Nat × Option Nat), clearsCause s e = true ↔
     ∃ i : Fin 16, e.1 = i.val ∧ ∀ m, e.2 = some m → (s.hlc.causes.get i).count.toNat = m) ∧
  (∀ (cs : Vector CauseRec 16) (ns : List Nat) (i : Fin 16),
     (flagWord cs).getLsbD i.val = (cs.get i).flag ∧ ((causeSet ns).getLsbD i.val = true ↔ i.val ∈ ns))

/-- ATTN is asserted exactly while some cause flag with its mask enabled is set, from the loading of the settings on
(R172). -/
def Obligations.AttnFollowsUnmaskedFlags : Prop :=
  ∀ s : State, s.attn = true ↔
    1 ≤ s.hlc.step ∧
      ∃ i : Fin 16, (s.hlc.causes.get i).flag = true ∧ s.hlc.live.causeMasks.getLsbD i.val = true

/-- CAUSE-MASK sets the cause masks of the live record as a CONFIG-SET of that field would, replies OK, has ATTN
tested, and writes nothing to nonvolatile memory (R174). -/
def Obligations.CauseMaskSets : Prop :=
  ∀ (mask : BitVec 16) (s : State), 1 ≤ s.hlc.step →
    ∃ t, exec (.causeMask mask) s = .next t ∧
      t = reply 0x72#8 .ok .none { s with hlc.live := [SettingField.causeMasks mask].foldl Settings.put s.hlc.live } ∧
      t.hlc.live.causeMasks = mask ∧ t.attn = decide (flagWord s.hlc.causes &&& mask ≠ 0) ∧
      t.hlc.saved = s.hlc.saved ∧ t.hlc.save = s.hlc.save

/-- IDENT (R175). -/
def Obligations.IdentReplies : Prop :=
  ∀ s : State, 1 ≤ s.hlc.step →
    exec .ident s = .next (reply 0x73#8 .ok (.ident 0x0B52 412 'A' 896 256 16384 2048) s)

/-- CONFIG-SET (R178): checked whole before anything changes; a budget below the held sum is IN_USE; otherwise every
named field takes its new value, and each owner takes it up: the Timebase its discipline (R10), the Scheduler its
default programme (R29), the lamps at rest their rest levels (R81), the bells their mutes (R100), and the Drive Budget
Unit its budget (R111): a higher one is followed by a grant pass, a lower one refuses, in the order of the waiting
list, the claims it no longer fits, each with what the refusal is to its claimant (R107, R136, R145, R148; to a homing
and to a host's command: log entry 43), and then makes a grant pass. The mutes come before the budget, bell by bell in
ascending order (the model's choice, log entry 79), and the figures of a move so refused are withdrawn in the order its
cue lists them (the model's choice, log entry 80). A field named twice, or a value outside its range of section 11.1,
is BAD_VALUE. -/
def Obligations.ConfigSetSets : Prop :=
  ∀ (fields : List SettingField) (s : State), 1 ≤ s.hlc.step → fields ≠ [] →
    let new := fields.foldl Settings.put s.hlc.live
    let number (f : SettingField) : Nat := match f with
      | .budget _ => 0 | .discipline _ => 1 | .slewLimit _ => 2 | .defaultProgramme _ => 3 | .lateness _ => 4
      | .countBell _ => 5 | .countSpacing _ => 6 | .gapLimit _ => 7 | .retries _ => 8 | .wakeLength _ => 9
      | .inputFilter _ => 10 | .lampRests _ => 11 | .bellMutes _ => 12 | .causeMasks _ => 13 | .stepRate _ => 14
    let inRange (f : SettingField) : Prop := match f with
      | .budget v => 4 ≤ v ∧ v ≤ 64 | .slewLimit v => v ≤ 10000 | .defaultProgramme v => v ≤ 7
      | .lateness v => 5 ≤ v ∧ v ≤ 200 | .countBell v => v ≤ 19 | .countSpacing v => 1000 ≤ v ∧ v ≤ 4000
      | .gapLimit v => 2 ≤ v ∧ v ≤ 20 | .retries v => v ≤ 3 | .wakeLength v => 1 ≤ v ∧ v ≤ 50
      | .lampRests v => ∀ l ∈ v.toList, l ≤ 255 | .stepRate v => 20 ≤ v ∧ v ≤ 1000
      | .discipline _ | .inputFilter _ | .bellMutes _ | .causeMasks _ => True
    (fieldsOk fields = true ↔ (fields.map number).Nodup ∧ ∀ f ∈ fields, inRange f) ∧
    (fieldsOk fields = false → exec (.configSet fields) s = .next (reply 0x78#8 .badValue .none s)) ∧
    (fieldsOk fields = true → new.budget < s.held →
      exec (.configSet fields) s = .next (reply 0x78#8 .inUse .none s)) ∧
    (fieldsOk fields = true → s.held ≤ new.budget →
      exec (.configSet fields) s = .next (settle (reply 0x78#8 .ok .none (applySettings new s)))) ∧
    (applySettings new s).hlc.live = new ∧
    (let old := s.hlc.live
     let a : State := { s with hlc.live := { new with bellMutes := old.bellMutes } }
     let b := if old.discipline = new.discipline then a else setDiscipline new.discipline a
     let c := if old.defaultProgramme = new.defaultProgramme then b else evalSeasons b
     let d : State := { c with
       seq.lamps := Vector.ofFn fun ch =>
         let r := c.seq.lamps.get ch
         let level := new.lampRests.get ch
         if old.lampRests.get ch ≠ level ∧ r.setter = .rest then { r with
           target := level, startLevel := r.level, length := r.remaining
           level := if r.remaining = 0 then level else r.level }
         else r }
     let e := (List.finRange 20).foldl (fun t b =>
       if t.hlc.live.bellMutes.getLsbD b.val = new.bellMutes.getLsbD b.val then t
       else setMute b (new.bellMutes.getLsbD b.val) t) d
     (new.budget = old.budget → applySettings new s = e) ∧
     (old.budget < new.budget → applySettings new s = grantPass e) ∧
     (new.budget < old.budget → applySettings new s = grantPass
       (((waitingOrder e.dbu.claims).filter fun c => decide (new.budget < c.units)).foldl
         (fun t c => refuseClaim c t) e))) ∧
    (setDiscipline false s = { s with
      tb.disc := .off, tb.correction := 0, tb.slewPhase := 0, tb.lastPulse := none, tb.lossAt := none }) ∧
    (s.tb.disc = .off → setDiscipline true s = { s with
      tb.disc := if s.tb.held.isSome then .held else .seeking, tb.lastPulse := none, tb.lossAt := none }) ∧
    (s.tb.disc ≠ .off → setDiscipline true s = s) ∧
    (∀ c : Claim,
      let u : State := { s with dbu.claims := s.dbu.claims.filter fun x => x.kind.key != c.kind.key }
      (∀ serial tag o shares, c.kind = .figures (.move serial tag) o shares → refuseClaim c s =
        (shares.filter fun h => !h.released).foldl (fun t h => withdrawFig h.fig (reportFig h.fig .moveLate t)) u) ∧
      (∀ f o shares, c.kind = .figures (.homing f) o shares → refuseClaim c s = homeFails f u) ∧
      (∀ b due o k, c.kind = .strike b due o →
        s.bell.strikes.find? (fun k => k.claiming && k.bell == b && k.due == due) = some k →
        refuseClaim c s = dropLate k u) ∧
      (∀ d g k, c.kind = .door d g → (s.door d).cmd = some k → refuseClaim c s = match k.owner with
        | .run cue => cueFault .M .doorBlocked cue none (some d) (endDoorCmd d (s.door d).state u)
        | .host => raise (.doorFault d .noUnits) (endDoorCmd d (s.door d).state u)) ∧
      (∀ g k, c.kind = .turntable g → s.stg.turn.cmd = some k → refuseClaim c s = match k.owner with
        | .run cue => cueFault .M .turnBlocked cue none none (endTurnCmd s.stg.turn.state s.stg.turn.count u)
        | .host => raise (.turntableFault .noUnits) (endTurnCmd s.stg.turn.state s.stg.turn.count u)))

/-- CONFIG-GET and CONFIG-SAVE, and the completion of a save (R179): the saved copy is the record with its CRC-16
(R177), whose bytes are the model's choice (log entry 14); during a save CONFIG-GET tells of a difference from the
record being written, and of a copy never written or cut short that the live record differs from it (the model's
choice, log entry 93). -/
def Obligations.ConfigGetAndSave : Prop :=
  ∀ s : State,
    (1 ≤ s.hlc.step →
      let told (d : Bool) := exec .configGet s =
        .next (reply 0x79#8 .ok (.config s.hlc.live s.hlc.source d s.hlc.save.isSome) s)
      (∀ v, s.hlc.save = some v → told (decide (v.record ≠ s.hlc.live))) ∧
      (s.hlc.save = none →
        (∀ r crc, s.hlc.saved = .written r crc → told (decide (r ≠ s.hlc.live))) ∧
        (s.hlc.saved = .never ∨ s.hlc.saved = .broken → told true)) ∧
      (s.hlc.save.isSome = true → exec .configSave s = .next (reply 0x7A#8 .busy .none s)) ∧
      (s.hlc.save = none → exec .configSave s = .next (reply 0x7A#8 .ok .none { s with
        hlc.save := some { record := s.hlc.live, due := s.tb.elapsed + 60 } }))) ∧
    (∀ v, s.hlc.save = some v → v.due ≤ s.tb.elapsed →
      (1 ≤ s.hlc.step → exec .configSaveComplete s = .next (raise (.settingsEvent .saved) { s with
        hlc.saved := .written v.record v.record.crc, hlc.save := none })) ∧
      (s.hlc.step = 0 → exec .configSaveComplete s = .next { s with
        hlc.saved := .written v.record v.record.crc, hlc.save := none, hlc.savedPending := true }))

/-! ## What follows from an event in the same step -/

/-- What follows from an event in the same step. Settling takes one thing at a time: interlocks and waiting commands
are tested (the stops first, the drives in the order D0, D1, turntable: log entry 72; then a GO whose move no figure is
in any more is withdrawn: the model's choice, log entry 91), then the abort or the end of lane M's run, then lane C's,
then a lane's look for its next request or the next request or task of the Scheduler (R22, R36; log entry 6 for a
catch-up against a look, log entry 52 for two ends in one step, log entry 76 for two looks where a forced step's
restraint is lifted; that settling is done within 1,024 such things is log entry 68). A task takes what an instant had
reached of an entry, its follow-on before its own fire (R22, R24). A run is aborted where a cue fault asked for it
(R71), and ends ABORTING once no HALT sent for it is under way (R79), or ENDING once nothing it started is counted:
strikes, strokes, capture claims, lane M's moves, doors and turn, cues to issue (R70). At its end the last result is
written, its pin released, its work forgotten (interrupted moves too: log entry 39; its HALTs and its hold's CLEARs are
no later run's) and its cause raised; with both lanes IDLE the idle notice applies a step held (R11), and then the lane
looks (R63): the successor, then queue heads, each discarded if stale, till one starts; a discarded request's detail
has its trigger's flag (log entry 46). A request arrives on the lane of its subject (R59): an IDLE lane takes it (R61);
on a busy one QUEUE, DROP or PREEMPT decides (R61, R62). A cue fault is counted, and by the policy asks for an abort,
excludes a figure or sets a skip flag (R71). -/
def Obligations.RunsEndAndNextStarts : Prop :=
  (∀ s : State, settle s = settleLoop 1024 { looks := [], handFirst := false } s) ∧
  (∀ (n : Nat) (g : Agenda) (s : State),
    let u := stageCheck s
    let rest := laneAct .M u = none ∧ laneAct .C u = none
    (∀ a, laneAct .M u = some a →
      settleLoop (n + 1) g s = settleLoop n (doLane .M a g u).2 (doLane .M a g u).1) ∧
    (∀ a, laneAct .M u = none → laneAct .C u = some a →
      settleLoop (n + 1) g s = settleLoop n (doLane .C a g u).2 (doLane .C a g u).1) ∧
    (rest → g.looks = [] → handNext u = none → settleLoop (n + 1) g s = u) ∧
    (∀ s', rest → g.looks = [] ∨ g.handFirst = true → handNext u = some s' →
      settleLoop (n + 1) g s = settleLoop n g s') ∧
    (∀ l ls s', rest → g.looks = l :: ls → g.handFirst = false → handNext u = some s' →
      settleLoop (n + 1) g s = settleLoop n { g with looks := ls } (lookNext l u)) ∧
    (∀ l ls, rest → g.looks = l :: ls → handNext u = none →
      settleLoop (n + 1) g s = settleLoop n { looks := ls, handFirst := false } (lookNext l u))) ∧
  (∀ s : State, stageCheck s = dropEmptyGos (turnRetest (doorRetest 1 (doorRetest 0
    (turnInterlockStop (doorInterlockStop 1 (doorInterlockStop 0 s))))))) ∧
  (∀ s : State,
    (∀ q qs, s.sch.held = q :: qs → 6 ≤ s.hlc.step → handNext s = some (arrive q { s with sch.held := qs })) ∧
    (∀ t ts, s.sch.held = [] ∨ s.hlc.step < 6 → s.sch.work = t :: ts →
      handNext s = some (doTask t { s with sch.work := ts })) ∧
    (s.sch.held = [] ∨ s.hlc.step < 6 → s.sch.work = [] → handNext s = none)) ∧
  (∀ (i : Trig) (upTo now old new : Int) (s : State),
    let r := s.trig i
    let again : State := { s with sch.work := .due i upTo :: s.sch.work }
    (∀ f, r.followOn = some f → f.due ≤ upTo → doTask (.due i upTo) s =
      (handOver i f.target f.due again).mapTrig i fun r => { r with followOn := none }) ∧
    ((∀ f, r.followOn = some f → upTo < f.due) →
      (∀ t, r.next = some t → r.state = .armed → t ≤ upTo → doTask (.due i upTo) s = fire i t again) ∧
      ((∀ t, r.next = some t → r.state = .armed → upTo < t) → doTask (.due i upTo) s = s)) ∧
    doTask (.shift i (new - old)) s = s.setTrig i
      { r with followOn := r.followOn.map fun f => { f with due := f.due + (new - old) } } ∧
    doTask (.forward i old new) s = stepForward old new i s ∧
    doTask (.backward i new) s = stepBackward new i s ∧
    (r.state = .waitingTime → doTask (.armWaiting i now) s = arm i now s) ∧
    (r.state ≠ .waitingTime → doTask (.armWaiting i now) s = s) ∧
    doTask (.armOrDisable i now) s = armOrDisable i now s) ∧
  (∀ (l : Lane) (s : State),
    (s.run l = none → laneAct l s = none) ∧
    (∀ r, s.run l = some r →
      let halts := ∃ t ∈ heldTxns s, ∃ g fs, t.owner = .halt true g fs
      let counted :=
        (∃ k ∈ s.bell.strikes, k.origin.lane? = some l) ∨
        (∃ b ∈ s.bell.bells.toList, ∃ k ∈ b.strokes, k.lane = some l ∧ k.done = false) ∨
        (l = .M ∧ ((∃ f, (s.fig f).ofRun = true ∧ ((s.fig f).inStaging = true ∨ (s.fig f).state = .moving)) ∨
          (∃ d c, (s.door d).cmd = some c ∧ c.owner ≠ .host) ∨ ∃ c, s.stg.turn.cmd = some c ∧ c.owner ≠ .host)) ∨
        (∃ u, (s.unit u).ofLane l = true) ∨ ∃ c ∈ r.cues, c.issued = false
      (r.abortAsked = true → r.state ≠ .aborting → laneAct l s = some .abort) ∧
      (r.state = .aborting → l = .M ∧ halts → laneAct l s = none) ∧
      (r.state = .aborting → ¬(l = .M ∧ halts) →
        laneAct l s = some (.ends (.aborted (r.abortReason.getD .hostStop)))) ∧
      (r.abortAsked = false → r.state = .ending → counted → laneAct l s = none) ∧
      (r.abortAsked = false → r.state = .ending → ¬counted →
        laneAct l s = some (.ends (if r.faults = 0 then .completed else .completedWithFaults))) ∧
      (r.abortAsked = false → r.state = .loading ∨ r.state = .running ∨ r.state = .holding → laneAct l s = none))) ∧
  (∀ (l : Lane) (g : Agenda) (r : Run) (o : RunOutcome) (s : State), s.run l = some r →
    let res : LastResult :=
      { subject := r.subject, origin := r.origin, start := r.start, ended := s.tb.showTime, outcome := o,
        faults := r.faults, firstFault := r.firstFault }
    let ended := s.setLane l { s.lane l with run := none, last := some res }
    let unpinned (n : Nat) : State := { ended with
      ps.items := ended.ps.items.map fun i => if i.id = ⟨.script, n⟩ then { i with pins := i.pins - 1 } else i }
    let finish (u : State) : State := match o with
      | .aborted why => raise (.showAborted l why) (forgetWork l u)
      | .completed | .completedWithFaults => raise (.showEnded l o) (forgetWork l u)
    doLane l .abort g s = (abortLane l .cueFault false s, g) ∧
    doLane l (.ends o) g s = afterEnd l g (endRun l r o s) ∧
    (∀ n, r.subject = .script n → r.pinned = true → endRun l r o s = finish (unpinned n)) ∧
    (r.pinned = false ∨ (∃ n, r.subject = .count n) → endRun l r o s = finish ended)) ∧
  (∀ s : State,
    let u : Lane → State := fun l => { s with
      bell.bells := s.bell.bells.map fun r =>
        { r with strokes := r.strokes.map fun k => if k.lane = some l then { k with lane := none } else k } }
    forgetWork .C s = u .C ∧
    let left (t : Txn) : Txn := match t.owner with
      | .halt _ g fs => { t with owner := .halt false g fs }
      | .holdClear f _ => { t with owner := .holdClear f true }
      | _ => t
    forgetWork .M s = { u .M with
      stg.figs := s.stg.figs.map fun r =>
        { r with interrupted := none, move := r.move.map fun m => { m with ended := true } }
      flc.queue := s.flc.queue.map left
      flc.retry := s.flc.retry.map fun r => { r with txn := left r.txn }
      flc.flight := s.flc.flight.map fun f => { f with txn := left f.txn } }) ∧
  (∀ (l : Lane) (g : Agenda) (s : State),
    let u : State := match s.tb.held with | some h => applyStep h.offset s | none => s
    let looks : List Lane := if s.restraint = true ∧ u.restraint = false then [.M, .C] else g.looks ++ [l]
    (s.run .M ≠ none ∨ s.run .C ≠ none → afterEnd l g s = (s, { g with looks := g.looks ++ [l] })) ∧
    (s.run .M = none → s.run .C = none →
      (u.sch.held = [] → u.sch.work = [] → afterEnd l g s = (u, { g with looks := looks })) ∧
      (u.sch.held ≠ [] ∨ u.sch.work ≠ [] → afterEnd l g s =
        ({ u with free := u.free + 1 }, { looks := looks, handFirst := Config.catchUpsFirst u.free })))) ∧
  (∀ (l : Lane) (s : State),
    let cleared := s.setLane l { s.lane l with successor := none }
    (s.run l ≠ none ∨ s.restraint = true → lookNext l s = s) ∧
    (s.run l = none → s.restraint = false →
      ((s.lane l).successor = none → lookNext l s = takeHeads l (s.lane l).queue s) ∧
      (∀ q, (s.lane l).successor = some q →
        (q.stale s.tb.showTime = true → lookNext l s = takeHeads l (s.lane l).queue (discard .stale q cleared)) ∧
        (q.stale s.tb.showTime = false → lookNext l s = startRun l q cleared))) ∧
    takeHeads l [] s = s.setLane l { s.lane l with queue := [] } ∧
    (∀ (q : ShowReq) (qs : List ShowReq),
      (q.stale s.tb.showTime = true → takeHeads l (q :: qs) s = takeHeads l qs (discard .stale q s)) ∧
      (q.stale s.tb.showTime = false →
        takeHeads l (q :: qs) s = startRun l q (s.setLane l { s.lane l with queue := qs })) ∧
      (q.stale s.tb.showTime = true ↔
        q.staleness ≠ 0 ∧ (q.staleness : Int) * 1000 < max 0 (s.tb.showTime - q.fireTime)))) ∧
  (∀ (n : Nat) (s : State),
    placeOf (.count n) s = .on .C ∧
    (∀ i, findItem ⟨.script, n⟩ s = some i →
      (i.usable = true → placeOf (.script n) s = .on (headerLane i.content)) ∧
      (i.usable = false → placeOf (.script n) s = .storeCheck)) ∧
    (findItem ⟨.script, n⟩ s = none →
      (∀ c x due, s.ps.op = some { what := .commit ⟨.script, n⟩ c x, due := due } →
        placeOf (.script n) s = .on (headerLane c)) ∧
      ((∀ c x due, s.ps.op ≠ some { what := .commit ⟨.script, n⟩ c x, due := due }) →
        placeOf (.script n) s = .noScript))) ∧
  (∀ (l : Lane) (q : ShowReq) (s : State),
    let twice := q.origin ≠ .host ∧ ∃ p ∈ (s.lane l).queue, p.origin = q.origin
    let put := s.setLane l { s.lane l with successor := some q }
    let busy := s.run l ≠ none ∨ s.restraint = true
    (placeOf q.subject s = .on l → arrive q s = (arriveAt l q s).1) ∧
    (placeOf q.subject s = .noScript → arrive q s = discard .noScript q s) ∧
    (placeOf q.subject s = .storeCheck → arrive q s = discard .storeCheck q s) ∧
    (s.run l = none → s.restraint = false →
      (q.stale s.tb.showTime = true → arriveAt l q s = (discard .stale q s, .discarded)) ∧
      (q.stale s.tb.showTime = false → arriveAt l q s = (startRun l q s, .started l))) ∧
    (busy →
      (q.policy = .drop → arriveAt l q s = (discard .laneBusy q s, .discarded)) ∧
      (q.policy = .queue ∨ (q.policy = .preempt ∧ s.run l = none) → arriveAt l q s = queueReq l q s) ∧
      (∀ r, q.policy = .preempt → s.run l = some r →
        (r.state = .aborting → (s.lane l).successor = none → arriveAt l q s = (put, .queued l 0)) ∧
        (r.state = .aborting → (s.lane l).successor ≠ none → arriveAt l q s = queueReq l q s) ∧
        (r.state ≠ .aborting →
          let u := abortLane l .preempted false s
          let v := match (u.lane l).successor with | some old => discard .laneBusy old u | none => u
          arriveAt l q s = (v.setLane l { v.lane l with successor := some q }, .queued l 0)))) ∧
    (twice → queueReq l q s = (discard .duplicate q s, .discarded)) ∧
    (¬twice → 4 ≤ (s.lane l).queue.length →
      (q.origin = .host → queueReq l q s = (s, .refusedFull)) ∧
      (q.origin ≠ .host → queueReq l q s = (discard .queueFull q s, .discarded))) ∧
    (¬twice → (s.lane l).queue.length < 4 →
      queueReq l q s = (s.setLane l { s.lane l with queue := (s.lane l).queue ++ [q] },
        .queued l ((s.lane l).queue.length + 1))) ∧
    ∀ why, discard why q s = raise (.triggerMissed why q.origin (some q.subject) q.fireTime none
      (match q.origin with | .trigger i => some (s.trig i).first | .host => none)) s) ∧
  (∀ (l : Lane) (k : CueFaultKind) (cue : Nat) (fig : Option Fig) (door : Option Door) (s : State),
    (s.run l = none → cueFault l k cue fig door s = s) ∧
    (∀ r, s.run l = some r →
      let c : Run := { r with
        faults := satInc r.faults, firstFault := if r.firstFault = none then some (k, cue) else r.firstFault }
      let met (x : Run) := cueFault l k cue fig door s = s.setLane l { s.lane l with run := some x }
      let carries := r.state ≠ .aborting ∧ r.abortPolicy = false
      let figure := k = .stageRefused ∨ k = .stageFailed ∨ k = .moveLate ∨ k = .arrivalEarly ∨ k = .arrivalMissed ∨
        k = .figureLost
      (r.state = .aborting → met c) ∧
      (r.state ≠ .aborting → r.abortPolicy = true → met { c with abortAsked := true }) ∧
      (∀ f, carries → figure → fig = some f → met { c with excluded := r.excluded ||| (1#12 <<< f.val) }) ∧
      (∀ d, carries → k = .doorBlocked ∨ k = .doorStalled → door = some d →
        met { c with skipDoors := r.skipDoors ||| (1#2 <<< d.val) }) ∧
      (carries → k = .turnBlocked ∨ k = .turnFault → met { c with skipTurn := true }) ∧
      (carries → k = .markEarly ∨ k = .markMissed ∨ k = .noCapture → met c)))
end

