-- ==== Sys2Proof/Laws/Inner.lean ====
section
/-! SUPPORT. What the operations inside a command can do to the state: they keep the waiting commands, the elapsed
count, the store's staging buffer, operation and protection, the start-up step and the settings, and the bounds. -/
namespace Sys2Proof.Machine

/-- What no operation inside a command changes. -/
def fixedPart (s : State) :=
  (s.pending, s.tb.elapsed, s.ps.staging, s.ps.stagedLen, s.ps.op, s.ps.writeLevel, s.ps.readLock, s.ps.protLock,
    s.ps.identity, s.hlc.step, s.hlc.powerOn, s.hlc.live, s.hlc.saved, s.hlc.save, s.hlc.source, s.hlc.counts)

/-- A state reached from another inside a command. -/
def Inner (s₀ s : State) : Prop := fixedPart s = fixedPart s₀ ∧ (Bounded s₀ → Bounded s)

variable {s₀ s : State}

theorem Inner.refl (s : State) : Inner s s := ⟨rfl, id⟩

theorem Inner.trans {s₁ s₂ s₃ : State} (h : Inner s₁ s₂) (k : Inner s₂ s₃) : Inner s₁ s₃ :=
  ⟨k.1.trans h.1, fun b => k.2 (h.2 b)⟩

/-- An update that leaves the fixed part, and with it whatever `b` says. Both are written out field by field, so that
they are compared field by field. -/
theorem inner_record {X : State} {tb : TB} {sch : SCH} {ps : PS} {seq : SEQ} {bell : BELL} {dbu : DBU} {flc : FLC}
    {stg : STG} {inm : INM} {hlc : HLC} {free : Nat} (h : Inner s₀ X)
    (e : (tb.elapsed, ps.staging, ps.stagedLen, ps.op, ps.writeLevel, ps.readLock, ps.protLock, ps.identity, hlc.step,
        hlc.powerOn, hlc.live, hlc.saved, hlc.save, hlc.source, hlc.counts) =
      (X.tb.elapsed, X.ps.staging, X.ps.stagedLen, X.ps.op, X.ps.writeLevel, X.ps.readLock, X.ps.protLock,
        X.ps.identity, X.hlc.step, X.hlc.powerOn, X.hlc.live, X.hlc.saved, X.hlc.save, X.hlc.source, X.hlc.counts))
    (b : heldSum X.dbu.claims ≤ X.hlc.live.budget ∧ X.bell.strikes.length ≤ Config.strikeDepth ∧
        X.flc.queue.length ≤ Config.linkDepth ∧ X.seq.laneM.queue.length ≤ Config.laneDepth ∧
        X.seq.laneC.queue.length ≤ Config.laneDepth ∧ Memory.wf X.ps.staging = true →
      heldSum dbu.claims ≤ hlc.live.budget ∧ bell.strikes.length ≤ Config.strikeDepth ∧
        flc.queue.length ≤ Config.linkDepth ∧ seq.laneM.queue.length ≤ Config.laneDepth ∧
        seq.laneC.queue.length ≤ Config.laneDepth ∧ Memory.wf ps.staging = true) :
    Inner s₀ ⟨tb, sch, ps, seq, bell, dbu, flc, stg, inm, hlc, X.pending, free⟩ :=
  ⟨(congrArg (Prod.mk X.pending) e).trans h.1, fun hb => b (h.2 hb)⟩

theorem inner_foldl {α : Type} {f : State → α → State} {l : List α}
    (hf : ∀ s a, Inner s₀ s → Inner s₀ (f s a)) (h : Inner s₀ s) : Inner s₀ (l.foldl f s) := by
  induction l generalizing s with
  | nil => exact h
  | cons a l ih => exact ih (hf s a h)

section
variable (h : Inner s₀ s)
include h
theorem Inner.pending : s.pending = s₀.pending := by have := h.1; simp only [fixedPart, Prod.mk.injEq] at this; tauto
theorem Inner.elapsed : s.tb.elapsed = s₀.tb.elapsed := by
  have := h.1; simp only [fixedPart, Prod.mk.injEq] at this; tauto
theorem Inner.staging : s.ps.staging = s₀.ps.staging := by
  have := h.1; simp only [fixedPart, Prod.mk.injEq] at this; tauto
theorem Inner.stagedLen : s.ps.stagedLen = s₀.ps.stagedLen := by
  have := h.1; simp only [fixedPart, Prod.mk.injEq] at this; tauto
theorem Inner.op : s.ps.op = s₀.ps.op := by have := h.1; simp only [fixedPart, Prod.mk.injEq] at this; tauto
theorem Inner.writeLevel : s.ps.writeLevel = s₀.ps.writeLevel := by
  have := h.1; simp only [fixedPart, Prod.mk.injEq] at this; tauto
theorem Inner.readLock : s.ps.readLock = s₀.ps.readLock := by
  have := h.1; simp only [fixedPart, Prod.mk.injEq] at this; tauto
theorem Inner.protLock : s.ps.protLock = s₀.ps.protLock := by
  have := h.1; simp only [fixedPart, Prod.mk.injEq] at this; tauto
theorem Inner.identity : s.ps.identity = s₀.ps.identity := by
  have := h.1; simp only [fixedPart, Prod.mk.injEq] at this; tauto
theorem Inner.step : s.hlc.step = s₀.hlc.step := by have := h.1; simp only [fixedPart, Prod.mk.injEq] at this; tauto
theorem Inner.powerOn : s.hlc.powerOn = s₀.hlc.powerOn := by
  have := h.1; simp only [fixedPart, Prod.mk.injEq] at this; tauto
theorem Inner.live : s.hlc.live = s₀.hlc.live := by have := h.1; simp only [fixedPart, Prod.mk.injEq] at this; tauto
theorem Inner.saved : s.hlc.saved = s₀.hlc.saved := by
  have := h.1; simp only [fixedPart, Prod.mk.injEq] at this; tauto
theorem Inner.save : s.hlc.save = s₀.hlc.save := by have := h.1; simp only [fixedPart, Prod.mk.injEq] at this; tauto
theorem Inner.source : s.hlc.source = s₀.hlc.source := by
  have := h.1; simp only [fixedPart, Prod.mk.injEq] at this; tauto
theorem Inner.counts : s.hlc.counts = s₀.hlc.counts := by
  have := h.1; simp only [fixedPart, Prod.mk.injEq] at this; tauto
end

/-- A change of the claim list alone that leaves no more units held. -/
theorem inner_claims {X : State} {cs : List Claim} (h : Inner s₀ X) (hc : heldSum cs ≤ heldSum X.dbu.claims) :
    Inner s₀ { X with dbu.claims := cs } :=
  inner_record h rfl fun b => ⟨le_trans hc b.1, b.2⟩

/-- A change of the strike queue alone that makes it no longer. -/
theorem inner_strikes {X : State} {ks : List Strike} (h : Inner s₀ X)
    (hc : ks.length ≤ X.bell.strikes.length) : Inner s₀ { X with bell.strikes := ks } :=
  inner_record h rfl fun b => ⟨b.1, le_trans hc b.2.1, b.2.2⟩

/-- A change of the link queue alone that makes it no longer. -/
theorem inner_link {X : State} {q : List Txn} (h : Inner s₀ X) (hc : q.length ≤ X.flc.queue.length) :
    Inner s₀ { X with flc.queue := q } :=
  inner_record h rfl fun b => ⟨b.1, b.2.1, le_trans hc b.2.2.1, b.2.2.2⟩

/-! ## The update functions -/

theorem raise_inner (d : Detail) (h : Inner s₀ s) : Inner s₀ (raise d s) := by
  unfold raise
  split
  · exact h
  · exact inner_record h rfl id

theorem setLane_inner (l : Lane) (r : LaneRec) (h : Inner s₀ s)
    (hq : Bounded s₀ → r.queue.length ≤ Config.laneDepth) : Inner s₀ (s.setLane l r) := by
  cases l
  · exact ⟨h.1, fun b => ⟨(h.2 b).1, (h.2 b).2.1, (h.2 b).2.2.1, hq b, (h.2 b).2.2.2.2⟩⟩
  · exact ⟨h.1, fun b => ⟨(h.2 b).1, (h.2 b).2.1, (h.2 b).2.2.1, (h.2 b).2.2.2.1, hq b, (h.2 b).2.2.2.2.2⟩⟩

theorem lane_queue_le (l : Lane) (b : Bounded s) : (s.lane l).queue.length ≤ Config.laneDepth := by
  cases l
  · exact b.2.2.2.1
  · exact b.2.2.2.2.1

/-- A lane's record whose queue is as it was. -/
theorem setLane_same_inner (l : Lane) (r : LaneRec) (h : Inner s₀ s) (hq : r.queue = (s.lane l).queue) :
    Inner s₀ (s.setLane l r) := setLane_inner l r h fun b => hq ▸ lane_queue_le l (h.2 b)

theorem mapRun_inner (l : Lane) (f : Run → Run) (h : Inner s₀ s) : Inner s₀ (s.mapRun l f) :=
  setLane_same_inner l _ h rfl

theorem setBell_inner (b : Bell) (r : BellRec) (h : Inner s₀ s) : Inner s₀ (s.setBell b r) := inner_record h rfl id
theorem mapBell_inner (b : Bell) (f : BellRec → BellRec) (h : Inner s₀ s) : Inner s₀ (s.mapBell b f) :=
  inner_record h rfl id
theorem setFig_inner (f : Fig) (r : FigRec) (h : Inner s₀ s) : Inner s₀ (s.setFig f r) := inner_record h rfl id
theorem mapFig_inner (f : Fig) (g : FigRec → FigRec) (h : Inner s₀ s) : Inner s₀ (s.mapFig f g) :=
  inner_record h rfl id
theorem setDoor_inner (d : Door) (r : DoorRec) (h : Inner s₀ s) : Inner s₀ (s.setDoor d r) := inner_record h rfl id
theorem setTurn_inner (r : TurnRec) (h : Inner s₀ s) : Inner s₀ (s.setTurn r) := inner_record h rfl id
theorem mapNode_inner (a : Fin 16) (f : NodeRec → NodeRec) (h : Inner s₀ s) : Inner s₀ (s.mapNode a f) :=
  inner_record h rfl id
theorem setTrig_inner (i : Trig) (r : TrigRec) (h : Inner s₀ s) : Inner s₀ (s.setTrig i r) := inner_record h rfl id
theorem mapTrig_inner (i : Trig) (f : TrigRec → TrigRec) (h : Inner s₀ s) : Inner s₀ (s.mapTrig i f) :=
  inner_record h rfl id
theorem setUnit_inner (u : CapUnit) (r : CapRec) (h : Inner s₀ s) : Inner s₀ (s.setUnit u r) := inner_record h rfl id
theorem setGroup_inner (g : Group) (r : GuardRec) (h : Inner s₀ s) : Inner s₀ (s.setGroup g r) :=
  inner_record h rfl id

theorem sendReply_inner (k tag : Byte) (st : Status) (d : ReplyData) (h : Inner s₀ s) :
    Inner s₀ (sendReply k tag st d s) := inner_record h rfl id

theorem reply_inner (k : Byte) (st : Status) (d : ReplyData) (h : Inner s₀ s) : Inner s₀ (reply k st d s) :=
  sendReply_inner k _ st d h

theorem cueFault_inner (l : Lane) (k : CueFaultKind) (c : Nat) (f : Option Fig) (d : Option Door) (h : Inner s₀ s) :
    Inner s₀ (cueFault l k c f d s) := mapRun_inner l _ h

theorem ownerFault_inner (o : Owner) (k : CueFaultKind) (f : Option Fig) (d : Option Door) (h : Inner s₀ s) :
    Inner s₀ (ownerFault o k f d s) := by
  cases o
  · exact cueFault_inner _ _ _ _ _ h
  · exact h

theorem gated_inner (k : Byte) {f : State → State} (hf : ∀ t, Inner s₀ t → Inner s₀ (f t)) (h : Inner s₀ s) :
    Inner s₀ (gated k f s) := by
  unfold gated
  split
  · exact h
  · split
    · exact reply_inner _ _ _ h
    · exact hf s h

theorem whenDue_inner (b : Bool) {f : State → State} (hf : ∀ t, Inner s₀ t → Inner s₀ (f t)) (h : Inner s₀ s) :
    Inner s₀ (whenDue b f s) := by
  unfold whenDue
  split
  · exact hf s h
  · exact h

end Sys2Proof.Machine
end

