-- ==== Sys2Proof/Laws/Budget.lean ====
section
/-! SUPPORT. The grant pass, releases and withdrawals: the held sum never passes the budget, and nothing outside
the drives and bells changes. -/
namespace Sys2Proof.Machine

variable {s₀ s : State}

/-! ## The held sum -/

theorem heldSum_append (a b : List Claim) : heldSum (a ++ b) = heldSum a + heldSum b := by
  simp [heldSum]

theorem heldSum_cons (c : Claim) (cs : List Claim) : heldSum (c :: cs) = c.heldUnits + heldSum cs := by
  simp [heldSum]

theorem heldUnits_le (c : Claim) : c.heldUnits ≤ c.units := by
  unfold Claim.heldUnits
  split <;> omega

theorem heldSum_filter_le (p : Claim → Bool) (cs : List Claim) : heldSum (cs.filter p) ≤ heldSum cs := by
  induction cs with
  | nil => exact le_rfl
  | cons c cs ih =>
    rw [List.filter_cons]
    split
    · rw [heldSum_cons, heldSum_cons]; omega
    · rw [heldSum_cons]; omega

theorem heldSum_filterMap_le (f : Claim → Option Claim) (hf : ∀ c d, f c = some d → d.heldUnits ≤ c.heldUnits)
    (cs : List Claim) : heldSum (cs.filterMap f) ≤ heldSum cs := by
  induction cs with
  | nil => exact le_rfl
  | cons c cs ih =>
    rw [List.filterMap_cons, heldSum_cons]
    split
    · omega
    · next d hd => rw [heldSum_cons]; have := hf c d hd; omega

theorem heldSum_map_le (f : Claim → Claim) (hf : ∀ c, (f c).heldUnits ≤ c.heldUnits) (cs : List Claim) :
    heldSum (cs.map f) ≤ heldSum cs := by
  induction cs with
  | nil => exact le_rfl
  | cons c cs ih => rw [List.map_cons, heldSum_cons, heldSum_cons]; have := hf c; omega

theorem heldSum_grantAt_le (i : Nat) (cs : List Claim) (c : Claim) (hc : cs[i]? = some c) :
    heldSum (grantAt i cs) ≤ heldSum cs + c.units := by
  induction cs generalizing i with
  | nil => simp at hc
  | cons d cs ih =>
    cases i with
    | zero =>
      simp only [List.getElem?_cons_zero, Option.some.injEq] at hc
      subst hc
      rw [grantAt, heldSum_cons, heldSum_cons, show Claim.heldUnits { d with granted := true } = d.units from rfl]
      omega
    | succ i =>
      simp only [grantAt, heldSum_cons]
      have := ih i (by simpa using hc)
      omega

/-! ## The claim the pass grants -/

theorem bestStrike_place (n : Nat) (cs : List Claim) (j : Nat) (d : Int) (u : Nat)
    (h : bestStrike n cs = some (j, d, u)) : ∃ k c, j = n + k ∧ cs[k]? = some c ∧ c.units = u := by
  induction cs generalizing n with
  | nil => simp [bestStrike] at h
  | cons c cs ih =>
    have tail : bestStrike (n + 1) cs = some (j, d, u) → ∃ k e, j = n + k ∧ (c :: cs)[k]? = some e ∧ e.units = u := by
      intro ht
      obtain ⟨k, e, hj, he, hu⟩ := ih (n + 1) ht
      exact ⟨k + 1, e, by omega, by simpa using he, hu⟩
    have head : n = j → c.units = u → ∃ k e, j = n + k ∧ (c :: cs)[k]? = some e ∧ e.units = u :=
      fun hj hu => ⟨0, c, hj.symm, rfl, hu⟩
    unfold bestStrike at h
    split at h
    · next hb =>
      split at h
      · simp only [Option.some.injEq, Prod.mk.injEq] at h
        exact head h.1 h.2.2
      · exact tail (hb.trans h)
    · simp only [Option.some.injEq, Prod.mk.injEq] at h
      exact head h.1 h.2.2
    · exact tail h

theorem firstMove_place (n : Nat) (cs : List Claim) (j u : Nat) (h : firstMove n cs = some (j, u)) :
    ∃ k c, j = n + k ∧ cs[k]? = some c ∧ c.units = u := by
  induction cs generalizing n with
  | nil => simp [firstMove] at h
  | cons c cs ih =>
    unfold firstMove at h
    split at h
    · simp only [Option.some.injEq, Prod.mk.injEq] at h
      exact ⟨0, c, h.1.symm, rfl, h.2⟩
    · obtain ⟨k, e, hj, he, hu⟩ := ih (n + 1) h
      exact ⟨k + 1, e, by omega, by simpa using he, hu⟩

/-- The claim granted next is on the list and fits in the free units. -/
theorem nextGrant_fits (free : Nat) (cs : List Claim) (i : Nat) (h : nextGrant free cs = some i) :
    ∃ c, cs[i]? = some c ∧ c.units ≤ free := by
  unfold nextGrant at h
  split at h
  · next hb =>
    split at h
    · obtain ⟨k, c, hj, hc, hu⟩ := bestStrike_place _ _ _ _ _ hb
      simp only [Option.some.injEq] at h
      exact ⟨c, by rw [← h, hj, Nat.zero_add]; exact hc, by omega⟩
    · simp at h
  · split at h
    · next hb =>
      split at h
      · obtain ⟨k, c, hj, hc, hu⟩ := firstMove_place _ _ _ _ hb
        simp only [Option.some.injEq] at h
        exact ⟨c, by rw [← h, hj, Nat.zero_add]; exact hc, by omega⟩
      · simp at h
    · simp at h

/-! ## What a grant starts -/

theorem startPulse_inner (b : Bell) (due : Int) (h : Inner s₀ s) : Inner s₀ (startPulse b due s) := by
  unfold startPulse
  split
  · exact inner_strikes (X := { s with bell.bells := _ }) (inner_record h rfl id) List.length_erase_le
  · exact h

/-- Taking the claims of a key off the list, in any state that differs in nothing the bounds speak of. -/
theorem dropKey_inner (k : ClaimKey) (h : Inner s₀ s) :
    Inner s₀ { s with dbu.claims := dropKey k s.dbu.claims } := inner_claims h (heldSum_filter_le _ _)

theorem doorGranted_inner (d : Door) (h : Inner s₀ s) : Inner s₀ (doorGranted d s) := by
  unfold doorGranted
  dsimp only
  repeat' first
    | exact h
    | with_reducible apply raise_inner
    | with_reducible apply setDoor_inner
    | with_reducible apply dropKey_inner
    | split

theorem turnStart_inner (c : TurnCmd) (h : Inner s₀ s) : Inner s₀ (turnStart c s) := by
  unfold turnStart
  dsimp only
  repeat' first
    | exact h
    | exact inner_record h rfl id
    | exact inner_claims (X := { s with stg.turn := _ }) (inner_record h rfl id) (heldSum_filter_le _ _)
    | split

theorem turnGranted_inner (h : Inner s₀ s) : Inner s₀ (turnGranted s) := by
  unfold turnGranted
  dsimp only
  repeat' first
    | exact h
    | with_reducible apply raise_inner
    | with_reducible apply turnStart_inner
    | exact inner_record h rfl fun b => ⟨le_trans (heldSum_filter_le _ _) b.1, b.2⟩
    | split

theorem tellGranted_inner (k : ClaimKind) (h : Inner s₀ s) : Inner s₀ (tellGranted k s) := by
  cases k
  · exact startPulse_inner _ _ h
  · exact h
  · exact doorGranted_inner _ h
  · exact turnGranted_inner h

/-- A grant of a claim that fits keeps the bounds. -/
theorem grantOne_inner (i : Nat) (h : Inner s₀ s)
    (fits : ∃ c, s.dbu.claims[i]? = some c ∧ c.units ≤ s.freeUnits) : Inner s₀ (grantOne i s) := by
  obtain ⟨c, hc, hu⟩ := fits
  unfold grantOne
  rw [hc]
  refine tellGranted_inner c.kind (inner_record h rfl fun b => ⟨?_, b.2⟩)
  have := heldSum_grantAt_le i s.dbu.claims c hc
  have hb : heldSum s.dbu.claims ≤ s.hlc.live.budget := b.1
  unfold State.freeUnits State.held at hu
  show heldSum (grantAt i s.dbu.claims) ≤ s.hlc.live.budget
  omega

theorem grantLoop_inner (n : Nat) (h : Inner s₀ s) : Inner s₀ (grantLoop n s) := by
  induction n generalizing s with
  | zero => exact h
  | succ n ih =>
    unfold grantLoop
    split
    · exact h
    · next i hi => exact ih (grantOne_inner i h (nextGrant_fits _ _ _ hi))

theorem grantPass_inner (h : Inner s₀ s) : Inner s₀ (grantPass s) := grantLoop_inner _ h

/-! ## Claims, releases and withdrawals -/

theorem makeClaim_inner (k : ClaimKind) (units : Nat) (h : Inner s₀ s) : Inner s₀ (makeClaim k units s) := by
  refine grantPass_inner (inner_claims h ?_)
  rw [heldSum_append]
  have : heldSum [{ kind := k, units := units, granted := decide (units = 0), arrival := s.tb.elapsed }] = 0 := by
    simp [heldSum, Claim.heldUnits]
  omega

theorem dropClaim_inner (k : ClaimKey) (h : Inner s₀ s) : Inner s₀ (dropClaim k s) := by
  unfold dropClaim
  split
  · exact grantPass_inner (dropKey_inner k h)
  · exact h

/-- What `dropKeys` can do: nothing, or take claims off the list and make a grant pass. -/
theorem dropKeys_inner (ks : List ClaimKey) (h : Inner s₀ s) : Inner s₀ (dropKeys ks s) := by
  unfold dropKeys
  split
  · exact grantPass_inner (inner_claims h (heldSum_filter_le _ _))
  · exact h

/-- A share that goes back never raises what its claim holds. -/
theorem releaseShare_heldUnits (ref : MoveRef) (f : Fig) (c d : Claim) (h : releaseShare ref f c = some d) :
    d.heldUnits ≤ c.heldUnits := by
  unfold releaseShare at h
  split at h
  · split at h
    · generalize hp : (if c.granted then releaseIn f _ else removeShare f _) = p at h
      obtain ⟨left, u⟩ := p
      dsimp only at h
      generalize (if c.granted then left.all (·.released) else decide (c.units - u = 0)) = gone at h
      cases gone
      · simp only [Bool.false_eq_true, if_false, Option.some.injEq] at h
        subst h
        simp only [Claim.heldUnits]
        split <;> omega
      · simp at h
    · simp only [Option.some.injEq] at h; subst h; exact le_rfl
  · simp only [Option.some.injEq] at h; subst h; exact le_rfl

theorem release_inner (ref : MoveRef) (f : Fig) (h : Inner s₀ s) : Inner s₀ (release ref f s) := by
  unfold release
  split
  · exact grantPass_inner (inner_claims h (heldSum_filterMap_le _ (releaseShare_heldUnits ref f) _))
  · exact h

end Sys2Proof.Machine
end

