-- ==== Sys2Proof/Laws/Link.lean ====
section
/-! SUPPORT. The Figure Link Controller's queue: no operation makes it longer than its depth, and none changes anything
else `Inner` speaks of. -/
namespace Sys2Proof.Machine

variable {s₀ s : State}

theorem countLink_inner (f : LinkCounters → LinkCounters) (h : Inner s₀ s) : Inner s₀ (countLink f s) := by
  unfold countLink
  repeat' first
    | with_reducible assumption
    | exact inner_record (by with_reducible assumption) rfl id

theorem pushTxn_inner (t : Txn) (room : s.flc.queue.length < Config.linkDepth) (h : Inner s₀ s) :
    Inner s₀ (pushTxn t s) :=
  inner_record h rfl fun b => ⟨b.1, b.2.1, by
    show (s.flc.queue ++ [t]).length ≤ Config.linkDepth
    rw [List.length_append, List.length_singleton]
    omega, b.2.2.2⟩

theorem linkAnswer_room (ha : linkAnswer s = .queued) : s.flc.queue.length < Config.linkDepth := by
  unfold linkAnswer at ha
  split at ha
  · simp at ha
  · split at ha
    · simp at ha
    · omega

theorem enqueue_inner (k : LinkKind) (a : Fin 16) (data : List Byte) (o : TxnOwner) (h : Inner s₀ s) :
    Inner s₀ (enqueue k a data o s) := by
  unfold enqueue
  split
  · next ha => exact pushTxn_inner _ (linkAnswer_room ha) h
  · exact countLink_inner _ h
  · exact h

/-- The link's state with its queue no longer than it was. -/
theorem inner_flc {X : State} {f : FLC} (h : Inner s₀ X) (hq : f.queue.length ≤ X.flc.queue.length) :
    Inner s₀ { X with flc := f } :=
  inner_record h rfl fun b => ⟨b.1, b.2.1, le_trans hq b.2.2.1, b.2.2.2⟩

theorem withdrawTxns_inner (p : TxnOwner → Bool) (h : Inner s₀ s) : Inner s₀ (withdrawTxns p s) :=
  inner_flc h (List.length_filter_le _ _)

theorem withdrawQueued_inner (p : TxnOwner → Bool) (h : Inner s₀ s) : Inner s₀ (withdrawQueued p s) :=
  inner_flc h (List.length_filter_le _ _)

theorem overtake_inner (h : Inner s₀ s) : Inner s₀ (overtake s) := by
  unfold overtake
  repeat' first
    | with_reducible assumption
    | exact inner_record (by with_reducible assumption) rfl id

theorem newest_mem (c : TxnClass) (q : List Txn) (t : Txn) (ht : newest c q = some t) : t ∈ q :=
  List.mem_reverse.mp (List.mem_of_find?_eq_some ht)

theorem displaced_mem (q : List Txn) (t : Txn) (ht : displaced q = some t) : t ∈ q := by
  unfold displaced at ht
  cases hh : newest .host q with
  | some x => rw [hh] at ht; exact newest_mem _ _ _ (hh.trans ht)
  | none =>
    rw [hh] at ht
    cases hs : newest .show_ q with
    | some x => rw [hs] at ht; exact newest_mem _ _ _ (hs.trans ht)
    | none => rw [hs] at ht; exact newest_mem _ _ _ ht

theorem filter_not_length_lt (p : Txn → Bool) (q : List Txn) (hp : q.any p = true) :
    (q.filter fun t => !p t).length + 1 ≤ q.length := by
  induction q with
  | nil => simp at hp
  | cons t q ih =>
    cases ht : p t with
    | true =>
      simp only [List.filter_cons, ht, Bool.not_true, Bool.false_eq_true, if_false, List.length_cons]
      have := List.length_filter_le (fun t => !p t) q
      omega
    | false =>
      simp only [List.any_cons, ht, Bool.false_or] at hp
      simp only [List.filter_cons, ht, Bool.not_false, if_true, List.length_cons]
      have := ih hp
      omega

theorem placeHalt_inner (a : Fin 16) (o : TxnOwner) (h : Inner s₀ s) : Inner s₀ (placeHalt a o s).1 := by
  unfold placeHalt
  dsimp only
  split
  · exact inner_flc h (List.length_map _).le
  · split
    · next hu =>
      refine inner_flc h ?_
      have := filter_not_length_lt (fun t => t.cls == .urgent) s.flc.queue hu.2
      dsimp only
      rw [List.length_append, List.length_singleton]
      exact this
    · split
      · next hr => exact pushTxn_inner _ hr h
      · split
        · next t ht =>
          refine inner_flc h ?_
          have hm := displaced_mem _ _ ht
          have := List.length_pos_of_mem hm
          dsimp only
          rw [List.length_append, List.length_singleton, List.length_erase_of_mem hm]
          omega
        · next hr _ =>
          refine inner_flc h ?_
          have : 0 < Config.linkDepth := by decide
          dsimp only
          rw [List.length_singleton]
          omega

theorem requestWake_inner (again : Bool) (h : Inner s₀ s) : Inner s₀ (requestWake again s) := by
  unfold requestWake
  dsimp only
  split
  · exact h
  · split
    · exact inner_flc h (List.length_map _).le
    · split
      · exact inner_record (enqueue_inner _ _ _ _ h) rfl id
      · exact enqueue_inner _ _ _ _ h
      · exact enqueue_inner _ _ _ _ h

theorem launch_inner (t : Txn) (h : Inner s₀ s) : Inner s₀ (launch t s) := by
  unfold launch
  repeat' first
    | with_reducible assumption
    | exact inner_record (by with_reducible assumption) rfl id

theorem startWake_inner (h : Inner s₀ s) : Inner s₀ (startWake s) := by
  unfold startWake
  repeat' first
    | with_reducible assumption
    | exact inner_record (by with_reducible assumption) rfl id

theorem take_inner (x : Taken) (h : Inner s₀ s) : Inner s₀ (take x s) := by
  cases x with
  | entry t =>
    have hq : Inner s₀ { s with flc.queue := s.flc.queue.erase t } := inner_flc h List.length_erase_le
    unfold take
    dsimp only
    split
    · exact startWake_inner hq
    · exact launch_inner _ hq
  | sweep a rest begun => exact inner_record h rfl id
  | emptySweep => exact inner_record h rfl id

theorem freeIn_inner (n : Nat) (h : Inner s₀ s) : Inner s₀ (freeIn n s) := inner_record h rfl id

theorem freeLine_inner (h : Inner s₀ s) : Inner s₀ (freeLine s) := freeIn_inner _ h

/-- What `tidySweep` can do: nothing, or end the sweep. -/
theorem tidySweep_inner (h : Inner s₀ s) : Inner s₀ (tidySweep s) := by
  unfold tidySweep
  split
  · exact inner_record h rfl id
  · exact h

theorem passOver_inner (a : Fin 16) (h : Inner s₀ s) : Inner s₀ (passOver a s) :=
  tidySweep_inner (inner_record h rfl id)

theorem pollChoice_inner (a : Fin 16) (t : State) (hc : pollChoice s = some (a, t)) (h : Inner s₀ s) : Inner s₀ t := by
  unfold pollChoice at hc
  dsimp only at hc
  repeat' split at hc
  all_goals first
    | (simp only [Option.some.injEq, Prod.mk.injEq] at hc
       rw [← hc.2]
       exact h)
    | exact absurd hc (by simp)

theorem pollTick_inner (h : Inner s₀ s) : Inner s₀ (pollTick s) := by
  have ht : Inner s₀ { s with flc.nextTick := some (s.tb.elapsed + 20) } := inner_record h rfl id
  unfold pollTick
  dsimp only
  split
  · split
    · next hc => exact enqueue_inner _ _ _ _ (pollChoice_inner _ _ hc ht)
    · exact ht
  · exact ht

theorem bindNodes_inner (bound : List (Fin 16)) (h : Inner s₀ s) : Inner s₀ (bindNodes bound s) :=
  tidySweep_inner (inner_record h rfl id)

end Sys2Proof.Machine
end

