-- ==== Sys2Proof/Laws/Stage.lean ====
section
/-! SUPPORT. The Stage Controller's operations keep what `Inner` says. -/
namespace Sys2Proof.Machine

variable {s₀ s : State}

theorem leaveMove_inner (f : Fig) (st : FigState) (h : Inner s₀ s) : Inner s₀ (leaveMove f st s) := by
  unfold leaveMove
  repeat' first
    | with_reducible assumption
    | with_reducible apply release_inner
    | with_reducible apply mapFig_inner

theorem reportFig_inner (f : Fig) (k : CueFaultKind) (h : Inner s₀ s) : Inner s₀ (reportFig f k s) := by
  unfold reportFig
  dsimp only
  repeat' first
    | with_reducible assumption
    | with_reducible apply ownerFault_inner
    | split

theorem withdrawFig_inner (f : Fig) (h : Inner s₀ s) : Inner s₀ (withdrawFig f s) := by
  unfold withdrawFig
  dsimp only
  repeat' first
    | with_reducible assumption
    | with_reducible apply mapFig_inner
    | with_reducible apply enqueue_inner
    | with_reducible apply withdrawQueued_inner
    | split

theorem failStaged_inner (k : CueFaultKind) (f : Fig) (h : Inner s₀ s) : Inner s₀ (failStaged k f s) := by
  unfold failStaged
  dsimp only
  repeat' first
    | with_reducible assumption
    | with_reducible apply release_inner
    | with_reducible apply reportFig_inner
    | with_reducible apply withdrawFig_inner

theorem homeFails_inner (f : Fig) (h : Inner s₀ s) : Inner s₀ (homeFails f s) := by
  unfold homeFails
  dsimp only
  repeat' first
    | with_reducible assumption
    | with_reducible apply raise_inner
    | with_reducible apply dropClaim_inner
    | with_reducible apply mapFig_inner
    | with_reducible apply withdrawTxns_inner

theorem clearFails_inner (f : Fig) (h : Inner s₀ s) : Inner s₀ (clearFails f s) := by
  unfold clearFails
  repeat' first
    | with_reducible assumption
    | with_reducible apply mapFig_inner
    | split

theorem linkRefused_inner (o : TxnOwner) (h : Inner s₀ s) : Inner s₀ (linkRefused o s) := by
  unfold linkRefused
  repeat' first
    | with_reducible assumption
    | with_reducible apply sendReply_inner
    | with_reducible apply leaveMove_inner
    | with_reducible apply reportFig_inner
    | with_reducible apply homeFails_inner
    | with_reducible apply clearFails_inner
    | split
    | exact inner_record (by with_reducible assumption) rfl id

theorem linkFailed_inner (o : TxnOwner) (e : LinkError) (h : Inner s₀ s) : Inner s₀ (linkFailed o e s) := by
  unfold linkFailed
  repeat' first
    | with_reducible assumption
    | with_reducible apply inner_foldl
    | intro _ _ _
    | with_reducible apply sendReply_inner
    | with_reducible apply failStaged_inner
    | with_reducible apply homeFails_inner
    | with_reducible apply clearFails_inner
    | split

theorem guardHalts_inner (f : Fig) (h : Inner s₀ s) : Inner s₀ (guardHalts f s) := by
  unfold guardHalts
  dsimp only
  repeat' first
    | with_reducible assumption
    | with_reducible apply withdrawTxns_inner
    | with_reducible apply leaveMove_inner
    | split

theorem foreignHalt_inner (f : Fig) (h : Inner s₀ s) : Inner s₀ (foreignHalt f s) := by
  unfold foreignHalt
  dsimp only
  repeat' first
    | with_reducible assumption
    | with_reducible apply withdrawTxns_inner
    | with_reducible apply leaveMove_inner
    | with_reducible apply reportFig_inner
    | split

theorem haltDone_inner (a : Fin 16) (o : TxnOwner) (h : Inner s₀ s) : Inner s₀ (haltDone a o s) := by
  unfold haltDone
  repeat' first
    | with_reducible assumption
    | with_reducible apply inner_foldl
    | intro _ _ _
    | with_reducible apply guardHalts_inner
    | with_reducible apply foreignHalt_inner
    | split

theorem sendHalt_inner (a : Fin 16) (run guard : Bool) (figs : BitVec 12) (h : Inner s₀ s) :
    Inner s₀ (sendHalt a run guard figs s) := by
  have hp := overtake_inner (placeHalt_inner a (.halt run guard figs) h)
  unfold sendHalt
  dsimp only
  split
  · exact haltDone_inner _ _ h
  · split
    · next t _ =>
      split
      · exact hp
      · exact linkRefused_inner _ (countLink_inner _ hp)
    · exact hp

theorem haltFig_inner (run : Bool) (f : Fig) (h : Inner s₀ s) : Inner s₀ (haltFig run f s) := by
  unfold haltFig
  repeat' first
    | with_reducible assumption
    | with_reducible apply sendHalt_inner

theorem forgetTxns_inner (h : Inner s₀ s) : Inner s₀ (forgetTxns s) := inner_flc h (List.length_map _).le

theorem queueStage_inner (f : Fig) (h : Inner s₀ s) : Inner s₀ (queueStage f s) := by
  unfold queueStage
  dsimp only
  repeat' first
    | with_reducible assumption
    | with_reducible apply enqueue_inner
    | with_reducible apply linkRefused_inner
    | with_reducible apply linkFailed_inner
    | split

theorem takeMove_inner (cue : Nat) (duration : Nat) (windowOpen : Nat) (grace : Nat) (tolerance : Nat)
    (due : Int) (pairs : List (Fig × Int)) (resumed : Bool) (h : Inner s₀ s) :
    Inner s₀ (takeMove cue duration windowOpen grace tolerance due pairs resumed s) := by
  unfold takeMove
  dsimp only
  repeat' first
    | with_reducible assumption
    | with_reducible apply inner_foldl
    | intro _ _ _
    | with_reducible apply cueFault_inner
    | with_reducible apply makeClaim_inner
    | with_reducible apply mapFig_inner
    | with_reducible apply leaveMove_inner
    | with_reducible apply reportFig_inner
    | with_reducible apply queueStage_inner
    | split
    | exact inner_record (by with_reducible assumption) rfl id
    | refine inner_record ?_ rfl id

theorem queueGo_inner (t : Nat) (h : Inner s₀ s) : Inner s₀ (queueGo t s) := by
  unfold queueGo
  dsimp only
  repeat' first
    | with_reducible assumption
    | with_reducible apply enqueue_inner
    | with_reducible apply linkRefused_inner
    | with_reducible apply linkFailed_inner
    | split
    | exact inner_record (by with_reducible assumption) rfl id
    | refine inner_record ?_ rfl id

theorem missGo_inner (t : Nat) (h : Inner s₀ s) : Inner s₀ (missGo t s) := by
  unfold missGo
  split
  · exact h
  · refine dropClaim_inner _ (inner_foldl (fun _ f ht => withdrawFig_inner f (reportFig_inner f _ ht)) ?_)
    exact inner_record (withdrawQueued_inner _ h) rfl id

theorem goDone_inner (t : Nat) (h : Inner s₀ s) : Inner s₀ (goDone t s) := by
  unfold goDone
  repeat' first
    | with_reducible assumption
    | with_reducible apply inner_foldl
    | intro _ _ _
    | with_reducible apply mapFig_inner

theorem holdFig_inner (f : Fig) (h : Inner s₀ s) : Inner s₀ (holdFig f s) := by
  unfold holdFig
  dsimp only
  repeat' first
    | with_reducible assumption
    | with_reducible apply dropClaim_inner
    | with_reducible apply release_inner
    | with_reducible apply mapFig_inner
    | with_reducible apply enqueue_inner
    | with_reducible apply withdrawQueued_inner
    | with_reducible apply haltFig_inner
    | split

theorem holdFigs_inner (h : Inner s₀ s) : Inner s₀ (holdFigs s) := by
  unfold holdFigs
  repeat' first
    | with_reducible assumption
    | with_reducible apply inner_foldl
    | intro _ _ _
    | with_reducible apply holdFig_inner
    | split

theorem resumeCue_inner (r : Run) (cue : Nat) (h : Inner s₀ s) : Inner s₀ (resumeCue r s cue) := by
  unfold resumeCue
  dsimp only
  repeat' first
    | with_reducible assumption
    | with_reducible apply inner_foldl
    | intro _ _ _
    | with_reducible apply mapFig_inner
    | with_reducible apply takeMove_inner
    | split

theorem abortWithdraw_inner (f : Fig) (h : Inner s₀ s) : Inner s₀ (abortWithdraw f s) := by
  unfold abortWithdraw
  dsimp only
  repeat' first
    | with_reducible assumption
    | with_reducible apply mapFig_inner
    | with_reducible apply withdrawQueued_inner
    | split

theorem withdrawRun_inner (h : Inner s₀ s) : Inner s₀ (withdrawRun s) :=
  inner_foldl (fun _ f ht => abortWithdraw_inner f ht) (withdrawQueued_inner _ h)

theorem abortHalt_inner (f : Fig) (h : Inner s₀ s) : Inner s₀ (abortHalt f s) := by
  unfold abortHalt
  split
  · exact leaveMove_inner _ _ (haltFig_inner _ _ h)
  · exact h

theorem abortFigs_inner (h : Inner s₀ s) : Inner s₀ (abortFigs s) :=
  inner_foldl (fun _ f ht => abortHalt_inner f ht) (withdrawRun_inner h)

theorem endDoorCmd_inner (d : Door) (st : DoorState) (h : Inner s₀ s) : Inner s₀ (endDoorCmd d st s) := by
  unfold endDoorCmd
  repeat' first
    | with_reducible assumption
    | with_reducible apply dropClaim_inner
    | with_reducible apply setDoor_inner

theorem stopDoor_inner (d : Door) (h : Inner s₀ s) : Inner s₀ (stopDoor d s) := by
  unfold stopDoor
  repeat' first
    | with_reducible assumption
    | with_reducible apply endDoorCmd_inner
    | split

theorem claimDoor_inner (d : Door) (h : Inner s₀ s) : Inner s₀ (claimDoor d s) := by
  unfold claimDoor
  dsimp only
  repeat' first
    | with_reducible assumption
    | with_reducible apply raise_inner
    | with_reducible apply ownerFault_inner
    | with_reducible apply makeClaim_inner
    | with_reducible apply setDoor_inner
    | split

theorem takeDoor_inner (d : Door) (g : Goal) (o : Owner) (h : Inner s₀ s) : Inner s₀ (takeDoor d g o s) := by
  unfold takeDoor
  dsimp only
  repeat' first
    | with_reducible assumption
    | with_reducible apply setDoor_inner
    | with_reducible apply stopDoor_inner
    | with_reducible apply claimDoor_inner
    | split

theorem doorTimesOut_inner (d : Door) (c : DoorCmd) (h : Inner s₀ s) : Inner s₀ (doorTimesOut d c s) := by
  unfold doorTimesOut
  dsimp only
  repeat' first
    | with_reducible assumption
    | with_reducible apply raise_inner
    | with_reducible apply ownerFault_inner
    | with_reducible apply endDoorCmd_inner
    | split

theorem doorStalls_inner (d : Door) (c : DoorCmd) (h : Inner s₀ s) : Inner s₀ (doorStalls d c s) := by
  unfold doorStalls
  dsimp only
  repeat' first
    | with_reducible assumption
    | with_reducible apply raise_inner
    | with_reducible apply ownerFault_inner
    | with_reducible apply endDoorCmd_inner

theorem doorInterlockStop_inner (d : Door) (h : Inner s₀ s) : Inner s₀ (doorInterlockStop d s) := by
  unfold doorInterlockStop
  dsimp only
  repeat' first
    | with_reducible assumption
    | with_reducible apply raise_inner
    | with_reducible apply ownerFault_inner
    | with_reducible apply endDoorCmd_inner
    | split

theorem doorRetest_inner (d : Door) (h : Inner s₀ s) : Inner s₀ (doorRetest d s) := by
  unfold doorRetest
  repeat' first
    | with_reducible assumption
    | with_reducible apply claimDoor_inner
    | split

theorem doorLimitChange_inner (d : Door) (g : Goal) (active : Bool) (h : Inner s₀ s) :
    Inner s₀ (doorLimitChange d g active s) := by
  unfold doorLimitChange doorLimitChange.follow
  dsimp only
  repeat' first
    | with_reducible assumption
    | with_reducible apply endDoorCmd_inner
    | with_reducible apply setDoor_inner
    | split

theorem endTurnCmd_inner (st : TurnState) (count : Option (Fin 12)) (h : Inner s₀ s) :
    Inner s₀ (endTurnCmd st count s) := by
  unfold endTurnCmd
  repeat' first
    | with_reducible assumption
    | with_reducible apply dropClaim_inner
    | with_reducible apply setTurn_inner

theorem stopTurn_inner (h : Inner s₀ s) : Inner s₀ (stopTurn s) := by
  unfold stopTurn
  repeat' first
    | with_reducible assumption
    | with_reducible apply endTurnCmd_inner
    | split

theorem claimTurn_inner (h : Inner s₀ s) : Inner s₀ (claimTurn s) := by
  unfold claimTurn
  dsimp only
  repeat' first
    | with_reducible assumption
    | with_reducible apply raise_inner
    | with_reducible apply ownerFault_inner
    | with_reducible apply makeClaim_inner
    | with_reducible apply setTurn_inner
    | split

theorem takeTurn_inner (g : TurnGoal) (o : Owner) (h : Inner s₀ s) : Inner s₀ (takeTurn g o s) := by
  unfold takeTurn
  dsimp only
  repeat' first
    | with_reducible assumption
    | with_reducible apply ownerFault_inner
    | with_reducible apply setTurn_inner
    | with_reducible apply stopTurn_inner
    | with_reducible apply claimTurn_inner
    | split

theorem turnTimesOut_inner (c : TurnCmd) (h : Inner s₀ s) : Inner s₀ (turnTimesOut c s) := by
  unfold turnTimesOut
  dsimp only
  repeat' first
    | with_reducible assumption
    | with_reducible apply raise_inner
    | with_reducible apply ownerFault_inner
    | with_reducible apply endTurnCmd_inner
    | split

theorem turnFails_inner (k : TurnFault) (h : Inner s₀ s) : Inner s₀ (turnFails k s) := by
  unfold turnFails
  repeat' first
    | with_reducible assumption
    | with_reducible apply raise_inner
    | with_reducible apply ownerFault_inner
    | with_reducible apply endTurnCmd_inner
    | split

theorem turnInterlockStop_inner (h : Inner s₀ s) : Inner s₀ (turnInterlockStop s) := by
  unfold turnInterlockStop
  dsimp only
  repeat' first
    | with_reducible assumption
    | with_reducible apply raise_inner
    | with_reducible apply ownerFault_inner
    | with_reducible apply endTurnCmd_inner
    | split

theorem turnRetest_inner (h : Inner s₀ s) : Inner s₀ (turnRetest s) := by
  unfold turnRetest
  repeat' first
    | with_reducible assumption
    | with_reducible apply claimTurn_inner
    | split

theorem indexEdge_inner (h : Inner s₀ s) : Inner s₀ (indexEdge s) := by
  unfold indexEdge
  dsimp only
  repeat' first
    | with_reducible assumption
    | with_reducible apply setTurn_inner
    | with_reducible apply endTurnCmd_inner
    | with_reducible apply turnFails_inner
    | split

theorem homeEdge_inner (h : Inner s₀ s) : Inner s₀ (homeEdge s) := by
  unfold homeEdge
  dsimp only
  repeat' first
    | with_reducible assumption
    | with_reducible apply setTurn_inner
    | with_reducible apply endTurnCmd_inner
    | split

theorem dropEmptyGos_inner (h : Inner s₀ s) : Inner s₀ (dropEmptyGos s) :=
  inner_record h rfl fun b => ⟨b.1, b.2.1, le_trans (List.length_filter_le _ _) b.2.2.1, b.2.2.2⟩

theorem stageCheck_inner (h : Inner s₀ s) : Inner s₀ (stageCheck s) := by
  unfold stageCheck
  dsimp only
  repeat' first
    | with_reducible assumption
    | with_reducible apply inner_foldl
    | intro _ _ _
    | with_reducible apply doorInterlockStop_inner
    | with_reducible apply doorRetest_inner
    | with_reducible apply turnInterlockStop_inner
    | with_reducible apply turnRetest_inner
    | with_reducible apply dropEmptyGos_inner

theorem nodeFault_inner (f : Fig) (h : Inner s₀ s) : Inner s₀ (nodeFault f s) := by
  unfold nodeFault
  repeat' first
    | with_reducible assumption
    | with_reducible apply raise_inner
    | with_reducible apply leaveMove_inner

theorem movingReport_inner (f : Fig) (w : NodeReport) (h : Inner s₀ s) : Inner s₀ (movingReport f w s) := by
  unfold movingReport
  dsimp only
  repeat' first
    | with_reducible assumption
    | with_reducible apply raise_inner
    | with_reducible apply leaveMove_inner
    | with_reducible apply reportFig_inner
    | with_reducible apply haltFig_inner
    | with_reducible apply nodeFault_inner
    | split

theorem stageReport_inner (f : Fig) (w : NodeReport) (h : Inner s₀ s) : Inner s₀ (stageReport f w s) := by
  unfold stageReport
  dsimp only
  repeat' first
    | with_reducible assumption
    | with_reducible apply mapFig_inner
    | with_reducible apply withdrawTxns_inner
    | with_reducible apply reportFig_inner
    | with_reducible apply haltFig_inner
    | with_reducible apply nodeFault_inner
    | with_reducible apply movingReport_inner
    | split

theorem loseRecord_inner (f : Fig) (h : Inner s₀ s) : Inner s₀ (loseRecord f s) := by
  unfold loseRecord
  repeat' first
    | with_reducible assumption
    | with_reducible apply cueFault_inner
    | with_reducible apply mapFig_inner
    | split

theorem figureSilent_inner (f : Fig) (h : Inner s₀ s) : Inner s₀ (figureSilent f s) := by
  unfold figureSilent
  dsimp only
  repeat' first
    | with_reducible assumption
    | with_reducible apply raise_inner
    | with_reducible apply mapFig_inner
    | with_reducible apply withdrawTxns_inner
    | with_reducible apply leaveMove_inner
    | with_reducible apply reportFig_inner
    | with_reducible apply loseRecord_inner
    | split

theorem windowCloses_inner (f : Fig) (h : Inner s₀ s) : Inner s₀ (windowCloses f s) := by
  unfold windowCloses
  dsimp only
  repeat' first
    | with_reducible assumption
    | with_reducible apply raise_inner
    | with_reducible apply leaveMove_inner
    | with_reducible apply reportFig_inner
    | with_reducible apply haltFig_inner

theorem rebindFig_inner (f : Fig) (next : Option (Fin 16)) (h : Inner s₀ s) : Inner s₀ (rebindFig f next s) := by
  unfold rebindFig
  dsimp only
  repeat' first
    | with_reducible assumption
    | with_reducible apply mapFig_inner
    | with_reducible apply withdrawTxns_inner
    | with_reducible apply leaveMove_inner
    | with_reducible apply reportFig_inner
    | with_reducible apply haltFig_inner
    | with_reducible apply loseRecord_inner
    | split

theorem takeMachinery_inner (m : Machinery) (h : Inner s₀ s) : Inner s₀ (takeMachinery m s) := by
  unfold takeMachinery
  extract_lets s₁ g s₂ fresh s₃
  have h₁ : Inner s₀ s₁ := inner_foldl (fun s f hs => rebindFig_inner f (m.figs.get f).address hs) h
  clear_value s₁
  have h₃ : Inner s₀ s₃ := bindNodes_inner _ (inner_record h₁ rfl id)
  split
  · exact requestWake_inner _ h₃
  · exact h₃

end Sys2Proof.Machine
end

