-- ==== Sys2Proof/Laws/Attempts.lean ====
section
/-! SUPPORT. Attempts on the link keep what `Inner` says. -/
namespace Sys2Proof.Machine

variable {s₀ s : State}

theorem endFlight_inner (h : Inner s₀ s) : Inner s₀ (endFlight s) := by
  unfold endFlight
  repeat' first
    | with_reducible assumption
    | with_reducible apply freeLine_inner
    | exact inner_record (by with_reducible assumption) rfl id

theorem nodeFailure_inner (a : Fin 16) (e : LinkError) (h : Inner s₀ s) : Inner s₀ (nodeFailure a e s) := by
  unfold nodeFailure
  dsimp only
  repeat' first
    | with_reducible assumption
    | with_reducible apply raise_inner
    | with_reducible apply passOver_inner
    | with_reducible apply mapNode_inner
    | with_reducible apply figureSilent_inner
    | split

theorem failTxn_inner (t : Txn) (e : LinkError) (h : Inner s₀ s) : Inner s₀ (failTxn t e s) := by
  unfold failTxn
  dsimp only
  repeat' first
    | with_reducible assumption
    | with_reducible apply linkFailed_inner
    | with_reducible apply haltDone_inner
    | with_reducible apply tidySweep_inner
    | with_reducible apply nodeFailure_inner
    | split

theorem failAttempt_inner (e : LinkError) (h : Inner s₀ s) : Inner s₀ (failAttempt e s) := by
  unfold failAttempt
  dsimp only
  repeat' first
    | with_reducible assumption
    | with_reducible apply countLink_inner
    | with_reducible apply freeIn_inner
    | with_reducible apply failTxn_inner
    | split
    | exact inner_record (by with_reducible assumption) rfl id
    | refine inner_record ?_ rfl id

theorem retryNow_inner (h : Inner s₀ s) : Inner s₀ (retryNow s) := by
  unfold retryNow
  repeat' first
    | with_reducible assumption
    | with_reducible apply countLink_inner
    | with_reducible apply launch_inner
    | split
    | exact inner_record (by with_reducible assumption) rfl id

theorem validAnswer_inner (a : Fin 16) (h : Inner s₀ s) : Inner s₀ (validAnswer a s) := by
  unfold validAnswer
  repeat' first
    | with_reducible assumption
    | with_reducible apply mapNode_inner
    | split

theorem answerQuery_inner (o : TxnOwner) (bs : List Byte) (h : Inner s₀ s) : Inner s₀ (answerQuery o bs s) := by
  unfold answerQuery
  repeat' first
    | with_reducible assumption
    | with_reducible apply sendReply_inner
    | split

theorem takeStatus_inner (t : Txn) (bs : List Byte) (h : Inner s₀ s) : Inner s₀ (takeStatus t bs s) := by
  unfold takeStatus
  dsimp only
  repeat' first
    | with_reducible assumption
    | with_reducible apply stageReport_inner
    | with_reducible apply endFlight_inner
    | with_reducible apply tidySweep_inner
    | with_reducible apply failAttempt_inner
    | with_reducible apply validAnswer_inner
    | with_reducible apply answerQuery_inner
    | split

theorem takeIdent_inner (t : Txn) (bs : List Byte) (h : Inner s₀ s) : Inner s₀ (takeIdent t bs s) := by
  unfold takeIdent
  dsimp only
  repeat' first
    | with_reducible assumption
    | with_reducible apply endFlight_inner
    | with_reducible apply failAttempt_inner
    | with_reducible apply validAnswer_inner
    | with_reducible apply answerQuery_inner
    | split

theorem stageAnswered_inner (f : Fig) (tag : Nat) (x : NodeAnswer) (h : Inner s₀ s) :
    Inner s₀ (stageAnswered f tag x s) := by
  unfold stageAnswered
  repeat' first
    | with_reducible assumption
    | with_reducible apply mapFig_inner
    | with_reducible apply leaveMove_inner
    | with_reducible apply reportFig_inner
    | split

theorem takeStage_inner (t : Txn) (b : Byte) (h : Inner s₀ s) : Inner s₀ (takeStage t b s) := by
  unfold takeStage
  dsimp only
  repeat' first
    | with_reducible assumption
    | with_reducible apply endFlight_inner
    | with_reducible apply failAttempt_inner
    | with_reducible apply validAnswer_inner
    | with_reducible apply stageAnswered_inner
    | split

theorem clearDone_inner (o : TxnOwner) (h : Inner s₀ s) : Inner s₀ (clearDone o s) := by
  unfold clearDone
  repeat' first
    | with_reducible assumption
    | with_reducible apply sendReply_inner
    | with_reducible apply mapFig_inner
    | split

theorem takeClear_inner (t : Txn) (b : Byte) (h : Inner s₀ s) : Inner s₀ (takeClear t b s) := by
  unfold takeClear
  dsimp only
  repeat' first
    | with_reducible assumption
    | with_reducible apply endFlight_inner
    | with_reducible apply failAttempt_inner
    | with_reducible apply validAnswer_inner
    | with_reducible apply clearDone_inner
    | split

theorem homeAnswered_inner (f : Fig) (x : NodeAnswer) (h : Inner s₀ s) : Inner s₀ (homeAnswered f x s) := by
  unfold homeAnswered
  repeat' first
    | with_reducible assumption
    | with_reducible apply mapFig_inner
    | with_reducible apply homeFails_inner
    | split

theorem takeHome_inner (t : Txn) (b : Byte) (h : Inner s₀ s) : Inner s₀ (takeHome t b s) := by
  unfold takeHome
  dsimp only
  repeat' first
    | with_reducible assumption
    | with_reducible apply endFlight_inner
    | with_reducible apply failAttempt_inner
    | with_reducible apply validAnswer_inner
    | with_reducible apply homeAnswered_inner
    | split

theorem linkAbandoned_inner (o : TxnOwner) (h : Inner s₀ s) : Inner s₀ (linkAbandoned o s) := by
  unfold linkAbandoned
  repeat' first
    | with_reducible assumption
    | with_reducible apply homeFails_inner
    | with_reducible apply queueStage_inner
    | split

theorem abandon_inner (h : Inner s₀ s) : Inner s₀ (abandon s) := by
  unfold abandon
  dsimp only
  repeat' first
    | with_reducible assumption
    | with_reducible apply countLink_inner
    | with_reducible apply endFlight_inner
    | with_reducible apply linkAbandoned_inner
    | split

theorem failStuck_inner (t : Txn) (h : Inner s₀ s) : Inner s₀ (failStuck t s) := by
  unfold failStuck
  repeat' first
    | with_reducible assumption
    | with_reducible apply linkFailed_inner
    | with_reducible apply haltDone_inner
    | split

theorem stickLine_inner (h : Inner s₀ s) : Inner s₀ (stickLine s) := raise_inner _ (inner_record h rfl id)

theorem stopLine_inner (h : Inner s₀ s) : Inner s₀ (stopLine s) := by
  unfold stopLine
  extract_lets halts f s₁
  have h₁ : Inner s₀ s₁ := inner_flc h (List.length_filter_le _ _)
  exact haltDone_inner _ _ (inner_foldl (fun _ t hs => failStuck_inner t hs) h₁)

theorem failRest_inner (h : Inner s₀ s) : Inner s₀ (failRest s) :=
  tidySweep_inner (inner_foldl (fun _ _ hs => failStuck_inner _ hs) (inner_flc h (Nat.zero_le _)))

theorem lineSticks_inner (h : Inner s₀ s) : Inner s₀ (lineSticks s) :=
  failRest_inner (stopLine_inner (stickLine_inner h))

theorem lineFrees_inner (h : Inner s₀ s) : Inner s₀ (lineFrees s) := by
  unfold lineFrees
  dsimp only
  split
  · exact inner_record h rfl id
  · exact inner_record h rfl id

end Sys2Proof.Machine
end

