-- ==== Sys2Proof/Laws/Bells.lean ====
section
/-! SUPPORT. The Bell Controller's operations keep what `Inner` says. -/
namespace Sys2Proof.Machine

variable {s₀ s : State}

theorem testDamper_inner (b : Bell) (h : Inner s₀ s) : Inner s₀ (testDamper b s) := by
  unfold testDamper
  repeat' first
    | with_reducible assumption
    | with_reducible apply mapBell_inner
    | split

theorem afterRemoval_inner (b : Bell) (h : Inner s₀ s) : Inner s₀ (afterRemoval b s) := by
  unfold afterRemoval
  repeat' first
    | with_reducible assumption
    | with_reducible apply mapBell_inner
    | split

theorem testRemoved_inner (gone : List Strike) (h : Inner s₀ s) : Inner s₀ (testRemoved gone s) :=
  inner_foldl (fun _ k ht => afterRemoval_inner k.bell ht) h

theorem removeStrikes_inner (p : Strike → Bool) (h : Inner s₀ s) : Inner s₀ (removeStrikes p s) := by
  have hk : Inner s₀ { s with bell.strikes := s.bell.strikes.filter fun k => !p k } :=
    inner_strikes h (List.length_filter_le _ _)
  exact testRemoved_inner _ (dropKeys_inner _ hk)

theorem dropLate_inner (k : Strike) (h : Inner s₀ s) : Inner s₀ (dropLate k s) := by
  unfold dropLate
  dsimp only
  repeat' first
    | with_reducible assumption
    | with_reducible apply raise_inner
    | with_reducible apply mapBell_inner
    | with_reducible apply removeStrikes_inner

theorem countRefusal_inner (b : Bell) (r : StrikeRefusal) (h : Inner s₀ s) : Inner s₀ (countRefusal b r s) := by
  unfold countRefusal
  repeat' first
    | with_reducible assumption
    | with_reducible apply mapBell_inner
    | split
    | exact inner_record (by with_reducible assumption) rfl id

theorem insertStrike_length (k : Strike) (l : List Strike) : (insertStrike k l).length = l.length + 1 := by
  induction l with
  | nil => rfl
  | cons j js ih =>
    unfold insertStrike
    split
    · simp [ih]
    · rfl

/-- A strike that is admitted finds room in the queue. -/
theorem strikeRefusal_room (b : Bell) (due : Int) (hr : strikeRefusal b due s = none) :
    s.bell.strikes.length < Config.strikeDepth := by
  unfold strikeRefusal at hr
  repeat' split at hr
  all_goals first
    | omega
    | simp at hr

theorem admitStrike_inner (k : Strike) (room : s.bell.strikes.length < Config.strikeDepth) (h : Inner s₀ s) :
    Inner s₀ (admitStrike k s) :=
  inner_record h rfl fun b => ⟨b.1, by
    show (insertStrike k s.bell.strikes).length ≤ Config.strikeDepth
    rw [insertStrike_length]
    omega, b.2.2⟩

theorem offerStrike_inner (b : Bell) (velocity : Nat) (due : Int) (o : StrikeOrigin) (h : Inner s₀ s) :
    Inner s₀ (offerStrike b velocity due o s) := by
  unfold offerStrike
  split
  · exact countRefusal_inner _ _ h
  · next hr => exact admitStrike_inner _ (strikeRefusal_room _ _ hr) h

theorem whenDone_inner (b : Bell) (h : Inner s₀ s) : Inner s₀ (whenDone b s) := by
  unfold whenDone
  dsimp only
  repeat' first
    | with_reducible assumption
    | with_reducible apply mapBell_inner
    | split

theorem releasePulse_inner (b : Bell) (h : Inner s₀ s) : Inner s₀ (releasePulse b s) := by
  unfold releasePulse
  split
  · exact grantPass_inner (inner_claims h (heldSum_filter_le _ _))
  · exact h

theorem enterFault_inner (b : Bell) (why : BellReason) (h : Inner s₀ s) : Inner s₀ (enterFault b why s) := by
  unfold enterFault
  dsimp only
  repeat' first
    | with_reducible assumption
    | with_reducible apply raise_inner
    | with_reducible apply mapBell_inner
    | with_reducible apply removeStrikes_inner
    | with_reducible apply releasePulse_inner

theorem markClaiming_inner (k : Strike) (h : Inner s₀ s) : Inner s₀ (markClaiming k s) :=
  inner_strikes h (by rw [List.length_map])

theorem claimStrike_inner (k : Strike) (h : Inner s₀ s) : Inner s₀ (claimStrike k s) := by
  unfold claimStrike
  dsimp only
  repeat' first
    | with_reducible assumption
    | with_reducible apply makeClaim_inner
    | with_reducible apply dropLate_inner
    | with_reducible apply markClaiming_inner
    | split

theorem liftFor_inner (k : Strike) (h : Inner s₀ s) : Inner s₀ (liftFor k s) :=
  mapBell_inner _ _ (inner_strikes h (by rw [List.length_map]))

theorem dampBell_inner (b : Bell) (h : Inner s₀ s) : Inner s₀ (dampBell b s) := by
  unfold dampBell
  repeat' first
    | with_reducible assumption
    | with_reducible apply mapBell_inner
    | split

theorem dampBells_inner (bs : BitVec 20) (h : Inner s₀ s) : Inner s₀ (dampBells bs s) := by
  unfold dampBells
  repeat' first
    | with_reducible assumption
    | with_reducible apply inner_foldl
    | intro _ _ _
    | with_reducible apply dampBell_inner
    | split

theorem takeVoicing_inner (v : Option (Vector Voicing 20)) (h : Inner s₀ s) : Inner s₀ (takeVoicing v s) := by
  unfold takeVoicing
  dsimp only
  repeat' first
    | with_reducible assumption
    | with_reducible apply removeStrikes_inner
    | split
    | exact inner_record (by with_reducible assumption) rfl id
    | refine inner_record ?_ rfl id

theorem fixDeadlines_inner (h : Inner s₀ s) : Inner s₀ (fixDeadlines s) := inner_strikes h (by rw [List.length_map])

theorem endPulse_inner (b : Bell) (h : Inner s₀ s) : Inner s₀ (endPulse b s) := by
  unfold endPulse
  dsimp only
  repeat' first
    | with_reducible assumption
    | with_reducible apply mapBell_inner
    | with_reducible apply testDamper_inner
    | with_reducible apply whenDone_inner
    | with_reducible apply releasePulse_inner

theorem countMiss_inner (b : Bell) (h : Inner s₀ s) : Inner s₀ (countMiss b s) := by
  unfold countMiss
  dsimp only
  repeat' first
    | with_reducible assumption
    | with_reducible apply mapBell_inner
    | with_reducible apply enterFault_inner
    | split

theorem closeEcho_inner (b : Bell) (h : Inner s₀ s) : Inner s₀ (closeEcho b s) := by
  unfold closeEcho
  dsimp only
  repeat' first
    | with_reducible assumption
    | with_reducible apply mapBell_inner
    | with_reducible apply whenDone_inner
    | with_reducible apply countMiss_inner
    | split

theorem testStuck_inner (b : Bell) (h : Inner s₀ s) : Inner s₀ (testStuck b s) := by
  unfold testStuck
  dsimp only
  repeat' first
    | with_reducible assumption
    | with_reducible apply mapBell_inner
    | with_reducible apply whenDone_inner
    | with_reducible apply enterFault_inner
    | split

end Sys2Proof.Machine
end

