-- ==== Sys2Proof/Laws/Store.lean ====
section
/-! SUPPORT. Loads and marks keep what `Inner` says. -/
namespace Sys2Proof.Machine

variable {s₀ s : State}

theorem mapItem_inner (id : ItemId) (f : Item → Item) (h : Inner s₀ s) : Inner s₀ (mapItem id f s) :=
  inner_record h rfl fun b => b

theorem loadItem_inner (id : ItemId) (h : Inner s₀ s) : Inner s₀ (loadItem id s).1 := by
  unfold loadItem
  split
  · exact h
  · split
    · exact h
    · split
      · exact h
      · exact raise_inner _ (mapItem_inner _ _ h)

theorem markItems_inner (h : Inner s₀ s) : Inner s₀ (markItems s) := by
  unfold markItems
  repeat' first
    | with_reducible assumption
    | exact inner_record (by with_reducible assumption) rfl id

theorem checkPass_inner (h : Inner s₀ s) : Inner s₀ (checkPass s) :=
  inner_foldl (fun _ _ hs => raise_inner _ hs) (markItems_inner h)

theorem loadCopy_inner {α : Type} (id : ItemId) (parse : List Byte → Option α) (h : Inner s₀ s) :
    Inner s₀ (loadCopy id parse s).1 := by
  have hl := loadItem_inner id h
  unfold loadCopy
  split <;> simp_all

theorem joinWaiting_inner (w : Waiter) (h : Inner s₀ s) : Inner s₀ (joinWaiting w s) := inner_record h rfl id

theorem addPin_inner (id : ItemId) (h : Inner s₀ s) : Inner s₀ (addPin id s) := by
  unfold addPin
  repeat' first
    | with_reducible assumption
    | with_reducible apply mapItem_inner

theorem dropPin_inner (id : ItemId) (h : Inner s₀ s) : Inner s₀ (dropPin id s) := by
  unfold dropPin
  repeat' first
    | with_reducible assumption
    | with_reducible apply mapItem_inner

end Sys2Proof.Machine
end

