-- ==== Sys2Proof/Laws/Scheduler.lean ====
section
/-! SUPPORT. The Scheduler's operations keep what `Inner` says. -/
namespace Sys2Proof.Machine

variable {s₀ s : State}

theorem evalSeasons_inner (h : Inner s₀ s) : Inner s₀ (evalSeasons s) := by
  unfold evalSeasons
  dsimp only
  repeat' first
    | with_reducible assumption
    | split
    | exact inner_record (by with_reducible assumption) rfl id

theorem handOver_inner (i : Trig) (t : Target) (time : Int) (h : Inner s₀ s) : Inner s₀ (handOver i t time s) := by
  unfold handOver
  dsimp only
  repeat' first
    | with_reducible assumption
    | with_reducible apply raise_inner
    | split
    | exact inner_record (by with_reducible assumption) rfl id

theorem handCount_inner (i : Trig) (time : Int) (h : Inner s₀ s) : Inner s₀ (handCount i time s) := by
  unfold handCount
  dsimp only
  repeat' first
    | with_reducible assumption
    | exact inner_record (by with_reducible assumption) rfl id

theorem fire_inner (i : Trig) (time : Int) (h : Inner s₀ s) : Inner s₀ (fire i time s) := by
  unfold fire
  dsimp only
  repeat' first
    | with_reducible assumption
    | with_reducible apply mapTrig_inner
    | with_reducible apply handOver_inner
    | with_reducible apply handCount_inner
    | split

theorem fireFollowOn_inner (i : Trig) (h : Inner s₀ s) : Inner s₀ (fireFollowOn i s) := by
  unfold fireFollowOn
  repeat' first
    | with_reducible assumption
    | with_reducible apply mapTrig_inner
    | with_reducible apply handOver_inner
    | split

theorem raiseLate_inner (i : Trig) (time : Int) (h : Inner s₀ s) : Inner s₀ (raiseLate i time s) := by
  unfold raiseLate
  repeat' first
    | with_reducible assumption
    | with_reducible apply raise_inner

theorem arm_inner (i : Trig) (now : Int) (h : Inner s₀ s) : Inner s₀ (arm i now s) := by
  unfold arm
  dsimp only
  repeat' first
    | with_reducible assumption
    | with_reducible apply setTrig_inner
    | with_reducible apply fire_inner
    | with_reducible apply raiseLate_inner
    | split

theorem armOrDisable_inner (i : Trig) (now : Int) (h : Inner s₀ s) : Inner s₀ (armOrDisable i now s) := by
  unfold armOrDisable
  repeat' first
    | with_reducible assumption
    | with_reducible apply mapTrig_inner
    | with_reducible apply arm_inner
    | split

theorem stepForward_inner (old : Int) (new : Int) (i : Trig) (h : Inner s₀ s) :
    Inner s₀ (stepForward old new i s) := by
  unfold stepForward
  dsimp only
  repeat' first
    | with_reducible assumption
    | with_reducible apply setTrig_inner
    | with_reducible apply fire_inner
    | with_reducible apply raiseLate_inner
    | split

theorem stepBackward_inner (new : Int) (i : Trig) (h : Inner s₀ s) : Inner s₀ (stepBackward new i s) := by
  unfold stepBackward
  dsimp only
  repeat' first
    | with_reducible assumption
    | with_reducible apply setTrig_inner
    | split

theorem shiftFollowOns_inner (d : Int) (h : Inner s₀ s) : Inner s₀ (shiftFollowOns d s) := by
  unfold shiftFollowOns
  repeat' first
    | with_reducible assumption
    | exact inner_record (by with_reducible assumption) rfl id

theorem stepEvent_inner (old : Int) (new : Int) (h : Inner s₀ s) : Inner s₀ (stepEvent old new s) := by
  unfold stepEvent
  have k : Inner s₀ (evalSeasons s) := evalSeasons_inner h
  dsimp only
  split
  · exact shiftFollowOns_inner _ k
  · split
    · exact k
    · exact inner_record k rfl id

theorem validEvent_inner (h : Inner s₀ s) : Inner s₀ (validEvent s) := inner_record (evalSeasons_inner h) rfl id

theorem entryUnset_inner (i : Trig) (h : Inner s₀ s) : Inner s₀ (entryUnset i s) := by
  unfold entryUnset
  dsimp only
  repeat' first
    | with_reducible assumption
    | with_reducible apply raise_inner
    | with_reducible apply mapTrig_inner
    | split

theorem unsetEvent_inner (h : Inner s₀ s) : Inner s₀ (unsetEvent s) := by
  unfold unsetEvent
  repeat' first
    | with_reducible assumption
    | with_reducible apply inner_foldl
    | intro _ _ _
    | with_reducible apply evalSeasons_inner
    | with_reducible apply entryUnset_inner

theorem recomputeEntry_inner (i : Trig) (h : Inner s₀ s) : Inner s₀ (recomputeEntry i s) := by
  unfold recomputeEntry
  dsimp only
  repeat' first
    | with_reducible assumption
    | with_reducible apply setTrig_inner
    | with_reducible apply mapTrig_inner
    | with_reducible apply raiseLate_inner
    | split

theorem recomputeTable_inner (h : Inner s₀ s) : Inner s₀ (recomputeTable s) := by
  unfold recomputeTable
  repeat' first
    | with_reducible assumption
    | with_reducible apply inner_foldl
    | intro _ _ _
    | with_reducible apply recomputeEntry_inner
    | split

theorem takeDate_inner (h : Inner s₀ s) : Inner s₀ (takeDate s) := by
  unfold takeDate
  split
  · exact evalSeasons_inner h
  · exact h

theorem takeTriggers_inner (defs : Vector TrigDef 32) (h : Inner s₀ s) : Inner s₀ (takeTriggers defs s) :=
  inner_record (takeDate_inner h) rfl id

theorem eraseTriggers_inner (h : Inner s₀ s) : Inner s₀ (eraseTriggers s) := by
  unfold eraseTriggers
  repeat' first
    | with_reducible assumption
    | exact inner_record (by with_reducible assumption) rfl id

theorem fireNext_inner (i : Trig) (h : Inner s₀ s) : Inner s₀ (fireNext i s) := by
  unfold fireNext
  repeat' first
    | with_reducible assumption
    | with_reducible apply fire_inner
    | split

theorem fireUpTo_inner (i : Trig) (upTo : Int) (h : Inner s₀ s) : Inner s₀ (fireUpTo i upTo s) := by
  unfold fireUpTo
  dsimp only
  split
  · exact fireFollowOn_inner _ (inner_record h rfl id)
  · split
    · exact fireNext_inner _ (inner_record h rfl id)
    · exact h

theorem doTask_inner (t : Task) (h : Inner s₀ s) : Inner s₀ (doTask t s) := by
  unfold doTask
  repeat' first
    | with_reducible assumption
    | with_reducible apply fireUpTo_inner
    | with_reducible apply mapTrig_inner
    | with_reducible apply stepForward_inner
    | with_reducible apply stepBackward_inner
    | with_reducible apply arm_inner
    | with_reducible apply armOrDisable_inner
    | split

end Sys2Proof.Machine
end

