-- ==== Sys2Proof/Laws/Timebase.lean ====
section
/-! SUPPORT. The Timebase's operations keep what `Inner` says. -/
namespace Sys2Proof.Machine

variable {s₀ s : State}

theorem shift_heldUnits (d : Int) (c : Claim) : (c.shift d).heldUnits = c.heldUnits := by
  unfold Claim.shift
  split <;> rfl

theorem shiftWork_inner (d : Int) (h : Inner s₀ s) : Inner s₀ (shiftWork d s) :=
  inner_record h rfl fun b =>
    ⟨le_trans (heldSum_map_le _ (fun c => (shift_heldUnits d c).le) _) b.1, (List.length_map _).trans_le b.2.1,
      b.2.2⟩

theorem moveShow_inner (d : Int) (h : Inner s₀ s) : Inner s₀ (moveShow d s) :=
  inner_record (shiftWork_inner d h) rfl id

theorem endRange_inner (h : Inner s₀ s) : Inner s₀ (endRange s) := by
  unfold endRange
  dsimp only
  repeat' first
    | with_reducible assumption
    | with_reducible apply raise_inner
    | with_reducible apply unsetEvent_inner
    | with_reducible apply moveShow_inner
    | exact inner_record (by with_reducible assumption) rfl id
    | refine inner_record ?_ rfl id

theorem applyStep_inner (d : Int) (h : Inner s₀ s) : Inner s₀ (applyStep d s) := by
  unfold applyStep
  dsimp only
  repeat' first
    | with_reducible assumption
    | with_reducible apply raise_inner
    | with_reducible apply stepEvent_inner
    | with_reducible apply moveShow_inner
    | with_reducible apply endRange_inner
    | split

theorem setDisc_inner (d : Discipline) (h : Inner s₀ s) : Inner s₀ (setDisc d s) := by
  unfold setDisc
  repeat' first
    | with_reducible assumption
    | split
    | exact inner_record (by with_reducible assumption) rfl id

theorem holdStep_inner (target : Int) (forced : Bool) (h : Inner s₀ s) : Inner s₀ (holdStep target forced s) := by
  unfold holdStep
  repeat' first
    | with_reducible assumption
    | with_reducible apply setDisc_inner
    | exact inner_record (by with_reducible assumption) rfl id

theorem actOnError_inner (e : Int) (h : Inner s₀ s) : Inner s₀ (actOnError e s) := by
  unfold actOnError
  dsimp only
  repeat' first
    | with_reducible assumption
    | with_reducible apply raise_inner
    | with_reducible apply applyStep_inner
    | with_reducible apply holdStep_inner
    | split
    | exact inner_record (by with_reducible assumption) rfl id

theorem renewStep_inner (h : HeldStep) (hs : Inner s₀ s) : Inner s₀ (renewStep h s) := by
  unfold renewStep
  dsimp only
  repeat' first
    | with_reducible assumption
    | with_reducible apply raise_inner
    | split
    | exact inner_record (by with_reducible assumption) rfl id

theorem acceptPulse_inner (h : Inner s₀ s) : Inner s₀ (acceptPulse s) := by
  unfold acceptPulse
  dsimp only
  repeat' first
    | with_reducible assumption
    | with_reducible apply actOnError_inner
    | with_reducible apply renewStep_inner
    | split
    | exact inner_record (by with_reducible assumption) rfl id

theorem takePulse_inner (h : Inner s₀ s) : Inner s₀ (takePulse s) := by
  unfold takePulse
  repeat' first
    | with_reducible assumption
    | with_reducible apply acceptPulse_inner
    | split
    | exact inner_record (by with_reducible assumption) rfl id

theorem losePulse_inner (h : Inner s₀ s) : Inner s₀ (losePulse s) := by
  unfold losePulse
  dsimp only
  repeat' first
    | with_reducible assumption
    | with_reducible apply raise_inner
    | split
    | exact inner_record (by with_reducible assumption) rfl id

theorem endSlewPeriod_inner (h : Inner s₀ s) : Inner s₀ (endSlewPeriod s) := by
  unfold endSlewPeriod
  dsimp only
  repeat' first
    | with_reducible assumption
    | split
    | exact inner_record (by with_reducible assumption) rfl id

theorem setDiscipline_inner (on : Bool) (h : Inner s₀ s) : Inner s₀ (setDiscipline on s) := by
  unfold setDiscipline
  repeat' first
    | with_reducible assumption
    | split
    | exact inner_record (by with_reducible assumption) rfl id

theorem idleNotice_inner (h : Inner s₀ s) : Inner s₀ (idleNotice s) := by
  unfold idleNotice
  repeat' first
    | with_reducible assumption
    | with_reducible apply applyStep_inner
    | split

end Sys2Proof.Machine
end

