-- ==== Sys2Proof/Laws/Runs.lean ====
section
/-! SUPPORT. Runs, and everything that follows from an event in the same step, keep what `Inner` says. -/
namespace Sys2Proof.Machine

variable {s₀ s : State}

theorem mapLamp_inner (ch : Lamp) (f : LampRec → LampRec) (h : Inner s₀ s) : Inner s₀ (mapLamp ch f s) := by
  unfold mapLamp
  repeat' first
    | with_reducible assumption
    | exact inner_record (by with_reducible assumption) rfl id

theorem mapLamps_inner (f : Lamp → LampRec → LampRec) (h : Inner s₀ s) : Inner s₀ (mapLamps f s) := by
  unfold mapLamps
  repeat' first
    | with_reducible assumption
    | exact inner_record (by with_reducible assumption) rfl id

theorem restLamps_inner (l : Lane) (h : Inner s₀ s) : Inner s₀ (restLamps l s) := by
  unfold restLamps
  repeat' first
    | with_reducible assumption
    | with_reducible apply mapLamps_inner

theorem mapUnits_inner (f : CapRec → CapRec) (h : Inner s₀ s) : Inner s₀ (mapUnits f s) := by
  unfold mapUnits
  repeat' first
    | with_reducible assumption
    | exact inner_record (by with_reducible assumption) rfl id

theorem claimUnit_inner (l : Lane) (cue : Nat) (input : GInput) (e : Edge) (opens : Int) (closes : Int)
    (h : Inner s₀ s) :
    Inner s₀ (claimUnit l cue input e opens closes s) := by
  unfold claimUnit
  repeat' first
    | with_reducible assumption
    | with_reducible apply cueFault_inner
    | with_reducible apply setUnit_inner
    | split

theorem closeWindow_inner (u : CapUnit) (h : Inner s₀ s) : Inner s₀ (closeWindow u s) := by
  have h₁ : Inner s₀ { s.setUnit u .free with free := s.free + 1 } := inner_record h rfl id
  unfold closeWindow
  dsimp only
  repeat' first
    | with_reducible assumption
    | with_reducible apply cueFault_inner
    | split

theorem performCue_inner (l : Lane) (i : Nat) (r : Run) (c : Cue) (h : Inner s₀ s) :
    Inner s₀ (performCue l i r c s) := by
  unfold performCue
  repeat' first
    | with_reducible assumption
    | with_reducible apply offerStrike_inner
    | with_reducible apply dampBells_inner
    | with_reducible apply takeMove_inner
    | with_reducible apply takeDoor_inner
    | with_reducible apply takeTurn_inner
    | with_reducible apply mapLamp_inner
    | with_reducible apply claimUnit_inner
    | split

theorem issueCue_inner (l : Lane) (i : Nat) (h : Inner s₀ s) : Inner s₀ (issueCue l i s) := by
  unfold issueCue
  repeat' first
    | with_reducible assumption
    | with_reducible apply mapRun_inner
    | with_reducible apply performCue_inner
    | split

theorem issueEnd_inner (l : Lane) (h : Inner s₀ s) : Inner s₀ (issueEnd l s) := by
  unfold issueEnd
  dsimp only
  repeat' first
    | with_reducible assumption
    | with_reducible apply inner_foldl
    | intro _ _ _
    | with_reducible apply mapRun_inner
    | with_reducible apply issueCue_inner
    | split

theorem beginRun_inner (l : Lane) (cues : List Cue) (abortPolicy : Bool) (h : Inner s₀ s) :
    Inner s₀ (beginRun l cues abortPolicy s) := by
  unfold beginRun
  split
  · exact h
  · extract_lets r _ s₁ s₂
    have h₁ : Inner s₀ s₁ := setLane_same_inner _ _ h rfl
    clear_value s₁
    refine raise_inner _ ?_
    unfold s₂
    split
    · exact mapLamps_inner _ h₁
    · exact h₁

theorem failLoad_inner (l : Lane) (why : AbortReason) (h : Inner s₀ s) : Inner s₀ (failLoad l why s) := by
  unfold failLoad
  repeat' first
    | with_reducible assumption
    | with_reducible apply mapRun_inner

theorem answerLoad_inner (l : Lane) (h : Inner s₀ s) : Inner s₀ (answerLoad l s) := by
  unfold answerLoad
  split
  · next r _ =>
    split
    · next n _ _ =>
      extract_lets id present
      have hl := loadItem_inner id h
      split
      next t a heq =>
      rw [heq] at hl
      extract_lets s₁
      have h₁ : Inner s₀ s₁ := by
        unfold s₁
        split
        · exact mapRun_inner _ _ (addPin_inner _ hl)
        · exact hl
      clear_value s₁
      repeat' first
        | with_reducible assumption
        | with_reducible apply failLoad_inner
        | with_reducible apply beginRun_inner
        | split
    · exact h
  · exact h

theorem startRun_inner (l : Lane) (q : ShowReq) (h : Inner s₀ s) : Inner s₀ (startRun l q s) := by
  unfold startRun
  extract_lets _ s₁ s₂
  have h₁ : Inner s₀ s₁ := setLane_same_inner _ _ h rfl
  have h₂ : Inner s₀ s₂ := by
    unfold s₂
    split
    · exact requestWake_inner _ h₁
    · exact h₁
  clear_value s₂ s₁
  split
  · exact beginRun_inner _ _ _ h₁
  · split
    · exact joinWaiting_inner _ h₂
    · exact answerLoad_inner _ h₂

theorem discard_inner (why : MissReason) (q : ShowReq) (h : Inner s₀ s) : Inner s₀ (discard why q s) := by
  unfold discard
  repeat' first
    | with_reducible assumption
    | with_reducible apply raise_inner

theorem takeHeads_inner (l : Lane) (qs : List ShowReq) (hq : Bounded s₀ → qs.length ≤ Config.laneDepth)
    (h : Inner s₀ s) : Inner s₀ (takeHeads l qs s) := by
  induction qs generalizing s with
  | nil => exact setLane_inner _ _ h fun _ => Nat.zero_le _
  | cons q qs ih =>
    have hs : Bounded s₀ → qs.length ≤ Config.laneDepth := fun b => le_trans (Nat.le_succ _) (hq b)
    unfold takeHeads
    split
    · exact ih hs (discard_inner _ _ h)
    · exact startRun_inner _ _ (setLane_inner _ _ h hs)

theorem lookNext_inner (l : Lane) (h : Inner s₀ s) : Inner s₀ (lookNext l s) := by
  unfold lookNext
  split
  · exact h
  · split
    · next q _ =>
      extract_lets _ s₁
      have h₁ : Inner s₀ s₁ := setLane_same_inner _ _ h rfl
      clear_value s₁
      split
      · exact takeHeads_inner _ _ (fun b => lane_queue_le _ (h₁.2 b)) (discard_inner _ _ h₁)
      · exact startRun_inner _ _ h₁
    · exact takeHeads_inner _ _ (fun b => lane_queue_le _ (h.2 b)) h

theorem withdrawStrikes_inner (l : Lane) (h : Inner s₀ s) : Inner s₀ (withdrawStrikes l s) := by
  unfold withdrawStrikes
  repeat' first
    | with_reducible assumption
    | with_reducible apply removeStrikes_inner

theorem stopDrives_inner (h : Inner s₀ s) : Inner s₀ (stopDrives s) := dropKeys_inner _ (inner_record h rfl id)

theorem freeClaims_inner (l : Lane) (h : Inner s₀ s) : Inner s₀ (freeClaims l s) := by
  unfold freeClaims
  repeat' first
    | with_reducible assumption
    | with_reducible apply mapUnits_inner

theorem abortLane_inner (l : Lane) (why : AbortReason) (guard : Bool) (h : Inner s₀ s) :
    Inner s₀ (abortLane l why guard s) := by
  unfold abortLane
  split
  · exact h
  · split
    · exact h
    · exact inner_record (mapRun_inner l _ h) rfl id
    all_goals
      extract_lets s₁ s₂ s₃
      have h₁ : Inner s₀ s₁ := withdrawStrikes_inner _ (mapRun_inner _ _ h)
      clear_value s₁
      have h₂ : Inner s₀ s₂ := by
        unfold s₂
        split
        · exact h₁
        · split
          · exact withdrawRun_inner h₁
          · exact abortFigs_inner h₁
      clear_value s₂
      have h₃ : Inner s₀ s₃ := by
        unfold s₃
        split
        · exact h₂
        · exact stopDrives_inner h₂
      exact restLamps_inner _ (freeClaims_inner _ h₃)

theorem enterHold_inner (l : Lane) (h : Inner s₀ s) : Inner s₀ (enterHold l s) := by
  unfold enterHold
  extract_lets doors turn back s₁ s₂ s₃ s₄
  have h₂ : Inner s₀ s₂ := withdrawStrikes_inner _ (mapRun_inner _ _ h)
  clear_value s₂
  have h₃ : Inner s₀ s₃ := by
    unfold s₃
    split
    · exact stopDrives_inner (holdFigs_inner h₂)
    · exact h₂
  exact mapLamps_inner _ (mapUnits_inner _ h₃)

theorem holdLane_inner (l : Lane) (src : HoldSource) (h : Inner s₀ s) : Inner s₀ (holdLane l src s) := by
  unfold holdLane
  repeat' first
    | with_reducible assumption
    | with_reducible apply mapRun_inner
    | with_reducible apply enterHold_inner
    | split

theorem resumeDoor_inner (r : Run) (d : Door) (h : Inner s₀ s) : Inner s₀ (resumeDoor r d s) := by
  unfold resumeDoor
  repeat' first
    | with_reducible assumption
    | with_reducible apply takeDoor_inner
    | split

theorem resumeTurn_inner (r : Run) (h : Inner s₀ s) : Inner s₀ (resumeTurn r s) := by
  unfold resumeTurn
  repeat' first
    | with_reducible assumption
    | with_reducible apply takeTurn_inner
    | split

theorem resumeRun_inner (l : Lane) (h : Inner s₀ s) : Inner s₀ (resumeRun l s) := by
  unfold resumeRun
  split
  · exact h
  · split
    · exact h
    · extract_lets len r _ s₁ s₂ d s₃ s₅
      have h₁ : Inner s₀ s₁ := setLane_same_inner _ _ h rfl
      clear_value s₁
      have h₂ : Inner s₀ s₂ := by
        unfold s₂
        split
        · exact inner_foldl (fun _ c ht => resumeCue_inner _ c ht) h₁
        · exact h₁
      clear_value s₂
      have h₃ : Inner s₀ s₃ := by
        unfold s₃
        split
        · exact resumeTurn_inner _ (inner_foldl (fun t d ht => resumeDoor_inner (runOr l r t) d ht) h₂)
        · exact h₂
      exact mapLamps_inner _ (mapUnits_inner _ (mapRun_inner _ _ h₃))

theorem liftHold_inner (l : Lane) (host : Bool) (groups : BitVec 4) (h : Inner s₀ s) :
    Inner s₀ (liftHold l host groups s) := by
  unfold liftHold
  dsimp only
  repeat' first
    | with_reducible assumption
    | with_reducible apply mapRun_inner
    | with_reducible apply resumeRun_inner
    | split

theorem forgetWork_inner (l : Lane) (h : Inner s₀ s) : Inner s₀ (forgetWork l s) := by
  unfold forgetWork
  dsimp only
  repeat' first
    | with_reducible assumption
    | with_reducible apply forgetTxns_inner
    | split
    | exact inner_record (by with_reducible assumption) rfl id

theorem endRun_inner (l : Lane) (r : Run) (o : RunOutcome) (h : Inner s₀ s) : Inner s₀ (endRun l r o s) := by
  unfold endRun
  extract_lets res _ s₁ s₂
  have h₁ : Inner s₀ s₁ := setLane_same_inner _ _ h rfl
  clear_value s₁
  have h₂ : Inner s₀ s₂ := by
    unfold s₂
    split
    · exact dropPin_inner _ h₁
    · exact h₁
  exact raise_inner _ (forgetWork_inner _ h₂)

theorem queueReq_inner (l : Lane) (q : ShowReq) (h : Inner s₀ s) : Inner s₀ (queueReq l q s).1 := by
  unfold queueReq
  dsimp only
  split
  · exact discard_inner _ _ h
  · split
    · split
      · exact h
      · exact discard_inner _ _ h
    · next hr =>
      refine setLane_inner _ _ h fun _ => ?_
      dsimp only
      rw [List.length_append, List.length_singleton]
      omega

theorem preempt_inner (l : Lane) (q : ShowReq) (h : Inner s₀ s) : Inner s₀ (preempt l q s).1 := by
  unfold preempt
  split
  · exact queueReq_inner _ _ h
  · split
    · split
      · exact queueReq_inner _ _ h
      · exact setLane_same_inner _ _ h rfl
    · extract_lets s₁ s₂
      have h₁ : Inner s₀ s₁ := abortLane_inner _ _ _ h
      clear_value s₁
      have h₂ : Inner s₀ s₂ := by
        unfold s₂
        split
        · exact discard_inner _ _ h₁
        · exact h₁
      exact setLane_same_inner _ _ h₂ rfl

theorem arriveAt_inner (l : Lane) (q : ShowReq) (h : Inner s₀ s) : Inner s₀ (arriveAt l q s).1 := by
  unfold arriveAt
  split
  · split
    · exact discard_inner _ _ h
    · exact startRun_inner _ _ h
  · split
    · exact queueReq_inner _ _ h
    · exact discard_inner _ _ h
    · split
      · exact queueReq_inner _ _ h
      · exact preempt_inner _ _ h

theorem arrive_inner (q : ShowReq) (h : Inner s₀ s) : Inner s₀ (arrive q s) := by
  unfold arrive
  split
  · exact arriveAt_inner _ _ h
  · exact discard_inner _ _ h
  · exact discard_inner _ _ h

theorem afterEnd_inner (l : Lane) (g : Agenda) (h : Inner s₀ s) : Inner s₀ (afterEnd l g s).1 := by
  unfold afterEnd
  extract_lets looks s₁
  have h₁ : Inner s₀ s₁ := idleNotice_inner h
  clear_value s₁
  split
  · split
    · exact h₁
    · exact inner_record h₁ rfl id
  · exact h

theorem doLane_inner (l : Lane) (a : LaneAct) (g : Agenda) (h : Inner s₀ s) : Inner s₀ (doLane l a g s).1 := by
  unfold doLane
  split
  · exact abortLane_inner _ _ _ h
  · split
    · exact afterEnd_inner _ _ (endRun_inner _ _ _ h)
    · exact h

theorem handNext_inner {t : State} (h : Inner s₀ s) (e : handNext s = some t) : Inner s₀ t := by
  unfold handNext at e
  split at e
  · exact Option.some.inj e ▸ arrive_inner _ (inner_record h rfl id)
  · exact Option.some.inj e ▸ doTask_inner _ (inner_record h rfl id)
  · cases e

theorem settleLoop_inner (n : Nat) (g : Agenda) (h : Inner s₀ s) : Inner s₀ (settleLoop n g s) := by
  induction n generalizing s g with
  | zero => exact h
  | succ n ih =>
    unfold settleLoop
    extract_lets s₁
    have h₁ : Inner s₀ s₁ := stageCheck_inner h
    clear_value s₁
    split
    · exact ih _ (doLane_inner _ _ _ h₁)
    · exact ih _ (doLane_inner _ _ _ h₁)
    · split
      · next he =>
        split
        · exact ih _ (handNext_inner h₁ he)
        · exact ih _ (lookNext_inner _ h₁)
      · exact ih _ (lookNext_inner _ h₁)
      · next he => exact ih _ (handNext_inner h₁ he)
      · exact h₁

theorem settle_inner (h : Inner s₀ s) : Inner s₀ (settle s) := settleLoop_inner _ _ h

theorem settleFreed_inner (before : State) (h : Inner s₀ s) : Inner s₀ (settleFreed before s) := by
  unfold settleFreed
  split
  · exact settleLoop_inner _ _ h
  · exact settle_inner h

theorem guardClear_inner (h : Inner s₀ s) : Inner s₀ (guardClear s) :=
  inner_record h rfl fun b => ⟨le_trans (heldSum_filter_le _ _) b.1, Nat.zero_le _, b.2.2⟩

theorem guardAbort_inner (h : Inner s₀ s) : Inner s₀ (guardAbort s) := by
  unfold guardAbort
  extract_lets waits gone s₁ s₂
  have h₁ : Inner s₀ s₁ := abortLane_inner _ _ _ (abortLane_inner _ _ _ (guardClear_inner h))
  clear_value s₁
  have h₂ : Inner s₀ s₂ := stopTurn_inner (inner_foldl (fun _ d ht => stopDoor_inner d ht) h₁)
  exact sendHalt_inner _ _ _ _ (grantPass_inner (testRemoved_inner _ h₂))

end Sys2Proof.Machine
end

