-- ==== Sys2Proof/Laws/Inputs.lean ====
section
/-! SUPPORT. The Input Monitor's operations keep what `Inner` says. -/
namespace Sys2Proof.Machine

variable {s₀ s : State}

theorem sampleInputs_inner (h : Inner s₀ s) : Inner s₀ (sampleInputs s) := by
  unfold sampleInputs
  dsimp only
  repeat' first
    | with_reducible assumption
    | split
    | exact inner_record (by with_reducible assumption) rfl id

theorem guardAction_inner (g : Group) (a : GuardAction) (h : Inner s₀ s) : Inner s₀ (guardAction g a s) := by
  unfold guardAction
  repeat' first
    | with_reducible assumption
    | with_reducible apply holdLane_inner
    | with_reducible apply guardAbort_inner
    | split

theorem trip_inner (g : Group) (m : BitVec 16) (h : Inner s₀ s) : Inner s₀ (trip g m s) := by
  unfold trip
  dsimp only
  repeat' first
    | with_reducible assumption
    | with_reducible apply raise_inner
    | with_reducible apply setGroup_inner
    | with_reducible apply guardAction_inner

theorem evalGuard_inner (g : Group) (h : Inner s₀ s) : Inner s₀ (evalGuard g s) := by
  unfold evalGuard
  dsimp only
  repeat' first
    | with_reducible assumption
    | with_reducible apply raise_inner
    | with_reducible apply setGroup_inner
    | with_reducible apply trip_inner
    | split

theorem startGuard_inner (g : Group) (h : Inner s₀ s) : Inner s₀ (startGuard g s) := by
  unfold startGuard
  dsimp only
  repeat' first
    | with_reducible assumption
    | with_reducible apply raise_inner
    | with_reducible apply setGroup_inner
    | split

theorem autoResume_inner (g : Group) (h : Inner s₀ s) : Inner s₀ (autoResume g s) := by
  unfold autoResume
  dsimp only
  repeat' first
    | with_reducible assumption
    | with_reducible apply setGroup_inner
    | with_reducible apply liftHold_inner

theorem captureEdge_inner (u : CapUnit) (e : Edge) (h : Inner s₀ s) : Inner s₀ (captureEdge u e s) := by
  unfold captureEdge
  extract_lets r now
  split
  extract_lets s₁
  have h₁ : Inner s₀ s₁ := setUnit_inner _ _ h
  clear_value s₁
  split
  · exact raise_inner _ h₁
  · exact h₁

theorem generalEdges_inner (levels : BitVec 16) (h : Inner s₀ s) : Inner s₀ (generalEdges levels s) := by
  unfold generalEdges
  dsimp only
  repeat' first
    | with_reducible assumption
    | with_reducible apply inner_foldl
    | intro _ _ _
    | with_reducible apply evalGuard_inner
    | with_reducible apply captureEdge_inner
    | split
    | exact inner_record (by with_reducible assumption) rfl id

theorem echoEdge_inner (b : Bell) (v : Bool) (h : Inner s₀ s) : Inner s₀ (echoEdge b v s) := by
  unfold echoEdge
  dsimp only
  repeat' first
    | with_reducible assumption
    | with_reducible apply mapBell_inner
    | split
    | exact inner_record (by with_reducible assumption) rfl id

theorem limitEdge_inner (d : Door) (g : Goal) (v : Bool) (h : Inner s₀ s) : Inner s₀ (limitEdge d g v s) := by
  unfold limitEdge
  dsimp only
  repeat' first
    | with_reducible assumption
    | with_reducible apply doorLimitChange_inner
    | split
    | exact inner_record (by with_reducible assumption) rfl id

theorem tableIndexEdge_inner (v : Bool) (h : Inner s₀ s) : Inner s₀ (tableIndexEdge v s) := by
  unfold tableIndexEdge
  dsimp only
  repeat' first
    | with_reducible assumption
    | with_reducible apply indexEdge_inner
    | split
    | exact inner_record (by with_reducible assumption) rfl id

theorem tableHomeEdge_inner (v : Bool) (h : Inner s₀ s) : Inner s₀ (tableHomeEdge v s) := by
  unfold tableHomeEdge
  dsimp only
  repeat' first
    | with_reducible assumption
    | with_reducible apply homeEdge_inner
    | split
    | exact inner_record (by with_reducible assumption) rfl id

theorem minuteRise_inner (h : Inner s₀ s) : Inner s₀ (minuteRise s) := by
  unfold minuteRise
  dsimp only
  repeat' first
    | with_reducible assumption
    | with_reducible apply takePulse_inner
    | split
    | exact inner_record (by with_reducible assumption) rfl id

end Sys2Proof.Machine
end

