-- ==== Sys2Proof/Laws/BellCmds.lean ====
section
/-! SUPPORT. The commands of the Bell Controller, but for the mutes, keep what `Inner` says. -/
namespace Sys2Proof.Machine

variable {s₀ s : State}

theorem hostStrike_inner (b : Bell) (velocity : Nat) (h : Inner s₀ s) : Inner s₀ (hostStrike b velocity s) := by
  unfold hostStrike
  dsimp only
  repeat' first
    | with_reducible assumption
    | with_reducible apply reply_inner
    | with_reducible apply offerStrike_inner
    | split

theorem bellStrikeReq_inner (bell : Nat) (velocity : Nat) (h : Inner s₀ s) :
    Inner s₀ (bellStrikeReq bell velocity s) := by
  refine gated_inner _ (fun t ht => ?_) h
  repeat' first
    | with_reducible assumption
    | with_reducible apply reply_inner
    | with_reducible apply hostStrike_inner
    | split

theorem bellDampReq_inner (bells : List Nat) (h : Inner s₀ s) : Inner s₀ (bellDampReq bells s) := by
  refine gated_inner _ (fun t ht => ?_) h
  repeat' first
    | with_reducible assumption
    | with_reducible apply reply_inner
    | with_reducible apply dampBells_inner
    | split

theorem bellClearReq_inner (bell : Nat) (counters : Bool) (h : Inner s₀ s) :
    Inner s₀ (bellClearReq bell counters s) := by
  refine gated_inner _ (fun t ht => ?_) h
  repeat' first
    | with_reducible assumption
    | with_reducible apply reply_inner
    | with_reducible apply mapBell_inner
    | split

theorem bellStatusReq_inner (h : Inner s₀ s) : Inner s₀ (bellStatusReq s) := by
  refine gated_inner _ (fun t ht => ?_) h
  repeat' first
    | with_reducible assumption
    | with_reducible apply reply_inner

theorem budgetGetReq_inner (h : Inner s₀ s) : Inner s₀ (budgetGetReq s) := by
  refine gated_inner _ (fun t ht => ?_) h
  repeat' first
    | with_reducible assumption
    | with_reducible apply reply_inner

end Sys2Proof.Machine
end

