-- ==== Sys2Proof/Laws/InputCmds.lean ====
section
/-! SUPPORT. The Input Monitor's commands keep what `Inner` says. -/
namespace Sys2Proof.Machine

variable {s₀ s : State}

theorem inputGetReq_inner (h : Inner s₀ s) : Inner s₀ (inputGetReq s) := by
  refine gated_inner _ (fun t ht => ?_) h
  repeat' first
    | with_reducible assumption
    | with_reducible apply reply_inner

theorem setGuard_inner (g : Group) (d : GuardDef) (h : Inner s₀ s) : Inner s₀ (setGuard g d s) := by
  unfold setGuard
  repeat' first
    | with_reducible assumption
    | with_reducible apply setGroup_inner
    | with_reducible apply evalGuard_inner

theorem guardSetReq_inner (group : Nat) (defn : GuardArgs) (h : Inner s₀ s) : Inner s₀ (guardSetReq group defn s) := by
  refine gated_inner _ (fun t ht => ?_) h
  dsimp only
  repeat' first
    | with_reducible assumption
    | with_reducible apply reply_inner
    | with_reducible apply settle_inner
    | with_reducible apply setGuard_inner
    | split

theorem guardGetReq_inner (clear : Bool) (h : Inner s₀ s) : Inner s₀ (guardGetReq clear s) := by
  refine gated_inner _ (fun t ht => ?_) h
  repeat' first
    | with_reducible assumption
    | with_reducible apply reply_inner
    | split
    | exact inner_record (by with_reducible assumption) rfl id

theorem captureSetReq_inner (unit : Nat) (args : CaptureArgs) (h : Inner s₀ s) :
    Inner s₀ (captureSetReq unit args s) := by
  refine gated_inner _ (fun t ht => ?_) h
  repeat' first
    | with_reducible assumption
    | with_reducible apply reply_inner
    | with_reducible apply setUnit_inner
    | split

theorem captureGetReq_inner (unit : Nat) (edges : Coded EdgeSel) (h : Inner s₀ s) :
    Inner s₀ (captureGetReq unit edges s) := by
  refine gated_inner _ (fun t ht => ?_) h
  dsimp only
  repeat' first
    | with_reducible assumption
    | with_reducible apply reply_inner
    | with_reducible apply setUnit_inner
    | split

end Sys2Proof.Machine
end

