-- ==== Sys2Proof/Laws/LinkCmds.lean ====
section
/-! SUPPORT. The commands of the Figure Link Controller keep what `Inner` says. -/
namespace Sys2Proof.Machine

variable {s₀ s : State}

theorem linkStatusReq_inner (clear : Bool) (h : Inner s₀ s) : Inner s₀ (linkStatusReq clear s) := by
  refine gated_inner _ (fun t ht => ?_) h
  dsimp only
  repeat' first
    | with_reducible assumption
    | with_reducible apply reply_inner
    | split
    | exact inner_record (by with_reducible assumption) rfl id

theorem linkWakeReq_inner (h : Inner s₀ s) : Inner s₀ (linkWakeReq s) := by
  refine gated_inner _ (fun t ht => ?_) h
  repeat' first
    | with_reducible assumption
    | with_reducible apply reply_inner
    | with_reducible apply requestWake_inner
    | split

theorem queryNode_inner (k : LinkKind) (a : Fin 16) (h : Inner s₀ s) : Inner s₀ (queryNode k a s) := by
  unfold queryNode
  dsimp only
  repeat' first
    | with_reducible assumption
    | with_reducible apply enqueue_inner
    | with_reducible apply linkRefused_inner
    | with_reducible apply linkFailed_inner
    | split

theorem nodeQueryReq_inner (address : Nat) (kind : Coded QueryKind) (h : Inner s₀ s) :
    Inner s₀ (nodeQueryReq address kind s) := by
  refine gated_inner _ (fun t ht => ?_) h
  repeat' first
    | with_reducible assumption
    | with_reducible apply reply_inner
    | with_reducible apply queryNode_inner
    | split

theorem finishGo_inner (t : Txn) (h : Inner s₀ s) : Inner s₀ (finishGo t s) := by
  unfold finishGo
  dsimp only
  repeat' first
    | with_reducible assumption
    | with_reducible apply goDone_inner
    | with_reducible apply endFlight_inner
    | split

theorem takeAlert_inner (h : Inner s₀ s) : Inner s₀ (takeAlert s) := by
  unfold takeAlert
  repeat' first
    | with_reducible assumption
    | with_reducible apply countLink_inner
    | exact inner_record (by with_reducible assumption) rfl id

theorem endLow_inner (h : Inner s₀ s) : Inner s₀ (endLow s) := by
  unfold endLow
  repeat' first
    | with_reducible assumption
    | with_reducible apply freeLine_inner
    | exact inner_record (by with_reducible assumption) rfl id

theorem endSettle_inner (h : Inner s₀ s) : Inner s₀ (endSettle s) := by
  unfold endSettle
  repeat' first
    | with_reducible assumption
    | exact inner_record (by with_reducible assumption) rfl id

theorem makeWake_inner (h : Inner s₀ s) : Inner s₀ (makeWake s) := by
  unfold makeWake
  dsimp only
  repeat' first
    | with_reducible assumption
    | with_reducible apply requestWake_inner
    | split
    | exact inner_record (by with_reducible assumption) rfl id

end Sys2Proof.Machine
end

