-- ==== Sys2Proof/Laws/Memory.lean ====
section
/-! SUPPORT. The staging buffer: what a read gives after a write, and that every operation keeps the canonical form. -/
namespace Sys2Proof.Machine.Memory

/-- A written byte is read back, every other address reads as before. -/
theorem read_write (m : List Host.Cell) (h : wf m = true) (a b : Nat) (v : Byte) :
    read (write m a v) b = if a = b then v else read m b := by
  suffices H : ∀ (m : List Host.Cell) (lo : Option Nat), wfAbove lo m = true →
      read (write m a v) b = if a = b then v else read m b from H m none h
  intro m
  induction m with
  | nil =>
    intro lo _
    by_cases hv : v = 0#8 <;> by_cases hab : a = b <;> simp [write, read, hv, hab]
  | cons c m ih =>
    obtain ⟨k, w⟩ := c
    intro lo hm
    simp only [wfAbove, Bool.and_eq_true] at hm
    have above : ∀ (m : List Host.Cell) (x y : Nat), wfAbove (some x) m = true → y ≤ x → read m y = 0 := by
      intro m
      induction m with
      | nil => intros; rfl
      | cons d m ih2 =>
        intro x y hd hy
        obtain ⟨j, u⟩ := d
        simp only [wfAbove, Bool.and_eq_true, decide_eq_true_eq] at hd
        have : j ≠ y := by omega
        simp only [read, this, if_false]
        exact ih2 j y hd.2 (by omega)
    by_cases hak : a < k
    · by_cases hv : v = 0#8 <;> by_cases hab : a = b
      · subst hab
        have h1 : k ≠ a := by omega
        simp [write, read, hak, hv, h1, above m k a hm.2 (by omega)]
      · simp [write, read, hak, hv, hab]
      · subst hab
        simp [write, read, hak, hv]
      · simp [write, read, hak, hv, hab]
    · by_cases he : a = k
      · subst he
        by_cases hv : v = 0#8 <;> by_cases hab : a = b
        · subst hab
          simp [write, hv, above m a a hm.2 (le_refl a)]
        · simp [write, read, hv, hab]
        · simp [write, read, hv, hab]
        · simp [write, read, hv, hab]
      · have h1 : ¬ a < k := hak
        simp only [write, h1, he, if_false, read]
        rw [ih (some k) hm.2]
        by_cases hab : a = b
        · subst hab
          have : k ≠ a := fun h => he h.symm
          simp [this]
        · simp [hab]

/-- Every bound below a list's first address serves. -/
theorem wfAbove_weaken {lo lo' : Option Nat} {m : List Host.Cell} (h : wfAbove lo m = true)
    (hl : ∀ b, lo' = some b → ∃ c, lo = some c ∧ b ≤ c) : wfAbove lo' m = true := by
  cases m with
  | nil => rfl
  | cons d m =>
    obtain ⟨j, u⟩ := d
    cases lo' with
    | none => cases lo <;> simp_all [wfAbove]
    | some b =>
      obtain ⟨c, rfl, hb⟩ := hl b rfl
      simp only [wfAbove, Bool.and_eq_true, decide_eq_true_eq] at h ⊢
      exact ⟨⟨by omega, h.1.2⟩, h.2⟩

/-- A write keeps the canonical form. -/
theorem write_wf (m : List Host.Cell) (h : wf m = true) (a : Nat) (v : Byte) : wf (write m a v) = true := by
  suffices H : ∀ (m : List Host.Cell) (lo : Option Nat), wfAbove lo m = true → (∀ b, lo = some b → b < a) →
      wfAbove lo (write m a v) = true from H m none h (by simp)
  intro m
  induction m with
  | nil =>
    intro lo _ hlo
    by_cases hv : v = 0#8
    · simp [write, hv, wfAbove]
    · cases lo with
      | none => simp [write, hv, wfAbove]
      | some b => simpa [write, hv, wfAbove] using hlo b rfl
  | cons c m ih =>
    obtain ⟨k, w⟩ := c
    intro lo hm hlo
    have hm' := hm
    simp only [wfAbove, Bool.and_eq_true] at hm
    by_cases hak : a < k
    · by_cases hv : v = 0#8
      · simpa [write, hak, hv] using hm'
      · have hw : wfAbove (some a) ((k, w) :: m) = true := by
          simp only [wfAbove, Bool.and_eq_true, decide_eq_true_eq]
          exact ⟨⟨hak, hm.1.2⟩, hm.2⟩
        cases lo with
        | none => simpa [write, hak, hv, wfAbove] using hw
        | some b =>
          have := hlo b rfl
          simpa [write, hak, hv, wfAbove, this] using hw
    · by_cases he : a = k
      · subst he
        by_cases hv : v = 0#8
        · simp only [write, hv, if_true, lt_irrefl, if_false]
          exact wfAbove_weaken hm.2 (fun b hb => ⟨a, rfl, Nat.le_of_lt (hlo b hb)⟩)
        · cases lo with
          | none => simp [write, hv, wfAbove, hm.2]
          | some b => simp [write, hv, wfAbove, hm.2, hlo b rfl]
      · have hka : k < a := by omega
        have hi := ih (some k) hm.2 (by intro b hb; cases hb; exact hka)
        have hs : write ((k, w) :: m) a v = (k, w) :: write m a v := by simp [write, hak, he]
        rw [hs, wfAbove.eq_def]
        simp only [Bool.and_eq_true]
        exact ⟨hm.1, hi⟩

/-- Writing bytes keeps the canonical form. -/
theorem writeBytes_wf (vs : List Byte) :
    ∀ (m : List Host.Cell) (a : Nat), wf m = true → wf (writeBytes m a vs) = true := by
  induction vs with
  | nil => intro m a h; exact h
  | cons v vs ih => intro m a h; exact ih _ _ (write_wf m h a v)

/-- After a chunk is written, its addresses read its bytes and every other address reads as before. -/
theorem read_writeBytes (vs : List Byte) :
    ∀ (m : List Host.Cell) (a b : Nat), wf m = true →
      read (writeBytes m a vs) b = if a ≤ b then (vs[b - a]?).getD (read m b) else read m b := by
  induction vs with
  | nil => intro m a b h; simp [writeBytes]
  | cons v vs ih =>
    intro m a b h
    simp only [writeBytes]
    rw [ih _ _ _ (write_wf m h a v), read_write m h]
    rcases Nat.lt_trichotomy a b with hlt | heq | hgt
    · have h1 : a + 1 ≤ b := hlt
      have h2 : a ≤ b := by omega
      have h3 : a ≠ b := by omega
      have h4 : b - a = (b - (a + 1)) + 1 := by omega
      simp [h1, h2, h3, h4]
    · subst heq
      simp
    · have h1 : ¬ a + 1 ≤ b := by omega
      have h2 : ¬ a ≤ b := by omega
      have h3 : a ≠ b := by omega
      simp [h1, h2, h3]

theorem readBytes_length (m : List Host.Cell) : ∀ (n a : Nat), (readBytes m a n).length = n
  | 0, _ => rfl
  | n + 1, a => by simp [readBytes, readBytes_length m n]

@[simp] theorem wf_nil : wf [] = true := rfl

end Sys2Proof.Machine.Memory

/-- The memory of the machine right after reset has the canonical form. -/
theorem Sys2Proof.Machine.reset_staging_wf :
    Sys2Proof.Machine.Memory.wf Sys2Proof.Machine.State.reset.ps.staging = true := rfl
end

