-- ==== Sys2Proof/Laws/SchedulerCmds.lean ====
section
/-! SUPPORT. The Scheduler's commands keep what `Inner` says. -/
namespace Sys2Proof.Machine

variable {s₀ s : State}

theorem writeTrig_inner (i : Trig) (d : TrigDef) (h : Inner s₀ s) : Inner s₀ (writeTrig i d s) := by
  unfold writeTrig
  repeat' first
    | with_reducible assumption
    | with_reducible apply mapTrig_inner
    | with_reducible apply takeDate_inner
    | with_reducible apply armOrDisable_inner

theorem trigSetReq_inner (index : Nat) (args : TrigArgs) (armed : Bool) (h : Inner s₀ s) :
    Inner s₀ (trigSetReq index args armed s) := by
  refine gated_inner _ (fun t ht => ?_) h
  dsimp only
  repeat' first
    | with_reducible assumption
    | with_reducible apply reply_inner
    | with_reducible apply settle_inner
    | with_reducible apply writeTrig_inner
    | split

theorem trigGetReq_inner (index : Nat) (h : Inner s₀ s) : Inner s₀ (trigGetReq index s) := by
  refine gated_inner _ (fun t ht => ?_) h
  repeat' first
    | with_reducible assumption
    | with_reducible apply reply_inner
    | split

theorem trigDisarmReq_inner (index : Nat) (h : Inner s₀ s) : Inner s₀ (trigDisarmReq index s) := by
  refine gated_inner _ (fun t ht => ?_) h
  repeat' first
    | with_reducible assumption
    | with_reducible apply reply_inner
    | with_reducible apply mapTrig_inner
    | split

theorem seasonGetReq_inner (h : Inner s₀ s) : Inner s₀ (seasonGetReq s) := by
  refine gated_inner _ (fun t ht => ?_) h
  repeat' first
    | with_reducible assumption
    | with_reducible apply reply_inner

end Sys2Proof.Machine
end

