-- ==== Sys2Proof/Laws/ShowCmds.lean ====
section
/-! SUPPORT. The Show Sequencer's commands keep what `Inner` says. -/
namespace Sys2Proof.Machine

variable {s₀ s : State}

theorem arrivalReply_inner (a : Arrival) (h : Inner s₀ s) : Inner s₀ (arrivalReply a s) := by
  unfold arrivalReply
  split <;> exact reply_inner _ _ _ h

theorem showStartReq_inner (subject : Subject) (staleness : Nat) (h : Inner s₀ s) :
    Inner s₀ (showStartReq subject staleness s) := by
  refine gated_inner _ (fun t ht => ?_) h
  split
  · exact reply_inner _ _ _ ht
  · split
    · exact reply_inner _ _ _ ht
    · exact reply_inner _ _ _ ht
    · next l _ =>
      have ha := arriveAt_inner l (hostReq subject staleness t) ht
      split
      next heq =>
      rw [heq] at ha
      exact settle_inner (arrivalReply_inner _ ha)

theorem onLanes_inner (k : Byte) (lanes : Coded LaneSel) {f : List Lane → State → State}
    (hf : ∀ ls t, Inner s₀ t → Inner s₀ (f ls t)) (h : Inner s₀ s) : Inner s₀ (onLanes k lanes f s) := by
  unfold onLanes
  split
  · exact hf _ _ h
  · exact reply_inner _ _ _ h

theorem showStopReq_inner (lanes : Coded LaneSel) (h : Inner s₀ s) : Inner s₀ (showStopReq lanes s) := by
  refine gated_inner _ (fun t ht => onLanes_inner _ _ (fun ls t ht => ?_) ht) h
  repeat' first
    | with_reducible assumption
    | with_reducible apply inner_foldl
    | intro _ _ _
    | with_reducible apply reply_inner
    | with_reducible apply abortLane_inner
    | with_reducible apply settle_inner
    | split

theorem showHoldReq_inner (lanes : Coded LaneSel) (h : Inner s₀ s) : Inner s₀ (showHoldReq lanes s) := by
  refine gated_inner _ (fun t ht => onLanes_inner _ _ (fun ls t ht => ?_) ht) h
  repeat' first
    | with_reducible assumption
    | with_reducible apply inner_foldl
    | intro _ _ _
    | with_reducible apply reply_inner
    | with_reducible apply holdLane_inner
    | with_reducible apply settle_inner
    | split

theorem showResumeReq_inner (lanes : Coded LaneSel) (h : Inner s₀ s) : Inner s₀ (showResumeReq lanes s) := by
  refine gated_inner _ (fun t ht => onLanes_inner _ _ (fun ls t ht => ?_) ht) h
  dsimp only
  repeat' first
    | with_reducible assumption
    | with_reducible apply inner_foldl
    | intro _ _ _
    | with_reducible apply reply_inner
    | with_reducible apply liftHold_inner
    | with_reducible apply settle_inner
    | split

theorem showStatusReq_inner (h : Inner s₀ s) : Inner s₀ (showStatusReq s) := by
  refine gated_inner _ (fun t ht => ?_) h
  repeat' first
    | with_reducible assumption
    | with_reducible apply reply_inner

theorem queueGetReq_inner (h : Inner s₀ s) : Inner s₀ (queueGetReq s) := by
  refine gated_inner _ (fun t ht => ?_) h
  dsimp only
  repeat' first
    | with_reducible assumption
    | with_reducible apply reply_inner

theorem flushLane_inner (l : Lane) (h : Inner s₀ s) : Inner s₀ (flushLane s l) :=
  setLane_inner _ _ h fun _ => Nat.zero_le _

theorem queueFlushReq_inner (lanes : Coded LaneSel) (h : Inner s₀ s) : Inner s₀ (queueFlushReq lanes s) :=
  gated_inner _ (fun _ ht => onLanes_inner _ _
    (fun _ _ ht => reply_inner _ _ _ (inner_foldl (fun _ l hs => flushLane_inner l hs) ht)) ht) h

theorem lampSetReq_inner (channel : Nat) (level : Nat) (fade : Nat) (h : Inner s₀ s) :
    Inner s₀ (lampSetReq channel level fade s) := by
  refine gated_inner _ (fun t ht => ?_) h
  repeat' first
    | with_reducible assumption
    | with_reducible apply reply_inner
    | with_reducible apply mapLamp_inner
    | split

theorem cueEvent_inner (row : CueRow) (l : Lane) (i : Nat) (h : Inner s₀ s) : Inner s₀ (cueEvent row l i s) :=
  whenDue_inner _ (fun _ ht => settle_inner (issueCue_inner _ _ ht)) h

end Sys2Proof.Machine
end

