-- ==== Sys2Proof/Laws/StageCmds.lean ====
section
/-! SUPPORT. The Stage Controller's commands keep what `Inner` says. -/
namespace Sys2Proof.Machine

variable {s₀ s : State}

theorem figStatusReq_inner (h : Inner s₀ s) : Inner s₀ (figStatusReq s) := by
  refine gated_inner _ (fun t ht => ?_) h
  repeat' first
    | with_reducible assumption
    | with_reducible apply reply_inner

theorem clearFig_inner (f : Fig) (h : Inner s₀ s) : Inner s₀ (clearFig f s) := by
  unfold clearFig
  dsimp only
  repeat' first
    | with_reducible assumption
    | with_reducible apply mapFig_inner
    | with_reducible apply enqueue_inner
    | with_reducible apply linkRefused_inner
    | with_reducible apply linkFailed_inner
    | split

theorem figClearReq_inner (figure : Nat) (h : Inner s₀ s) : Inner s₀ (figClearReq figure s) := by
  refine gated_inner _ (fun t ht => ?_) h
  repeat' first
    | with_reducible assumption
    | with_reducible apply reply_inner
    | with_reducible apply settle_inner
    | with_reducible apply clearFig_inner
    | split

theorem beginHome_inner (f : Fig) (allowed : Nat) (h : Inner s₀ s) : Inner s₀ (beginHome f allowed s) := by
  unfold beginHome
  dsimp only
  repeat' first
    | with_reducible assumption
    | with_reducible apply makeClaim_inner
    | with_reducible apply mapFig_inner
    | with_reducible apply enqueue_inner
    | with_reducible apply linkRefused_inner
    | with_reducible apply linkFailed_inner
    | split

theorem figHomeReq_inner (figure : Nat) (allowed : Nat) (h : Inner s₀ s) :
    Inner s₀ (figHomeReq figure allowed s) := by
  refine gated_inner _ (fun t ht => ?_) h
  dsimp only
  repeat' first
    | with_reducible assumption
    | with_reducible apply reply_inner
    | with_reducible apply settle_inner
    | with_reducible apply beginHome_inner
    | split

theorem hostDoor_inner (d : Door) (g : Goal) (h : Inner s₀ s) : Inner s₀ (hostDoor d g s) := by
  unfold hostDoor
  dsimp only
  repeat' first
    | with_reducible assumption
    | with_reducible apply reply_inner
    | with_reducible apply takeDoor_inner
    | split

theorem doorMoveReq_inner (door : Nat) (goal : Coded Goal) (h : Inner s₀ s) :
    Inner s₀ (doorMoveReq door goal s) := by
  refine gated_inner _ (fun t ht => ?_) h
  repeat' first
    | with_reducible assumption
    | with_reducible apply reply_inner
    | with_reducible apply settle_inner
    | with_reducible apply hostDoor_inner
    | split

theorem doorStatusReq_inner (h : Inner s₀ s) : Inner s₀ (doorStatusReq s) := by
  refine gated_inner _ (fun t ht => ?_) h
  repeat' first
    | with_reducible assumption
    | with_reducible apply reply_inner

theorem hostTurn_inner (k : Byte) (g : TurnGoal) (h : Inner s₀ s) : Inner s₀ (hostTurn k g s) := by
  unfold hostTurn
  dsimp only
  repeat' first
    | with_reducible assumption
    | with_reducible apply reply_inner
    | with_reducible apply takeTurn_inner
    | split

theorem turnHomeReq_inner (h : Inner s₀ s) : Inner s₀ (turnHomeReq s) := by
  refine gated_inner _ (fun t ht => ?_) h
  repeat' first
    | with_reducible assumption
    | with_reducible apply reply_inner
    | with_reducible apply settle_inner
    | with_reducible apply hostTurn_inner
    | split

theorem turnMoveReq_inner (position : Nat) (dir : Coded TurnDir) (h : Inner s₀ s) :
    Inner s₀ (turnMoveReq position dir s) := by
  refine gated_inner _ (fun t ht => ?_) h
  repeat' first
    | with_reducible assumption
    | with_reducible apply reply_inner
    | with_reducible apply settle_inner
    | with_reducible apply hostTurn_inner
    | split

theorem turnStatusReq_inner (h : Inner s₀ s) : Inner s₀ (turnStatusReq s) := by
  refine gated_inner _ (fun t ht => ?_) h
  repeat' first
    | with_reducible assumption
    | with_reducible apply reply_inner

theorem queueHome_inner (f : Fig) (h : Inner s₀ s) : Inner s₀ (queueHome f s) := by
  unfold queueHome
  dsimp only
  repeat' first
    | with_reducible assumption
    | with_reducible apply mapFig_inner
    | with_reducible apply enqueue_inner
    | with_reducible apply linkRefused_inner
    | with_reducible apply linkFailed_inner
    | split

theorem homeStops_inner (f : Fig) (h : Inner s₀ s) : Inner s₀ (homeStops f s) := by
  unfold homeStops
  repeat' first
    | with_reducible assumption
    | with_reducible apply raise_inner
    | with_reducible apply leaveMove_inner
    | with_reducible apply haltFig_inner

end Sys2Proof.Machine
end

