-- ==== Sys2Proof/Laws/StoreCmds.lean ====
section
/-! SUPPORT. The Programme Store's commands that change neither the staging buffer, nor the operation in progress, nor the
protection keep what `Inner` says; the others keep the bounds. -/
namespace Sys2Proof.Machine

variable {s₀ s : State}

theorem takeUp_inner (k : ItemKind) (content : Option (List Byte)) (h : Inner s₀ s) : Inner s₀ (takeUp k content s) := by
  unfold takeUp
  repeat' first
    | with_reducible assumption
    | with_reducible apply takeTriggers_inner
    | with_reducible apply eraseTriggers_inner
    | with_reducible apply evalSeasons_inner
    | with_reducible apply takeVoicing_inner
    | with_reducible apply takeMachinery_inner
    | split
    | exact inner_record (by with_reducible assumption) rfl id

end Sys2Proof.Machine
end

