-- ==== Sys2Proof/Laws/TimebaseCmds.lean ====
section
/-! SUPPORT. The Timebase's commands keep what `Inner` says. -/
namespace Sys2Proof.Machine

variable {s₀ s : State}

theorem setFromUnset_inner (v : Int) (h : Inner s₀ s) : Inner s₀ (setFromUnset v s) := by
  unfold setFromUnset
  dsimp only
  repeat' first
    | with_reducible assumption
    | with_reducible apply validEvent_inner
    | with_reducible apply moveShow_inner
    | exact inner_record (by with_reducible assumption) rfl id
    | refine inner_record ?_ rfl id

theorem timeSetTaken_inner (v : Int) (force : Bool) (h : Inner s₀ s) : Inner s₀ (timeSetTaken v force s) := by
  unfold timeSetTaken
  repeat' first
    | with_reducible assumption
    | with_reducible apply reply_inner
    | with_reducible apply applyStep_inner
    | with_reducible apply holdStep_inner
    | with_reducible apply abortLane_inner
    | with_reducible apply setFromUnset_inner
    | split

theorem timeSetReq_inner (v : Int) (force : Bool) (h : Inner s₀ s) : Inner s₀ (timeSetReq v force s) := by
  refine gated_inner _ (fun t ht => ?_) h
  repeat' first
    | with_reducible assumption
    | with_reducible apply reply_inner
    | with_reducible apply settleFreed_inner
    | with_reducible apply timeSetTaken_inner
    | split

theorem timeGetReq_inner (h : Inner s₀ s) : Inner s₀ (timeGetReq s) := by
  refine gated_inner _ (fun t ht => ?_) h
  repeat' first
    | with_reducible assumption
    | with_reducible apply reply_inner

end Sys2Proof.Machine
end

