-- ==== Sys2Proof/Laws/Kept.lean ====
section
/-! SUPPORT. The commands that change the settings, the store's staging and protection, the start-up step or the host
link: they keep the waiting commands, the elapsed count and the bounds. -/
namespace Sys2Proof.Machine

/-- What every command keeps, but for a power-on reset and the completion of an erase-all. -/
def Kept (s₀ s : State) : Prop :=
  s.pending = s₀.pending ∧ s.tb.elapsed = s₀.tb.elapsed ∧ (Bounded s₀ → Bounded s) ∧
  (s₀.ps.protLock = true → protection s = protection s₀)

variable {s₀ s t : State}

theorem Kept.refl (s : State) : Kept s s := ⟨rfl, rfl, fun b => b, fun _ => rfl⟩

theorem Inner.protection (h : Inner s₀ s) : protection s = protection s₀ := by
  unfold Machine.protection
  rw [h.writeLevel, h.readLock, h.protLock, h.identity]

theorem Inner.kept (h : Inner s₀ s) : Kept s₀ s := ⟨h.pending, h.elapsed, h.2, fun _ => h.protection⟩

theorem Kept.trans (k : Kept s₀ s) (l : Kept s t) : Kept s₀ t :=
  ⟨l.1.trans k.1, l.2.1.trans k.2.1, fun b => l.2.2.1 (k.2.2.1 b), fun hl =>
    (l.2.2.2 (by have := congrArg (fun p => p.2.2.1) (k.2.2.2 hl); exact this.trans hl)).trans (k.2.2.2 hl)⟩

/-- What an inner operation makes of a state that keeps. -/
theorem Kept.inner (k : Kept s₀ s) (h : Inner s t) : Kept s₀ t := k.trans h.kept

theorem kept_foldl {α : Type} {f : State → α → State} {l : List α}
    (hf : ∀ s a, Kept s₀ s → Kept s₀ (f s a)) (h : Kept s₀ s) : Kept s₀ (l.foldl f s) := by
  induction l generalizing s with
  | nil => exact h
  | cons a l ih => exact ih (hf s a h)

theorem reply_kept (k : Byte) (st : Status) (d : ReplyData) (h : Kept s₀ s) : Kept s₀ (reply k st d s) :=
  h.inner (reply_inner _ _ _ (.refl s))

theorem gated_kept (k : Byte) {f : State → State} (hf : ∀ t, Kept s₀ t → Kept s₀ (f t)) (h : Kept s₀ s) :
    Kept s₀ (gated k f s) := by
  unfold gated
  split
  · exact h
  · split
    · exact reply_kept _ _ _ h
    · exact hf s h

theorem unlessBusy_kept (k : Byte) {f : State → State} (hf : ∀ t, Kept s₀ t → Kept s₀ (f t)) (h : Kept s₀ s) :
    Kept s₀ (unlessBusy k f s) := by
  unfold unlessBusy
  split
  · exact reply_kept _ _ _ h
  · exact hf s h

theorem whenDue_kept (b : Bool) {f : State → State} (hf : ∀ t, Kept s₀ t → Kept s₀ (f t)) (h : Kept s₀ s) :
    Kept s₀ (whenDue b f s) := by
  unfold whenDue
  split
  · exact hf s h
  · exact h

theorem raise_kept (d : Detail) (h : Kept s₀ s) : Kept s₀ (raise d s) := h.inner (raise_inner d (.refl s))

theorem settle_kept (h : Kept s₀ s) : Kept s₀ (settle s) := h.inner (settle_inner (.refl s))

/-! ## Loads of the blocks -/

theorem builtFrom_inner (defs : Option (Vector TrigDef 32)) {s₀ s : State} (h : Inner s₀ s) :
    Inner s₀ (builtFrom defs s) := inner_record h rfl id

theorem takeLoad_inner (k : ItemKind) {s₀ s : State} (h : Inner s₀ s) : Inner s₀ (takeLoad k s) := by
  unfold takeLoad
  split
  · exact evalSeasons_inner (inner_record (loadCopy_inner _ _ h) rfl id)
  · exact evalSeasons_inner (inner_record (loadCopy_inner _ _ h) rfl id)
  · exact builtFrom_inner _ (loadCopy_inner _ _ h)
  · exact takeVoicing_inner _ (loadCopy_inner _ _ h)
  · exact takeMachinery_inner _ (loadCopy_inner _ _ h)
  · exact h

theorem loadBlock_inner (k : ItemKind) {s₀ s : State} (h : Inner s₀ s) : Inner s₀ (loadBlock k s) := by
  unfold loadBlock
  split
  · exact joinWaiting_inner _ h
  · exact takeLoad_inner k h

theorem answerOne_inner (w : Waiter) {s₀ s : State} (h : Inner s₀ s) : Inner s₀ (answerOne w s) := by
  cases w
  · exact answerLoad_inner _ h
  · exact takeLoad_inner _ h

theorem answerWaiting_inner {s₀ s : State} (h : Inner s₀ s) : Inner s₀ (answerWaiting s) :=
  inner_foldl (fun _ w ht => answerOne_inner w ht) (inner_record h rfl id)

/-! ## The store -/

theorem putChunk_kept (start : Bool) (offset : Nat) (data : List Byte) : Kept s (putChunk start offset data s) := by
  refine ⟨rfl, rfl, fun b => ⟨b.1, b.2.1, b.2.2.1, b.2.2.2.1, b.2.2.2.2.1, ?_⟩, fun _ => rfl⟩
  refine Memory.writeBytes_wf _ _ _ ?_
  cases start
  · exact b.2.2.2.2.2
  · rfl

theorem storePutReq_kept (start : Bool) (offset : Nat) (data : List Byte) (h : Kept s₀ s) :
    Kept s₀ (storePutReq start offset data s) := by
  refine gated_kept _ (fun t ht => unlessBusy_kept _ (fun u hu => ?_) ht) h
  split
  · exact reply_kept _ _ _ hu
  · split
    · exact reply_kept _ _ _ hu
    · exact reply_kept _ _ _ (hu.trans (putChunk_kept _ _ _))

theorem beginOp_kept (what : StoreOp) (ms : Nat) : Kept s (beginOp what ms s) := ⟨rfl, rfl, fun b => b, fun _ => rfl⟩

theorem storeCommitReq_kept (kind number : Nat) (h : Kept s₀ s) : Kept s₀ (storeCommitReq kind number s) := by
  refine gated_kept _ (fun t ht => ?_) h
  repeat' first
    | with_reducible assumption
    | with_reducible apply reply_kept
    | exact Kept.trans (by with_reducible assumption) (beginOp_kept _ _)
    | split

theorem storeEraseReq_kept (kind number : Nat) (h : Kept s₀ s) : Kept s₀ (storeEraseReq kind number s) := by
  refine gated_kept _ (fun t ht => ?_) h
  repeat' first
    | with_reducible assumption
    | with_reducible apply reply_kept
    | exact Kept.trans (by with_reducible assumption) (beginOp_kept _ _)
    | split

theorem storeEraseAllReq_kept (h : Kept s₀ s) : Kept s₀ (storeEraseAllReq s) := by
  refine gated_kept _ (fun t ht => ?_) h
  unfold unlessBusy
  repeat' first
    | with_reducible assumption
    | with_reducible apply reply_kept
    | exact Kept.trans (by with_reducible assumption) (beginOp_kept _ _)
    | split

theorem storeListReq_inner (h : Inner s₀ s) : Inner s₀ (storeListReq s) := by
  refine gated_inner _ (fun t ht => ?_) h
  unfold unlessBusy
  split <;> exact reply_inner _ _ _ ht

theorem storeReadReq_inner (kind number offset count : Nat) (h : Inner s₀ s) :
    Inner s₀ (storeReadReq kind number offset count s) := by
  unfold storeReadReq
  repeat' first
    | with_reducible assumption
    | with_reducible apply reply_inner
    | split

theorem storeSumReq_inner (h : Inner s₀ s) : Inner s₀ (storeSumReq s) := by
  refine gated_inner _ (fun t ht => ?_) h
  unfold unlessBusy
  split <;> exact reply_inner _ _ _ ht

/-- A change of the protection is made only while the protection lock is clear. -/
theorem kept_unlocked {p : PS} (hl : ¬s.ps.protLock = true) (e : (p.staging, p.stagedLen) = (s.ps.staging, s.ps.stagedLen)) :
    Kept s { s with ps := p } :=
  ⟨rfl, rfl, fun b => ⟨b.1, b.2.1, b.2.2.1, b.2.2.2.1, b.2.2.2.2.1, by
    show Memory.wf p.staging = true
    rw [(Prod.mk.inj e).1]
    exact b.2.2.2.2.2⟩, fun h => absurd h hl⟩

theorem storeProtectReq_kept (level : Nat) (readLock : Bool) (h : Kept s₀ s) :
    Kept s₀ (storeProtectReq level readLock s) := by
  refine gated_kept _ (fun t ht => ?_) h
  split
  · exact reply_kept _ _ _ ht
  · refine unlessBusy_kept _ (fun u hu => ?_) ht
    split
    · exact reply_kept _ _ _ hu
    · next hl => exact reply_kept _ _ _ (hu.trans (kept_unlocked hl rfl))

theorem storeLockReq_kept (h : Kept s₀ s) : Kept s₀ (storeLockReq s) := by
  refine gated_kept _ (fun t ht => unlessBusy_kept _ (fun u hu => reply_kept _ _ _ (hu.trans ?_)) ht) h
  refine ⟨rfl, rfl, fun b => b, fun hl => ?_⟩
  unfold protection
  rw [hl]

theorem storeIdentityReq_kept (w0 w1 w2 w3 : Nat) (h : Kept s₀ s) : Kept s₀ (storeIdentityReq w0 w1 w2 w3 s) := by
  refine gated_kept _ (fun t ht => ?_) h
  split
  · refine unlessBusy_kept _ (fun u hu => ?_) ht
    split
    · exact reply_kept _ _ _ hu
    · next hl => exact reply_kept _ _ _ (hu.trans (kept_unlocked hl rfl))
  · exact reply_kept _ _ _ ht

theorem commitItem_kept (id : ItemId) (content : List Byte) (check : Half) :
    Kept s (commitItem id content check s) :=
  ⟨rfl, rfl, fun b => ⟨b.1, b.2.1, b.2.2.1, b.2.2.2.1, b.2.2.2.2.1, rfl⟩, fun _ => rfl⟩

theorem finishCommit_kept (id : ItemId) (content : List Byte) (check : Half) :
    Kept s (finishCommit id content check s) :=
  settle_kept ((raise_kept _ (commitItem_kept id content check)).inner
    (takeUp_inner _ _ (answerWaiting_inner (.refl _))))

theorem eraseItem_kept (id : ItemId) : Kept s (eraseItem id s) := ⟨rfl, rfl, fun b => b, fun _ => rfl⟩

theorem finishErase_kept (id : ItemId) : Kept s (finishErase id s) :=
  settle_kept ((raise_kept _ (eraseItem_kept id)).inner (takeUp_inner _ _ (answerWaiting_inner (.refl _))))

/-- What follows an erase-all changes none of what it has erased. -/
theorem finishEraseAll_inner : Inner (eraseAllItems s) (finishEraseAll s) :=
  settle_inner (inner_foldl (fun _ k ht => takeUp_inner k none ht)
    (answerWaiting_inner (raise_inner _ (.refl _))))

/-! ## The mutes and the settings -/

theorem setMute_kept (b : Bell) (on : Bool) : Kept s (setMute b on s) := by
  unfold setMute
  split
  · extract_lets _ _ s₁ s₂ r
    have k₁ : Kept s s₁ := ⟨rfl, rfl, fun b => b, fun _ => rfl⟩
    clear_value s₁
    have k₂ : Kept s s₂ := k₁.inner (removeStrikes_inner _ (.refl _))
    split
    · exact k₂.inner (mapBell_inner _ _ (.refl _))
    · exact k₂
  · extract_lets _ _ s₁
    have k₁ : Kept s s₁ := ⟨rfl, rfl, fun b => b, fun _ => rfl⟩
    exact k₁.inner (mapBell_inner _ _ (.refl _))

theorem bellMuteReq_kept (bell : Nat) (on : Bool) (h : Kept s₀ s) : Kept s₀ (bellMuteReq bell on s) := by
  refine gated_kept _ (fun t ht => ?_) h
  split
  · exact settle_kept (reply_kept _ _ _ (ht.trans (setMute_kept _ _)))
  · exact reply_kept _ _ _ ht

theorem causeMaskReq_kept (mask : BitVec 16) (h : Kept s₀ s) : Kept s₀ (causeMaskReq mask s) :=
  gated_kept _ (fun _ ht => reply_kept _ _ _ (ht.trans ⟨rfl, rfl, fun b => b, fun _ => rfl⟩)) h

theorem refuseClaim_inner (c : Claim) (h : Inner s₀ s) : Inner s₀ (refuseClaim c s) := by
  unfold refuseClaim
  extract_lets _ s₁
  have h₁ : Inner s₀ s₁ := dropKey_inner _ h
  clear_value s₁
  repeat' first
    | with_reducible assumption
    | with_reducible apply inner_foldl
    | intro _ _ _
    | with_reducible apply dropLate_inner
    | with_reducible apply withdrawFig_inner
    | with_reducible apply reportFig_inner
    | with_reducible apply homeFails_inner
    | with_reducible apply doorTimesOut_inner
    | with_reducible apply turnTimesOut_inner
    | split

theorem budgetChanged_inner (old : Nat) (h : Inner s₀ s) : Inner s₀ (budgetChanged old s) := by
  unfold budgetChanged
  extract_lets new
  split
  · exact grantPass_inner h
  · split
    · exact grantPass_inner (inner_foldl (fun _ c ht => refuseClaim_inner c ht) h)
    · exact h

theorem mutesChanged_kept (new : BitVec 20) : Kept s (mutesChanged new s) := by
  refine kept_foldl (fun t b ht => ?_) (.refl s)
  split
  · exact ht
  · exact ht.trans (setMute_kept _ _)

/-- New settings keep the bounds when the units held fit in their budget (R111). -/
theorem applySettings_kept (new : Settings) (fits : s.held ≤ new.budget) : Kept s (applySettings new s) := by
  unfold applySettings
  extract_lets old _ s₁ s₂ s₃ s₄
  have k₁ : Kept s s₁ := ⟨rfl, rfl, fun b => ⟨fits, b.2⟩, fun _ => rfl⟩
  clear_value s₁
  have k₂ : Kept s s₂ := by
    unfold s₂
    split
    · exact k₁
    · exact k₁.inner (setDiscipline_inner _ (.refl _))
  clear_value s₂
  have k₃ : Kept s s₃ := by
    unfold s₃
    split
    · exact k₂
    · exact k₂.inner (evalSeasons_inner (.refl _))
  clear_value s₃
  have k₄ : Kept s s₄ := k₃.inner (mapLamps_inner _ (.refl _))
  exact (k₄.trans (mutesChanged_kept _)).inner (budgetChanged_inner _ (.refl _))

theorem configSetReq_kept (fields : List SettingField) (h : Kept s₀ s) : Kept s₀ (configSetReq fields s) := by
  refine gated_kept _ (fun t ht => ?_) h
  split
  · exact reply_kept _ _ _ ht
  · split
    · exact reply_kept _ _ _ ht
    · extract_lets new
      split
      · exact reply_kept _ _ _ ht
      · next hb => exact settle_kept (reply_kept _ _ _ (ht.trans (applySettings_kept _ (not_lt.mp hb))))

theorem configSaveReq_kept (h : Kept s₀ s) : Kept s₀ (configSaveReq s) := by
  refine gated_kept _ (fun t ht => ?_) h
  split
  · exact reply_kept _ _ _ ht
  · exact reply_kept _ _ _ (ht.trans ⟨rfl, rfl, fun b => b, fun _ => rfl⟩)

theorem finishSave_kept (v : SaveRec) : Kept s (finishSave v s) := by
  unfold finishSave
  extract_lets _ s₁ _
  have k₁ : Kept s s₁ := ⟨rfl, rfl, fun b => b, fun _ => rfl⟩
  split
  · exact k₁.trans ⟨rfl, rfl, fun b => b, fun _ => rfl⟩
  · exact raise_kept _ k₁

theorem clearCause_inner (n : Nat) (h : Inner s₀ s) : Inner s₀ (clearCause s n) := by
  unfold clearCause
  split
  · exact inner_record h rfl id
  · exact h

theorem causesClearReq_inner (es : List (Nat × Option Nat)) (h : Inner s₀ s) : Inner s₀ (causesClearReq es s) := by
  refine gated_inner _ (fun t ht => ?_) h
  split
  · exact reply_inner _ _ _ ht
  · split
    · exact reply_inner _ _ _ ht
    · exact reply_inner _ _ _ (inner_foldl (fun _ e hs => clearCause_inner e.1 hs) ht)

/-! ## The host link -/

/-- Every request, handed to its owner, keeps the bounds. -/
theorem serve_kept (r : Request) (h : Kept s₀ s) : Kept s₀ (serve r s) := by
  cases r
  case storePut => exact storePutReq_kept _ _ _ h
  case storeCommit => exact storeCommitReq_kept _ _ h
  case storeErase => exact storeEraseReq_kept _ _ h
  case storeEraseAll => exact storeEraseAllReq_kept h
  case storeProtect => exact storeProtectReq_kept _ _ h
  case storeLock => exact storeLockReq_kept h
  case storeIdentity => exact storeIdentityReq_kept _ _ _ _ h
  case bellMute => exact bellMuteReq_kept _ _ h
  case causeMask => exact causeMaskReq_kept _ h
  case configSet => exact configSetReq_kept _ h
  case configSave => exact configSaveReq_kept h
  case timeSet => exact h.inner (timeSetReq_inner _ _ (.refl s))
  case timeGet => exact h.inner (timeGetReq_inner (.refl s))
  case trigSet => exact h.inner (trigSetReq_inner _ _ _ (.refl s))
  case trigGet => exact h.inner (trigGetReq_inner _ (.refl s))
  case trigDisarm => exact h.inner (trigDisarmReq_inner _ (.refl s))
  case seasonGet => exact h.inner (seasonGetReq_inner (.refl s))
  case storeList => exact h.inner (storeListReq_inner (.refl s))
  case storeRead => exact h.inner (storeReadReq_inner _ _ _ _ (.refl s))
  case storeSum => exact h.inner (storeSumReq_inner (.refl s))
  case showStart => exact h.inner (showStartReq_inner _ _ (.refl s))
  case showStop => exact h.inner (showStopReq_inner _ (.refl s))
  case showHold => exact h.inner (showHoldReq_inner _ (.refl s))
  case showResume => exact h.inner (showResumeReq_inner _ (.refl s))
  case showStatus => exact h.inner (showStatusReq_inner (.refl s))
  case queueGet => exact h.inner (queueGetReq_inner (.refl s))
  case queueFlush => exact h.inner (queueFlushReq_inner _ (.refl s))
  case lampSet => exact h.inner (lampSetReq_inner _ _ _ (.refl s))
  case bellStrike => exact h.inner (bellStrikeReq_inner _ _ (.refl s))
  case bellDamp => exact h.inner (bellDampReq_inner _ (.refl s))
  case bellClear => exact h.inner (bellClearReq_inner _ _ (.refl s))
  case bellStatus => exact h.inner (bellStatusReq_inner (.refl s))
  case budgetGet => exact h.inner (budgetGetReq_inner (.refl s))
  case linkStatus => exact h.inner (linkStatusReq_inner _ (.refl s))
  case linkWake => exact h.inner (linkWakeReq_inner (.refl s))
  case nodeQuery => exact h.inner (nodeQueryReq_inner _ _ (.refl s))
  case figStatus => exact h.inner (figStatusReq_inner (.refl s))
  case figClear => exact h.inner (figClearReq_inner _ (.refl s))
  case figHome => exact h.inner (figHomeReq_inner _ _ (.refl s))
  case doorMove => exact h.inner (doorMoveReq_inner _ _ (.refl s))
  case doorStatus => exact h.inner (doorStatusReq_inner (.refl s))
  case turnHome => exact h.inner (turnHomeReq_inner (.refl s))
  case turnMove => exact h.inner (turnMoveReq_inner _ _ (.refl s))
  case turnStatus => exact h.inner (turnStatusReq_inner (.refl s))
  case inputGet => exact h.inner (inputGetReq_inner (.refl s))
  case guardSet => exact h.inner (guardSetReq_inner _ _ (.refl s))
  case guardGet => exact h.inner (guardGetReq_inner _ (.refl s))
  case captureSet => exact h.inner (captureSetReq_inner _ _ (.refl s))
  case captureGet => exact h.inner (captureGetReq_inner _ _ (.refl s))
  case causesGet => exact gated_kept _ (fun _ ht => reply_kept _ _ _ ht) h
  case causesClear => exact h.inner (causesClearReq_inner _ (.refl s))
  case ident => exact gated_kept _ (fun _ ht => reply_kept _ _ _ ht) h
  case reset => exact gated_kept _ (fun _ ht => reply_kept _ _ _ ht) h
  case configGet => exact gated_kept _ (fun _ ht => reply_kept _ _ _ ht) h

theorem hunting_kept : Kept s (hunting s) := ⟨rfl, rfl, fun b => b, fun _ => rfl⟩

theorem countHost_kept (f : HostCounts → HostCounts) : Kept s (countHost f s) := ⟨rfl, rfl, fun b => b, fun _ => rfl⟩

theorem overlapped_kept (k tag : Byte) : Kept s (overlapped k tag s) := by
  unfold overlapped
  split
  · exact ⟨rfl, rfl, fun b => b, fun _ => rfl⟩
  · exact ⟨rfl, rfl, fun b => b, fun _ => rfl⟩

theorem takeFrame_kept (f : HostFrame) (h : Kept s₀ s) : Kept s₀ (takeFrame f s) := by
  unfold takeFrame
  split
  · exact h.trans (overlapped_kept _ _)
  · extract_lets _ s₁
    have k₁ : Kept s₀ s₁ := h.trans ⟨rfl, rfl, fun b => b, fun _ => rfl⟩
    clear_value s₁
    split
    · exact reply_kept _ _ _ k₁
    · split
      · exact reply_kept _ _ _ k₁
      · exact serve_kept _ k₁

/-! ## Resets and start-up -/

theorem softReset_kept : Kept s (softReset s) :=
  ⟨rfl, rfl, fun _ => ⟨Nat.zero_le _, Nat.zero_le _, Nat.zero_le _, Nat.zero_le _, Nat.zero_le _, rfl⟩, fun _ => rfl⟩

theorem sendFirst_kept : Kept s (sendFirst s) := by
  unfold sendFirst
  split
  · exact .refl s
  · next r rest _ =>
    extract_lets _ s₁ _ s₂
    have k₁ : Kept s s₁ := ⟨rfl, rfl, fun b => b, fun _ => rfl⟩
    have k₂ : Kept s s₂ := by
      unfold s₂
      split
      · exact k₁
      · exact k₁.trans ⟨rfl, rfl, fun b => b, fun _ => rfl⟩
    split
    · exact k₂.trans softReset_kept
    · exact k₂

theorem powerOnReset_bounded : Bounded (powerOnReset s) :=
  ⟨Nat.zero_le _, Nat.zero_le _, Nat.zero_le _, Nat.zero_le _, Nat.zero_le _, rfl⟩

/-- With no claims every budget holds. -/
theorem takeSettings_kept (none : s.dbu.claims = []) : Kept s (takeSettings s) := by
  unfold takeSettings
  split
  next r src _ =>
  have k₁ : Kept s { s with hlc.live := r, hlc.source := src } := ⟨rfl, rfl, fun b => ⟨by
    show heldSum s.dbu.claims ≤ r.budget
    rw [none]
    exact Nat.zero_le _, b.2⟩, fun _ => rfl⟩
  dsimp only
  split
  · exact raise_kept _ k₁
  · exact k₁

theorem raiseSaved_kept : Kept s (raiseSaved s) := by
  unfold raiseSaved
  split
  · exact raise_kept _ ⟨rfl, rfl, fun b => b, fun _ => rfl⟩
  · exact .refl s

theorem startTimebase_kept : Kept s (startTimebase s) := ⟨rfl, rfl, fun b => b, fun _ => rfl⟩

theorem startProgramme_kept : Kept s (startProgramme s) := by
  unfold startProgramme
  split
  · exact ⟨rfl, rfl, fun b => b, fun _ => rfl⟩
  · exact .refl s

theorem startSettings_kept : Kept s (startSettings s) := by
  unfold startSettings
  extract_lets _ _ s₁ s₂ s₃
  have k₁ : Kept s s₁ := ⟨rfl, rfl, fun b => ⟨Nat.zero_le _, b.2⟩, fun _ => rfl⟩
  have c₁ : s₁.dbu.claims = [] := rfl
  clear_value s₁
  have k₂ : Kept s s₂ := by
    unfold s₂
    split
    · exact k₁.trans (takeSettings_kept c₁)
    · exact k₁
  clear_value s₂
  have k₃ : Kept s s₃ :=
    (((k₂.trans startTimebase_kept).trans raiseSaved_kept).trans startProgramme_kept).inner (sampleInputs_inner (.refl _))
  clear_value s₃
  exact k₃.trans ⟨rfl, rfl, fun b => b, fun _ => rfl⟩

theorem startStore_kept : Kept s (startStore s) :=
  (show Kept s { s with hlc.step := 2 } from ⟨rfl, rfl, fun b => b, fun _ => rfl⟩).inner (checkPass_inner (.refl _))

theorem loadTable_inner (h : Inner s₀ s) : Inner s₀ (loadTable s) := by
  unfold loadTable
  split
  · exact recomputeTable_inner h
  · exact loadBlock_inner _ h

theorem startItems_kept : Kept s (startItems s) := by
  have k : Kept s { s with hlc.step := 3 } := ⟨rfl, rfl, fun b => b, fun _ => rfl⟩
  refine k.inner ?_
  have h := evalSeasons_inner (loadBlock_inner .programmes (loadBlock_inner .seasons (.refl { s with hlc.step := 3 })))
  exact loadBlock_inner _ (loadBlock_inner _ (loadTable_inner h))

theorem startDoors_kept : Kept s (startDoors s) := by
  have k : Kept s (startStage { s with hlc.step := 4 }) := ⟨rfl, rfl, fun b => b, fun _ => rfl⟩
  exact k.inner (inner_foldl (fun _ g ht => startGuard_inner g ht) (.refl _))

theorem startLink_kept : Kept s (startLink s) := by
  unfold startLink
  extract_lets _ _ s₁
  have k₁ : Kept s s₁ := ⟨rfl, rfl, fun b => b, fun _ => rfl⟩
  exact k₁.inner (requestWake_inner _ (sendHalt_inner _ _ _ _ (.refl _)))

theorem startTime_kept : Kept s (startTime s) := by
  unfold startTime
  extract_lets _ s₁
  have k₁ : Kept s s₁ := ⟨rfl, rfl, fun b => b, fun _ => rfl⟩
  refine settle_kept ?_
  split
  · exact k₁
  · exact raise_kept _ k₁

/-! ## One millisecond -/

theorem tb_tick_elapsed (t : TB) : t.tick.elapsed = t.elapsed + 1 := by
  unfold TB.tick
  split
  · rfl
  · rfl

end Sys2Proof.Machine
end

