-- ==== Sys2Proof/Laws/Exec.lean ====
section
/-! SUPPORT. What every command can do: it answers a next state, and every command but a power-on reset keeps the
waiting commands, the elapsed count and the bounds. -/
namespace Sys2Proof.Machine

variable {s : State}

/-- An outcome that is a next state which keeps what every command keeps. -/
def KeepsOn (s : State) (o : Host.Outcome State Fault Refusal) : Prop := ∃ t, o = .next t ∧ Kept s t

theorem keepsOn_next {t : State} (k : Kept s t) : KeepsOn s (.next t) := ⟨t, rfl, k⟩

theorem keepsOn_inner {t : State} (h : Inner s t) : KeepsOn s (.next t) := ⟨t, rfl, h.kept⟩

/-- Every request given directly as a row does what its block does with it. -/
theorem keepsOn_serve (r : Request) : KeepsOn s (.next (serve r s)) := ⟨_, rfl, serve_kept r (.refl s)⟩

/-- An event that settles. -/
theorem keepsOn_due (b : Bool) {f : State → State} (hf : ∀ t, Inner s t → Inner s (f t)) :
    KeepsOn s (.next (whenDue b f s)) := keepsOn_inner (whenDue_inner b hf (.refl s))

theorem keepsOn_dueKept (b : Bool) {f : State → State} (hf : ∀ t, Kept s t → Kept s (f t)) :
    KeepsOn s (.next (whenDue b f s)) := keepsOn_next (whenDue_kept b hf (.refl s))

theorem afterStep_keeps (n : Nat) {f : State → State} (hf : ∀ t, Kept t (f t)) :
    KeepsOn s (.next (afterStep n f s)) := keepsOn_dueKept _ fun _ ht => ht.trans (hf _)

theorem answered_keeps (k : LinkKind) {f : Txn → State → State} (hf : ∀ t, Inner s (f t s)) :
    KeepsOn s (.next (answered k f s)) := by
  refine keepsOn_inner ?_
  unfold answered
  split
  · exact settle_inner (hf _)
  · exact .refl s

theorem commitComplete_keeps : KeepsOn s (execCommitComplete s) := by
  unfold execCommitComplete
  split
  · exact keepsOn_next (finishCommit_kept _ _ _)
  · exact keepsOn_next (.refl s)

theorem eraseComplete_keeps : KeepsOn s (execEraseComplete s) := by
  unfold execEraseComplete
  split
  · exact keepsOn_next (finishErase_kept _)
  · exact keepsOn_next (.refl s)

/-- Every command but a power-on reset and the completion of an erase-all. -/
theorem exec_keeps (i : Instr) (hi : i ≠ .powerOnReset ∧ i ≠ .eraseAllComplete) : KeepsOn s (exec i s) := by
  cases i
  case powerOnReset => exact absurd rfl hi.1
  case startupSettings => exact afterStep_keeps _ fun _ => startSettings_kept
  case startupStore => exact afterStep_keeps _ fun _ => startStore_kept
  case startupItems => exact afterStep_keeps _ fun _ => startItems_kept
  case startupDoorsAndGuards => exact afterStep_keeps _ fun _ => startDoors_kept
  case startupLink => exact afterStep_keeps _ fun _ => startLink_kept
  case startupTime => exact afterStep_keeps _ fun _ => startTime_kept
  case hostFrameArrived => exact keepsOn_dueKept _ fun _ ht => takeFrame_kept _ (ht.trans hunting_kept)
  case hostGapTimeout => exact keepsOn_dueKept _ fun _ ht => (ht.trans hunting_kept).trans (countHost_kept _)
  case replySent => exact keepsOn_next sendFirst_kept
  case timeSet => exact keepsOn_serve (.timeSet _ _)
  case timeGet => exact keepsOn_serve (.timeGet)
  case trigSet => exact keepsOn_serve (.trigSet _ _ _)
  case trigGet => exact keepsOn_serve (.trigGet _)
  case trigDisarm => exact keepsOn_serve (.trigDisarm _)
  case seasonGet => exact keepsOn_serve (.seasonGet)
  case storePut => exact keepsOn_serve (.storePut _ _ _)
  case storeCommit => exact keepsOn_serve (.storeCommit _ _)
  case storeErase => exact keepsOn_serve (.storeErase _ _)
  case storeEraseAll => exact keepsOn_serve (.storeEraseAll)
  case storeList => exact keepsOn_serve (.storeList)
  case storeRead => exact keepsOn_serve (.storeRead _ _ _ _)
  case storeSum => exact keepsOn_serve (.storeSum)
  case storeProtect => exact keepsOn_serve (.storeProtect _ _)
  case storeLock => exact keepsOn_serve (.storeLock)
  case storeIdentity => exact keepsOn_serve (.storeIdentity _ _ _ _)
  case commitComplete => exact commitComplete_keeps
  case eraseComplete => exact eraseComplete_keeps
  case eraseAllComplete => exact absurd rfl hi.2
  case minutePulse => exact keepsOn_inner (settle_inner (minuteRise_inner (.refl s)))
  case slewPeriodEnd => exact keepsOn_due _ fun _ ht => endSlewPeriod_inner ht
  case pulseLost => exact keepsOn_due _ fun _ ht => losePulse_inner ht
  case dateChange => exact keepsOn_due _ fun _ ht => evalSeasons_inner ht
  case rangeEnd => exact keepsOn_due _ fun _ ht => settleFreed_inner _ (endRange_inner ht)
  case triggerFire => exact keepsOn_due _ fun _ ht => settle_inner (fireNext_inner _ ht)
  case followOnFire => exact keepsOn_due _ fun _ ht => settle_inner (fireFollowOn_inner _ ht)
  case showStart => exact keepsOn_serve (.showStart _ _)
  case showStop => exact keepsOn_serve (.showStop _)
  case showHold => exact keepsOn_serve (.showHold _)
  case showResume => exact keepsOn_serve (.showResume _)
  case showStatus => exact keepsOn_serve (.showStatus)
  case queueGet => exact keepsOn_serve (.queueGet)
  case queueFlush => exact keepsOn_serve (.queueFlush _)
  case lampSet => exact keepsOn_serve (.lampSet _ _ _)
  case strikeCue => exact keepsOn_inner (cueEvent_inner _ _ _ (.refl s))
  case dampCue => exact keepsOn_inner (cueEvent_inner _ _ _ (.refl s))
  case moveCue => exact keepsOn_inner (cueEvent_inner _ _ _ (.refl s))
  case doorCue => exact keepsOn_inner (cueEvent_inner _ _ _ (.refl s))
  case turnCue => exact keepsOn_inner (cueEvent_inner _ _ _ (.refl s))
  case markCue => exact keepsOn_inner (cueEvent_inner _ _ _ (.refl s))
  case lampCue => exact keepsOn_inner (cueEvent_inner _ _ _ (.refl s))
  case endCue => exact keepsOn_due _ fun _ ht => settle_inner (issueEnd_inner _ ht)
  case holdTimeout => exact keepsOn_due _ fun _ ht => settle_inner (abortLane_inner _ _ _ ht)
  case lampFadeEnd => exact keepsOn_due _ fun _ ht => mapLamp_inner _ _ ht
  case bellStrike => exact keepsOn_serve (.bellStrike _ _)
  case bellDamp => exact keepsOn_serve (.bellDamp _)
  case bellMute => exact keepsOn_serve (.bellMute _ _)
  case bellClear => exact keepsOn_serve (.bellClear _ _)
  case bellStatus => exact keepsOn_serve (.bellStatus)
  case damperLift =>
    show KeepsOn s (execDamperLift _ s)
    unfold execDamperLift
    split
    · next k _ => exact keepsOn_next ((liftFor_inner k (.refl s)).kept)
    · exact keepsOn_next (.refl s)
  case strikeClaim =>
    show KeepsOn s (execStrikeClaim _ s)
    unfold execStrikeClaim
    split
    · next k _ => exact keepsOn_next ((settle_inner (claimStrike_inner k (.refl s))).kept)
    · exact keepsOn_next (.refl s)
  case pulseEnd => exact keepsOn_due _ fun _ ht => settle_inner (endPulse_inner _ ht)
  case strikeDeadline =>
    show KeepsOn s (execStrikeDeadline _ s)
    unfold execStrikeDeadline
    split
    · next k _ => exact keepsOn_next ((settle_inner (dropLate_inner k (.refl s))).kept)
    · exact keepsOn_next (.refl s)
  case echoWindowClose => exact keepsOn_due _ fun _ ht => settle_inner (closeEcho_inner _ ht)
  case stuckEchoTest => exact keepsOn_due _ fun _ ht => settle_inner (testStuck_inner _ ht)
  case damperDrop => exact keepsOn_inner (testDamper_inner _ (.refl s))
  case echoEdge => exact keepsOn_inner (echoEdge_inner _ _ (.refl s))
  case budgetGet => exact keepsOn_serve (.budgetGet)
  case linkStatus => exact keepsOn_serve (.linkStatus _)
  case linkWake => exact keepsOn_serve (.linkWake)
  case nodeQuery => exact keepsOn_serve (.nodeQuery _ _)
  case transactionStart =>
    show KeepsOn s (execTransactionStart s)
    unfold execTransactionStart
    split
    · next x _ => exact keepsOn_next ((take_inner x (.refl s)).kept)
    · exact keepsOn_next (.refl s)
  case retryAttempt => exact keepsOn_due _ fun _ ht => retryNow_inner ht
  case readbackError =>
    show KeepsOn s (execReadbackError _ _ s)
    unfold execReadbackError
    split
    · next f _ => exact keepsOn_next ((whenDue_inner _ (fun _ ht => settle_inner (failAttempt_inner _ ht)) (.refl s)).kept)
    · exact keepsOn_next (.refl s)
  case noAnswer => exact keepsOn_due _ fun _ ht => settle_inner (failAttempt_inner _ ht)
  case frameError => exact keepsOn_due _ fun _ ht => settle_inner (failAttempt_inner _ ht)
  case gapTimeout => exact keepsOn_due _ fun _ ht => settle_inner (failAttempt_inner _ ht)
  case statusAnswer => exact answered_keeps _ fun t => takeStatus_inner t _ (.refl s)
  case stageAnswer => exact answered_keeps _ fun t => takeStage_inner t _ (.refl s)
  case clearAnswer => exact answered_keeps _ fun t => takeClear_inner t _ (.refl s)
  case homeAnswer => exact answered_keeps _ fun t => takeHome_inner t _ (.refl s)
  case identAnswer => exact answered_keeps _ fun t => takeIdent_inner t _ (.refl s)
  case goComplete =>
    show KeepsOn s (execGoComplete s)
    unfold execGoComplete
    split
    · next t _ => exact keepsOn_next ((settle_inner (finishGo_inner t (.refl s))).kept)
    · exact keepsOn_next (.refl s)
  case haltComplete =>
    show KeepsOn s (execHaltComplete s)
    unfold execHaltComplete
    split
    · next t _ => exact keepsOn_next ((settle_inner (haltDone_inner _ _ (endFlight_inner (.refl s)))).kept)
    · exact keepsOn_next (.refl s)
  case transactionAbandoned => exact keepsOn_due _ fun _ ht => settle_inner (abandon_inner ht)
  case alert => exact keepsOn_due _ fun _ ht => takeAlert_inner ht
  case lineStuck => exact keepsOn_due _ fun _ ht => settle_inner (lineSticks_inner ht)
  case lineReleased => exact keepsOn_due _ fun _ ht => lineFrees_inner ht
  case wakeLowEnd => exact keepsOn_due _ fun _ ht => endLow_inner ht
  case wakeComplete => exact keepsOn_due _ fun _ ht => endSettle_inner ht
  case wakePending => exact keepsOn_due _ fun _ ht => makeWake_inner ht
  case pollTick => exact keepsOn_due _ fun _ ht => pollTick_inner ht
  case hostEntryTimeout =>
    show KeepsOn s (execHostEntryTimeout s)
    unfold execHostEntryTimeout
    split
    · next t _ => exact keepsOn_next ((linkRefused_inner _ (inner_link (.refl s) List.length_erase_le)).kept)
    · exact keepsOn_next (.refl s)
  case figStatus => exact keepsOn_serve (.figStatus)
  case figClear => exact keepsOn_serve (.figClear _)
  case figHome => exact keepsOn_serve (.figHome _ _)
  case doorMove => exact keepsOn_serve (.doorMove _ _)
  case doorStatus => exact keepsOn_serve (.doorStatus)
  case turnHome => exact keepsOn_serve (.turnHome)
  case turnMove => exact keepsOn_serve (.turnMove _ _)
  case turnStatus => exact keepsOn_serve (.turnStatus)
  case goQueued => exact keepsOn_due _ fun _ ht => settle_inner (queueGo_inner _ ht)
  case goDeadline => exact keepsOn_due _ fun _ ht => settle_inner (missGo_inner _ ht)
  case arrivalWindowClose => exact keepsOn_due _ fun _ ht => settle_inner (windowCloses_inner _ ht)
  case homeQueued => exact keepsOn_due _ fun _ ht => settle_inner (queueHome_inner _ ht)
  case homingTimeout => exact keepsOn_due _ fun _ ht => settle_inner (homeFails_inner _ ht)
  case homeArrivalTimeout => exact keepsOn_due _ fun _ ht => settle_inner (homeStops_inner _ ht)
  case doorLimitEdge => exact keepsOn_inner (settle_inner (limitEdge_inner _ _ _ (.refl s)))
  case doorTravelLimit =>
    show KeepsOn s (execDoorTravelLimit _ s)
    unfold execDoorTravelLimit
    split
    · next c _ => exact keepsOn_next ((settle_inner (doorStalls_inner _ c (.refl s))).kept)
    · exact keepsOn_next (.refl s)
  case doorDeadline =>
    show KeepsOn s (execDoorDeadline _ s)
    unfold execDoorDeadline
    split
    · next c _ => exact keepsOn_next ((settle_inner (doorTimesOut_inner _ c (.refl s))).kept)
    · exact keepsOn_next (.refl s)
  case turntableIndexEdge => exact keepsOn_inner (settle_inner (tableIndexEdge_inner _ (.refl s)))
  case turntableHomeEdge => exact keepsOn_inner (settle_inner (tableHomeEdge_inner _ (.refl s)))
  case turnIndexTimeout => exact keepsOn_due _ fun _ ht => settle_inner (turnFails_inner _ ht)
  case turnDeadline =>
    show KeepsOn s (execTurnDeadline s)
    unfold execTurnDeadline
    split
    · next c _ => exact keepsOn_next ((settle_inner (turnTimesOut_inner c (.refl s))).kept)
    · exact keepsOn_next (.refl s)
  case inputGet => exact keepsOn_serve (.inputGet)
  case guardSet => exact keepsOn_serve (.guardSet _ _)
  case guardGet => exact keepsOn_serve (.guardGet _)
  case captureSet => exact keepsOn_serve (.captureSet _ _)
  case captureGet => exact keepsOn_serve (.captureGet _ _)
  case generalInputEdge => exact keepsOn_inner (settle_inner (generalEdges_inner _ (.refl s)))
  case autoResume => exact keepsOn_due _ fun _ ht => settle_inner (autoResume_inner _ ht)
  case captureWindowClose => exact keepsOn_due _ fun _ ht => settle_inner (closeWindow_inner _ ht)
  case causesGet => exact keepsOn_serve (.causesGet)
  case causesClear => exact keepsOn_serve (.causesClear _)
  case causeMask => exact keepsOn_serve (.causeMask _)
  case ident => exact keepsOn_serve (.ident)
  case reset => exact keepsOn_serve (.reset)
  case configSet => exact keepsOn_serve (.configSet _)
  case configGet => exact keepsOn_serve (.configGet)
  case configSave => exact keepsOn_serve (.configSave)
  case configSaveComplete =>
    show KeepsOn s (execConfigSaveComplete s)
    unfold execConfigSaveComplete
    split
    · next v _ => exact keepsOn_next (finishSave_kept v)
    · exact keepsOn_next (.refl s)
  case syncByte => exact keepsOn_dueKept _ fun _ ht => ht.trans ⟨rfl, rfl, fun b => b, fun _ => rfl⟩
  case strayByte => exact keepsOn_dueKept _ fun _ ht => ht.trans (countHost_kept _)
  case frameLengthError => exact keepsOn_dueKept _ fun _ ht => (ht.trans hunting_kept).trans (countHost_kept _)
  case frameCrcError => exact keepsOn_dueKept _ fun _ ht => (ht.trans hunting_kept).trans (countHost_kept _)

/-- The completion of an erase-all. -/
theorem eraseAllComplete_next :
    execEraseAllComplete s = .next s ∨ execEraseAllComplete s = .next (finishEraseAll s) := by
  unfold execEraseAllComplete
  split
  · exact .inr rfl
  · exact .inl rfl

end Sys2Proof.Machine
end

