-- ==== Sys2Proof/Laws/Flags.lean ====
section
/-! SUPPORT. The flag word's bits are the causes' flags. -/
namespace Sys2Proof.Machine

theorem foldFlags_getLsbD (cs : Vector CauseRec 16) (l : List (Fin 16)) (w : BitVec 16) (j : Fin 16) :
    (l.foldl (fun w i => if (cs.get i).flag then w ||| (1#16 <<< i.val) else w) w).getLsbD j.val =
      (w.getLsbD j.val || (decide (j ∈ l) && (cs.get j).flag)) := by
  induction l generalizing w with
  | nil => simp
  | cons i l ih =>
    rw [List.foldl_cons, ih]
    by_cases hf : (cs.get i).flag <;> by_cases hij : j = i
    · subst hij; simp [hf]
    · have : (1#16 <<< i.val).getLsbD j.val = false := by
        simp
        intro _ h2
        exact absurd (Fin.ext (by omega)) hij
      simp only [hf, if_true, BitVec.getLsbD_or, this]
      simp [hij]
    · subst hij; simp [hf]
    · simp [hij, hf]

/-- Bit n of the flag word is the flag of cause n (section 10.6). -/
theorem flagWord_getLsbD (cs : Vector CauseRec 16) (j : Fin 16) :
    (flagWord cs).getLsbD j.val = (cs.get j).flag := by
  unfold flagWord
  rw [foldFlags_getLsbD]
  simp

end Sys2Proof.Machine
end

