-- ==== Sys2Proof/Laws/Gate.lean ====
section
/-! SUPPORT. The request gate and the guard of an event: which branch each takes. -/
namespace Sys2Proof.Machine

variable {s : State} {k : Byte} {f : State → State}

theorem gateStep_pos (k : Byte) : 1 ≤ gateStep k := by
  unfold gateStep; dsimp only; split_ifs <;> decide

/-- A request whose owner's start-up step has ended is carried out (R181). -/
theorem gated_open (h : gateStep k ≤ s.hlc.step) : gated k f s = f s := by
  have := gateStep_pos k
  unfold gated
  rw [if_neg (by omega), if_neg (by omega)]

/-- The same, for the step the owner of the kind waits for. -/
theorem gated_at {n : Nat} (hk : gateStep k = n) (h : n ≤ s.hlc.step) : gated k f s = f s :=
  gated_open (hk ▸ h)

/-- Before that it is answered BUSY (R181). -/
theorem gated_busy (h : 1 ≤ s.hlc.step) (g : s.hlc.step < gateStep k) : gated k f s = reply k .busy .none s := by
  unfold gated
  rw [if_neg (by omega), if_pos g]

/-- Before the end of start-up step 1 no byte is taken (R181). -/
theorem gated_deaf (h : s.hlc.step = 0) : gated k f s = s := by
  unfold gated; rw [if_pos h]

theorem whenDue_true {b : Bool} (h : b = true) : whenDue b f s = f s := by unfold whenDue; rw [if_pos h]

/-- An event whose condition does not hold changes nothing (log entry 1). -/
theorem whenDue_false {b : Bool} (h : b = false) : whenDue b f s = s := by
  unfold whenDue; rw [if_neg (by simp [h])]

theorem toFin_lt {n x : Nat} (h : x < n) : toFin n x = some ⟨x, h⟩ := by unfold toFin; rw [dif_pos h]
theorem toFin_val {n : Nat} (i : Fin n) : toFin n i.val = some i := toFin_lt i.isLt
theorem toFin_ge {n x : Nat} (h : n ≤ x) : toFin n x = none := by unfold toFin; rw [dif_neg (by omega)]

end Sys2Proof.Machine
end

