-- ==== Sys2Proof/Laws/State.lean ====
section
/-! SUPPORT. What each update of State leaves as it was, field by field, and what is read back after it. -/
namespace Sys2Proof.Machine

variable (s : State)

@[simp] theorem setLane_tb (l : Lane) (r : LaneRec) : (s.setLane l r).tb = s.tb := by cases l <;> rfl
@[simp] theorem setLane_sch (l : Lane) (r : LaneRec) : (s.setLane l r).sch = s.sch := by cases l <;> rfl
@[simp] theorem setLane_ps (l : Lane) (r : LaneRec) : (s.setLane l r).ps = s.ps := by cases l <;> rfl
@[simp] theorem setLane_bell (l : Lane) (r : LaneRec) : (s.setLane l r).bell = s.bell := by cases l <;> rfl
@[simp] theorem setLane_dbu (l : Lane) (r : LaneRec) : (s.setLane l r).dbu = s.dbu := by cases l <;> rfl
@[simp] theorem setLane_flc (l : Lane) (r : LaneRec) : (s.setLane l r).flc = s.flc := by cases l <;> rfl
@[simp] theorem setLane_stg (l : Lane) (r : LaneRec) : (s.setLane l r).stg = s.stg := by cases l <;> rfl
@[simp] theorem setLane_inm (l : Lane) (r : LaneRec) : (s.setLane l r).inm = s.inm := by cases l <;> rfl
@[simp] theorem setLane_hlc (l : Lane) (r : LaneRec) : (s.setLane l r).hlc = s.hlc := by cases l <;> rfl
@[simp] theorem setLane_pending (l : Lane) (r : LaneRec) : (s.setLane l r).pending = s.pending := by cases l <;> rfl
@[simp] theorem setLane_free (l : Lane) (r : LaneRec) : (s.setLane l r).free = s.free := by cases l <;> rfl

@[simp] theorem mapRun_tb (l : Lane) (f : Run → Run) : (s.mapRun l f).tb = s.tb := by cases l <;> rfl
@[simp] theorem mapRun_sch (l : Lane) (f : Run → Run) : (s.mapRun l f).sch = s.sch := by cases l <;> rfl
@[simp] theorem mapRun_ps (l : Lane) (f : Run → Run) : (s.mapRun l f).ps = s.ps := by cases l <;> rfl
@[simp] theorem mapRun_bell (l : Lane) (f : Run → Run) : (s.mapRun l f).bell = s.bell := by cases l <;> rfl
@[simp] theorem mapRun_dbu (l : Lane) (f : Run → Run) : (s.mapRun l f).dbu = s.dbu := by cases l <;> rfl
@[simp] theorem mapRun_flc (l : Lane) (f : Run → Run) : (s.mapRun l f).flc = s.flc := by cases l <;> rfl
@[simp] theorem mapRun_stg (l : Lane) (f : Run → Run) : (s.mapRun l f).stg = s.stg := by cases l <;> rfl
@[simp] theorem mapRun_inm (l : Lane) (f : Run → Run) : (s.mapRun l f).inm = s.inm := by cases l <;> rfl
@[simp] theorem mapRun_hlc (l : Lane) (f : Run → Run) : (s.mapRun l f).hlc = s.hlc := by cases l <;> rfl
@[simp] theorem mapRun_pending (l : Lane) (f : Run → Run) : (s.mapRun l f).pending = s.pending := by cases l <;> rfl
@[simp] theorem mapRun_free (l : Lane) (f : Run → Run) : (s.mapRun l f).free = s.free := by cases l <;> rfl

@[simp] theorem setBell_tb (b : Bell) (r : BellRec) : (s.setBell b r).tb = s.tb := rfl
@[simp] theorem setBell_sch (b : Bell) (r : BellRec) : (s.setBell b r).sch = s.sch := rfl
@[simp] theorem setBell_ps (b : Bell) (r : BellRec) : (s.setBell b r).ps = s.ps := rfl
@[simp] theorem setBell_seq (b : Bell) (r : BellRec) : (s.setBell b r).seq = s.seq := rfl
@[simp] theorem setBell_dbu (b : Bell) (r : BellRec) : (s.setBell b r).dbu = s.dbu := rfl
@[simp] theorem setBell_flc (b : Bell) (r : BellRec) : (s.setBell b r).flc = s.flc := rfl
@[simp] theorem setBell_stg (b : Bell) (r : BellRec) : (s.setBell b r).stg = s.stg := rfl
@[simp] theorem setBell_inm (b : Bell) (r : BellRec) : (s.setBell b r).inm = s.inm := rfl
@[simp] theorem setBell_hlc (b : Bell) (r : BellRec) : (s.setBell b r).hlc = s.hlc := rfl
@[simp] theorem setBell_pending (b : Bell) (r : BellRec) : (s.setBell b r).pending = s.pending := rfl
@[simp] theorem setBell_free (b : Bell) (r : BellRec) : (s.setBell b r).free = s.free := rfl

@[simp] theorem mapBell_tb (b : Bell) (f : BellRec → BellRec) : (s.mapBell b f).tb = s.tb := rfl
@[simp] theorem mapBell_sch (b : Bell) (f : BellRec → BellRec) : (s.mapBell b f).sch = s.sch := rfl
@[simp] theorem mapBell_ps (b : Bell) (f : BellRec → BellRec) : (s.mapBell b f).ps = s.ps := rfl
@[simp] theorem mapBell_seq (b : Bell) (f : BellRec → BellRec) : (s.mapBell b f).seq = s.seq := rfl
@[simp] theorem mapBell_dbu (b : Bell) (f : BellRec → BellRec) : (s.mapBell b f).dbu = s.dbu := rfl
@[simp] theorem mapBell_flc (b : Bell) (f : BellRec → BellRec) : (s.mapBell b f).flc = s.flc := rfl
@[simp] theorem mapBell_stg (b : Bell) (f : BellRec → BellRec) : (s.mapBell b f).stg = s.stg := rfl
@[simp] theorem mapBell_inm (b : Bell) (f : BellRec → BellRec) : (s.mapBell b f).inm = s.inm := rfl
@[simp] theorem mapBell_hlc (b : Bell) (f : BellRec → BellRec) : (s.mapBell b f).hlc = s.hlc := rfl
@[simp] theorem mapBell_pending (b : Bell) (f : BellRec → BellRec) : (s.mapBell b f).pending = s.pending := rfl
@[simp] theorem mapBell_free (b : Bell) (f : BellRec → BellRec) : (s.mapBell b f).free = s.free := rfl

@[simp] theorem setFig_tb (f : Fig) (r : FigRec) : (s.setFig f r).tb = s.tb := rfl
@[simp] theorem setFig_sch (f : Fig) (r : FigRec) : (s.setFig f r).sch = s.sch := rfl
@[simp] theorem setFig_ps (f : Fig) (r : FigRec) : (s.setFig f r).ps = s.ps := rfl
@[simp] theorem setFig_seq (f : Fig) (r : FigRec) : (s.setFig f r).seq = s.seq := rfl
@[simp] theorem setFig_bell (f : Fig) (r : FigRec) : (s.setFig f r).bell = s.bell := rfl
@[simp] theorem setFig_dbu (f : Fig) (r : FigRec) : (s.setFig f r).dbu = s.dbu := rfl
@[simp] theorem setFig_flc (f : Fig) (r : FigRec) : (s.setFig f r).flc = s.flc := rfl
@[simp] theorem setFig_inm (f : Fig) (r : FigRec) : (s.setFig f r).inm = s.inm := rfl
@[simp] theorem setFig_hlc (f : Fig) (r : FigRec) : (s.setFig f r).hlc = s.hlc := rfl
@[simp] theorem setFig_pending (f : Fig) (r : FigRec) : (s.setFig f r).pending = s.pending := rfl
@[simp] theorem setFig_free (f : Fig) (r : FigRec) : (s.setFig f r).free = s.free := rfl

@[simp] theorem mapFig_tb (f : Fig) (g : FigRec → FigRec) : (s.mapFig f g).tb = s.tb := rfl
@[simp] theorem mapFig_sch (f : Fig) (g : FigRec → FigRec) : (s.mapFig f g).sch = s.sch := rfl
@[simp] theorem mapFig_ps (f : Fig) (g : FigRec → FigRec) : (s.mapFig f g).ps = s.ps := rfl
@[simp] theorem mapFig_seq (f : Fig) (g : FigRec → FigRec) : (s.mapFig f g).seq = s.seq := rfl
@[simp] theorem mapFig_bell (f : Fig) (g : FigRec → FigRec) : (s.mapFig f g).bell = s.bell := rfl
@[simp] theorem mapFig_dbu (f : Fig) (g : FigRec → FigRec) : (s.mapFig f g).dbu = s.dbu := rfl
@[simp] theorem mapFig_flc (f : Fig) (g : FigRec → FigRec) : (s.mapFig f g).flc = s.flc := rfl
@[simp] theorem mapFig_inm (f : Fig) (g : FigRec → FigRec) : (s.mapFig f g).inm = s.inm := rfl
@[simp] theorem mapFig_hlc (f : Fig) (g : FigRec → FigRec) : (s.mapFig f g).hlc = s.hlc := rfl
@[simp] theorem mapFig_pending (f : Fig) (g : FigRec → FigRec) : (s.mapFig f g).pending = s.pending := rfl
@[simp] theorem mapFig_free (f : Fig) (g : FigRec → FigRec) : (s.mapFig f g).free = s.free := rfl

@[simp] theorem setDoor_tb (d : Door) (r : DoorRec) : (s.setDoor d r).tb = s.tb := rfl
@[simp] theorem setDoor_sch (d : Door) (r : DoorRec) : (s.setDoor d r).sch = s.sch := rfl
@[simp] theorem setDoor_ps (d : Door) (r : DoorRec) : (s.setDoor d r).ps = s.ps := rfl
@[simp] theorem setDoor_seq (d : Door) (r : DoorRec) : (s.setDoor d r).seq = s.seq := rfl
@[simp] theorem setDoor_bell (d : Door) (r : DoorRec) : (s.setDoor d r).bell = s.bell := rfl
@[simp] theorem setDoor_dbu (d : Door) (r : DoorRec) : (s.setDoor d r).dbu = s.dbu := rfl
@[simp] theorem setDoor_flc (d : Door) (r : DoorRec) : (s.setDoor d r).flc = s.flc := rfl
@[simp] theorem setDoor_inm (d : Door) (r : DoorRec) : (s.setDoor d r).inm = s.inm := rfl
@[simp] theorem setDoor_hlc (d : Door) (r : DoorRec) : (s.setDoor d r).hlc = s.hlc := rfl
@[simp] theorem setDoor_pending (d : Door) (r : DoorRec) : (s.setDoor d r).pending = s.pending := rfl
@[simp] theorem setDoor_free (d : Door) (r : DoorRec) : (s.setDoor d r).free = s.free := rfl

@[simp] theorem setTurn_tb (r : TurnRec) : (s.setTurn r).tb = s.tb := rfl
@[simp] theorem setTurn_sch (r : TurnRec) : (s.setTurn r).sch = s.sch := rfl
@[simp] theorem setTurn_ps (r : TurnRec) : (s.setTurn r).ps = s.ps := rfl
@[simp] theorem setTurn_seq (r : TurnRec) : (s.setTurn r).seq = s.seq := rfl
@[simp] theorem setTurn_bell (r : TurnRec) : (s.setTurn r).bell = s.bell := rfl
@[simp] theorem setTurn_dbu (r : TurnRec) : (s.setTurn r).dbu = s.dbu := rfl
@[simp] theorem setTurn_flc (r : TurnRec) : (s.setTurn r).flc = s.flc := rfl
@[simp] theorem setTurn_inm (r : TurnRec) : (s.setTurn r).inm = s.inm := rfl
@[simp] theorem setTurn_hlc (r : TurnRec) : (s.setTurn r).hlc = s.hlc := rfl
@[simp] theorem setTurn_pending (r : TurnRec) : (s.setTurn r).pending = s.pending := rfl
@[simp] theorem setTurn_free (r : TurnRec) : (s.setTurn r).free = s.free := rfl

@[simp] theorem mapNode_tb (a : Fin 16) (f : NodeRec → NodeRec) : (s.mapNode a f).tb = s.tb := rfl
@[simp] theorem mapNode_sch (a : Fin 16) (f : NodeRec → NodeRec) : (s.mapNode a f).sch = s.sch := rfl
@[simp] theorem mapNode_ps (a : Fin 16) (f : NodeRec → NodeRec) : (s.mapNode a f).ps = s.ps := rfl
@[simp] theorem mapNode_seq (a : Fin 16) (f : NodeRec → NodeRec) : (s.mapNode a f).seq = s.seq := rfl
@[simp] theorem mapNode_bell (a : Fin 16) (f : NodeRec → NodeRec) : (s.mapNode a f).bell = s.bell := rfl
@[simp] theorem mapNode_dbu (a : Fin 16) (f : NodeRec → NodeRec) : (s.mapNode a f).dbu = s.dbu := rfl
@[simp] theorem mapNode_stg (a : Fin 16) (f : NodeRec → NodeRec) : (s.mapNode a f).stg = s.stg := rfl
@[simp] theorem mapNode_inm (a : Fin 16) (f : NodeRec → NodeRec) : (s.mapNode a f).inm = s.inm := rfl
@[simp] theorem mapNode_hlc (a : Fin 16) (f : NodeRec → NodeRec) : (s.mapNode a f).hlc = s.hlc := rfl
@[simp] theorem mapNode_pending (a : Fin 16) (f : NodeRec → NodeRec) : (s.mapNode a f).pending = s.pending := rfl
@[simp] theorem mapNode_free (a : Fin 16) (f : NodeRec → NodeRec) : (s.mapNode a f).free = s.free := rfl

@[simp] theorem setTrig_tb (i : Trig) (r : TrigRec) : (s.setTrig i r).tb = s.tb := rfl
@[simp] theorem setTrig_ps (i : Trig) (r : TrigRec) : (s.setTrig i r).ps = s.ps := rfl
@[simp] theorem setTrig_seq (i : Trig) (r : TrigRec) : (s.setTrig i r).seq = s.seq := rfl
@[simp] theorem setTrig_bell (i : Trig) (r : TrigRec) : (s.setTrig i r).bell = s.bell := rfl
@[simp] theorem setTrig_dbu (i : Trig) (r : TrigRec) : (s.setTrig i r).dbu = s.dbu := rfl
@[simp] theorem setTrig_flc (i : Trig) (r : TrigRec) : (s.setTrig i r).flc = s.flc := rfl
@[simp] theorem setTrig_stg (i : Trig) (r : TrigRec) : (s.setTrig i r).stg = s.stg := rfl
@[simp] theorem setTrig_inm (i : Trig) (r : TrigRec) : (s.setTrig i r).inm = s.inm := rfl
@[simp] theorem setTrig_hlc (i : Trig) (r : TrigRec) : (s.setTrig i r).hlc = s.hlc := rfl
@[simp] theorem setTrig_pending (i : Trig) (r : TrigRec) : (s.setTrig i r).pending = s.pending := rfl
@[simp] theorem setTrig_free (i : Trig) (r : TrigRec) : (s.setTrig i r).free = s.free := rfl

@[simp] theorem mapTrig_tb (i : Trig) (f : TrigRec → TrigRec) : (s.mapTrig i f).tb = s.tb := rfl
@[simp] theorem mapTrig_ps (i : Trig) (f : TrigRec → TrigRec) : (s.mapTrig i f).ps = s.ps := rfl
@[simp] theorem mapTrig_seq (i : Trig) (f : TrigRec → TrigRec) : (s.mapTrig i f).seq = s.seq := rfl
@[simp] theorem mapTrig_bell (i : Trig) (f : TrigRec → TrigRec) : (s.mapTrig i f).bell = s.bell := rfl
@[simp] theorem mapTrig_dbu (i : Trig) (f : TrigRec → TrigRec) : (s.mapTrig i f).dbu = s.dbu := rfl
@[simp] theorem mapTrig_flc (i : Trig) (f : TrigRec → TrigRec) : (s.mapTrig i f).flc = s.flc := rfl
@[simp] theorem mapTrig_stg (i : Trig) (f : TrigRec → TrigRec) : (s.mapTrig i f).stg = s.stg := rfl
@[simp] theorem mapTrig_inm (i : Trig) (f : TrigRec → TrigRec) : (s.mapTrig i f).inm = s.inm := rfl
@[simp] theorem mapTrig_hlc (i : Trig) (f : TrigRec → TrigRec) : (s.mapTrig i f).hlc = s.hlc := rfl
@[simp] theorem mapTrig_pending (i : Trig) (f : TrigRec → TrigRec) : (s.mapTrig i f).pending = s.pending := rfl
@[simp] theorem mapTrig_free (i : Trig) (f : TrigRec → TrigRec) : (s.mapTrig i f).free = s.free := rfl

@[simp] theorem setUnit_tb (u : CapUnit) (r : CapRec) : (s.setUnit u r).tb = s.tb := rfl
@[simp] theorem setUnit_sch (u : CapUnit) (r : CapRec) : (s.setUnit u r).sch = s.sch := rfl
@[simp] theorem setUnit_ps (u : CapUnit) (r : CapRec) : (s.setUnit u r).ps = s.ps := rfl
@[simp] theorem setUnit_seq (u : CapUnit) (r : CapRec) : (s.setUnit u r).seq = s.seq := rfl
@[simp] theorem setUnit_bell (u : CapUnit) (r : CapRec) : (s.setUnit u r).bell = s.bell := rfl
@[simp] theorem setUnit_dbu (u : CapUnit) (r : CapRec) : (s.setUnit u r).dbu = s.dbu := rfl
@[simp] theorem setUnit_flc (u : CapUnit) (r : CapRec) : (s.setUnit u r).flc = s.flc := rfl
@[simp] theorem setUnit_stg (u : CapUnit) (r : CapRec) : (s.setUnit u r).stg = s.stg := rfl
@[simp] theorem setUnit_hlc (u : CapUnit) (r : CapRec) : (s.setUnit u r).hlc = s.hlc := rfl
@[simp] theorem setUnit_pending (u : CapUnit) (r : CapRec) : (s.setUnit u r).pending = s.pending := rfl
@[simp] theorem setUnit_free (u : CapUnit) (r : CapRec) : (s.setUnit u r).free = s.free := rfl

@[simp] theorem setGroup_tb (g : Group) (r : GuardRec) : (s.setGroup g r).tb = s.tb := rfl
@[simp] theorem setGroup_sch (g : Group) (r : GuardRec) : (s.setGroup g r).sch = s.sch := rfl
@[simp] theorem setGroup_ps (g : Group) (r : GuardRec) : (s.setGroup g r).ps = s.ps := rfl
@[simp] theorem setGroup_seq (g : Group) (r : GuardRec) : (s.setGroup g r).seq = s.seq := rfl
@[simp] theorem setGroup_bell (g : Group) (r : GuardRec) : (s.setGroup g r).bell = s.bell := rfl
@[simp] theorem setGroup_dbu (g : Group) (r : GuardRec) : (s.setGroup g r).dbu = s.dbu := rfl
@[simp] theorem setGroup_flc (g : Group) (r : GuardRec) : (s.setGroup g r).flc = s.flc := rfl
@[simp] theorem setGroup_stg (g : Group) (r : GuardRec) : (s.setGroup g r).stg = s.stg := rfl
@[simp] theorem setGroup_hlc (g : Group) (r : GuardRec) : (s.setGroup g r).hlc = s.hlc := rfl
@[simp] theorem setGroup_pending (g : Group) (r : GuardRec) : (s.setGroup g r).pending = s.pending := rfl
@[simp] theorem setGroup_free (g : Group) (r : GuardRec) : (s.setGroup g r).free = s.free := rfl

@[simp] theorem raise_tb (d : Detail) : (raise d s).tb = s.tb := by unfold raise; split <;> rfl
@[simp] theorem raise_sch (d : Detail) : (raise d s).sch = s.sch := by unfold raise; split <;> rfl
@[simp] theorem raise_ps (d : Detail) : (raise d s).ps = s.ps := by unfold raise; split <;> rfl
@[simp] theorem raise_seq (d : Detail) : (raise d s).seq = s.seq := by unfold raise; split <;> rfl
@[simp] theorem raise_bell (d : Detail) : (raise d s).bell = s.bell := by unfold raise; split <;> rfl
@[simp] theorem raise_dbu (d : Detail) : (raise d s).dbu = s.dbu := by unfold raise; split <;> rfl
@[simp] theorem raise_flc (d : Detail) : (raise d s).flc = s.flc := by unfold raise; split <;> rfl
@[simp] theorem raise_stg (d : Detail) : (raise d s).stg = s.stg := by unfold raise; split <;> rfl
@[simp] theorem raise_inm (d : Detail) : (raise d s).inm = s.inm := by unfold raise; split <;> rfl
@[simp] theorem raise_pending (d : Detail) : (raise d s).pending = s.pending := by unfold raise; split <;> rfl
@[simp] theorem raise_free (d : Detail) : (raise d s).free = s.free := by unfold raise; split <;> rfl
@[simp] theorem raise_step (d : Detail) : (raise d s).hlc.step = s.hlc.step := by unfold raise; split <;> rfl
@[simp] theorem raise_powerOn (d : Detail) : (raise d s).hlc.powerOn = s.hlc.powerOn := by unfold raise; split <;> rfl
@[simp] theorem raise_live (d : Detail) : (raise d s).hlc.live = s.hlc.live := by unfold raise; split <;> rfl
@[simp] theorem raise_saved (d : Detail) : (raise d s).hlc.saved = s.hlc.saved := by unfold raise; split <;> rfl
@[simp] theorem raise_save (d : Detail) : (raise d s).hlc.save = s.hlc.save := by unfold raise; split <;> rfl
@[simp] theorem raise_source (d : Detail) : (raise d s).hlc.source = s.hlc.source := by unfold raise; split <;> rfl
@[simp] theorem raise_counts (d : Detail) : (raise d s).hlc.counts = s.hlc.counts := by unfold raise; split <;> rfl
@[simp] theorem raise_replies (d : Detail) : (raise d s).hlc.replies = s.hlc.replies := by unfold raise; split <;> rfl
@[simp] theorem raise_outstanding (d : Detail) : (raise d s).hlc.outstanding = s.hlc.outstanding := by unfold raise; split <;> rfl
@[simp] theorem raise_rx (d : Detail) : (raise d s).hlc.rx = s.hlc.rx := by unfold raise; split <;> rfl
@[simp] theorem raise_savedPending (d : Detail) : (raise d s).hlc.savedPending = s.hlc.savedPending := by unfold raise; split <;> rfl

@[simp] theorem reply_tb (k : Byte) (st : Status) (d : ReplyData) : (reply k st d s).tb = s.tb := rfl
@[simp] theorem reply_sch (k : Byte) (st : Status) (d : ReplyData) : (reply k st d s).sch = s.sch := rfl
@[simp] theorem reply_ps (k : Byte) (st : Status) (d : ReplyData) : (reply k st d s).ps = s.ps := rfl
@[simp] theorem reply_seq (k : Byte) (st : Status) (d : ReplyData) : (reply k st d s).seq = s.seq := rfl
@[simp] theorem reply_bell (k : Byte) (st : Status) (d : ReplyData) : (reply k st d s).bell = s.bell := rfl
@[simp] theorem reply_dbu (k : Byte) (st : Status) (d : ReplyData) : (reply k st d s).dbu = s.dbu := rfl
@[simp] theorem reply_flc (k : Byte) (st : Status) (d : ReplyData) : (reply k st d s).flc = s.flc := rfl
@[simp] theorem reply_stg (k : Byte) (st : Status) (d : ReplyData) : (reply k st d s).stg = s.stg := rfl
@[simp] theorem reply_inm (k : Byte) (st : Status) (d : ReplyData) : (reply k st d s).inm = s.inm := rfl
@[simp] theorem reply_pending (k : Byte) (st : Status) (d : ReplyData) : (reply k st d s).pending = s.pending := rfl
@[simp] theorem reply_free (k : Byte) (st : Status) (d : ReplyData) : (reply k st d s).free = s.free := rfl
@[simp] theorem reply_step (k : Byte) (st : Status) (d : ReplyData) : (reply k st d s).hlc.step = s.hlc.step := rfl
@[simp] theorem reply_powerOn (k : Byte) (st : Status) (d : ReplyData) : (reply k st d s).hlc.powerOn = s.hlc.powerOn := rfl
@[simp] theorem reply_live (k : Byte) (st : Status) (d : ReplyData) : (reply k st d s).hlc.live = s.hlc.live := rfl
@[simp] theorem reply_saved (k : Byte) (st : Status) (d : ReplyData) : (reply k st d s).hlc.saved = s.hlc.saved := rfl
@[simp] theorem reply_save (k : Byte) (st : Status) (d : ReplyData) : (reply k st d s).hlc.save = s.hlc.save := rfl
@[simp] theorem reply_source (k : Byte) (st : Status) (d : ReplyData) : (reply k st d s).hlc.source = s.hlc.source := rfl
@[simp] theorem reply_counts (k : Byte) (st : Status) (d : ReplyData) : (reply k st d s).hlc.counts = s.hlc.counts := rfl
@[simp] theorem reply_causes (k : Byte) (st : Status) (d : ReplyData) : (reply k st d s).hlc.causes = s.hlc.causes := rfl
@[simp] theorem reply_outstanding (k : Byte) (st : Status) (d : ReplyData) : (reply k st d s).hlc.outstanding = s.hlc.outstanding := rfl
@[simp] theorem reply_rx (k : Byte) (st : Status) (d : ReplyData) : (reply k st d s).hlc.rx = s.hlc.rx := rfl
@[simp] theorem reply_savedPending (k : Byte) (st : Status) (d : ReplyData) : (reply k st d s).hlc.savedPending = s.hlc.savedPending := rfl

/-! ## Reading back -/

@[simp] theorem lane_setLane_self (l : Lane) (r : LaneRec) : (s.setLane l r).lane l = r := by cases l <;> rfl

theorem lane_setLane_other {l m : Lane} (h : m ≠ l) (r : LaneRec) : (s.setLane l r).lane m = s.lane m := by
  cases l <;> cases m <;> first | rfl | exact absurd rfl h

theorem vector_get_map {α β : Type} {n : Nat} (v : Vector α n) (f : α → β) (i : Fin n) :
    (v.map f).get i = f (v.get i) := by simp [Vector.get_eq_getElem]

theorem vector_get_ofFn {α : Type} {n : Nat} (f : Fin n → α) (i : Fin n) : (Vector.ofFn f).get i = f i := by
  simp [Vector.get_eq_getElem]

theorem vector_get_replicate {α : Type} {n : Nat} (x : α) (i : Fin n) : (Vector.replicate n x).get i = x := by
  simp [Vector.get_eq_getElem]

theorem vector_get_set {α : Type} {n : Nat} (v : Vector α n) (i j : Fin n) (x : α) :
    (v.set i x).get j = if i = j then x else v.get j := by
  have h : (v.set i.val x i.isLt)[j.val] = if i.val = j.val then x else v[j.val] := Vector.getElem_set ..
  simpa [Vector.get_eq_getElem, Fin.ext_iff] using h

@[simp] theorem fig_setFig_self (f : Fig) (r : FigRec) : (s.setFig f r).fig f = r := by
  simp [State.fig, State.setFig, vector_get_set]

theorem fig_setFig_other {f g : Fig} (h : f ≠ g) (r : FigRec) : (s.setFig f r).fig g = s.fig g := by
  simp [State.fig, State.setFig, vector_get_set, h]

@[simp] theorem bellRec_setBell_self (b : Bell) (r : BellRec) : (s.setBell b r).bellRec b = r := by
  simp [State.bellRec, BELL.bellAt, State.setBell, vector_get_set]

theorem bellRec_setBell_other {b c : Bell} (h : b ≠ c) (r : BellRec) : (s.setBell b r).bellRec c = s.bellRec c := by
  simp [State.bellRec, BELL.bellAt, State.setBell, vector_get_set, h]

@[simp] theorem door_setDoor_self (d : Door) (r : DoorRec) : (s.setDoor d r).door d = r := by
  simp [State.door, State.setDoor, vector_get_set]

@[simp] theorem trig_setTrig_self (i : Trig) (r : TrigRec) : (s.setTrig i r).trig i = r := by
  simp [State.trig, State.setTrig, vector_get_set]

@[simp] theorem unit_setUnit_self (u : CapUnit) (r : CapRec) : (s.setUnit u r).unit u = r := by
  simp [State.unit, State.setUnit, vector_get_set]

@[simp] theorem group_setGroup_self (g : Group) (r : GuardRec) : (s.setGroup g r).group g = r := by
  simp [State.group, State.setGroup, vector_get_set]

@[simp] theorem node_mapNode_self (a : Fin 16) (f : NodeRec → NodeRec) : (s.mapNode a f).node a = f (s.node a) := by
  simp [State.node, State.mapNode, vector_get_set]

end Sys2Proof.Machine
end

