-- ==== Sys2Proof/Laws/Step.lean ====
section
/-! SUPPORT. A millisecond and a step: what each can do. -/
namespace Sys2Proof.Machine

variable {s₀ s : State}

theorem beginAnswer_inner (h : Inner s₀ s) : Inner s₀ (beginAnswer s) := by
  unfold beginAnswer
  split
  · split
    · exact inner_record h rfl id
    · exact h
  · exact h

theorem takeByte_inner (h : Inner s₀ s) : Inner s₀ (takeByte s) := by
  unfold takeByte
  split
  · exact inner_record h rfl id
  · exact h

/-- What comes on the lines in a millisecond, and the sample of the inputs, are inner operations. -/
theorem tick_inner (s : State) : Inner (advance (fixDeadlines s)) (tick s) :=
  sampleInputs_inner (takeByte_inner (beginAnswer_inner (.refl _)))

/-- A millisecond raises the elapsed count by one (R1). -/
theorem tick_elapsed (s : State) : (tick s).tb.elapsed = s.tb.elapsed + 1 :=
  (tick_inner s).elapsed.trans (tb_tick_elapsed s.tb)

/-- A millisecond leaves the waiting commands. -/
theorem tick_pending (s : State) : (tick s).pending = s.pending := (tick_inner s).pending

/-- A millisecond keeps the bounds. -/
theorem tick_bounded (b : Bounded s) : Bounded (tick s) :=
  (tick_inner s).2 ((fixDeadlines_inner (.refl s)).2 b)

/-- A millisecond leaves the store's protection. -/
theorem tick_protection (s : State) : protection (tick s) = protection s := (tick_inner s).protection

end Sys2Proof.Machine
end

