-- ==== Sys2Proof/Tests/Slice0.lean ====
section
/-! SUPPORT. Small tests: the ill-formed commands that the check refuses, concrete cases that meet the hypotheses of the
statements, clause by clause at the ends of their ranges, and worked examples of the spec. -/
namespace Sys2Proof.Tests
open Sys2Proof.Machine
set_option Elab.async false

/-! ## Concrete states -/

/-- Started up: every block carries requests out (R181). -/
def up : State := { State.reset with hlc.step := 6, inm.fresh := false, flc.freeAt := 0 }
def timed : State := { up with tb.valid := true }
/-- After a number of start-up steps. -/
def atStep (n : Nat) : State := { State.reset with hlc.step := n }
/-- The state a command leaves. -/
def after (c : Instr) (s : State) : State := match exec c s with | .next t => t | _ => s
/-- The statuses of the replies that are ready. -/
def statuses (s : State) : List Status := s.hlc.replies.map (·.status)

def req : ShowReq := { subject := .script 3, origin := .host, fireTime := 0, policy := .queue, staleness := 0 }
/-- A run in a state, its cues at offset 0. -/
def run (st : RunState) (cues : List CueKind) : Run :=
  { newRun req with state := st, start := some 0, cues := cues.map fun k => ⟨⟨0, k⟩, false⟩ }
def onM (r : Run) (s : State) : State := { s with seq.laneM.run := some r }
def queued (n : Nat) (s : State) : State := { s with seq.laneM.queue := List.replicate n req }

def voice : Voicing :=
  { pulse := Vector.replicate 8 10, window := 50, recovery := 200, lead := 30, ring := 4000, units := 2 }
def voiced : State := { up with bell.voicing := some (Vector.replicate 20 voice) }
def strikeAt (b : Bell) (due : Int) : Strike :=
  { bell := b, velocity := 6, due := due, origin := .host, claiming := false, lifted := false, deadline := none }
def withBell (b : Bell) (r : BellRec) (s : State) : State := { s with bell.bells := s.bell.bells.set b r }

def txn (k : LinkKind) (a : Fin 16) (o : TxnOwner) : Txn :=
  { kind := k, address := a, data := [], owner := o, attempts := 0, arrival := 0, disowned := false }
def flying (k : LinkKind) (a : Fin 16) (o : TxnOwner) (now : Nat) : State :=
  { up with tb.elapsed := now, flc.flight := some { txn := txn k a o, since := 0, stopAfter := none, answer := none } }
def queuedTxns (n : Nat) (s : State) : State := { s with flc.queue := List.replicate n (txn .status 1 (.query 0)) }
def nodeIs (a : Fin 16) (st : NodeState) (s : State) : State :=
  { s with flc.nodes := s.flc.nodes.set a { NodeRec.absent with state := st } }

def figDefn : FigDef := { FigDef.unbound with address := some 4, travelMin := -1000, travelMax := 1000 }
/-- Figure F0 bound to address 4, in a state. -/
def figIs (r : FigRec) (s : State) : State :=
  { s with stg.figDefs := s.stg.figDefs.set 0 figDefn, stg.figs := s.stg.figs.set 0 r }
def figRec (st : FigState) : FigRec := { FigRec.unbound with state := st }
def move : Move :=
  { owner := .host, target := 500, duration := 1000, windowOpen := 80, grace := 500, tolerance := 100, tag := 1,
    serial := 0, due := 0, started := none, ended := false }
def doorIs (r : DoorRec) (s : State) : State := { s with stg.doors := s.stg.doors.set 0 r }
def doorCmd (o : Owner) (g : Goal) (driving : Bool) : DoorCmd :=
  { owner := o, goal := g, arrival := 0, deadline := 0, claimed := true, driving := driving,
    travelMs := 8000 }
def turnCmd (o : Owner) (g : TurnGoal) (driving : Bool) : TurnCmd :=
  { owner := o, goal := g, arrival := 0, deadline := 0, claimed := true, driving := driving,
    limit := 4500 }
def spinning : Stepping :=
  { spin := .cw, edgeBy := 0, limit := 4500, rate := 200, edges := 0, skipFirst := false }
def turnIs (st : TurnState) (count : Option (Fin 12)) (cmd : Option TurnCmd) (w : Option Stepping) (s : State) :
    State := { s with stg.turn := { TurnRec.unhomed with state := st, count := count, cmd := cmd, stepping := w } }

/-! ## Ill-formed commands (the check refuses each) -/

theorem test_storePut_too_long : Instr.wellFormed (.storePut true 0 (List.replicate 1025 0)) = false := by
  decide +kernel
theorem test_storePut_longest : Instr.wellFormed (.storePut true 0 (List.replicate 1024 0)) = true := by
  decide +kernel
theorem test_causesClear_empty : Instr.wellFormed (.causesClear []) = false := by decide
theorem test_causesClear_too_many : Instr.wellFormed (.causesClear (List.replicate 17 (0, none))) = false := by decide
theorem test_configSet_empty : Instr.wellFormed (.configSet []) = false := by decide
theorem test_cue_index_too_high :
    (∀ i ∈ [Instr.strikeCue .M 512, .dampCue .M 512, .moveCue .M 512, .doorCue .M 512, .turnCue .M 512,
      .markCue .M 512, .lampCue .M 512], i.wellFormed = false) ∧ Instr.wellFormed (.strikeCue .M 511) = true := by
  decide
theorem test_readback_position :
    Instr.wellFormed (.readbackError 8 0) = false ∧ Instr.wellFormed (.readbackError 0 9) = false ∧
      Instr.wellFormed (.readbackError 7 8) = true := by decide
theorem test_answer_lengths :
    Instr.wellFormed (.statusAnswer (List.replicate 7 0)) = false ∧
      Instr.wellFormed (.identAnswer (List.replicate 6 0)) = false := by decide
theorem test_go_tags :
    Instr.wellFormed (.goQueued 0) = false ∧ Instr.wellFormed (.goQueued 256) = false ∧
      Instr.wellFormed (.goDeadline 0) = false ∧ Instr.wellFormed (.goDeadline 256) = false ∧
      Instr.wellFormed (.goQueued 255) = true := by decide
theorem test_strayByte_sync : Instr.wellFormed (.strayByte 0xA5) = false := by decide
theorem test_frameLength_in_range :
    Instr.wellFormed (.frameLengthError 2048) = false ∧ Instr.wellFormed (.frameLengthError 65536) = false ∧
      Instr.wellFormed (.frameLengthError 2049) = true := by decide
theorem test_frameCrc_too_short :
    Instr.wellFormed (.frameCrcError ⟨[0, 0, 0], true⟩ 0) = false ∧
      Instr.wellFormed (.frameCrcError ⟨[0, 0, 0, 0], true⟩ 0) = true := by
  decide
theorem test_hostFrame_of_another_kind :
    Instr.wellFormed (.hostFrameArrived { kind := 0x10, tag := 0, body := .request .timeGet }) = false ∧
      Instr.wellFormed (.hostFrameArrived { kind := 0x71, tag := 0, body := .request (.causesClear []) }) = false ∧
      Instr.wellFormed (.hostFrameArrived { kind := 0x11, tag := 0, body := .request .timeGet }) = true := by decide

/-- No row of the table gives its command bits. -/
theorem test_no_word_spells_a_command : decodeTableWord 8 0 = none ∧ decodeTableWord 16 0xFFFF = none := by decide

/-! ## Witnesses of the statements' hypotheses: the machine, resets and the host link -/

theorem witness_StepOnEmptyQueue :
    State.reset.pending = [] ∧ nextDue State.reset = some .startupSettings ∧ up.pending = [] ∧ nextDue up = none := by
  decide +kernel

/-- Every queue at its depth and the held sum at the budget. -/
def laden : State :=
  { queued 4 (queuedTxns 8 up) with
    seq.laneC.queue := List.replicate 4 req
    bell.strikes := List.replicate 16 (strikeAt 0 0)
    dbu.claims := [{ kind := .turntable .home, units := 24, granted := true, arrival := 0 }]
    ps.staging := [⟨0, 1⟩, ⟨16383, 255⟩] }

theorem witness_StepKeepsBounded : Bounded up ∧ step up = .next (tick up) ∧ Bounded laden :=
  ⟨by decide +kernel, rfl, by decide +kernel⟩

theorem witness_ElapsedCountAdvances :
    Instr.timeGet ≠ .powerOnReset ∧ exec .timeGet up = .next (after .timeGet up) ∧
      exec .powerOnReset up = .next (after .powerOnReset up) ∧ step up = .next (tick up) :=
  ⟨by decide, rfl, rfl, rfl⟩

theorem witness_SlewingPeriodGainsOrLosesOne :
    let t (c : Int) : TB := { up.tb with correction := c }
    (t 1).slewPhase = 0 ∧ 0 < (t 1).correction ∧ (t (-1)).correction < 0 ∧ (t 0).correction = 0 := by decide

theorem witness_SettlingLeaves : Bounded up := by decide +kernel

theorem witness_StartupStepsRun :
    (∀ n ∈ [0, 1, 2, 3, 4, 5], (atStep n).hlc.step = n) ∧ (atStep 0).hlc.powerOn = true ∧
      { atStep 0 with hlc.powerOn := false }.hlc.powerOn = false := by decide

def item (bs : List Byte) : Item := { id := ⟨.script, 3⟩, content := bs, check := 0, usable := true, pins := 0 }
def holding (i : Item) : State := { up with ps.items := [i] }
def busyStore : State := { up with ps.op := some ⟨.eraseAll, 9⟩ }
/-- Trigger T31 of kind DAILY or ONCE, armed for an instant. -/
def recomputed (kind : TrigKind) (next : Int) : State :=
  { up with sch.trigs := up.sch.trigs.set 31 { TrigRec.empty with
      defn := { TrigDef.empty with kind := kind, enabled := true }, state := .armed, next := some next } }
theorem witness_StartupStepsRun_loads :
    (State.reset.hlc.saved = .never ∧ Settings.factory.ok = true ∧ { Settings.factory with budget := 3 }.ok = false) ∧
      (atStep 2).sch.built = false ∧ opConcerns ⟨.seasons, 0⟩ busyStore = true ∧ opConcerns ⟨.seasons, 0⟩ up = false ∧
      findItem ⟨.script, 3⟩ up = none ∧
      findItem ⟨.script, 3⟩ (holding { item [] with usable := false }) = some { item [] with usable := false } ∧
      crc16 ({ item [7] with check := crc16 [7] }).content = crc16 [7] ∧ crc16 (item [7]).content ≠ (item [7]).check ∧
      ((recomputed .daily 0).trig 31).followOn = none ∧ (up.tb.showTime ≤ 0) ∧ (-1 : Int) < up.tb.showTime ∧
      ((recomputed .daily (-1)).trig 31).defn.kind ≠ .once ∧ ((recomputed .once (-1)).trig 31).defn.kind = .once ∧
      (atStep 4).flc.queue = [] ∧ (atStep 4).flc.flight = none ∧ (atStep 4).flc.wake = none ∧
      (atStep 4).flc.stuck = false ∧ timed.tb.valid = true := by decide +kernel

theorem witness_RequestsBeforeStartup :
    1 ≤ (atStep 5).hlc.step ∧ (atStep 5).hlc.step < gateStep Request.timeGet.kind ∧
      (atStep 1).hlc.step < gateStep Request.storeSum.kind ∧ (atStep 3).hlc.step < gateStep Request.turnStatus.kind ∧
      ¬(atStep 2).hlc.step < gateStep Request.storeSum.kind ∧ (atStep 0).hlc.step = 0 := by decide

theorem witness_a_request_that_is_no_storeRead : ∀ k n o c, Request.timeGet ≠ .storeRead k n o c := by
  intro k n o c h
  cases h

def busyReply : Reply := { kind := 0x90, tag := 1, status := .busy, data := .none, overlap := true }
def outstanding (rs : List Reply) : State :=
  { atStep 1 with hlc.outstanding := some { kind := 0x11, tag := 7 }, hlc.replies := rs }

theorem witness_HostFrameArrives :
    (outstanding []).hlc.outstanding.isSome = true ∧ (outstanding []).hlc.replies.any (·.overlap) = false ∧
      (outstanding [busyReply]).hlc.replies.any (·.overlap) = true ∧ (atStep 1).hlc.outstanding = none ∧
      isRequestKind 0x0F = false ∧ isRequestKind 0x12 = false ∧ isRequestKind 0x11 = true ∧
      isRequestKind 0x7A = true ∧ Request.timeGet.kind ≠ 0x10#8 ∧ (Request.causesClear []).wellFormed = false ∧
      Request.timeGet.kind = 0x11 ∧ Request.timeGet.wellFormed = true := by decide

theorem witness_HostBytes :
    1 ≤ (atStep 1).hlc.step ∧ (atStep 1).hlc.rx = .hunting ∧ (0xA4#8 ≠ 0xA5#8) ∧
      { atStep 1 with hlc.rx := .inFrame }.hlc.rx = .inFrame ∧ 0 + 20 < { atStep 1 with tb.elapsed := 21 }.tb.elapsed ∧
      frameStops { atStep 1 with hlc.rx := .inFrame, tb.elapsed := 21 } = true ∧
      frameStops { atStep 1 with hlc.rx := .inFrame, tb.elapsed := 20 } = false ∧ 2048 < 2049 ∧ crc16 [0x00#8, 0, 0, 0] ≠ 0 := by
  decide +kernel

def okReset : Reply := { kind := 0xF4, tag := 7, status := .ok, data := .none, overlap := false }
theorem witness_ResetAndReplies :
    1 ≤ (atStep 1).hlc.step ∧ { atStep 1 with ps.op := some ⟨.eraseAll, 0⟩ }.ps.op.isSome = true ∧
      (atStep 1).ps.op = none ∧ (outstanding [busyReply]).hlc.replies = [busyReply] ∧ busyReply.overlap = true ∧
      (outstanding [okReset]).hlc.replies = [okReset] ∧ okReset.overlap = false ∧ okReset.kind = 0xF4#8 ∧
      okReset.status = .ok ∧ ¬({ okReset with status := .busy : Reply }.kind = 0xF4#8 ∧
        { okReset with status := .busy : Reply }.status = .ok) := by decide

/-! ## Witnesses: Timebase, Scheduler and Programme Store -/

theorem witness_TimeGetReplies : 6 ≤ up.hlc.step ∧ statuses (after .timeGet up) = [.ok] := by decide +kernel

theorem witness_TimeSetSets :
    6 ≤ timed.hlc.step ∧ (-1 : Int) < 0 ∧ (3155759999999 : Int) < 3155760000000 ∧ up.tb.valid = false ∧
      timed.tb.valid = true ∧ timed.bothIdle = true ∧ (onM (run .running []) timed).bothIdle = false ∧
      (onM (run .running []) timed).tb.valid = true := by decide +kernel

/-- Show time and the elapsed count at which a pulse comes, 49,999 or 50,000 ms after the last. -/
def pulseAt (shown : Int) (elapsed : Nat) : State :=
  { timed with
    tb.disc := .tracking, tb.showTime := shown, tb.elapsed := elapsed, tb.lastPulse := some ⟨0, 0⟩ }
theorem witness_MinutePulseDisciplines :
    1 ≤ (pulseAt 60000 50000).hlc.step ∧ { timed with tb.disc := .off }.tb.disc = .off ∧
      (pulseAt 60000 49999).tb.elapsed < 0 + 50000 ∧ 0 + 50000 ≤ (pulseAt 60000 50000).tb.elapsed ∧
      (pulseError 62000).natAbs ≤ up.hlc.live.slewLimit ∧ up.hlc.live.slewLimit < (pulseError 62001).natAbs ∧
      (pulseError 58000).natAbs ≤ up.hlc.live.slewLimit ∧ (pulseAt 62001 50000).bothIdle = true ∧
      (onM (run .running []) (pulseAt 62001 50000)).bothIdle = false ∧ (pulseAt 62001 50000).tb.held = none ∧
      { pulseAt 62001 50000 with tb.held := some ⟨0, 0, false⟩ }.tb.held = some ⟨0, 0, false⟩ ∧
      (pulseError (58000 + (4000 - 0))).natAbs ≤ up.hlc.live.slewLimit ∧
      up.hlc.live.slewLimit < (pulseError (58001 + (4000 - 0))).natAbs := by decide +kernel

theorem witness_TimebaseEvents :
    { up with tb.correction := -1, tb.slewPhase := 100 }.tb.correction ≠ 0 ∧
      100 ≤ { up with tb.correction := 1, tb.slewPhase := 100 }.tb.slewPhase ∧
      { up with tb.lossAt := some 0 }.tb.lossAt = some 0 ∧ 0 ≤ up.tb.elapsed ∧
      { up with tb.showTime := 86400000 }.tb.showTime / 86400000 ≠ up.sch.today ∧
      3155759999999 < { up with tb.showTime := 3155760000000 }.tb.showTime := by decide

def season (p : Nat) : Season :=
  { startMonth := 1, startDay := 1, endMonth := 12, endDay := 31, priority := p, programme := 5 }
theorem witness_TimebaseEvents_seasons :
    up.tb.valid = false ∧ timed.sch.seasons = none ∧ (season 1).matches (monthDay 0) = true ∧
      { timed with sch.seasons := some [season 1, season 2] }.sch.seasons = some [season 1, season 2] ∧
      { season 1 with startMonth := 2 }.matches (monthDay 0) = false := by decide +kernel
/-- Trigger T31 a DAILY one with a window in s, armed. -/
def armedAt (kind : TrigKind) (window : Nat) : State :=
  { timed with sch.trigs := up.sch.trigs.set 31 { TrigRec.empty with
      defn := { TrigDef.empty with kind := kind, enabled := true, weekdays := 0x7F, window := window }
      state := .armed, next := some 0 } }
theorem witness_TimebaseEvents_steps :
    3155759999999 < timed.tb.showTime + 3155760000000 ∧ timed.tb.showTime + 3155759999999 ≤ 3155759999999 ∧
      3 ≤ timed.hlc.step ∧ timed.tb.showTime ≠ 1 ∧ ((armedAt .daily 1).trig 31).state = .armed ∧
      skipped ((armedAt .daily 1).trig 31) 1 86399999 = none ∧
      skipped ((armedAt .daily 1).trig 31) 1 86401000 = some 86400000 ∧ ¬(1 * 1000 < (86401000 : Int) - 86400000) ∧
      1 * 1000 < (86401001 : Int) - 86400000 ∧ (armedAt .once 1 |>.trig 31).defn.kind = .once ∧
      skipped ((armedAt .once 1).trig 31) (-1) 1001 = some 0 ∧ ((armedAt .daily 1).trig 31).defn.kind ≠ .once := by decide +kernel

def daily : TrigArgs :=
  { kind := .val .daily, time := some 0, period := none, weekdays := some 1, hours := none
    target := some (.script 3), followOn := none, policy := .val .queue, staleness := 0, window := none }
def dailyDef : TrigDef :=
  { TrigDef.empty with kind := .daily, enabled := true, weekdays := 1, target := .script 3 }
def level (n : Fin 4) : State := { up with ps.writeLevel := n }
theorem witness_TrigSetWrites :
    3 ≤ up.hlc.step ∧ 2 ≤ (level 2).ps.writeLevel.val ∧ (level 1).ps.writeLevel.val < 2 ∧
      trigOfArgs { daily with staleness := 3601 } true = none ∧ trigOfArgs daily true = some dailyDef ∧
      trigOfArgs daily false = some { dailyDef with enabled := false } ∧ up.tb.valid = false := by decide +kernel

theorem witness_TrigSetWrites_codes :
    trigOfArgs { daily with kind := .other 7 } true = none ∧ trigOfArgs { daily with policy := .other 3 } true = none ∧
      trigOfArgs { daily with time := none } true = none ∧ dailyDef.enabled = true ∧
      { timed with tb.showTime := 86400000 }.tb.showTime / 86400000 ≠ timed.sch.today := by decide +kernel
/-- Trigger T31 of a kind, enabled, with a window of one second. -/
def enabledAs (kind : TrigKind) (period : Nat) : State :=
  { timed with sch.trigs := up.sch.trigs.set 31 { TrigRec.empty with
      defn := { TrigDef.empty with
        kind := kind, enabled := true, time := 1000, period := period, weekdays := 0x7F, hours := 1, window := 1 } } }
theorem witness_TrigSetWrites_arming :
    let d (k : TrigKind) (p : Nat) := ((enabledAs k p).trig 31).defn
    (d .daily 0).enabled = true ∧ up.tb.valid = false ∧ (enabledAs .daily 0).tb.valid = true ∧
      latestTo (d .once 0) none 999 = none ∧ latestTo (d .once 0) none 2000 = some 1000 ∧ 2000 - 1000 ≤ (1 * 1000 : Int) ∧
      latestTo (d .once 0) none 2001 = some 1000 ∧ (1 * 1000 : Int) < 2001 - 1000 ∧ (d .once 0).kind = .once ∧
      latestTo (d .periodic 5000) none 2001 = some 1000 ∧ (d .periodic 5000).kind = .periodic ∧
      latestTo (d .daily 0) none 2001 = some 1000 ∧ (d .daily 0).kind = .daily ∧
      latestTo (d .hours 0) none 1001 = some 0 ∧ (d .hours 0).kind = .hours := by decide +kernel

theorem witness_TrigGetReplies :
    statuses (after (.trigGet 32) up) = [.badValue] ∧ statuses (after (.trigGet 31) up) = [.ok] := by decide +kernel

/-- Trigger T31 armed, its fire or its follow-on due. -/
def trig (f : Option FollowOn) : State :=
  { timed with sch.trigs := up.sch.trigs.set 31 { TrigRec.empty with
      defn := dailyDef, state := .armed, next := some 0, followOn := f } }
theorem witness_TriggersFireAndDisarm :
    2 ≤ (level 2).ps.writeLevel.val ∧ (level 1).ps.writeLevel.val < 2 ∧ nextFire (trig none) = some (31, false) ∧
      ((trig none).trig 31).next = some 0 ∧
      nextFire (trig (some ⟨0, .script 3⟩)) = some (31, true) ∧
      ((trig (some ⟨0, .script 3⟩)).trig 31).followOn = some ⟨0, .script 3⟩ := by decide +kernel

/-- A trigger whose target is slot 2 of the active programme, which is empty or names script 3. -/
def slotted (named : Bool) : State :=
  { trig none with
    sch.programmes := some (Vector.replicate 8 (Vector.replicate 16 (if named then some 3 else none))) }
theorem witness_TriggersFireAndDisarm_targets :
    resolve (.slot 2) (slotted true) = some 3 ∧ resolve (.slot 2) (slotted false) = none ∧
      ((enabledAs .hours 0).trig 31).defn.kind = .hours ∧ ((trig none).trig 31).defn.kind ≠ .hours ∧
      { trig none with sch.today := 1 }.tb.showTime / 86400000 ≠ { trig none with sch.today := 1 }.sch.today ∧
      (trig none).tb.showTime / 86400000 = (trig none).sch.today := by decide +kernel

theorem witness_StorePutWrites :
    Memory.wf up.ps.staging = true ∧ busyStore.ps.op.isSome = true ∧ up.ps.op = none ∧
      16384 < 16384 + [7#8].length ∧ 16383 + [7#8].length ≤ 16384 ∧
      statuses (after (.storePut true 16384 [7]) up) = [.badValue] ∧
      (after (.storePut true 16383 [7]) up).ps.staging = [⟨16383, 7⟩] ∧
      (after (.storePut true 16383 [7]) up).ps.stagedLen = 16384 := by decide +kernel

theorem witness_StoreOperationsBegin :
    itemId 5 128 = none ∧ itemId 6 0 = none ∧ itemId 5 127 = some ⟨.script, 127⟩ ∧ itemId 0 0 = some ⟨.voicing, 0⟩ ∧
      itemId 0 1 = none := by decide

theorem witness_StoreReadReplies :
    1 ≤ (atStep 1).hlc.step ∧ (atStep 1).hlc.step < 2 ∧ itemId 5 128 = none ∧ itemId 5 3 = some ⟨.script, 3⟩ ∧
      1024 < 1025 ∧ busyStore.ps.op.isSome = true ∧ 2 ≤ up.hlc.step ∧ up.ps.op = none ∧
      { up with ps.readLock := true }.ps.readLock = true ∧ up.ps.readLock = false ∧
      findItem ⟨.script, 3⟩ up = none ∧ findItem ⟨.script, 3⟩ (holding (item [1, 2])) = some (item [1, 2]) ∧
      (item [1, 2]).content.length ≤ 2 ∧ 1 < (item [1, 2]).content.length := by decide +kernel

theorem witness_StoreListSumProtectAndIdentity :
    busyStore.ps.op.isSome = true ∧ up.ps.op = none ∧ { up with ps.readLock := true }.ps.readLock = true ∧
      3 < 4 ∧ (3 : Fin 4).val = 3 ∧ 65535 < 65536 ∧ { up with ps.protLock := true }.ps.protLock = true ∧
      up.ps.protLock = false := by decide

theorem witness_ProtectionLockHolds :
    { up with ps.protLock := true }.ps.protLock = true ∧ { up with ps.protLock := true }.ps.op = none ∧
      Instr.powerOnReset ≠ .eraseAllComplete ∧
      exec .powerOnReset { up with ps.protLock := true } = .next (after .powerOnReset { up with ps.protLock := true }) :=
  ⟨rfl, rfl, by decide, rfl⟩

theorem witness_StoreOperationsComplete :
    { up with ps.op := some ⟨.commit ⟨.script, 3⟩ [] 0, 0⟩ }.ps.op = some ⟨.commit ⟨.script, 3⟩ [] 0, 0⟩ ∧
      { up with ps.op := some ⟨.erase ⟨.script, 3⟩, 0⟩ }.ps.op = some ⟨.erase ⟨.script, 3⟩, 0⟩ ∧
      { up with ps.op := some ⟨.eraseAll, 0⟩ }.ps.op = some ⟨.eraseAll, 0⟩ ∧ 0 ≤ up.tb.elapsed := by decide

/-- Thirty-two ONCE definitions, disabled. -/
def emptyTriggers : List Byte := (List.replicate 32 (2#8 :: List.replicate 25 0)).flatten
theorem witness_StoreOperationsComplete_taken :
    [item []].Pairwise (fun a b => itemRank a.id < itemRank b.id) ∧ (none : Option (List Byte)).bind parseTriggersItem = none ∧
      (parseTriggersItem emptyTriggers).isSome = true ∧
      ((figIs (figRec .staged) up).figDef 0).address ≠ none ∧ ((figIs (figRec .staged) up).fig 0).state = .staged ∧
      ((figIs (figRec .idle) up).fig 0).state ≠ .staged ∧ ((figIs (figRec .idle) up).fig 0).state ≠ .moving ∧
      ((figIs (figRec .moving) up).fig 0).state = .moving ∧ (up.figDef 0).address = none := by decide +kernel

/-! ## Witnesses: Show Sequencer -/

theorem witness_ShowStartStarts :
    placeOf (.script 3) up = .noScript ∧
      placeOf (.script 3) (holding { item [1, 0, 1, 0, 0, 0, 0, 0, 7] with usable := false }) = .storeCheck ∧
      placeOf (.script 3) (holding (item [1, 0, 1, 0, 0, 0, 0, 0, 7])) = .on .C ∧ placeOf (.count 12) up = .on .C ∧
      ¬(3601 ≤ 3600) ∧ up.run .C = none ∧ up.restraint = false ∧
      { up with tb.held := some ⟨0, 0, true⟩ }.restraint = true ∧
      ((queued 3 up).lane .M).queue.length < 4 ∧ 4 ≤ ((queued 4 up).lane .M).queue.length ∧
      (onM (run .running []) (queued 4 up)).run .M ≠ none := by decide +kernel

/-- A script of lane C or M, in the store with a check that verifies. -/
def stored (bs : List Byte) : State := holding { item bs with check := crc16 bs }
def oneEnd (lane : Byte) : List Byte := [lane, 0, 1, 0, 0, 0, 0, 0, 7]
def onLane (l : Lane) (r : Run) (s : State) : State := s.setLane l { s.lane l with run := some r }
theorem witness_ShowStartStarts_loads :
    ({ req with subject := .count 12 } : ShowReq).subject = .count 12 ∧ req.subject = .script 3 ∧
      opConcerns ⟨.script, 3⟩ busyStore = true ∧ opConcerns ⟨.script, 3⟩ up = false ∧
      (∃ n ∈ (nodeIs 4 .asleep up).flc.nodes.toList, n.state = .asleep) ∧
      (onLane .C (run .loading []) (stored [7])).run .C = some (run .loading []) ∧
      (run .loading []).state = .loading ∧ (run .loading []).subject = .script 3 ∧
      findItem ⟨.script, 3⟩ up = none ∧ findItem ⟨.script, 3⟩ (stored [7]) ≠ none ∧
      (loadItem ⟨.script, 3⟩ (holding (item [7]))).2 = .unusable ∧
      (loadItem ⟨.script, 3⟩ (stored [7])).2 = .content [7] ∧ (parseScript [7]).toOption.isNone = true ∧
      (parseScript (oneEnd 0)).toOption.map Script.lane = some .M ∧
      (parseScript (oneEnd 1)).toOption.map Script.lane = some .C ∧
      (run .loading []).heldHost = false ∧ (run .loading []).heldGroups = 0 ∧
      { run .loading [] with heldHost := true }.heldHost = true := by decide +kernel

theorem witness_RunsStopHoldAndResume :
    (onM (run .running []) up).run .M = some (run .running []) ∧ (run .running []).state ≠ .aborting ∧
      (run .aborting []).state = .aborting ∧ (run .holding []).state = .holding ∧
      { run .loading [] with heldHost := true }.isHeld = true ∧ (run .loading []).isHeld = false ∧
      { run .holding [] with holdStart := some ⟨0, 0⟩ }.holdStart = some ⟨0, 0⟩ ∧
      0 + 120000 ≤ { up with tb.elapsed := 120000 }.tb.elapsed := by decide

def interrupted : Interrupted :=
  { cue := 0, target := 5, remaining := 700, windowOpen := 80, grace := 500, tolerance := 100, tag := 1 }
/-- A move of a run's cue, MOVING for 600 of its 1,000 ms. -/
def ranMove : Move := { move with owner := .run 0, started := some ⟨0, 0, 800, 1500⟩ }
def figMoves (st : FigState) (m : Move) (s : State) : State := figIs { figRec st with move := some m } s
theorem witness_RunsStopHoldAndResume_parts :
    (∀ st ∈ [RunState.aborting, .loading, .running, .holding, .ending],
      (onM (run st []) up).run .M = some (run st []) ∧ (run st []).state = st) ∧
      ((figMoves .moving ranMove up).fig 0).ofRun = true ∧ ((figMoves .moving ranMove up).fig 0).state = .moving ∧
      ((figMoves .moving ranMove up).fig 0).interrupted = none ∧
      ((figMoves .moving ranMove up).fig 0).move = some ranMove ∧ (up.fig 0).ofRun = false ∧
      remaining 600 ranMove = 400 ∧ remaining 801 ranMove = 200 ∧ remaining 600 move = 1000 ∧
      ((figMoves .staged { move with owner := .run 0 } up).fig 0).inStaging = true ∧
      goFlying 1 (flying .go 0 (.go 1) 0) = true ∧ goFlying 1 up = false ∧
      ((run .holding []).heldHost && !true) = false ∧ (run .holding []).heldGroups &&& ~~~0 = 0 ∧
      { run .holding [] with heldGroups := 1 }.heldGroups ≠ 0 ∧
      { run .holding [] with stoppedDoors := Vector.replicate 2 (some 0), stoppedTurn := some 0 }.stoppedTurn = some 0 ∧
      ({ run .holding [] with stoppedDoors := Vector.replicate 2 (some 0) }.stoppedDoors.get 1) = some 0 ∧
      (doorIs { DoorRec.off with goal := some .opened } up |>.door 0).goal = some .opened ∧
      { up with stg.turn := { TurnRec.unhomed with goal := some .home } }.stg.turn.goal = some .home ∧
      ((run .running [.move 1000 80 500 100 [(0, 5)]]).cues[0]?.map fun c => c.cue.kind) =
        some (.move 1000 80 500 100 [(0, 5)]) ∧
      recordedPairs 0 [0] (figIs { figRec .halted with interrupted := some interrupted } up) = [(0, interrupted)] ∧
      (run .running []).excluded.getLsbD 0 = false := by decide +kernel

theorem witness_no_figure_recorded_and_excluded : ∀ f i,
    ((figIs { figRec .halted with interrupted := some interrupted } up).fig f).interrupted = some i → i.cue = 0 →
      (run .running []).excluded.getLsbD f.val = false := by
  intro f _ _ _
  exact BitVec.getLsbD_zero

theorem witness_ShowStatusAndQueues : 6 ≤ up.hlc.step ∧ statuses (after .showStatus up) = [.ok] := by decide +kernel

theorem witness_LampsFade :
    8 ≤ 8 ∧ 255 < 256 ∧ 10000 < 10001 ∧ (7 : Lamp).val = 7 ∧ (255#8).toNat = 255 ∧
      statuses (after (.lampSet 7 255 10000) up) = [.ok] ∧
      (let r : LampRec := { LampRec.resting 0 with target := 9, length := 5, fading := true }
       r.frozen = false ∧ r.remaining = 0 ∧ r.fading = true ∧ r.level ≠ r.target) ∧
      (let r : LampRec := { LampRec.resting 0 with target := 9, length := 5, remaining := 1, fading := true }
       r.frozen = false ∧ 0 < r.remaining ∧ 0 < r.length ∧ r.remaining ≤ r.length ∧ r.tick.level = 9) ∧
      { LampRec.resting 0 with frozen := true }.frozen = true := by decide +kernel

/-- A run on lane M whose one cue is due. -/
def cueing (k : CueKind) : State := onM (run .running [k]) { timed with tb.showTime := 0 }
theorem witness_CuesAreIssued :
    ∀ k ∈ [CueKind.strike 19 8, .damp 1, .move 1000 80 500 100 [(0, 5)], .door 1 .opened, .turn 11 .cw,
        .mark 15 .rise 0 10, .lamp 7 255 0, .finish],
      (cueing k).run .M = some (run .running [k]) ∧ nextCue .M (cueing k) = some 0 ∧
        (run .running [k]).cues[0]? = some { cue := { offset := 0, kind := k }, issued := false } := by
  decide +kernel

theorem witness_CuesAreIssued_instants :
    (∀ k ∈ [CueKind.strike 19 8, .damp 1, .move 1000 80 500 100 [(0, 5)], .door 1 .opened, .turn 11 .cw,
        .mark 15 .rise 0 10, .lamp 7 255 0, .finish], { run .running [] with start := none }.issueAt ⟨0, k⟩ = none) ∧
      (run .running []).start = some 0 ∧ (run .running []).issueAt ⟨0, .strike 19 8⟩ = some (-100) ∧
      (run .running []).issueAt ⟨0, .mark 15 .rise 0 10⟩ = some (-10) ∧
      { run .running [.finish] with abortAsked := true }.abortAsked = true ∧
      nextCue .M (onM (run .holding [.finish]) timed) = none ∧
      nextCue .M (onM (run .running [.finish, .strike 0 1]) timed) = some 1 ∧
      nextCue .M (onM (run .ending [.finish, .finish]) timed) = some 0 := by decide +kernel

/-! ## Witnesses: bells and the drive budget -/

theorem witness_StrikesAreAdmitted :
    up.voicingOf 0 = none ∧ voiced.voicingOf 19 = some voice ∧
      strikeRefusal 0 0 (withBell 0 { BellRec.silent with state := .fault } voiced) = some .fault ∧
      strikeRefusal 0 0 { voiced with hlc.live.bellMutes := 1 } = some .muted ∧
      strikeRefusal 0 0 (withBell 0 { BellRec.silent with nextPermitted := some 1 } voiced) = some .tooSoon ∧
      strikeRefusal 0 200 { voiced with bell.strikes := [strikeAt 0 1] } = some .tooSoon ∧
      strikeRefusal 0 200 { voiced with bell.strikes := [strikeAt 0 0] } = none ∧
      strikeRefusal 0 0 { voiced with bell.strikes := List.replicate 16 (strikeAt 1 0) } = some .full ∧
      strikeRefusal 0 0 { voiced with bell.strikes := List.replicate 15 (strikeAt 1 0) } = none ∧
      ¬(0 < voiced.tb.showTime) ∧ (-1 : Int) < voiced.tb.showTime ∧ (StrikeRefusal.unvoiced ≠ .full) := by decide +kernel

theorem witness_BellStrikeStrikes :
    statuses (after (.bellStrike 20 8) voiced) = [.badValue] ∧ statuses (after (.bellStrike 19 0) voiced) = [.badValue] ∧
      statuses (after (.bellStrike 19 9) voiced) = [.badValue] ∧ statuses (after (.bellStrike 19 8) voiced) = [.ok] ∧
      strikeRefusal 19 100 voiced = none ∧ strikeRefusal 19 100 up = some .unvoiced ∧
      strikeRefusal 19 100 { voiced with bell.strikes := List.replicate 16 (strikeAt 1 0) } = some .full := by
  decide +kernel

def ringing : BellRec := { BellRec.silent with state := .ringing, damperUp := true }
theorem witness_BellRequestsAndDamping :
    bellSet [] = none ∧ bellSet [20] = none ∧ (bellSet [19]).isSome = true ∧
      (withBell 19 { ringing with state := .fault } voiced |>.bellRec 19).state = .fault ∧
      (voiced.bellRec 19).state ≠ .fault ∧ (withBell 19 ringing voiced |>.bellRec 19).state = .ringing ∧
      (withBell 19 ringing voiced).hasDamper 19 = true ∧ up.hasDamper 19 = false := by decide +kernel

theorem witness_BellRequestsAndDamping_mutes :
    (∀ st ∈ [BellState.quiet, .lifted, .ringing],
      (withBell 19 { BellRec.silent with state := st } voiced |>.bellRec 19).state = st) ∧
      (∀ k ∈ (voiced.bellRec 19).strokes, k.pulseOn = false ∧ k.echoOpen = false) ∧
      (withBell 19 { BellRec.silent with state := .striking } voiced |>.bellRec 19).state = .striking ∧
      (withBell 19 { BellRec.silent with state := .muted } voiced |>.bellRec 19).state = .muted ∧
      (voiced.bellRec 19).state ≠ .muted := by decide +kernel

/-- One strike of bell B0 queued, due now. -/
def striking : State := { voiced with bell.strikes := [{ strikeAt 0 0 with deadline := some 0 }] }
def granted : Strike := { strikeAt 0 0 with claiming := true }
/-- Its claim waits, one of another bell behind it. -/
def claimed : State :=
  { voiced with
    bell.strikes := [granted, strikeAt 0 0]
    dbu.claims := [{ kind := .strike 0 0 .host, units := 2, granted := false, arrival := 0 }] }
theorem witness_StrikeEvents :
    strikeToLift 0 striking = some { strikeAt 0 0 with deadline := some 0 } ∧
      strikeToClaim 0 striking = some { strikeAt 0 0 with deadline := some 0 } ∧
      strikeToDrop 0 striking = some { strikeAt 0 0 with deadline := some 0 } ∧ striking.voicingOf 0 = some voice ∧
      voice.units ≤ striking.hlc.live.budget ∧ voice.units ≠ 0 ∧
      { striking with hlc.live.budget := 1 }.hlc.live.budget < voice.units := by decide +kernel

theorem witness_StrikeEvents_choice :
    strikeToClaim 0 claimed = none ∧
      strikeToClaim 0 (withBell 0 { BellRec.silent with lastStrike := some ⟨0, 0⟩ } { striking with tb.elapsed := 199 }) = none ∧
      (strikeToClaim 0 (withBell 0 { BellRec.silent with lastStrike := some ⟨0, 0⟩ }
        { striking with tb.elapsed := 200 })).isSome = true ∧
      (strikeToLift 0 { voiced with bell.strikes := [strikeAt 0 30] }).isSome = true ∧
      strikeToLift 0 { voiced with bell.strikes := [strikeAt 0 31] } = none ∧
      (∃ c ∈ claimed.dbu.claims, c.kind.key = .strike 0 0) ∧ striking.dbu.claims = [] := by decide +kernel

def stroke : Stroke :=
  { lane := none, pulseEnd := 10, pulseOn := true, echoClose := 50, echoOpen := true, seen := false, stuckAt := 200,
    stuckDue := true }
def struck (now : Nat) : State :=
  withBell 0 { BellRec.silent with state := .striking, strokes := [stroke] } { voiced with tb.elapsed := now }
theorem witness_StrokesAndEchoes :
    ((struck 10).bellRec 0).strokes = [stroke] ∧ stroke.pulseOn = true ∧ stroke.pulseEnd ≤ (struck 10).tb.elapsed ∧
      stroke.echoOpen = true ∧ stroke.echoClose ≤ (struck 50).tb.elapsed ∧ stroke.stuckDue = true ∧
      stroke.stuckAt ≤ (struck 200).tb.elapsed ∧ stroke.seen = false ∧ (struck 10).inm.fresh = false ∧
      (struck 10).inm.echo.level.getLsbD 0 = false ∧ (voiced.bellRec 0).strokes = [] ∧
      (let s := withBell 0 { ringing with lastStrike := some ⟨0, 0⟩ } { voiced with tb.elapsed := 4000 }
       (s.bellRec 0).damperUp = true ∧ (s.bellRec 0).strokes = [] ∧ s.bell.strikes = [] ∧
         s.voicingOf 0 = some voice ∧ (s.bellRec 0).lastStrike = some ⟨0, 0⟩ ∧ 0 + voice.ring ≤ s.tb.elapsed) := by
  decide +kernel

theorem witness_StrokesAndEchoes_verdicts :
    (∀ k ∈ [{ stroke with seen := true }], k.seen = true) ∧
      (withBell 0 { BellRec.silent with missCount := 1, strokes := [stroke] } voiced |>.bellRec 0).missCount ≠ 2 ∧
      (withBell 0 { BellRec.silent with missCount := 2, strokes := [stroke] } voiced |>.bellRec 0).missCount = 2 ∧
      (∀ c ∈ up.dbu.claims, c.granted = false) ∧
      (∃ c ∈ [{ kind := ClaimKind.strike 0 0 .host, units := 2, granted := true, arrival := 0 : Claim }],
        c.granted = true ∧ c.kind.key = .strike 0 0) ∧
      (struck 10).muted 0 = false ∧ (struck 10 |>.bellRec 0).state ≠ .fault ∧
      { voiced with hlc.live.bellMutes := 1 }.muted 0 = true ∧
      (withBell 0 { BellRec.silent with state := .ringing } up).hasDamper 0 = false ∧
      (withBell 0 { BellRec.silent with state := .ringing } up |>.bellRec 0).damperUp = false ∧
      voiced.hasDamper 0 = true ∧
      (withBell 0 { BellRec.silent with state := .lifted, damperUp := true } voiced |>.bellRec 0).struckSinceLift = false ∧
      { strikeAt 0 0 with lifted := true }.lifted = true ∧
      { struck 10 with inm.echo.level := 1 }.inm.echo.level.getLsbD 0 = true := by decide +kernel

theorem witness_GrantedStrikeStrikes :
    { voiced with bell.strikes := [granted] }.bell.strikes.find? (Strike.isFor 0 0) = some granted ∧
      { voiced with bell.strikes := [granted] }.voicingOf 0 = some voice := by decide +kernel

theorem witness_BudgetGetReplies : 6 ≤ up.hlc.step ∧ statuses (after .budgetGet up) = [.ok] := by decide +kernel

def claim (k : ClaimKind) (granted : Bool) : Claim := { kind := k, units := 6, granted := granted, arrival := 0 }
def crowded (n : Nat) : State := { up with dbu.claims := List.replicate n (claim (.door 0 .opened) false) }
theorem witness_ClaimsAndGrants :
    claimAnswer (.turntable .home) 0 up = .taken ∧ up.hlc.live.budget < 25 ∧ 24 ≤ up.hlc.live.budget ∧
      4 ≤ ((crowded 4).dbu.claims.filter Claim.waitingMove).length ∧
      ((crowded 3).dbu.claims.filter Claim.waitingMove).length < 4 ∧
      nextGrant 6 [claim (.door 0 .opened) false] = some 0 ∧
      nextGrant 6 [claim (.door 0 .opened) false, claim (.strike 0 5 .host) false] = some 1 ∧
      nextGrant 6 [claim (.strike 0 5 .host) false, claim (.strike 1 5 .host) false] = some 0 ∧
      nextGrant 5 [claim (.door 0 .opened) false] = none ∧ up.held ≤ up.hlc.live.budget := by decide +kernel

/-! ## Witnesses: the Figure Link Controller -/

theorem witness_LinkRequests :
    hasWake up = false ∧ up.flc.stuck = false ∧ (queuedTxns 7 up).flc.queue.length < 8 ∧
      8 ≤ (queuedTxns 8 up).flc.queue.length ∧ hasWake (queuedTxns 8 up) = false ∧
      { up with flc.stuck := true }.flc.stuck = true ∧ queryKind (.other 2) = none ∧
      queryKind (.val .status) = some .status ∧ (15 : Fin 16) ≠ 0 ∧
      statuses (after (.nodeQuery 16 (.val .status)) up) = [.badValue] ∧ statuses (after (.nodeQuery 0 (.val .status)) up) = [.badValue] ∧
      (after (.nodeQuery 15 (.val .ident)) (queuedTxns 7 up)).flc.queue.length = 8 := by decide +kernel

theorem witness_LinkRequests_line :
    lineCondition { up with flc.stuck := true, flc.wake := some (.low 0) } = .stuck ∧
      lineCondition { up with flc.wake := some (.low 0), flc.lowSince := some 0 } = .waking ∧
      lineCondition { flying .halt 0 (.halt false false 0) 0 with flc.wake := some (.settle 9) } = .settling ∧
      lineCondition { flying .status 1 .poll 0 with flc.lowSince := some 0 } = .heldLow ∧
      lineCondition (flying .status 1 .poll 0) = .inTransaction ∧
      lineCondition { up with flc.retry := [{ txn := txn .status 1 .poll, due := 0 }] } = .inTransaction ∧
      lineCondition up = .idle ∧ inLow { up with flc.wake := some (.low 0) } = true := by decide +kernel

def inQueue (ts : List Txn) : State := { up with flc.queue := ts }
def halt : Txn := txn .halt 0 (.halt false false 0)
def stageTxn : Txn := txn .stage 4 (.stage 0 1)
def wakeTxn : Txn := txn .wake 0 (.wake false)
def retrying : State := { up with flc.retry := [{ txn := stageTxn, due := 0 }] }
theorem witness_TransactionsAreTaken :
    linePermits { up with flc.stuck := true } = false ∧ linePermits up = true ∧ up.flc.flight = none ∧
      (flying .status 1 .poll 0).flc.flight.isSome = true ∧ oldest .urgent (inQueue [stageTxn, halt]).flc.queue = some halt ∧
      oldest .urgent (inQueue [stageTxn]).flc.queue = none ∧ retrying.flc.retry ≠ [] ∧
      inSettle { up with flc.wake := some (.settle 9) } = true ∧ inSettle up = false ∧
      oldest .show_ (inQueue [txn .status 1 .poll, stageTxn]).flc.queue = some stageTxn ∧
      oldest .show_ (queuedTxns 1 up).flc.queue = none ∧
      sweepLeft (nodeIs 4 .awake { up with flc.sweep := some [3, 4] }) = [4] ∧ sweepLeft up = [] ∧
      up.flc.sweepPending = false ∧ oldest .host (queuedTxns 1 up).flc.queue = some (txn .status 1 (.query 0)) ∧
      oldest .host up.flc.queue = none ∧ takeNext (inQueue [stageTxn]) = some (.entry stageTxn) ∧
      stageTxn.kind ≠ .wake ∧ takeNext (inQueue [wakeTxn]) = some (.entry wakeTxn) ∧ wakeTxn.kind = .wake ∧
      linePermits retrying = true ∧ retrying.flc.flight = none ∧ inSettle retrying = false := by decide +kernel

theorem witness_TransactionsAreTaken_sweeps :
    awakeNodes (nodeIs 4 .awake { up with flc.sweepPending := true }) = [4] ∧ awakeNodes up = [] ∧
      takeNext (nodeIs 4 .awake { up with flc.sweepPending := true }) = some (.sweep 4 [] true) ∧
      takeNext (nodeIs 4 .awake { up with flc.sweep := some [3, 4] }) = some (.sweep 4 [] false) ∧
      takeNext { up with flc.sweepPending := true } = some .emptySweep ∧
      retrying.flc.retry = [{ txn := stageTxn, due := 0 }] ∧ halt.cls = .urgent ∧ stageTxn.cls ≠ .urgent ∧
      linePermits { up with flc.lowSince := some 0 } = false ∧ linePermits { up with flc.freeAt := 1 } = false := by decide +kernel

/-- A STATUS to address 4 in flight: its header byte is 0x04, sent within a millisecond. -/
def polling (now : Nat) : State := flying .status 4 .poll now
def inFlight (k : LinkKind) (o : TxnOwner) : Flight := { txn := txn k 4 o, since := 0, stopAfter := none, answer := none }
theorem witness_AttemptsFail :
    (polling 1).flc.flight = some (inFlight .status .poll) ∧ canMismatch (inFlight .status .poll) 0 2 1 = true ∧
      canMismatch (inFlight .status .poll) 0 8 1 = true ∧ canMismatch (inFlight .status .poll) 0 0 1 = false ∧
      canMismatch (inFlight .status .poll) 0 8 2 = false ∧ canMismatch (inFlight .status .poll) 1 8 1 = false ∧ 0 < LinkKind.status.answerBytes ∧
      (inFlight .status .poll).noAnswerAt = 5 ∧ (inFlight .status .poll).sentAt ≤ 1 := by decide +kernel

theorem witness_AttemptsFail_ends :
    (inFlight .status .poll).txn.disowned = false ∧
      { inFlight .status .poll with txn := { txn .status 4 .poll with disowned := true } : Flight }.txn.disowned = true ∧
      (inFlight .status .poll).txn.attempts ≤ up.hlc.live.retries ∧ ¬(4 ≤ up.hlc.live.retries) ∧
      (inFlight .status .poll).answer = none ∧ 0 + msOf (50 * LinkKind.status.sendBytes + 384) = 5 ∧
      1 < LinkKind.status.answerBytes ∧ 1 < LinkKind.ident.answerBytes ∧ ¬(1 < LinkKind.stage.answerBytes) ∧
      { inFlight .status .poll with answer := some ⟨1, 20⟩ }.answer = some ⟨1, 20⟩ ∧ 1 + msOf (50 + 5 * 20) = 3 ∧
      readbackKind (txn .status 4 .poll) 0 2 = .collision ∧ readbackKind (txn .status 4 .poll) 0 8 = .bitError ∧
      readbackKind (txn .stage 4 .poll) 1 0 = .bitError ∧ TxnOwner.poll ≠ .sweep ∧ (4 : Fin 16) ≠ 0 ∧
      halt.address = 0 ∧ halt.owner ≠ .sweep ∧ (up.node 4).state = .absent ∧
      ((nodeIs 4 .silent up).node 4).state = .silent ∧ ((nodeIs 4 .awake up).node 4).failures + 1 < 3 ∧
      ((nodeIs 4 .asleep up).node 4).state = .asleep ∧
      3 ≤ ({ NodeRec.absent with state := .awake, failures := 2 } : NodeRec).failures + 1 ∧
      figAt up 4 = none ∧ figAt (figIs (figRec .idle) up) 4 = some 0 := by decide +kernel

/-- A STATUS answer from address 4 whose eight bytes and the header sum to 0. -/
def statusBytes : List Byte := [0, 0, 0, 0, 0, 0, 0, 0xFC]
theorem witness_TransactionsEnd :
    (polling 1).flc.flight = some (inFlight .status .poll) ∧ (inFlight .status .poll).sentAt ≤ 1 ∧
      answerChecks (txn .status 4 .poll) statusBytes = true ∧ answerChecks (txn .status 4 .poll) [0] = false ∧
      answerChecks (txn .ident 4 (.query 0)) [0, 0, 0, 0, 0x3C] = true ∧ answerChecks (txn .ident 4 (.query 0)) [] = false ∧
      nodeAnswer 0x5A = some .accept ∧ nodeAnswer 0xA5 = some .refuse ∧ nodeAnswer 0x3C = some .busy ∧
      nodeAnswer 0 = none ∧ (inFlight .stage (.stage 0 1)).sentAt = 5 ∧ (inFlight .home (.home 0)).sentAt = 3 ∧
      (inFlight .clear (.withdrawn 0)).sentAt = 1 ∧ (inFlight .go (.go 1)).sentAt = 2 ∧
      (inFlight .go (.go 1)).stopAfter = none ∧ (inFlight .go (.go 1)).txn.disowned = false ∧
      (inFlight .halt (.halt true false 1)).sentAt = 1 ∧
      { inFlight .go (.go 1) with stopAfter := some 1 : Flight }.stopAfter = some 1 := by decide +kernel

def report (moving arrived fault homed : Bool) (lastTag elapsed : Nat) : NodeReport :=
  { position := 500, moving := moving, arrived := arrived, fault := fault, homed := homed, lastTag := lastTag
    elapsed := elapsed }
/-- F0 MOVING in a move with tag 1 whose window is from 800 to 1,500. -/
def underWay : State := figMoves .moving { ranMove with owner := .host } timed
theorem witness_TransactionsEnd_figures :
    ((nodeIs 4 .awake up).node 4).state ≠ .absent ∧ (up.node 4).state = .absent ∧
      (∀ st ∈ [FigState.unbound, .fault, .lost, .unknown, .idle, .halted, .staged, .moving],
        ((figIs (figRec st) up).fig 0).state = st) ∧
      (report false true true false 1 100).fault = true ∧ (report false true false false 1 100).fault = false ∧
      (figIs { figRec .halted with interrupted := some interrupted } up |>.fig 0).interrupted = some interrupted ∧
      (figRec .halted).interrupted = none ∧ (underWay.fig 0).homing = none ∧
      (underWay.fig 0).move = some { ranMove with owner := .host } ∧ ranMove.started = some ⟨0, 0, 800, 1500⟩ ∧
      (let w := report false true false false 1 79
       w.moving = false ∧ w.arrived = true ∧ w.lastTag = ranMove.tag ∧ (0 : Int) + w.elapsed * 10 < 800) ∧
      (800 : Int) ≤ 0 + (report false true false false 1 80).elapsed * 10 ∧
      inMove 0 1 (figMoves .staged move up) = true ∧ inMove 0 1 up = false ∧
      ((figMoves .staged { move with tag := 1 } up).fig 0).inStaging = true ∧ (up.fig 0).inStaging = false ∧
      (∃ t ∈ (inQueue [halt]).flc.queue, t.cls = .urgent ∧ t.address = 0) ∧ up.flc.queue = [] ∧
      readReport [0, 0, 0, 0, 0, 0, 0, 0] ≠ none := by decide +kernel

def ticking : State := { up with flc.nextTick := some 0 }
theorem witness_LineWakeAndPollEvents :
    up.flc.flight = none ∧ inLow up = false ∧ up.flc.stuck = false ∧ { up with flc.stuck := true }.flc.stuck = true ∧
      { up with flc.wake := some (.low 0) }.flc.wake = some (.low 0) ∧ 0 ≤ up.tb.elapsed ∧
      { up with flc.wake := some (.settle 0) }.flc.wake = some (.settle 0) ∧
      { queuedTxns 7 up with flc.wakePending := true }.flc.queue.length < 8 ∧
      pollQuiet { queuedTxns 1 ticking with flc.nextTick := some 20 } = false ∧
      pollQuiet { ticking with flc.nextTick := some 20 } = true ∧
      (pollChoice { ticking with flc.nextTick := some 20 }).isNone = true ∧
      (pollChoice (nodeIs 4 .awake ticking)).map Prod.fst = some 4 ∧
      expired { queuedTxns 1 up with tb.elapsed := 250 } = some (txn .status 1 (.query 0)) ∧
      expired { queuedTxns 1 up with tb.elapsed := 249 } = none := by decide +kernel

theorem witness_LineWakeAndPollEvents_low :
    { up with flc.lowSince := some 0 }.flc.lowSince = some 0 ∧ 0 + 100 ≤ { up with tb.elapsed := 100 }.tb.elapsed ∧
      { up with flc.stuck := true, flc.lowSince := some 0 }.flc.stuck = true ∧
      (∃ n ∈ (nodeIs 4 .asleep up).flc.nodes.toList, n.state = .asleep) ∧ someAsleep (nodeIs 4 .asleep up) = true ∧
      someAsleep up = false ∧ up.flc.nextTick = none ∧ ticking.flc.nextTick = some 0 ∧
      (txn .status 1 (.query 0)).owner = .query 0 ∧
      (figIs { figRec .staged with step := .clearing, move := some move } up |>.fig 0).clearing = true := by decide +kernel

/-! ## Witnesses: the Stage Controller -/

theorem witness_StageStatusAndFigureRequests :
    4 ≤ (atStep 4).hlc.step ∧ 12 ≤ 12 ∧ 199 < 200 ∧ 60000 < 60001 ∧
      figRefusal 0 (figIs (figRec .unbound) up) = some .notFound ∧
      figRefusal 0 (figIs (figRec .moving) up) = some .notNow ∧ figRefusal 0 (figIs (figRec .idle) up) = none ∧
      figRefusal 11 up = some .notFound ∧
      (queuedTxns 7 (figIs (figRec .idle) up)).flc.queue.length < 8 ∧
      claimAnswer (.figures (.homing 0) .host []) 1 (crowded 3) = .taken ∧
      claimAnswer (.figures (.homing 0) .host []) 1 (crowded 4) ≠ .taken := by decide +kernel

theorem witness_StageStatusAndFigureRequests_grounds :
    up.run .M = none ∧ (onM (run .running []) up).run .M ≠ none ∧
      ((nodeIs 4 .silent (figIs (figRec .idle) up)).node 4).state = .silent ∧
      ((figIs (figRec .idle) up).fig 0).state ≠ .unbound ∧
      (let s := doorIs { DoorRec.off with state := .closing } { figIs (figRec .idle) up with
          stg.figDefs := up.stg.figDefs.set 0 { figDefn with crossing := some ⟨0, -5, 5⟩ } }
       (s.figDef 0).crossing = some ⟨0, -5, 5⟩ ∧ (s.door 0).state = .closing) ∧
      (let s := turnIs .turning none none none { figIs (figRec .idle) up with
          stg.figDefs := up.stg.figDefs.set 0 { figDefn with rides := true } }
       (s.figDef 0).rides = true ∧ s.stg.turn.state = .turning) ∧
      linkAnswer up = .queued ∧ linkAnswer (queuedTxns 8 up) = .full ∧ linkAnswer { up with flc.stuck := true } = .stuck := by
  decide +kernel

/-- Figure F0 crosses door D0 and is moving. -/
def crossing (st : FigState) : State :=
  { up with
    stg.figDefs := up.stg.figDefs.set 0 { figDefn with crossing := some ⟨0, -5, 5⟩ }
    stg.figs := up.stg.figs.set 0 { figRec st with report := some ⟨6, 0⟩ } }
theorem witness_DoorMoves :
    2 ≤ 2 ∧ (onM (run .running []) up).run .M ≠ none ∧ up.run .M = none ∧ atGoal .opened .opened = true ∧
      atGoal .unknown .closed = false ∧ doorForbidden (crossing .moving).stg 0 = true ∧
      doorForbidden (crossing .idle).stg 0 = false ∧ atGoal (up.door 1).state .opened = false ∧
      (up.door 1).cmd = none ∧ claimAnswer (.door 1 .opened) (up.stg.doorDefs.get 1).units (crowded 3) = .taken ∧
      statuses (after (.doorMove 1 (.val .opened)) up) = [.ok] ∧ statuses (after (.doorMove 2 (.val .opened)) up) = [.badValue] ∧
      statuses (after (.doorMove 1 (.val .opened)) (crowded 4)) = [.full] := by decide +kernel

theorem witness_DoorMoves_commands :
    statuses (after (.doorMove 0 (.other 2)) up) = [.badValue] ∧ (up.door 1).cmd = none ∧
      (doorIs { DoorRec.off with cmd := some (doorCmd .host .opened true) } up |>.door 0).cmd =
        some (doorCmd .host .opened true) ∧
      (doorCmd .host .opened true).driving = true ∧ (doorCmd .host .opened true).goal ≠ .closed ∧
      (doorCmd .host .opened false).driving = false ∧ (doorCmd .host .opened false).claimed = true ∧
      claimAnswer (.door 1 .opened) (up.stg.doorDefs.get 1).units (crowded 4) ≠ .taken ∧
      doorForbidden (crossing .moving).stg 0 = true ∧ doorForbidden up.stg 0 = false ∧
      ({ up with inm.limits.level := 3 }.limit 0 .closed && { up with inm.limits.level := 3 }.limit 0 .opened) = true := by
  decide +kernel

theorem witness_TurnRequests :
    12 ≤ 12 ∧ (onM (run .running []) up).run .M ≠ none ∧ up.run .M = none ∧
      (turnIs .fault none none none up).stg.turn.state = .fault ∧ (TurnGoal.to 11 .cw) ≠ .home ∧
      turnAtGoal (.at 11) (.to 11 .cw) = true ∧ turnAtGoal .unhomed .home = false ∧
      turnPermitted up.stg = true ∧
      turnPermitted { up with stg.figDefs := up.stg.figDefs.set 0 { figDefn with rides := true },
                              stg.figs := up.stg.figs.set 0 (figRec .moving) }.stg = false := by decide +kernel

theorem witness_TurnRequests_commands :
    statuses (after (.turnMove 0 (.other 3)) up) = [.badValue] ∧ up.stg.turn.cmd = none ∧
      (turnIs .homing none (some (turnCmd .host .home true)) none up).stg.turn.cmd = some (turnCmd .host .home true) ∧
      (turnCmd .host .home true).driving = true ∧ (turnCmd .host .home false).driving = false ∧
      (turnCmd .host .home false).claimed = true ∧ (turnCmd .host .home true).goal ≠ .to 0 .cw ∧
      claimAnswer (.turntable .home) up.stg.turnDef.units up = .taken ∧
      claimAnswer (.turntable .home) up.stg.turnDef.units (crowded 4) ≠ .taken ∧
      (turnIs .stopped (some 11) none none up).stg.turn.count = some 11 ∧
      (turnIs .stopped (some 11) none none up).stg.turn.state = .stopped ∧ up.stg.turn.state = .unhomed ∧
      (0 : Fin 12) ≠ 11 ∧ (0 + 12 - 11) % 12 ≤ (11 + 12 - 0) % 12 := by decide +kernel

theorem witness_DoorsFollowLimitsAndInterlock :
    (up.door 0).cmd = none ∧ (up.limit 0 .closed && up.limit 0 .opened) = false ∧
      (let s := doorIs { DoorRec.off with
          cmd := some (doorCmd .host .opened true), travelStart := some 0, travelMs := 8000 }
          { up with tb.elapsed := 8000 }
       (s.door 0).cmd = some (doorCmd .host .opened true) ∧ (doorCmd .host .opened true).driving = true ∧
         (s.door 0).travelStart = some 0 ∧ 0 + (s.door 0).travelMs ≤ s.tb.elapsed) ∧
      (let s := doorIs { DoorRec.off with cmd := some (doorCmd (.run 0) .opened false) } up
       (s.door 0).cmd = some (doorCmd (.run 0) .opened false) ∧ (doorCmd (.run 0) .opened false).driving = false ∧
         (doorCmd (.run 0) .opened false).deadline ≤ s.tb.elapsed) := by decide +kernel

theorem witness_DoorsFollowLimitsAndInterlock_edges :
    up.inm.fresh = false ∧ 4 ≤ up.hlc.step ∧ up.limit 0 .closed ≠ true ∧ { up with inm.fresh := true }.inm.fresh = true ∧
      (atStep 3).hlc.step < 4 ∧ ({ up with inm.limits.level := 3 }.limit 0 .closed = true) ∧
      { up with inm.limits.level := 3 }.limit 0 .opened = true ∧ (up.door 0).state ≠ .closed ∧
      (doorIs { DoorRec.off with state := .closed } up |>.door 0).state = .closed ∧
      (doorCmd .host .closed true).driving = true ∧ (doorCmd .host .closed true).goal = .closed ∧
      doorForbidden (crossing .moving).stg 0 = true ∧ { doorCmd .host .opened false with claimed := false }.claimed = false ∧
      up.tb.elapsed < { doorCmd .host .opened false with deadline := 1 }.deadline ∧
      ((crossing .idle).stg.figDefs.get 0).crossing = some ⟨0, -5, 5⟩ ∧
      ((crossing .idle).stg.figs.get 0).report = some ⟨6, 0⟩ ∧ ¬((6 : Int) ≤ 5) := by decide +kernel

def homingRec (queued : Bool) : Homing :=
  { allowed := 200, startBy := 0, cleared := true, queued := queued, arriveBy := some 0 }
theorem witness_FigureEvents :
    (let s := figIs { figRec .staged with move := some move, step := .accepted } timed
     goDue 1 s = true ∧ moveTimes 1 s = some (0, 100) ∧ (100 : Int) ≤ { s with tb.showTime := 100 }.tb.showTime ∧
       goFlying 1 s = false ∧ s.flc.stuck = false ∧ (queuedTxns 7 s).flc.queue.length < 8) ∧
    (let m : Move := { move with started := some ⟨0, 0, 800, 1500⟩ }
     let s := figIs { figRec .moving with move := some m } { timed with tb.showTime := 1500 }
     (s.fig 0).state = .moving ∧ (s.fig 0).homing = none ∧ (s.fig 0).move = some m ∧
       m.started = some ⟨0, 0, 800, 1500⟩ ∧ (1500 : Int) ≤ s.tb.showTime) ∧
    (let s := figIs { figRec .staged with homing := some (homingRec false) } up
     (s.fig 0).state = .staged ∧ (s.fig 0).homing = some (homingRec false) ∧ (homingRec false).cleared = true ∧
       (homingRec false).queued = false ∧ claimGranted (.homing 0) s = true ∧ crossingOpen 0 s = true ∧
       (homingRec false).startBy ≤ s.tb.elapsed) ∧
    (let s := figIs { figRec .moving with homing := some (homingRec true) } up
     (s.fig 0).state = .moving ∧ (s.fig 0).homing = some (homingRec true) ∧
       (homingRec true).arriveBy = some 0 ∧ 0 ≤ s.tb.elapsed) := by decide +kernel

def share : Share := { fig := 0, units := 3, released := false }
def moveClaim (granted : Bool) (units : Nat) (sh : List Share) : Claim :=
  { kind := .figures (.move 0 1) (.run 0) sh, units := units, granted := granted, arrival := 0 }
/-- F0 IDLE with a travel range from -1,000 to 1,000. -/
def ready : State := figIs (figRec .idle) up
theorem witness_FigureEvents_moves :
    moveCheck none ready (0, 1000) = true ∧ moveCheck none ready (0, 1001) = false ∧ moveCheck none ready (1, 0) = false ∧
      ([(0, 1001)] : List (Fig × Int)).filter (moveCheck none ready) = [] ∧
      ([(0, 1000)] : List (Fig × Int)).filter (moveCheck none ready) ≠ [] ∧
      claimAnswer (.figures (.move 0 1) (.run 0) [share]) 3 ready = .taken ∧
      claimAnswer (.figures (.move 0 1) (.run 0) [share]) 25 ready ≠ .taken ∧ tagHeld up 1 = false ∧
      moveCheck (some 0) (figIs { figRec .halted with interrupted := some interrupted } up) (0, 5) = true := by
  decide +kernel
theorem witness_FigureEvents_leaving :
    (let s := figMoves .staged { move with owner := .run 0 } { inQueue [txn .stage 4 (.stage 0 1)] with tb.showTime := 100 }
     moveTimes 1 s = some (0, 100) ∧ moveOf 1 s = some { move with owner := .run 0 } ∧ (100 : Int) ≤ s.tb.showTime ∧
       goFlying 1 s = false ∧ ∃ t ∈ s.flc.queue, t.owner.isStage 0 = true) ∧
      (∀ t ∈ up.flc.queue, t.owner.isStage 0 = false) ∧ linkAnswer (queuedTxns 8 up) ≠ .queued ∧
      ((figMoves .moving ranMove up).fig 0).homing = none ∧ ranMove.owner = .run 0 ∧ move.owner = .host ∧
      (∃ c ∈ [moveClaim true 3 [share]], c.kind.key = .figures (.move 0 1)) ∧
      (∀ c ∈ up.dbu.claims, c.kind.key ≠ .figures (.move 0 1)) ∧
      (claim (.turntable .home) true).kind.key ≠ .figures (.move 0 1) ∧ share.fig = 0 ∧ share.released = false ∧
      (∀ x ∈ [{ share with released := true }], x.released = true) ∧
      releaseShare (.move 0 1) 0 (moveClaim true 3 [share]) = none ∧
      (releaseShare (.move 0 1) 0 (moveClaim true 5 [share, { share with fig := 1, units := 2 }])).isSome = true ∧
      releaseShare (.move 0 1) 0 (moveClaim false 3 [share, { share with fig := 1, units := 0 }]) = none := by decide +kernel

def turningTo (p k : Fin 12) : State :=
  turnIs .turning (some k) (some (turnCmd .host (.to p .cw) true)) (some spinning) up
theorem witness_TurntableEvents :
    (turningTo 0 11).stg.turn.stepping = some spinning ∧ (turningTo 0 11).stg.turn.state = .turning ∧
      spinning.skipFirst = false ∧ (turningTo 0 11).stg.turn.count = some 11 ∧ nextPosition .cw 11 = 0 ∧
      nextPosition .cw 0 ≠ 5 ∧ nextPosition .ccw 0 = 11 ∧
      (turningTo 0 11).stg.turn.cmd = some (turnCmd .host (.to 0 .cw) true) ∧
      (let s := turnIs .homing none (some (turnCmd .host .home true)) (some spinning) up
       s.stg.turn.state = .homing ∧ s.stg.turn.stepping = some spinning ∧
         s.stg.turn.cmd = some (turnCmd .host .home true) ∧ (turnCmd .host .home true).goal = .home) ∧
      spinning.edgeBy ≤ up.tb.elapsed ∧ (turnCmd .host .home false).driving = false ∧
      (turnCmd (.run 0) .home false).deadline ≤ up.tb.elapsed := by decide +kernel

theorem witness_TurntableEvents_edges :
    up.inm.fresh = false ∧ up.inm.misc.level.getLsbD 1 ≠ true ∧ up.inm.misc.level.getLsbD 2 = false ∧
      { up with inm.misc.level := 2 }.inm.misc.level.getLsbD 1 ≠ false ∧
      up.stg.turn.stepping = none ∧ { spinning with edges := 12 }.edges = 12 ∧ spinning.edges ≠ 12 ∧
      (turnCmd .host .home true).goal = .home ∧ (turnCmd .host (.to 0 .cw) true).goal = .to 0 .cw ∧
      (turnCmd .host (.to 11 .cw) true).goal = .to 11 .cw ∧ (11 : Fin 12) ≠ 0 ∧
      { spinning with skipFirst := true }.skipFirst = true ∧ up.stg.turn.cmd = none ∧
      turnPermitted up.stg = true ∧ { turnCmd .host .home false with claimed := false }.claimed = false ∧
      up.tb.elapsed < { turnCmd .host .home false with deadline := 1 }.deadline := by decide +kernel

/-! ## Witnesses: the Input Monitor and the settings -/

def guarding (action : GuardAction) (settle : Nat) : GuardDef :=
  { selection := 1, reference := 0, action := action, autoResume := true, settle := settle }
def guardIs (d : GuardDef) (mismatched : Bool) (level : BitVec 16) : State :=
  { up with
    inm.groups := up.inm.groups.set 3 { GuardRec.delivered with defn := d, mismatched := mismatched }
    inm.general.level := level }
theorem witness_InputsAndGuards_definitions :
    (let d : GuardArgs := { selection := 1, reference := 0, action := .other 3, autoResume := false, settle := 0 }
     d.action = .other 3 ∧ guardOf d = none) ∧
      (let d : GuardArgs := { selection := 1, reference := 0, action := .val .hold, autoResume := true, settle := 10000 }
       d.settle ≤ 10000 ∧ d.action = .val .hold ∧ guardOf d = some (guarding .hold 10000)) ∧
      { (up.group 3) with settleEnd := some 5 }.settleEnd ≠ none ∧ (up.group 3).settleEnd = none ∧
      ((crossing .moving).stg.figs.get 0).ofRun = false ∧
      ((figMoves .moving ranMove up).fig 0).ofRun = true ∧ guardDrops claimed (claim (.strike 0 0 .host) true) = true ∧
      guardDrops claimed (claim (.door 0 .opened) true) = true ∧ guardDrops claimed (claim (.turntable .home) true) = true ∧
      guardDrops claimed (claim (.strike 1 0 .host) true) = false ∧ guardDrops claimed (moveClaim true 3 [share]) = false := by
  decide +kernel
theorem witness_InputsAndGuards :
    4 ≤ (atStep 4).hlc.step ∧ 4 ≤ 4 ∧ 10000 < 10001 ∧ (guarding .note 0).action ≠ .hold ∧
      (guarding .hold 10000).settle ≤ 10000 ∧ (3 : Group).val = 3 ∧
      ((guarding .hold 0).selection &&& ((guardIs (guarding .hold 0) false 1).inm.general.level ^^^ 0) ≠ 0) ∧
      ((guarding .hold 0).selection &&& ((guardIs (guarding .hold 0) false 2).inm.general.level ^^^ 0) = 0) ∧
      ((guardIs (guarding .hold 0) true 0).group 3).mismatched = true ∧
      ((guardIs (guarding .hold 0) false 0).group 3).mismatched = false := by decide +kernel

def unitIs (r : CapRec) (s : State) : State := { s with inm.units := s.inm.units.set 3 r }
/-- CU3 claimed for a MARK of lane M, its window from 90 to 110, with a capture or none. -/
def marking (t : Option Int) : State :=
  unitIs { markUnit .M 0 15 .rise 90 110 with riseFlag := t.isSome, riseCap := t } { timed with tb.showTime := 110 }
theorem witness_CapturesAndInputEvents :
    4 ≤ 4 ∧ 16 ≤ 16 ∧ ((marking none).inm.units.get 3).owner = .run .M 0 ∧
      (up.inm.units.get 3).owner = .free ∧
      ((unitIs { CapRec.free with owner := .host } up).inm.units.get 3).owner = .host ∧
      (let s := { guardIs (guarding .hold 0) false 0 with
          inm.groups := up.inm.groups.set 3 { GuardRec.delivered with settleEnd := some 0 } }
       (s.group 3).settleEnd = some 0 ∧ 0 ≤ s.tb.elapsed) ∧
      ((marking none).unit 3).window = some ⟨90, 110, false⟩ ∧ (110 : Int) ≤ (marking none).tb.showTime ∧
      ((marking none).unit 3).markCapture = none ∧ ((marking (some 89)).unit 3).markCapture = some 89 ∧
      ((marking (some 90)).unit 3).markCapture = some 90 ∧ ((marking (some 110)).unit 3).markCapture = some 110 := by decide +kernel

def capturing (mode : CapMode) (flag : Bool) : CapRec :=
  { CapRec.free with owner := .host, riseMode := mode, riseFlag := flag }
theorem witness_CapturesAndInputEvents_edges :
    statuses (after (.captureSet 0 (.host 0 (.other 3) (.val .off))) up) = [.badValue] ∧
      statuses (after (.captureGet 0 (.other 3)) up) = [.badValue] ∧
      { up with inm.fresh := true }.inm.fresh = true ∧ up.inm.fresh = false ∧ { atStep 3 with inm.fresh := false }.hlc.step < 4 ∧
      4 ≤ up.hlc.step ∧ (capturing .continuous true).riseMode = .continuous ∧ (capturing .single false).riseFlag = false ∧
      (capturing .single true).riseFlag = true ∧ (capturing .off false).riseMode = .off ∧
      (capturing .single false).owner = .host ∧ (up.unit 0).owner = .free ∧
      (∀ u, ({ up with inm.units := Vector.replicate 4 (capturing .off false) }.unit u).owner ≠ .free) ∧
      (∀ v, v < (0 : CapUnit) → (up.unit v).owner ≠ .free) ∧
      ({ up with inm.general.s1 := 1, inm.general.s2 := 1 }.inm.general.filtered 0xFFFF ≠
        { up with inm.general.s1 := 1, inm.general.s2 := 1 }.inm.general.level) := by decide +kernel

theorem witness_unit_not_of_a_run : ∀ l cue, (up.inm.units.get 3).owner ≠ .run l cue := by
  intro l cue h
  have e : (up.inm.units.get 3).owner = .free := by decide +kernel
  rw [e] at h
  cases h

theorem witness_Causes :
    1 ≤ (atStep 1).hlc.step ∧ 1 ≤ [(15, some 0)].length ∧ [(15, some 0)].length ≤ 16 ∧
      ¬(([(0, none), (0, none)] : List (Nat × Option Nat)).map Prod.fst).Nodup ∧
      (([(15, some 0), (0, none)] : List (Nat × Option Nat)).map Prod.fst).Nodup ∧
      (∀ e ∈ ([(15, some 0)] : List (Nat × Option Nat)), e.1 < 16) ∧ 16 ≤ (16, (none : Option Nat)).1 := by decide

theorem witness_CauseMaskSets : 1 ≤ (atStep 1).hlc.step := by decide

theorem witness_IdentReplies : statuses (after .ident (atStep 1)) = [.ok] := by decide +kernel

theorem witness_ConfigSetSets :
    [SettingField.budget 4] ≠ [] ∧ fieldsOk [.budget 3] = false ∧ fieldsOk [.budget 65] = false ∧
      fieldsOk [.budget 4, .budget 5] = false ∧ fieldsOk [.budget 4] = true ∧
      ((Settings.factory).put (.budget 23)).budget < laden.held ∧
      laden.held ≤ ((Settings.factory).put (.budget 24)).budget := by decide +kernel

def waitingAll : State :=
  { claimed with
    stg.doors := up.stg.doors.set 0 { DoorRec.off with cmd := some (doorCmd (.run 0) .opened false) }
    stg.turn := { TurnRec.unhomed with cmd := some (turnCmd .host .home false) } }
theorem witness_ConfigSetSets_owners :
    up.tb.disc ≠ .off ∧ { up with tb.disc := .off }.tb.disc = .off ∧
      (Settings.factory.put (.budget 24)).budget = Settings.factory.budget ∧
      Settings.factory.budget < (Settings.factory.put (.budget 25)).budget ∧
      (Settings.factory.put (.budget 23)).budget < Settings.factory.budget ∧
      (moveClaim false 3 [share]).kind = .figures (.move 0 1) (.run 0) [share] ∧
      waitingAll.bell.strikes.find? (fun k => k.claiming && k.bell == 0 && k.due == 0) = some granted ∧
      (waitingAll.door 0).cmd = some (doorCmd (.run 0) .opened false) ∧
      waitingAll.stg.turn.cmd = some (turnCmd .host .home false) := by decide +kernel

def saving (n : Nat) : State := { atStep n with hlc.save := some { record := .factory, due := 0 } }
theorem witness_ConfigGetAndSave :
    (saving 1).hlc.save.isSome = true ∧ (atStep 1).hlc.save = none ∧
      (saving 0).hlc.save = some { record := .factory, due := 0 } ∧ 0 ≤ (saving 0).tb.elapsed ∧
      1 ≤ (saving 1).hlc.step ∧ (saving 0).hlc.step = 0 := by decide

theorem witness_ConfigGetAndSave_copies :
    { up with hlc.saved := .written .factory Settings.factory.crc }.hlc.saved = .written .factory Settings.factory.crc ∧
      up.hlc.saved = .never ∧ { up with hlc.saved := .broken }.hlc.saved = .broken ∧ (saving 1).hlc.step = 1 ∧
      { saving 1 with hlc.live.budget := 5 }.hlc.live ≠ .factory := by decide +kernel

/-! ## Witnesses: what follows from an event -/

def heldReq (n : Nat) : State := { atStep n with sch.held := [req] }
def working : State := { up with sch.work := [.due 31 0] }
theorem witness_RunsEndAndNextStarts_settling :
    laneAct .M (onM { run .running [] with abortAsked := true } up) = some .abort ∧
      laneAct .C (onLane .C (run .ending []) up) = some (.ends .completed) ∧ laneAct .M up = none ∧
      stageCheck up = up ∧ handNext up = none ∧ (handNext (heldReq 6)).isSome = true ∧ (heldReq 5).hlc.step < 6 ∧
      6 ≤ (heldReq 6).hlc.step ∧ working.sch.held = [] ∧ working.sch.work = [.due 31 0] ∧
      ((trig none).trig 31).next = some 0 ∧ ((trig none).trig 31).state = .armed ∧ (0 : Int) ≤ 0 ∧ (-1 : Int) < 0 ∧
      (up.trig 0).state ≠ .waitingTime ∧ (TrigRec.empty.defn.enabled = false) := by decide +kernel
theorem witness_RunsEndAndNextStarts_ends :
    (∀ st ∈ [RunState.aborting, .ending, .loading, .running, .holding],
      (onM (run st []) up).run .M = some (run st []) ∧ (run st []).abortAsked = false) ∧
      (∃ t ∈ heldTxns (inQueue [txn .halt 0 (.halt true false 0)]), ∃ g fs, t.owner = .halt true g fs) := by
  refine ⟨by decide +kernel, txn .halt 0 (.halt true false 0), by decide +kernel, false, 0, rfl⟩
theorem witness_RunsEndAndNextStarts_counted :
    ({ strikeAt 0 0 with origin := .lane .C 0 }).origin.lane? = some .C ∧ { stroke with lane := some .C }.done = false ∧
      ((figMoves .moving ranMove up).fig 0).ofRun = true ∧ (doorCmd (.run 0) .opened true).owner ≠ .host ∧
      (turnCmd (.run 0) .home true).owner ≠ .host ∧ (marking none |>.unit 3).ofLane .M = true ∧
      ((run .ending [.finish]).cues.all fun c => !c.issued) = true ∧ workLeft .M (run .ending []) up = false ∧
      { run .ending [] with pinned := true }.pinned = true ∧ (run .ending []).pinned = false ∧
      { run .ending [] with subject := .count 1 }.subject = .count 1 := by decide +kernel
/-- A step held, forced or not, with both lanes IDLE. -/
def stepHeld (forced : Bool) : State := { timed with tb.held := some ⟨5, 0, forced⟩ }
theorem witness_RunsEndAndNextStarts_looks :
    (stepHeld true).restraint = true ∧ (applyStep 5 (stepHeld true)).restraint = false ∧
      (applyStep 5 (stepHeld true)).sch.work ≠ [] ∧ up.sch.held = [] ∧ up.sch.work = [] ∧ up.run .M = none ∧
      up.run .C = none ∧ (up.lane .M).successor = none ∧
      { up with seq.laneM.successor := some req }.seq.laneM.successor = some req ∧ req.stale 5000 = false ∧
      ({ req with staleness := 1 } : ShowReq).stale 1000 = false ∧ ({ req with staleness := 1 } : ShowReq).stale 1001 = true := by
  decide +kernel
theorem witness_RunsEndAndNextStarts_arrivals :
    findItem ⟨.script, 3⟩ (stored [7]) = some { item [7] with check := crc16 [7] } ∧
      { up with ps.op := some ⟨.commit ⟨.script, 3⟩ [1] 0, 9⟩ }.ps.op = some ⟨.commit ⟨.script, 3⟩ [1] 0, 9⟩ ∧
      findItem ⟨.script, 3⟩ { up with ps.op := some ⟨.commit ⟨.script, 3⟩ [1] 0, 9⟩ } = none ∧
      placeOf (.script 3) (stored (oneEnd 0)) = .on .M ∧
      (∃ p ∈ ((queued 1 up).lane .M).queue, p.origin = .host) ∧ ({ req with origin := .trigger 0 } : ShowReq).origin ≠ .host ∧
      (∀ pol ∈ [Policy.queue, .drop, .preempt], ({ req with policy := pol } : ShowReq).policy = pol) ∧
      4 ≤ ((queued 4 up).lane .M).queue.length ∧ ((queued 3 up).lane .M).queue.length < 4 ∧
      { run .running [] with abortPolicy := true }.abortPolicy = true ∧ (run .running []).abortPolicy = false := by decide +kernel

/-! ## Witnesses: the clauses on start-up, fields, stored content, sweeps and the GO -/

def followed (due : Int) (st : TrigState) : State :=
  up.setTrig 31 { TrigRec.empty with state := st, next := some 0, followOn := some ⟨due, .script 3⟩ }
theorem witness_StartupStepsRun_clauses :
    (atStep 0).hlc.powerOn = true ∧ (atStep 0).hlc.savedPending = false ∧
      ((followed (-1) .armed).trig 31).followOn = some ⟨-1, .script 3⟩ ∧ (-1 : Int) < up.tb.showTime ∧
      ((followed 0 .armed).trig 31).state = .armed ∧ up.tb.showTime ≤ 0 ∧ ((followed 0 .spent).trig 31).state ≠ .armed ∧
      ({ up with inm.limits.level := 3 }.limit 0 .opened) = true ∧
      { atStep 3 with inm.limits.level := 1 }.limit 0 .closed = true ∧
      { atStep 3 with inm.limits.level := 1 }.limit 0 .opened = false := by decide +kernel

/-- R177, R166: the factory settings are told of, and a group mismatching at start-up trips. -/
theorem test_start_up_causes :
    ((after .startupSettings State.reset).hlc.causes.get (Detail.settingsEvent .defaulted).cause).flag = true ∧
      (let s := after .startupDoorsAndGuards { guardIs (guarding .abort 0) false 1 with hlc.step := 3 }
       (s.group 3).trips = 1 ∧ (s.hlc.causes.get (Detail.guardTrip 3 .abort 1).cause).count = 1) := by decide +kernel

/-- R31: the ends of the ranges of a DAILY and a PERIODIC entry, and of a follow-on and a window. -/
theorem test_trigger_ranges :
    (trigOfArgs { daily with time := some 86399999 } true).isSome = true ∧
      trigOfArgs { daily with time := some 86400000 } true = none ∧ trigOfArgs { daily with weekdays := some 0 } true = none ∧
      (trigOfArgs { daily with followOn := some (600, .slot 15), window := some 600 } true).isSome = true ∧
      trigOfArgs { daily with followOn := some (0, .slot 15) } true = none ∧
      trigOfArgs { daily with followOn := some (1, .slot 16) } true = none ∧
      trigOfArgs { daily with window := some 601 } true = none ∧ trigOfArgs { daily with period := some 0 } true = none := by
  decide +kernel

theorem witness_StoreOperationsBegin_scripts :
    parseScript (oneEnd 1) = .ok { lane := .C, abortPolicy := false, cues := [⟨0, .finish⟩] } ∧
      parseScript [2, 0, 1, 0] = .error none ∧ parseScript (oneEnd 0 ++ [7]) = .error none ∧ [(0 : Byte)].length < 4 ∧
      parseScript [1, 0, 2, 0, 0, 0, 0, 0, 3, 0, 0, 0, 0, 0, 0, 7] = .error (some 0) ∧
      parseCue [0xC0, 0x27, 0x09, 0, 7] = some (⟨600000, .finish⟩, []) ∧ parseCue [0xC1, 0x27, 0x09, 0, 7] = none ∧
      parseFields 0 [19, 8] = some (.strike 19 8, []) ∧ parseFields 0 [20, 8] = none ∧ parseFields 1 [0, 0, 0x10] = none ∧
      parseFields 2 [200, 0, 100, 0, 0, 0, 0, 1, 11, 0xFF, 0xFF] = some (.move 200 100 0 0 [(11, -1)], []) ∧
      parseFields 3 [1, 1] = some (.door 1 .closed, []) ∧ parseFields 4 [11, 2] = some (.turn 11 .ccw, []) ∧
      parseFields 6 [7, 255, 0, 0] = some (.lamp 7 255 0, []) ∧ parseFields 8 [] = none := by decide +kernel

theorem witness_StoreOperationsComplete_content :
    (parseTriggersItem emptyTriggers).isSome = true ∧ parseTriggersItem (emptyTriggers ++ [0]) = none ∧
      (parseSeasonsItem [2, 29, 12, 31, 15, 7]).isSome = true ∧ parseSeasonsItem [2, 30, 12, 31, 15, 7] = none ∧
      parseSeasonsItem [] = none ∧ parseSlot [255] = some (none, []) ∧ parseSlot [127] = some (some 127, []) ∧
      parseSlot [128] = none ∧ parseDoor [30, 16, 0xD0, 7] = some (⟨30, 16, 2000⟩, []) ∧
      parseDoor [30, 16, 0xD1, 7] = none ∧ (parseVoicingItem (List.replicate 300 2)).isSome = true ∧
      (∃ a ∈ ([4] : List (Fin 16)), (up.node a).state = .absent) ∧ (up.figDef 0).address ≠ figDefn.address := by
  decide +kernel

/-- R133, R121: definitions with one figure bound to address 4 make its node ASLEEP, and a wake is queued. -/
theorem test_binding :
    let s := takeMachinery { noMachinery with figs := noMachinery.figs.set 0 figDefn } up
    (s.node 4).state = .asleep ∧ (s.fig 0).state = .unknown ∧ s.flc.queue.map (·.kind) = [.wake] := by decide +kernel

theorem witness_RunsStopHoldAndResume_records :
    (let s := figIs { figRec .halted with interrupted := some interrupted } (inQueue [txn .clear 4 (.holdClear 0 false)])
     (s.fig 0).interrupted = some interrupted ∧ (s.fig 0).halts = false ∧ (withdrawRun s).flc.queue = [] ∧
       ((abortWithdraw 0 s).fig 0).interrupted = none ∧ recordedPairs 0 [0] s = [(0, interrupted)] ∧
       (let r := resumeCue { run .running [.move 1000 80 0 0 [(0, 5)]] with excluded := 1 } s 0
        (r.fig 0).interrupted = none ∧ (r.fig 0).state = .halted)) ∧
      (up.door 0).cmd = none ∧ up.stg.turn.cmd = none ∧ (doorCmd (.run 0) .opened true).owner ≠ .host := by decide +kernel

/-- A run's own door waits for the units its turntable holds. -/
def contended : State :=
  { up with
    stg.doors := up.stg.doors.set 0 { DoorRec.off with cmd := some (doorCmd (.run 0) .opened false) }
    stg.turn := { TurnRec.unhomed with state := .turning, cmd := some (turnCmd (.run 1) .home true), stepping := some spinning }
    dbu.claims := [{ claim (.turntable .home) true with units := 24 }, claim (.door 0 .opened) false] }
/-- R73, R150: they are stopped at once, so that the door, which was WAITING, keeps its state. -/
theorem test_drives_stopped_together :
    (let s := stopDrives contended
     (s.door 0).state = .unknown ∧ (s.door 0).cmd = none ∧ s.stg.turn.state = .stopped ∧ s.dbu.claims = []) := by
  decide +kernel

theorem witness_AttemptsFail_sweeps :
    (let s := { nodeIs 4 .awake up with flc.sweep := some [4] }
     s.flc.sweep = some [4] ∧ (s.node 4).state = .awake ∧ tidySweep s = s ∧ (passOver 4 s).flc.sweep = none) ∧
      (tidySweep { up with flc.sweep := some [4] }).flc.sweep = none ∧ up.flc.sweep = none ∧
      (inFlight .status .sweep).txn.owner = .sweep ∧ (inFlight .status .poll).txn.disowned = false := by decide +kernel

/-- R122: the last node of a sweep goes SILENT by another's transaction, and the sweep has ended. -/
theorem test_sweep_passed_over :
    (let s := { up with
        flc.nodes := up.flc.nodes.set 4 { NodeRec.absent with state := .awake, failures := 2 }, flc.sweep := some [4] }
     let t := failTxn stageTxn .noAnswer s
     (t.node 4).state = .silent ∧ t.flc.sweep = none ∧ secondSweep { t with flc.sweepPending := true } = false) := by
  decide +kernel

/-- R123: at NO_ANSWER the line has been idle for longer than a byte time already. -/
theorem test_line_idle_after_no_answer :
    (failAttempt .noAnswer (polling 5)).flc.freeAt = 5 ∧ (failAttempt .frameError (polling 5)).flc.freeAt = 6 := by
  decide +kernel

theorem witness_TransactionsEnd_bytes :
    answerChecks (txn .status 4 .poll) statusBytes = true ∧ answerChecks (txn .status 4 .poll) (statusBytes ++ [0]) = false ∧
      readReport [0xFF, 0xFF, 0x1E, 0, 9, 1, 1, 0] = some (⟨-1, true, true, true, true, 9, 257⟩ : NodeReport) := by
  decide +kernel

theorem witness_LineWakeAndPollEvents_choice :
    pollQuiet up = true ∧ pollQuiet { up with flc.sweepPending := true } = false ∧
      (pollChoice (nodeIs 4 .silent up)).map Prod.fst = some 4 ∧
      (pollChoice (underWay)).map Prod.fst = some 4 ∧
      (pollChoice { underWay with flc.lastWatch := some 4 }).map Prod.fst = some 4 ∧
      (pollChoice (nodeIs 9 .awake up)).map Prod.fst = some 9 ∧
      (let both : State :=
        let n : NodeRec := { NodeRec.absent with state := .awake, confirmed := true }
        { up with flc.nodes := (up.flc.nodes.set 3 n).set 9 n }
       (pollChoice { both with flc.lastPoll := some 3 }).map Prod.fst = some 9 ∧
         (pollChoice { both with flc.lastPoll := some 9 }).map Prod.fst = some 3) ∧
      (pollChoice up).map Prod.fst = none ∧ expired up = none := by decide +kernel

/-- F0 ACCEPTED for a move due at 0 with a tolerance of 100 ms, at a show time. -/
def accepted (now : Int) (jumped : Bool) : State :=
  figIs { figRec .staged with move := some move, step := .accepted }
    { timed with tb.showTime := now, tb.jumped := jumped }
/-- R8, R138: a GO falls due at its deadline, and one past it where a slewing period has passed the deadline over. -/
theorem witness_FigureEvents_go :
    goDue 1 (accepted 0 false) = true ∧ goDue 1 (accepted (-1) false) = false ∧ goDue 1 (accepted 100 false) = true ∧
      goDue 1 (accepted 101 true) = true ∧ goDue 1 (accepted 101 false) = false ∧ goDue 1 (accepted 102 true) = false ∧
      goDue 1 { accepted 0 false with flc.queue := [txn .go 0 (.go 1)] } = false ∧
      goDue 1 { accepted 0 false with flc.queue := List.replicate 8 (txn .status 1 (.query 0)), stg.goRefused := [1] } = false ∧
      goDue 1 { accepted 0 false with flc.queue := List.replicate 8 (txn .status 1 (.query 0)) } = true ∧
      goDue 1 { accepted 0 false with flc.stuck := true } = true ∧
      goDue 1 (onM (run .aborting []) (accepted 0 false)) = false ∧
      goDue 1 { accepted 0 false with dbu.claims := [moveClaim false 3 [share]] } = false := by decide +kernel

/-- R109: a figure that leaves a WAITING claim leaves the list of its shares too. -/
theorem test_waiting_share_removed :
    (releaseShare (.move 0 1) 0 (moveClaim false 5 [share, { share with fig := 1, units := 2 }])) =
      some (moveClaim false 2 [{ share with fig := 1, units := 2 }]) := by decide +kernel

/-- R22, R24: what show time had reached before a step comes first, its follow-on before its fire; a follow-on that this
schedules moves with the step. -/
theorem test_step_tasks :
    (let s := { trig (some ⟨0, .script 5⟩) with tb.showTime := 0 }
     (doTask (.due 31 0) s).sch.held.map (·.subject) = [.script 5] ∧
       ((doTask (.due 31 0) s).trig 31).followOn = none ∧
       ((doTask (.shift 31 (-3600000)) (trig (some ⟨60000, .script 5⟩))).trig 31).followOn =
         some ⟨-3540000, .script 5⟩) ∧
      (stepTasks 0 5).take 3 = [.due 0 0, .shift 0 5, .forward 0 0 5] ∧ (atStep 2).hlc.step < 3 ∧ 3 ≤ up.hlc.step ∧
      (stepEvent 0 0 up).sch.work = [] ∧
      (((stepEvent 0 5 { followed 7 .armed with hlc.step := 2 }).trig 31).followOn.map (·.due)) = some 12 := by
  decide +kernel

/-! ## Witnesses: the order of events, occurrences, grants, HALTs and refusals -/

theorem witness_StepOnEmptyQueue_order :
    (let both := { striking with tb.slewPhase := 100, tb.correction := 1 }
     nextDue both = some .slewPeriodEnd ∧ nextDue striking = some (.damperLift 0) ∧
       nextDue { up with tb.showTime := 3155760000000 } = some .rangeEnd ∧
       nextDue { up with tb.showTime := 3155759999999 } = some .dateChange) ∧
      nextDue { up with flc.wake := some (.low 1), tb.elapsed := 1 } = some .wakeLowEnd ∧
      nextDue { up with flc.wake := some (.low 1) } = none ∧ nextDue (polling 5) = some .noAnswer ∧
      nextDue (polling 4) = none ∧ nextDue { up with tb.elapsed := 100, flc.lowSince := some 0 } = some .lineStuck ∧
      nextDue { up with tb.elapsed := 99, flc.lowSince := some 0 } = none ∧ nextDue retrying = some .retryAttempt ∧
      nextDue { up with hlc.rx := .inFrame, tb.elapsed := 21 } = some .hostGapTimeout ∧
      { up with hlc.rx := .inFrame }.hlc.rx = .inFrame ∧ up.hlc.rx ≠ .inFrame ∧ (atStep 0).hlc.step = 0 := by decide +kernel

/-- R113: an answer is awaited from the end of the frame, at 0.6 ms, to 384 bit times after it. -/
theorem witness_StepOnEmptyQueue_awaited :
    (inFlight .status .poll).answer = none ∧ 0 < LinkKind.status.answerBytes ∧ 0 + msOf (50 * LinkKind.status.sendBytes) = 1 ∧
      0 + msOf (50 * LinkKind.status.sendBytes + 384) = 5 ∧ (polling 0).flc.flight = some (inFlight .status .poll) ∧
      up.flc.flight = none ∧ up.tb.correction = 0 ∧ { up.tb with correction := 1, slewPhase := 0 }.slewPhase + 1 ≠ 100 ∧
      { up.tb with correction := -1, slewPhase := 99 }.slewPhase + 1 = 100 := by decide +kernel

/-- R19: a load of TRIGGERS keeps an entry's last fire and fire count. -/
theorem witness_StartupStepsRun_triggers :
    (let s := { up with sch.trigs := up.sch.trigs.set 31 { TrigRec.empty with lastFire := some 5, count := 3 } }
     let bad := { item [7] with id := ⟨.triggers, 0⟩, check := 0 }
     ∀ t ∈ [s, { s with ps.items := [bad] }, { s with ps.items := [{ bad with usable := false }] }],
       ((takeLoad .triggers t).trig 31).lastFire = some 5 ∧ ((takeLoad .triggers t).trig 31).count = 3 ∧
         ((takeLoad .triggers t).trig 31).defn.window = 60) := by decide +kernel

theorem witness_RequestsBeforeStartup_owners :
    (∀ p ∈ [(Request.storeSum, 2), (.trigGet 0, 3), (.bellStatus, 3), (.figStatus, 4), (.inputGet, 4),
        (.timeGet, 6), (.showStatus, 6), (.budgetGet, 6), (.linkStatus false, 6), (.causesGet, 1), (.configGet, 1)],
      gateStep p.1.kind = p.2 ∧ (p.2 ≤ 1 ∨ statuses (after (rowOf p.1) (atStep (p.2 - 1))) = [.busy])) ∧
      statuses (after .timeGet (atStep 0)) = [] := by decide +kernel

theorem witness_HostFrameArrives_tags :
    replyTag 0x11 (outstanding []) = 7 ∧ replyTag 0x12 (outstanding []) = 0 ∧ replyTag 0x11 up = 0 ∧
      (reply 0x11 .ok .none (outstanding [busyReply])).hlc.replies =
        [busyReply, { kind := 0x91, tag := 7, status := .ok, data := .none, overlap := false }] ∧
      (Request.storePut true 0 (List.replicate 1024 0)).wellFormed = true ∧
      (Request.storePut true 0 (List.replicate 1025 0)).wellFormed = false ∧
      (Request.causesClear (List.replicate 16 (0, none))).wellFormed = true ∧ (Request.configSet []).wellFormed = false := by
  decide +kernel

theorem witness_TimeSetSets_restraint :
    (stepHeld true).restraint = true ∧ (stepHeld false).restraint = false ∧ up.restraint = false ∧
      ((applyStep 5 (stepHeld true)).tb.held = none) := by decide +kernel

theorem witness_TimebaseEvents_unset :
    ((followed 7 .armed).trig 31).followOn = some ⟨7, .script 3⟩ ∧ ((trig none).trig 31).followOn = none ∧
      ((entryUnset 31 (followed 7 .armed)).trig 31).state = .waitingTime ∧
      ((entryUnset 31 (followed 7 .spent)).trig 31).state = .spent ∧
      (let autumn := { season 1 with startMonth := 10, startDay := 5, endMonth := 2, endDay := 28 }
       autumn.matches (10, 5) = true ∧ autumn.matches (10, 4) = false ∧ autumn.matches (2, 28) = true ∧
         autumn.matches (2, 29) = false) ∧
      (let july := { season 1 with startMonth := 7, startDay := 1, endMonth := 7, endDay := 1 }
       july.matches (7, 1) = true ∧ july.matches (7, 2) = false ∧ july.matches (6, 30) = false) ∧
      monthDay 59 = (2, 29) ∧ dateOf (59 * 86400000 + 86399999) = (2000, 2, 29) ∧ monthDay 0 = (1, 1) ∧
      dateOf (36524 * 86400000) = (2099, 12, 31) := by decide +kernel

/-- R18, R19: the occurrences of each kind at the ends of the range, and what a last fire forbids. -/
theorem witness_TrigSetWrites_occurrences :
    let d (k : TrigKind) (p : Nat) := ((enabledAs k p).trig 31).defn
    earliestFrom (d .daily 0) none 1001 = some 86401000 ∧ earliestFrom (d .daily 0) (some 5000) 0 = some 86401000 ∧
      earliestFrom (d .daily 0) none 3155759999999 = none ∧ latestTo (d .daily 0) none 9999999999999 = some 3155673601000 ∧
      earliestFrom (d .periodic 5000) (some 1001) 0 = some 11000 ∧ earliestFrom (d .once 0) (some 1000) 1000 = some 1000 ∧
      earliestFrom (d .once 0) none 1001 = none ∧ earliestFrom (d .hours 0) (some 3599999) 0 = some 86400000 ∧
      latestTo (d .hours 0) (some 0) 86399999 = none ∧ (d .daily 0).time < 86400000 := by decide +kernel

theorem witness_TriggersFireAndDisarm_slots :
    resolve (.slot 15) (slotted true) = some 3 ∧ resolve (.slot 15) up = none ∧ up.sch.programmes = none ∧
      resolve (.script 127) up = some 127 := by decide +kernel

theorem witness_CuesAreIssued_left :
    (let r := run .running [.lamp 7 255 0, .finish]
     ((issueCue .M 0 (onM r timed)).seq.lamps.get 7).target = 255 ∧
       issueCue .M 0 (onM { r with abortAsked := true } timed) = onM { r with abortAsked := true } timed ∧
       issueCue .M 0 (onM (markIssued 0 r) timed) = onM (markIssued 0 r) timed ∧ issueCue .M 0 timed = timed) ∧
      { run .running [] with excluded := 1 }.excluded.getLsbD 0 = true ∧
      { run .running [] with skipDoors := 2, skipTurn := true }.skipDoors.getLsbD 1 = true ∧
      (run .running []).skipDoors.getLsbD 1 = false ∧ (run .running []).skipTurn = false := by decide +kernel

/-- Two bells that ring; bell B1 has no damper. -/
def twoRing : State :=
  let v := { voice with ring := 0 }
  withBell 0 ringing (withBell 1 ringing { up with bell.voicing := some ((Vector.replicate 20 voice).set 1 v) })
theorem witness_BellRequestsAndDamping_sets :
    (dampBells 3 twoRing).bell.bells.toList.map (·.state) = .quiet :: .ringing :: List.replicate 18 .quiet ∧
      dampBells 2 twoRing = twoRing ∧ twoRing.hasDamper 0 = true ∧ twoRing.hasDamper 1 = false ∧
      bellSet [0, 19, 0] = some 0x80001 := by decide +kernel

theorem witness_GrantedStrikeStrikes_stuckTest :
    (let s := startPulse 0 0 { voiced with tb.elapsed := 7, bell.strikes := [{ granted with origin := .lane .C 0 }] }
     (s.bellRec 0).strokes.map (fun k => (k.stuckDue, k.stuckAt, k.lane)) = [(true, 207, some .C)]) ∧
      (strikeAt 0 0).origin = .host := by decide +kernel

/-- R112: claims in the order of a grant pass. -/
theorem witness_BudgetGetReplies_order :
    (waitingOrder [claim (.door 0 .opened) false, claim (.strike 1 9 .host) false, claim (.strike 2 5 .host) true,
        claim (.strike 3 5 .host) false, claim (.strike 4 9 .host) false]).map (·.kind) =
      [.strike 3 5 .host, .strike 1 9 .host, .strike 4 9 .host, .door 0 .opened] ∧ waitingOrder [] = [] := by decide +kernel

theorem witness_ClaimsAndGrants_kinds :
    (let s := { claimed with dbu.claims := claimed.dbu.claims ++
        [moveClaim false 3 [share], claim (.door 0 .opened) false, claim (.turntable .home) false] }
     (∀ i ∈ [0, 1, 2, 3], (s.dbu.claims[i]?).map (·.granted) = some false ∧ (grantOne i s).dbu.claims[i]?.map (·.granted) = some true) ∧
       (grantOne 3 s).held = 6 ∧ (grantPass s).held = 17) ∧
      nextGrant 24 [] = none ∧ nextGrant 5 [claim (.strike 0 5 .host) false, moveClaim false 3 [share]] = none ∧
      claimAnswer (.strike 0 0 .host) 2 (crowded 4) = .taken ∧ claimAnswer (.door 0 .opened) 0 (crowded 4) = .taken := by
  decide +kernel

/-- R124: a HALT at an empty, a merging, a displacing and a full queue. -/
theorem witness_LinkRequests_halts :
    let o := TxnOwner.halt true false 2
    let halts (n : Nat) : List Txn := (List.finRange n).map fun i => txn .halt (Fin.ofNat 16 (i.val + 1)) (.halt false true 1)
    let kinds (p : State × Option Txn) := (p.1.flc.queue.map fun t => (t.kind, t.address.val), p.2.map (·.owner))
    kinds (placeHalt 4 o up) = ([(.halt, 4)], none) ∧
      ((placeHalt 4 o (inQueue [halt])).1.flc.queue.map (·.owner)) = [.halt true false 2] ∧
      ((placeHalt 0 o (inQueue [stageTxn, txn .halt 4 (.halt false true 1)])).1.flc.queue.map (·.owner)) =
        [.stage 0 1, .halt true true 3] ∧
      kinds (placeHalt 9 o (inQueue (halts 6 ++ [txn .status 1 (.query 0), stageTxn]))) =
        ((halts 6).map (fun t => (t.kind, t.address.val)) ++ [(.stage, 4), (.halt, 9)], some (.query 0)) ∧
      (placeHalt 9 o (inQueue (halts 6 ++ [txn .status 1 .poll, stageTxn]))).2 = some stageTxn ∧
      (placeHalt 9 o (inQueue (halts 7 ++ [txn .status 1 .poll]))).2 = some (txn .status 1 .poll) ∧
      kinds (placeHalt 9 o (inQueue (halts 8))) = ([(.halt, 0)], none) := by decide +kernel

theorem witness_LinkRequests_refused :
    (inFlight .stage (.stage 0 1)).overtakenAt 0 = some 1 ∧ (inFlight .stage (.stage 0 1)).overtakenAt 3 = some 4 ∧
      (inFlight .stage (.stage 0 1)).overtakenAt 4 = none ∧ (inFlight .status .poll).overtakenAt 0 = none ∧
      ((sendHalt 0 false false 0 (flying .stage 4 (.stage 0 1) 3)).flc.flight.bind (·.stopAfter)) = some 4 ∧
      displaced (queuedTxns 8 up).flc.queue = some (txn .status 1 (.query 0)) ∧
      statuses (sendHalt 0 false false 0 (queuedTxns 8 up)) = [.busy] ∧
      (let s := figMoves .staged move up
       inMove 0 1 s = true ∧ ((linkRefused (.stage 0 1) s).fig 0).state = .idle ∧
         ((linkRefused (.stage 0 2) s).fig 0).state = .staged) ∧
      ((linkRefused (.withdrawn 0) (figIs { figRec .staged with step := .clearing, move := some move } up)).fig 0).state = .halted ∧
      (linkRefused (.wake true) up).flc.wakePending = true ∧
      ((requestWake true (inQueue [wakeTxn])).flc.queue.map (·.owner)) = [.wake true] ∧
      (requestWake true { up with flc.stuck := true }).flc.queue = [] ∧
      (requestWake true (queuedTxns 8 up)).flc.wakePending = true ∧ ((requestWake false up).flc.queue.length = 1) ∧
      (requestWake true { up with flc.wake := some (.settle 9) }).flc.queue = [] := by decide +kernel

theorem witness_AttemptsFail_silent :
    ((figureSilent 0 up).fig 0).state = .unbound ∧ ((figureSilent 0 (figMoves .staged move up)).fig 0).state = .lost ∧
      ((figureSilent 0 (figMoves .moving ranMove up)).fig 0).move = none ∧
      ((figureSilent 0 (figIs { figRec .halted with interrupted := some interrupted } up)).fig 0).interrupted = none ∧
      ((figureSilent 0 ready).fig 0).state = .lost ∧
      ((stageReport 0 (report false true false true 1 0) (figIs (figRec .lost) up)).fig 0).state = .lost := by decide +kernel

/-- R120: a retry that waits while the line is low waits for a byte time of it high. -/
theorem witness_LineWakeAndPollEvents_retries :
    (let s := { retrying with flc.lowSince := some 0, tb.elapsed := 50 }
     s.flc.lowSince = some 0 ∧ s.flc.stuck = false ∧ (after .lineReleased s).flc.retry.map (·.due) = [51] ∧
       (after .lineReleased { s with flc.stuck := true }).flc.retry.map (·.due) = [51]) := by decide +kernel

/-- R8, R165: a window whose close a slewing period passes over closes in that millisecond, and an edge of it is on time. -/
theorem witness_CapturesAndInputEvents_passedOver :
    (let s (t : Int) : State := { marking (some t) with tb.showTime := 111, tb.jumped := true }
     windowDue 3 (s 111) = true ∧ (s 111).tb.showTime = 110 + 1 ∧
       ((after (.captureWindowClose 3) (onM (run .running []) (s 111))).run .M).map (·.faults) = some 0) ∧
      (capturing .single true).markCapture = (capturing .single true).riseCap ∧
      (capturing .single false).markCapture = none ∧
      ({ CapRec.free with fallMode := .single, fallFlag := true, fallCap := some 4 }).markCapture = some 4 := by decide +kernel

theorem witness_Causes_entries :
    clearsCause up (15, none) = true ∧ clearsCause up (15, some 0) = true ∧ clearsCause up (15, some 1) = false ∧
      clearsCause up (16, none) = false ∧ causeSet [0, 15] = 0x8001 ∧ (flagWord up.hlc.causes).getLsbD 15 = false ∧
      (flagWord (after .startupSettings State.reset).hlc.causes) ≠ 0 := by decide +kernel

/-! ## Witnesses: withdrawals, alerts, frames and the values the statements spell -/

/-- R77: a hold's CLEAR is withdrawn by the abort of its run though its figure is LOST, and not by that of a later run. -/
theorem test_holds_clear_withdrawn :
    (let s := figIs (figRec .lost) (inQueue [txn .clear 4 (.holdClear 0 false), txn .status 1 (.query 0)])
     (withdrawRun s).flc.queue.map (·.owner) = [.query 0] ∧
       (forgetWork .M s).flc.queue.map (·.owner) = [.holdClear 0 true, .query 0] ∧
       (withdrawRun (forgetWork .M s)).flc.queue.length = 2) := by decide +kernel

/-- R122: an alert on a STUCK line counts, and the line stays STUCK. -/
theorem test_alert_on_stuck_line :
    (let s := after .alert { up with flc.stuck := true, flc.lowSince := some 0, tb.elapsed := 200 }
     s.flc.counters.alerts = 1 ∧ s.flc.sweepPending = true ∧ s.flc.stuck = true ∧ s.flc.lowSince = some 200) ∧
      (after .alert (polling 1)).flc.counters.alerts = 0 ∧
      (after .lineStuck { up with flc.stuck := true }).hlc.causes = up.hlc.causes := by decide +kernel

/-- R179, R180: a SAVED that came before the clearing is raised in step 1, after DEFAULTED. -/
theorem witness_StartupStepsRun_saved :
    (let raised (powerOn pending : Bool) (last : Option Nat) : Option (Half × Option Detail) :=
       let s := { State.reset with
         hlc.powerOn := powerOn, hlc.savedPending := pending, tb.lossAt := last, tb.elapsed := 5 }
       match exec .startupSettings s with
       | .next t =>
         let c := t.hlc.causes.get (Detail.settingsEvent .saved).cause
         if t.tb.lossAt = none ∧ t.tb.lastPulse = none ∧ t.hlc.savedPending = false then
           some (c.count, c.detail.map (·.what))
         else none
       | _ => none
     raised true true (some 9) = some (2, some (.settingsEvent .saved)) ∧
       raised true false none = some (1, some (.settingsEvent .defaulted)) ∧
       raised false true (some 9) = some (1, some (.settingsEvent .saved)) ∧ raised false false none = some (0, none)) := by
  decide +kernel

theorem witness_spelled_values :
    pulseError 29999 = 29999 ∧ pulseError 30000 = -30000 ∧ skipped ((armedAt .daily 1).trig 31) 0 86400000 = none ∧
      (settleNext none true TrigRec.empty).state = .spent ∧ itemId 5 127 = some ⟨.script, 127⟩ ∧ itemId 6 0 = none ∧
      protectedAt 1 .figures = true ∧ protectedAt 1 .seasons = false ∧ protectedAt 2 .triggers = true ∧
      protectedAt 2 .script = false ∧ blocksOf 0 = 0 ∧ blocksOf 256 = 1 ∧ blocksOf 257 = 2 ∧
      (afterFire 0 ((enabledAs .periodic 0).trig 31)).state = .spent ∧
      (afterFire 1000 ((enabledAs .daily 0).trig 31)).next = some 86401000 ∧
      ((dropLate (strikeAt 0 0) striking).bellRec 0).counters.lateDrops = 1 ∧
      recordedCues (figIs { figRec .fault with interrupted := some interrupted } up) = [0] ∧ ranMove.ended = false := by
  decide +kernel

/-- R115, section 10.6: the frames of a STAGE to F0 at address 4, a GO and a HOME. -/
theorem test_frames :
    stageData 4 0 { move with target := -2, duration := 1001, tag := 255 } =
        [0xFE, 0xFF, 0x65, 0, 0xFF, 0, 0x0B] ∧
      goData 7 = [7, 0xD9] ∧ homeData 4 2000 = [0xC8, 0, 0xD4] ∧
      headerByte .stage 4 = 0x94 ∧ headerByte .go 0 = 0x20 ∧ headerByte .home 4 = 0x64 := by decide +kernel

/-- R136: the fresh tag follows the counter's value, past a tag still held, and 1 comes after 255. -/
theorem test_fresh_tag :
    (let s (t : Nat) := figMoves .staged { move with tag := t } up
     freshTag (s 255) 255 255 = 1 ∧ freshTag (s 7) 255 7 = 8 ∧ freshTag (s 7) 255 255 = 255 ∧ tagHeld (s 7) 7 = true) := by
  decide +kernel

/-- R143: a HOME refused at a full queue, or failed on a STUCK line, ends the homing. -/
theorem test_home_refused :
    (let s := figIs { figRec .staged with homing := some { homingRec false with startBy := 9 } } (queuedTxns 8 up)
     homeDue 0 s = true ∧ ((after (.homeQueued 0) s).fig 0).state = .unknown ∧
       (after (.homeQueued 0) s).flc.counters.full = 1 ∧
       ((after (.homeQueued 0) { s with flc.stuck := true, flc.queue := [] }).fig 0).state = .unknown) := by decide +kernel

theorem witness_claims_of_waiting_commands :
    (let door := doorIs { DoorRec.off with cmd := some { doorCmd .host .opened false with claimed := false } }
     let turn := turnIs .stopped none (some { turnCmd .host .home false with claimed := false }) none
     claimAnswer (.door 0 .opened) (up.stg.doorDefs.get 0).units (door up) = .taken ∧
       claimAnswer (.door 0 .opened) (up.stg.doorDefs.get 0).units (door (crowded 4)) = .listFull ∧
       ((claimDoor 0 (door (crowded 4))).door 0).cmd = none ∧ (claimTurn (turn up)).dbu.claims.length = 1 ∧
       (claimTurn (turn (crowded 4))).stg.turn.cmd = none) := by decide +kernel

/-! ## Worked examples of the spec -/

/-- R3: the last millisecond of the range is 23:59:59.999 of a Thursday, 2099-12-31. -/
theorem test_last_day :
    dayNumber 3155759999999 = 36524 ∧ timeOfDay 3155759999999 = 86399999 ∧ weekday 36524 = 3 ∧
      monthDay 36524 = (12, 31) ∧ (yearOf 36524).1 = 2099 ∧ twelveHour 0 = 12 ∧ twelveHour 13 = 1 := by decide

/-- R3: the hour and the minute of a time of day. -/
theorem test_minute_of_hour :
    hourOf 36059995 = 10 ∧ minuteOf 36059995 = 0 ∧ minuteOf 36060000 = 1 ∧ minuteOf 86399999 = 59 ∧ minuteOf 0 = 0 := by
  decide

/-- Section 10.6: the status bytes; 0x0B is none of them. -/
theorem test_status_bytes :
    Status.ok.code = 0x00 ∧ Status.badValue.code = 0x05 ∧ Status.notFound.code = 0x0A ∧ Status.badScript.code = 0x0C := by
  decide

/-- R177: a saved copy is taken if its CRC and its ranges verify, and the record is DEFAULTED otherwise. -/
theorem test_saved_copy :
    let loaded (r : Settings) (crc : Half) :=
      (after .startupSettings { State.reset with hlc.saved := .written r crc }).hlc
    let r : Settings := { Settings.factory with budget := 30 }
    (loaded r r.crc).live.budget = 30 ∧ (loaded r r.crc).source = .saved ∧ (loaded r (r.crc + 1)).source = .defaulted ∧
      (loaded { r with budget := 3 } ({ r with budget := 3 } : Settings).crc).source = .defaulted := by decide +kernel

/-- R120: a HALT whose attempt fails while a retry waits is retried first, and the other retry is kept. -/
theorem test_two_retries :
    (after .noAnswer { flying .status 4 .poll 5 with flc.retry := [{ txn := stageTxn, due := 0 }] }).flc.retry.map (·.txn.kind) =
      [.status, .stage] := by decide +kernel

/-- R17: the detail of a LATE carries the first-fire-pending flag. -/
theorem test_late_tells_first :
    ((raiseLate 31 0 (up.mapTrig 31 fun r => { r with first := true })).hlc.causes.get 3).detail.map (·.what) =
      some (.triggerMissed .late (.trigger 31) none 0 none (some true)) := by decide +kernel

/-- R5: captures at 10:00:00.012 and 10:00:59.995 err by 12 and by -5. -/
theorem test_pulse_errors : pulseError 36000012 = 12 ∧ pulseError 36059995 = -5 := by decide

/-- R8: the last millisecond of a slewing period takes show time on by 2, or by 0. -/
theorem test_slewing_period_end :
    ({ up.tb with correction := 1, slewPhase := 99, showTime := 99 }.tick).showTime = 101 ∧
      ({ up.tb with correction := -1, slewPhase := 99, showTime := 99 }.tick).showTime = 99 ∧
      ({ up.tb with correction := 1, slewPhase := 98, showTime := 98 }.tick).showTime = 99 := by decide

def seasonsItem : Item :=
  { id := ⟨.seasons, 0⟩, content := [0x0C, 0x01, 0x02, 0x1C, 0x03, 0x02], check := 0, usable := true, pins := 0 }
def script3 : Item :=
  item [0x01, 0, 0x03, 0, 0, 0, 0, 0, 0, 0x05, 0x04, 0xE8, 0x03, 0, 0, 0, 0x08, 0x04, 0xDC, 0x05, 0, 0, 0x07]
def script7 : Item :=
  { item [0x01, 0, 0x02, 0, 0, 0, 0, 0, 0, 0x09, 0x06, 0, 0, 0, 0, 0x07] with id := ⟨.script, 7⟩, usable := false }
def installation : State := { up with ps.items := [seasonsItem, script3, script7], ps.writeLevel := 2 }
def lastData (s : State) : Option ReplyData := s.hlc.replies.getLast?.map (·.data)

/-- Section 3.8: the first STORE-SUM is 5,641. -/
theorem test_store_sum_open : lastData (after .storeSum installation) = some (.storeSum 5641) := by decide +kernel

/-- Section 3.8: after sealing, STORE-SUM is 34,517. -/
theorem test_store_sum_sealed :
    lastData (after .storeSum (after .storeLock (after (.storeProtect 2 true)
      (after (.storeIdentity 0x0101 0x0003 0xA5C3 0xE000) installation)))) = some (.storeSum 34517) := by decide +kernel

/-- R41: a commit of 1,000 bytes completes after 110 ms, one of 16,384 bytes after 1,310 ms. -/
theorem test_commit_times : 30 + 20 * blocksOf 1000 = 110 ∧ 30 + 20 * blocksOf 16384 = 1310 := by decide

/-- A script of section 3.8 read from its bytes: two strikes of lane C and an END at 1,500 ms. -/
theorem test_script_parsed :
    parseScript script3.content = .ok
      { lane := .C, abortPolicy := false
        cues := [⟨0, .strike 5 4⟩, ⟨1000, .strike 8 4⟩, ⟨1500, .finish⟩] } := by decide +kernel

/-- A script whose last cue is not an END is refused at that cue (R45). -/
theorem test_script_without_end :
    validate .script [1, 0, 1, 0, 0, 0, 0, 0, 0, 5, 4] = .badScript (some 0) := by decide +kernel

/-- R167: CRC-16 with polynomial 0x1021 and initial value 0xFFFF, over the bytes 31 to 39. -/
theorem test_crc16 : crc16 [0x31, 0x32, 0x33, 0x34, 0x35, 0x36, 0x37, 0x38, 0x39] = 0x29B1 := by decide +kernel

/-- Section 10.6: headers have odd parity. -/
theorem test_headers :
    headerByte .status 1 = 0x01 ∧ headerByte .status 3 = 0x83 ∧ headerByte .halt 0 = 0xB0 ∧
      headerByte .go 0 = 0x20 := by decide +kernel

/-- R180: six steps of start-up, then show time is UNSET and ATTN is asserted. -/
theorem test_start_up :
    let s := after .startupTime (after .startupLink (after .startupDoorsAndGuards
      (after .startupItems (after .startupStore (after .startupSettings State.reset)))))
    s.hlc.step = 6 ∧ s.attn = true ∧ s.flc.nextTick = some 20 := by decide +kernel

/-- R21: a trigger of a fixed script with no item fires, and its request is discarded with NO_SCRIPT. -/
theorem test_trigger_fires :
    ((after (.triggerFire 31) (trig none)).trig 31).count = 1 ∧
      ((after (.triggerFire 31) (trig none)).hlc.causes.get 3).count = 1 := by decide +kernel

/-- A strike is admitted, claims its units and drives its hammer (R88, R93, R94). -/
theorem test_strike_begins :
    let s := after (.strikeClaim 0) striking
    s.bell.strikes = [] ∧ (s.bellRec 0).state = .striking ∧ s.held = 2 := by decide +kernel

/-- R126: a wake of 25 bit times lowers the line, then settles for 10 ms. -/
theorem test_wake :
    let s := after .transactionStart (after .linkWake up)
    s.flc.wake = some (.low 2) ∧
      (after .wakeLowEnd { s with tb.elapsed := 2 }).flc.wake = some (.settle 12) := by decide +kernel

/-- R146: a door that a moving figure crosses is forbidden to close. -/
theorem test_door_interlock :
    statuses (after (.doorMove 0 (.val .closed)) (crossing .moving)) = [.inUse] := by decide +kernel

/-- R147: the turntable counts past 11 to 0, its goal. -/
theorem test_turntable_arrives :
    (after (.turntableIndexEdge true) (turningTo 0 11)).stg.turn.state = .at 0 := by decide +kernel

/-- R157: a guard group whose input leaves its reference level trips. -/
theorem test_guard_trips :
    ((after (.generalInputEdge 1) (guardIs (guarding .hold 0) false 0)).group 3).trips = 1 := by decide +kernel

/-- R165: a capture in the window, and one before it. -/
theorem test_mark_verdicts :
    ((after (.captureWindowClose 3) (onM (run .running []) (marking (some 100)))).run .M).map (·.faults) = some 0 ∧
      ((after (.captureWindowClose 3) (onM (run .running []) (marking (some 89)))).run .M).map (·.firstFault) =
        some (some (.markEarly, 0)) := by decide +kernel

end Sys2Proof.Tests
end

