-- ==== Sys2Proof/Proofs/Time.lean ====
section
/-! PROOF. The elapsed count over every command, and show time over a slewing period. -/
namespace Sys2Proof.Machine

/-! ## The elapsed count (R1, R2) -/

/-- No command but a power-on reset changes the elapsed count. -/
theorem exec_elapsed {i : Instr} {s t : State} (hi : i ≠ .powerOnReset) (h : exec i s = .next t) :
    t.tb.elapsed = s.tb.elapsed := by
  by_cases he : i = .eraseAllComplete
  · subst he
    replace h : execEraseAllComplete s = .next t := h
    rcases eraseAllComplete_next (s := s) with hs | hs
    · cases hs.symm.trans h; rfl
    · obtain rfl := Host.Outcome.next.inj (hs.symm.trans h)
      exact (finishEraseAll_inner (s := s)).elapsed
  · obtain ⟨u, hu, hk⟩ := exec_keeps (s := s) i ⟨hi, he⟩
    obtain rfl := Host.Outcome.next.inj (hu.symm.trans h)
    exact hk.2.1

/-- A step on an empty queue with nothing due is one millisecond. -/
theorem step_of_nothing_due {s : State} (hp : s.pending = []) (hd : nextDue s = none) : step s = .next (tick s) := by
  unfold step; rw [hp]; simp only [hd]

/-- A step on an empty queue with an event due is that event. -/
theorem step_of_due {s : State} {c : Instr} (hp : s.pending = []) (hd : nextDue s = some c) : step s = exec c s := by
  unfold step; rw [hp]; simp only [hd]

/-- Settles O7: every command but a power-on reset keeps the elapsed count, and the tick raises it by one. -/
theorem elapsedCountAdvances : Obligations.ElapsedCountAdvances := by
  refine ⟨fun i s t hi h => exec_elapsed hi h, fun s t h => ?_, fun s t hp hd h => ?_⟩
  · cases h; rfl
  · cases (step_of_nothing_due hp hd).symm.trans h
    exact tick_elapsed s

/-! ## A slewing period (R1, R8) -/

theorem tbTick_unslewed {t : TB} (hc : t.correction = 0) :
    t.tick = { t with elapsed := t.elapsed + 1, showTime := t.showTime + 1, jumped := false } := by
  unfold TB.tick; rw [if_pos hc]

theorem tbTick_inPeriod {t : TB} (hc : t.correction ≠ 0) (hp : t.slewPhase + 1 ≠ 100) :
    t.tick = { t with
      elapsed := t.elapsed + 1, showTime := t.showTime + 1, jumped := false, slewPhase := t.slewPhase + 1 } := by
  unfold TB.tick; simp [hc, hp]

theorem tbTick_periodGains {t : TB} (hc : 0 < t.correction) (hp : t.slewPhase + 1 = 100) :
    t.tick = { t with
      elapsed := t.elapsed + 1, showTime := t.showTime + 2, jumped := true, slewPhase := t.slewPhase + 1 } := by
  unfold TB.tick; simp [hc, hc.ne', hp]

theorem tbTick_periodLoses {t : TB} (hc : t.correction < 0) (hp : t.slewPhase + 1 = 100) :
    t.tick = { t with elapsed := t.elapsed + 1, jumped := false, slewPhase := t.slewPhase + 1 } := by
  unfold TB.tick; simp [hc.ne, hc.le, hp]

/-- The four ways a millisecond goes: without slewing, within a period, and at the end of one that gains or loses. -/
theorem tbTick_cases (t : TB) :
    t.correction = 0 ∨ (t.correction ≠ 0 ∧ t.slewPhase + 1 ≠ 100) ∨ (0 < t.correction ∧ t.slewPhase + 1 = 100) ∨
      (t.correction < 0 ∧ t.slewPhase + 1 = 100) := by omega

/-- The millisecond that takes show time over an instant is the one marked (R8). -/
theorem tbTick_jumped_iff (t : TB) : t.tick.jumped = true ↔ t.tick.showTime = t.showTime + 2 := by
  rcases tbTick_cases t with hc | ⟨hc, hp⟩ | ⟨hc, hp⟩ | ⟨hc, hp⟩
  · rw [tbTick_unslewed hc]; simp
  · rw [tbTick_inPeriod hc hp]; simp
  · rw [tbTick_periodGains hc hp]; simp
  · rw [tbTick_periodLoses hc hp]; simp

/-- Without a correction show time runs with the elapsed count (R1). -/
theorem tbTicks_unslewed {t : TB} (hc : t.correction = 0) (n : Nat) :
    (TB.tick^[n] t).correction = 0 ∧ (TB.tick^[n] t).elapsed = t.elapsed + n ∧
      (TB.tick^[n] t).showTime = t.showTime + n := by
  induction n with
  | zero => simpa using hc
  | succ n ih =>
    obtain ⟨hcor, hel, hsh⟩ := ih
    rw [Function.iterate_succ_apply', tbTick_unslewed hcor]
    exact ⟨hcor, by simp only [hel]; omega, by simp only [hsh]; push_cast; omega⟩

/-- Within a slewing period, before its last millisecond, show time runs with the elapsed count (R8). -/
theorem tbTicks_inPeriod {t : TB} (hc : t.correction ≠ 0) (h0 : t.slewPhase = 0) (n : Nat) (hn : n ≤ 99) :
    (TB.tick^[n] t).correction = t.correction ∧ (TB.tick^[n] t).slewPhase = n ∧
      (TB.tick^[n] t).elapsed = t.elapsed + n ∧ (TB.tick^[n] t).showTime = t.showTime + n := by
  induction n with
  | zero => simpa using h0
  | succ n ih =>
    obtain ⟨hcor, hph, hel, hsh⟩ := ih (by omega)
    rw [Function.iterate_succ_apply', tbTick_inPeriod (hcor ▸ hc) (by omega)]
    exact ⟨hcor, by simp only [hph], by simp only [hel]; omega, by simp only [hsh]; push_cast; omega⟩

theorem tbTicks_elapsed (t : TB) (n : Nat) : (TB.tick^[n] t).elapsed = t.elapsed + n := by
  induction n with
  | zero => rfl
  | succ n ih => rw [Function.iterate_succ_apply', tb_tick_elapsed, ih, Nat.add_assoc]

/-- Settles O8: ninety-nine milliseconds of the period run with the elapsed count, and the last one gains or loses. -/
theorem slewingPeriodGainsOrLosesOne : Obligations.SlewingPeriodGainsOrLosesOne := by
  intro t h0
  have last : TB.tick^[100] t = (TB.tick^[99] t).tick := Function.iterate_succ_apply' _ 99 t
  refine ⟨tbTicks_elapsed t 100, fun hc => ?_, fun hc => ?_, fun hc => ?_, tbTick_jumped_iff⟩
  · obtain ⟨hcor, hph, -, hsh⟩ := tbTicks_inPeriod hc.ne' h0 99 le_rfl
    rw [last, tbTick_periodGains (by rwa [hcor]) (congrArg (· + 1) hph)]
    simp only [hsh]; ring
  · obtain ⟨hcor, hph, -, hsh⟩ := tbTicks_inPeriod hc.ne h0 99 le_rfl
    rw [last, tbTick_periodLoses (by rwa [hcor]) (congrArg (· + 1) hph)]
    simp only [hsh]; ring
  · exact (tbTicks_unslewed hc 100).2.2

end Sys2Proof.Machine
end

