-- ==== Sys2Proof/Proofs/Requests.lean ====
section
/-! PROOF. TIME-GET, and the power-on reset. -/
namespace Sys2Proof.Machine

/-- A request of the Timebase is carried out once start-up step 6 has ended (R181). -/
theorem gated_timebase {k : Byte} {f : State → State} {s : State} (hk : gateStep k = 6) (h : 6 ≤ s.hlc.step) :
    (Host.Outcome.next (gated k f s) : Host.Outcome State Fault Refusal) = .next (f s) :=
  congrArg _ (gated_at hk h)

/-- Settles O15: TIME-GET is its reply alone. -/
theorem timeGetReplies : Obligations.TimeGetReplies := fun _ h => gated_timebase (by decide) h

/-- Settles O4: the reset's values are read off, and so is what the command keeps; the groups' definitions are read back
through the map over them. -/
theorem Proofs.powerOnReset : Obligations.PowerOnReset := by
  refine ⟨⟨rfl, rfl, rfl, rfl, rfl, rfl, rfl, rfl, rfl, rfl, rfl, rfl, rfl, rfl, rfl, rfl, rfl, rfl, rfl, rfl, rfl, rfl,
    rfl, rfl, rfl, rfl⟩, fun s => ?_⟩
  have groups (g : Group) : (Machine.powerOnReset s).inm.groups.get g =
      { GuardRec.delivered with defn := (s.inm.groups.get g).defn } := vector_get_map ..
  exact ⟨Machine.powerOnReset s, rfl, rfl, rfl, rfl, rfl, rfl, rfl, rfl, rfl, rfl, rfl, rfl, rfl, rfl,
    fun g => by simp [groups, GuardRec.delivered], rfl, rfl, rfl, rfl, rfl, rfl⟩

/-! ## TIME-SET (R14, R15) -/

/-- The step that TIME-SET or a pulse holds: the held step, and HELD unless discipline is OFF (R6, R14). -/
theorem holdStep_eq (v : Int) (force : Bool) (s : State) :
    holdStep v force s = { s with
      tb.held := some { target := v, computed := s.tb.showTime, forced := force }
      tb.disc := if s.tb.disc = .off then .off else .held } := by
  unfold holdStep setDisc
  by_cases h : s.tb.disc = .off
  · simp [h]
  · simp [h]

/-- The restraint stands while the held step is forced (R15). -/
theorem restraint_iff (s : State) : s.restraint = true ↔ ∃ h, s.tb.held = some h ∧ h.forced = true := by
  unfold State.restraint
  cases s.tb.held <;> simp

/-- Where the restraint is lifted, the two lanes look, lane M first (log entry 76). -/
theorem settleFreed_lifted {before s : State} (h : before.restraint = true) (h' : s.restraint = false) :
    settleFreed before s = settleLoop 1024 { looks := [.M, .C], handFirst := false } s := by
  unfold settleFreed; simp only [h, h']; rfl

theorem settleFreed_kept {before s : State} (h : before.restraint = false ∨ s.restraint = true) :
    settleFreed before s = settle s := by
  unfold settleFreed; rcases h with h | h <;> simp [h]

theorem withinI_iff (lo hi v : Int) : withinI lo hi v = true ↔ lo ≤ v ∧ v ≤ hi := by
  simp [withinI]

theorem timeSet_outOfRange {v : Int} {force : Bool} {s : State} (h : 6 ≤ s.hlc.step)
    (hv : v < 0 ∨ 3155759999999 < v) : exec (.timeSet v force) s = .next (reply 0x10#8 .badValue .none s) := by
  refine (gated_timebase (by decide) h).trans (congrArg _ (if_neg fun hw => ?_))
  rw [withinI_iff, Config.maxTime] at hw; omega

theorem timeSet_inRange {v : Int} {force : Bool} {s : State} (h : 6 ≤ s.hlc.step)
    (h0 : 0 ≤ v) (hv : v ≤ 3155759999999) :
    exec (.timeSet v force) s = .next (settleFreed s (timeSetTaken v force s)) := by
  refine (gated_timebase (by decide) h).trans (congrArg _ (if_pos ?_))
  exact (withinI_iff 0 Config.maxTime v).2 ⟨h0, hv⟩

/-- Evaluating the seasons leaves every part of the state but the Scheduler's choice. -/
theorem evalSeasons_eq (s : State) : ∃ a c, evalSeasons s = { s with
    sch.today := dayNumber s.tb.showTime, sch.active := a, sch.chosenBy := c } := by
  unfold evalSeasons
  dsimp only
  split <;> exact ⟨_, _, rfl⟩

/-- The validity event with SET leaves the arming of the entries as tasks (R27). -/
theorem validEvent_eq (s : State) : validEvent s = { evalSeasons s with
    sch.work := s.sch.work ++ (List.finRange 32).map fun i => .armWaiting i s.tb.showTime } := by
  obtain ⟨a, c, hs⟩ := evalSeasons_eq s
  unfold validEvent
  rw [hs]; rfl

/-- Settles O16: the branches of `timeSetTaken`, the validity event, and the lifting of the restraint. -/
theorem timeSetSets : Obligations.TimeSetSets := by
  refine ⟨fun v force s h => ⟨timeSet_outOfRange h, fun h0 hv => ?_⟩, validEvent_eq, fun before s => ?_⟩
  · rw [timeSet_inRange h h0 hv]
    unfold timeSetTaken
    refine ⟨fun hu => ⟨?_, ?_⟩, fun hs hi => ?_, fun hs hi hf => ?_, fun hs hi hf => ?_⟩
    · show s.tb.showTime + (v - s.tb.showTime) = v
      ring
    · simp [hu, setFromUnset]
    · simp [hs, hi]
    · simp [hs, hi, hf, holdStep_eq]
    · simp [hs, hi, hf, holdStep_eq]
  · refine ⟨restraint_iff before, fun hb hs => ?_, fun hor => ?_⟩
    · simp only [← restraint_iff] at hb hs
      exact settleFreed_lifted hb (by simpa using hs)
    · simp only [← restraint_iff] at hor
      exact settleFreed_kept (hor.imp_left (by simp))

end Sys2Proof.Machine
end

