-- ==== Sys2Proof/Proofs/Pulse.lean ====
section
/-! PROOF. A capture of MINUTE at the Timebase (R4 to R7). -/
namespace Sys2Proof.Machine

/-- The error of a capture is the signed distance from the nearest whole minute (R5). -/
theorem pulseError_below {c : Int} (h : c % 60000 < 30000) : pulseError c = c % 60000 := if_pos h

theorem pulseError_above {c : Int} (h : 30000 ≤ c % 60000) : pulseError c = c % 60000 - 60000 :=
  if_neg (by omega)

/-- The state whose MINUTE input has risen and falls again by itself (log entry 31). -/
def minuteCaught (s : State) : State := { s with inm.misc := lowerMinute (s.inm.misc.putBit 0 true) }

/-- From the end of start-up step 1 a rise of MINUTE is a capture (R155, R180). -/
theorem minutePulse_taken {s u : State} (h : 1 ≤ s.hlc.step) (hu : takePulse (minuteCaught s) = u) :
    exec .minutePulse s = .next (settle u) := by
  have rise : minuteRise s = takePulse (minuteCaught s) := if_neg (by omega)
  exact congrArg (fun t => Host.Outcome.next (settle t)) (rise.trans hu)

/-- What `takePulse` does with a capture: ignored with discipline OFF, rejected when early, accepted otherwise (R4). -/
theorem takePulse_off {s : State} (h : s.tb.disc = .off) : takePulse s = s := if_pos h

theorem pulseEarly_of_some {t : TB} {p : Stamp} (h : t.lastPulse = some p) :
    pulseEarly t = decide (t.elapsed < p.elapsed + 50000) := by
  unfold pulseEarly; rw [h]; rfl

theorem takePulse_early {s : State} {p : Stamp} (h : s.tb.disc ≠ .off) (hp : s.tb.lastPulse = some p)
    (he : s.tb.elapsed < p.elapsed + 50000) : takePulse s = { s with tb.rejected := satInc s.tb.rejected } := by
  unfold takePulse
  rw [if_neg h, if_pos (by rw [pulseEarly_of_some hp]; exact decide_eq_true he)]

theorem takePulse_accepted {s : State} (h : s.tb.disc ≠ .off)
    (hp : ∀ p, s.tb.lastPulse = some p → p.elapsed + 50000 ≤ s.tb.elapsed) : takePulse s = acceptPulse s := by
  have early : ¬pulseEarly s.tb = true := by
    cases hl : s.tb.lastPulse with
    | none => simp [pulseEarly, hl]
    | some p => rw [pulseEarly_of_some hl]; simpa using hp p hl
  unfold takePulse
  rw [if_neg h, if_neg early]

/-- An accepted pulse starts the loss timer afresh (R4). -/
def pulseTaken (s : State) : State :=
  { s with tb.lastPulse := some s.stamp, tb.lossAt := some (s.tb.elapsed + 130000) }

theorem acceptPulse_eq (s : State) : acceptPulse s = match s.tb.held with
    | some h => renewStep h (pulseTaken s)
    | none => actOnError (pulseError s.tb.showTime) (pulseTaken s) := rfl

theorem acceptPulse_renews {s : State} {h : HeldStep} (hh : s.tb.held = some h) :
    acceptPulse s = renewStep h (pulseTaken s) := by
  rw [acceptPulse_eq, hh]

theorem acceptPulse_acts {s : State} (hh : s.tb.held = none) :
    acceptPulse s = actOnError (pulseError s.tb.showTime) (pulseTaken s) := by
  rw [acceptPulse_eq, hh]

/-- An error within the slew limit is slewed off (R6). -/
theorem actOnError_slews {e : Int} {s : State} (h : e.natAbs ≤ s.hlc.live.slewLimit) :
    actOnError e s =
      { s with tb.correction := -e, tb.slewPhase := 0, tb.disc := if e = 0 then .tracking else .slewing } :=
  if_pos h

/-- A larger one is stepped at once while both lanes are IDLE (R6). -/
theorem actOnError_steps {e : Int} {s : State} (h : s.hlc.live.slewLimit < e.natAbs) (hi : s.bothIdle = true) :
    actOnError e s = applyStep (-e) { s with tb.correction := 0, tb.slewPhase := 0 } :=
  (if_neg (by omega)).trans (if_pos hi)

/-- And held otherwise (R6). -/
theorem actOnError_holds {e : Int} {s : State} (h : s.hlc.live.slewLimit < e.natAbs) (hi : s.bothIdle = false) :
    actOnError e s = raise (.timeEvent (.stepHeld (-e)))
      (holdStep (s.tb.showTime - e) false { s with tb.correction := 0, tb.slewPhase := 0 }) :=
  (if_neg (by omega)).trans (if_neg (Bool.eq_false_iff.1 hi))

/-- With discipline on, a step held makes the Timebase HELD (R6). -/
theorem holdStep_disciplined {v : Int} {force : Bool} {s : State} (h : s.tb.disc ≠ .off) :
    holdStep v force s = { s with
      tb.held := some { target := v, computed := s.tb.showTime, forced := force }, tb.disc := .held } :=
  (holdStep_eq v force s).trans (by rw [if_neg h])

section
variable {s : State}

/-- The four things an accepted pulse can do (R6, R7). -/
theorem acceptPulse_slews (hh : s.tb.held = none) (hs : (pulseError s.tb.showTime).natAbs ≤ s.hlc.live.slewLimit) :
    acceptPulse s = { pulseTaken s with
      tb.correction := -pulseError s.tb.showTime, tb.slewPhase := 0
      tb.disc := if pulseError s.tb.showTime = 0 then .tracking else .slewing } :=
  (acceptPulse_acts hh).trans (actOnError_slews hs)

theorem acceptPulse_steps (hh : s.tb.held = none) (hs : s.hlc.live.slewLimit < (pulseError s.tb.showTime).natAbs)
    (hi : s.bothIdle = true) : acceptPulse s = applyStep (-pulseError s.tb.showTime)
      { pulseTaken s with tb.correction := 0, tb.slewPhase := 0 } :=
  (acceptPulse_acts hh).trans (actOnError_steps hs hi)

theorem acceptPulse_holds (hd : s.tb.disc ≠ .off) (hh : s.tb.held = none)
    (hs : s.hlc.live.slewLimit < (pulseError s.tb.showTime).natAbs) (hi : s.bothIdle = false) :
    acceptPulse s = raise (.timeEvent (.stepHeld (-pulseError s.tb.showTime))) { pulseTaken s with
      tb.held := some
        { target := s.tb.showTime - pulseError s.tb.showTime, computed := s.tb.showTime, forced := false }
      tb.correction := 0, tb.slewPhase := 0, tb.disc := .held } := by
  rw [acceptPulse_acts hh, actOnError_holds (s := pulseTaken s) hs hi,
    holdStep_disciplined (s := { pulseTaken s with tb.correction := 0, tb.slewPhase := 0 }) hd]
  rfl

theorem acceptPulse_renewed {h : HeldStep} (hh : s.tb.held = some h) :
    let e := pulseError (s.tb.showTime + (h.target - h.computed))
    let w : State := { pulseTaken s with
      tb.held := some
        { target := s.tb.showTime + (h.target - h.computed) - e, computed := s.tb.showTime, forced := h.forced }
      tb.correction := 0, tb.slewPhase := 0 }
    acceptPulse s = if s.hlc.live.slewLimit < e.natAbs then
      raise (.timeEvent (.stepHeld (h.target - h.computed - e))) w else w :=
  acceptPulse_renews hh

end

/-- Settles O17: each branch of `takePulse`, `actOnError` and `renewStep` on the state whose MINUTE line has fallen. -/
theorem minutePulseDisciplines : Obligations.MinutePulseDisciplines := by
  refine ⟨fun c => ⟨pulseError_below, pulseError_above⟩, fun s h => ?_⟩
  refine ⟨fun hd => ?_, fun hd p hp he => ?_, fun hd hp => ?_⟩
  · exact minutePulse_taken h (takePulse_off (s := minuteCaught s) hd)
  · exact minutePulse_taken h (takePulse_early (s := minuteCaught s) hd hp he)
  · have accepted := takePulse_accepted (s := minuteCaught s) hd hp
    refine ⟨fun hh hs => ?_, fun hh hs hi => ?_, fun hh hs hi => ?_, fun w hh => ?_⟩
    · exact minutePulse_taken h (accepted.trans (acceptPulse_slews (s := minuteCaught s) hh hs))
    · exact minutePulse_taken h (accepted.trans (acceptPulse_steps (s := minuteCaught s) hh hs hi))
    · exact minutePulse_taken h (accepted.trans (acceptPulse_holds (s := minuteCaught s) hd hh hs hi))
    · exact minutePulse_taken h (accepted.trans (acceptPulse_renewed (s := minuteCaught s) hh))

end Sys2Proof.Machine
end

