-- ==== Sys2Proof/Proofs/Inputs.lean ====
section
/-! PROOF. CAPTURE-SET, CAPTURE-GET, the edges of the general inputs, captures, windows and sampling (R154 to R165). -/
namespace Sys2Proof.Machine

/-! ## CAPTURE-SET and CAPTURE-GET (R163, R164) -/

section
variable {s : State} {unit : Nat} {args : CaptureArgs}

/-- A request of the inputs is carried out once start-up step 4 has ended (R181). -/
theorem gated_inputs {k : Byte} {f : State → State} (hk : gateStep k = 4) (h : 4 ≤ s.hlc.step) :
    (Host.Outcome.next (gated k f s) : Host.Outcome State Fault Refusal) = .next (f s) :=
  congrArg _ (gated_at hk h)

theorem captureSet_eq (h : 4 ≤ s.hlc.step) : exec (.captureSet unit args) s = .next (
    match toFin 4 unit, captureOf args with
    | some u, some r => if (s.unit u).ofRun then reply 0x6B#8 .inUse .none s else reply 0x6B#8 .ok .none (s.setUnit u r)
    | _, _ => reply 0x6B#8 .badValue .none s) := gated_inputs (by decide) h

/-- A unit out of range, or a value that makes none, is BAD_VALUE. -/
theorem captureSet_badValue (h : 4 ≤ s.hlc.step) (hb : toFin 4 unit = none ∨ captureOf args = none) :
    exec (.captureSet unit args) s = .next (reply 0x6B#8 .badValue .none s) := by
  rw [captureSet_eq h]
  rcases hb with hb | hb
  · rw [hb]
  · rw [hb]; cases toFin 4 unit <;> rfl

/-- The values out of range (R163). -/
theorem captureOf_outOfRange (h : (∃ k, args = .other k) ∨
    ∃ i rise fall, args = .host i rise fall ∧ (16 ≤ i ∨ (∃ k, rise = .other k) ∨ ∃ k, fall = .other k)) :
    captureOf args = none := by
  rcases h with ⟨k, rfl⟩ | ⟨i, rise, fall, rfl, hi | ⟨k, rfl⟩ | ⟨k, rfl⟩⟩
  · rfl
  · simp [captureOf, toFin_ge hi]
  · cases h : toFin 16 i <;> simp [captureOf, h]
  · cases h : toFin 16 i <;> cases rise <;> simp [captureOf, h]

theorem captureOf_host (i : GInput) (rise fall : CapMode) : captureOf (.host i.val (.val rise) (.val fall)) =
    some { CapRec.free with owner := .host, input := i, riseMode := rise, fallMode := fall } := by
  simp [captureOf, toFin_val]

theorem ofRun_iff (r : CapRec) : r.ofRun = true ↔ ∃ l cue, r.owner = .run l cue := by
  unfold CapRec.ofRun
  cases r.owner <;> simp

/-- A unit that a run owns is IN_USE. -/
theorem captureSet_inUse (h : 4 ≤ s.hlc.step) {u : CapUnit} {r : CapRec} {l : Lane} {cue : Nat}
    (hr : captureOf args = some r) (ho : (s.unit u).owner = .run l cue) :
    exec (.captureSet u.val args) s = .next (reply 0x6B#8 .inUse .none s) := by
  rw [captureSet_eq h, toFin_val, hr]
  exact congrArg _ (if_pos ((ofRun_iff _).2 ⟨l, cue, ho⟩))

/-- Any other unit takes the record (R163). -/
theorem captureSet_sets (h : 4 ≤ s.hlc.step) {u : CapUnit} {r : CapRec} (hr : captureOf args = some r)
    (ho : ∀ l cue, (s.unit u).owner ≠ .run l cue) :
    exec (.captureSet u.val args) s = .next (reply 0x6B#8 .ok .none (s.setUnit u r)) := by
  rw [captureSet_eq h, toFin_val, hr]
  exact congrArg _ (if_neg fun hu => by obtain ⟨l, cue, hl⟩ := (ofRun_iff _).1 hu; exact ho l cue hl)

theorem captureGet_badValue {edges : Coded EdgeSel} (h : 4 ≤ s.hlc.step) (hb : 4 ≤ unit ∨ ∃ k, edges = .other k) :
    exec (.captureGet unit edges) s = .next (reply 0x6C#8 .badValue .none s) := by
  refine (gated_inputs (by decide) h).trans (congrArg _ ?_)
  rcases hb with hb | ⟨k, rfl⟩
  · simp only [toFin_ge hb]
  · cases toFin 4 unit <;> rfl

theorem readsRise_eq (e : EdgeSel) : readsRise e = decide (e ≠ .fall) := by cases e <;> rfl
theorem readsFall_eq (e : EdgeSel) : readsFall e = decide (e ≠ .rise) := by cases e <;> rfl

theorem captureGet_reads {u : CapUnit} {e : EdgeSel} (h : 4 ≤ s.hlc.step) :
    exec (.captureGet u.val (.val e)) s = .next (reply 0x6C#8 .ok
      (.captureGet (s.unit u).owner (s.unit u).input (s.unit u).riseMode (s.unit u).fallMode
        (if readsRise e then some ((s.unit u).riseFlag, (s.unit u).riseCap) else none)
        (if readsFall e then some ((s.unit u).fallFlag, (s.unit u).fallCap) else none) (s.unit u).window)
      (s.setUnit u ((s.unit u).clearRead e))) := by
  refine (gated_inputs (by decide) h).trans (congrArg _ ?_)
  simp only [toFin_val]

end

/-! ## Captures (R162) -/

theorem vector_set_get_self {α : Type} {n : Nat} (v : Vector α n) (i : Fin n) : v.set i (v.get i) = v := by
  simp [Vector.get_eq_getElem]

theorem setUnit_unit (u : CapUnit) (s : State) : s.setUnit u (s.unit u) = s := by
  unfold State.setUnit State.unit
  rw [vector_set_get_self]

/-- The edge is recorded: in CONTINUOUS mode always, in SINGLE mode while the flag is clear (R162). -/
theorem captureKind_records {mode : CapMode} {flag : Bool} {cap : Option Int} {now : Int}
    (h : mode = .continuous ∨ (mode = .single ∧ flag = false)) :
    captureKind mode flag cap now = (true, some now, true) := by
  rcases h with rfl | ⟨rfl, rfl⟩ <;> rfl

theorem captureKind_ignores {mode : CapMode} {flag : Bool} {cap : Option Int} {now : Int}
    (h : ¬(mode = .continuous ∨ (mode = .single ∧ flag = false))) :
    captureKind mode flag cap now = (flag, cap, false) := by
  cases mode <;> cases flag <;> simp_all [captureKind]

/-- The mode of a unit for a kind of edge (R162). -/
def CapRec.mode (r : CapRec) : Edge → CapMode
  | .rise => r.riseMode
  | .fall => r.fallMode

/-- The flag of a unit for a kind of edge (R162). -/
def CapRec.flag (r : CapRec) : Edge → Bool
  | .rise => r.riseFlag
  | .fall => r.fallFlag

/-- The capture of a unit for a kind of edge (R162). -/
def CapRec.cap (r : CapRec) : Edge → Option Int
  | .rise => r.riseCap
  | .fall => r.fallCap

/-- A unit with a flag and a capture for a kind of edge (R162). -/
def CapRec.withCap (r : CapRec) (flag : Bool) (cap : Option Int) : Edge → CapRec
  | .rise => { r with riseFlag := flag, riseCap := cap }
  | .fall => { r with fallFlag := flag, fallCap := cap }

theorem CapRec.withCap_self (r : CapRec) (e : Edge) : r.withCap (r.flag e) (r.cap e) e = r := by cases e <;> rfl

/-- Whether a unit records an edge of a kind (R162). -/
def CapRec.records (r : CapRec) (e : Edge) : Prop := r.mode e = .continuous ∨ (r.mode e = .single ∧ r.flag e = false)

theorem captureEdge_eq (u : CapUnit) (e : Edge) (s : State) :
    let r := s.unit u
    let k := captureKind (r.mode e) (r.flag e) (r.cap e) s.tb.showTime
    let v := s.setUnit u (r.withCap k.1 k.2.1 e)
    captureEdge u e s = if k.2.2 && r.owner == .host then raise (.capture u e s.tb.showTime) v else v := by
  cases e <;> rfl

theorem captureEdge_ignores {u : CapUnit} {e : Edge} {s : State} (h : ¬(s.unit u).records e) :
    captureEdge u e s = s := by
  rw [captureEdge_eq, captureKind_ignores h]
  exact (congrArg _ ((s.unit u).withCap_self e)).trans (setUnit_unit u s)

/-- A recorded edge raises CAPTURE at a unit of the host's (R162). -/
theorem captureEdge_records {u : CapUnit} {e : Edge} {s : State} (h : (s.unit u).records e) :
    let v := s.setUnit u ((s.unit u).withCap true (some s.tb.showTime) e)
    captureEdge u e s = if (s.unit u).owner = .host then raise (.capture u e s.tb.showTime) v else v := by
  rw [captureEdge_eq, captureKind_records h]
  simp only [Bool.true_and, beq_iff_eq]

/-! ## The edges of the general inputs (R155, R157) -/

theorem pick_allOnes {w : Nat} (new old : BitVec w) : pick (BitVec.allOnes w) new old = new := by
  simp [pick]

/-- The bank of the general inputs takes the levels of the sample. -/
def generalTaken (levels : BitVec 16) (s : State) : State :=
  { s with inm.general := s.inm.general.put s.inm.filterOn (BitVec.allOnes 16) levels }

/-- The captures act on the edges of a sample (R155). -/
def captureEdges (levels changed : BitVec 16) (s : State) : State :=
  (List.finRange 4).foldl (fun t c =>
    if changed.getLsbD (t.unit c).input.val then
      captureEdge c (if levels.getLsbD (t.unit c).input.val then .rise else .fall) t else t) s

/-- The groups that select a changed input are evaluated (R157). -/
def evalGuards (changed : BitVec 16) (s : State) : State :=
  (List.finRange 4).foldl (fun t g => if (t.group g).defn.selection &&& changed ≠ 0 then evalGuard g t else t) s

theorem generalTaken_level (levels : BitVec 16) (s : State) :
    (generalTaken levels s).inm.general.level = levels := pick_allOnes ..

theorem captureEdges_inner (levels changed : BitVec 16) (s : State) : Inner s (captureEdges levels changed s) :=
  inner_foldl (fun t c ht => by split; exacts [captureEdge_inner _ _ ht, ht]) (.refl s)

/-- At the first sample after a reset nothing acts; before start-up step 4 the captures alone do (R153, R166). -/
theorem generalEdges_eq (levels : BitVec 16) (s : State) :
    let changed := s.inm.general.level ^^^ levels
    let v := captureEdges levels changed (generalTaken levels s)
    generalEdges levels s =
      if s.inm.fresh = true then generalTaken levels s else if v.hlc.step < 4 then v else evalGuards changed v := rfl

theorem generalEdges_step (levels : BitVec 16) (s : State) : (generalEdges levels s).hlc.step = s.hlc.step :=
  (generalEdges_inner levels (.refl s)).step

theorem captured_step (levels changed : BitVec 16) (s : State) :
    (captureEdges levels changed (generalTaken levels s)).hlc.step = s.hlc.step :=
  (captureEdges_inner ..).step

/-! ## Windows and units (R165) -/

/-- The capture a RUN-owned unit is judged by: that of its rise when it watches for one, else that of its fall. -/
theorem markCapture_rise {r : CapRec} (h : r.riseMode = .single) :
    (r.riseFlag = true → r.markCapture = r.riseCap) ∧ (r.riseFlag = false → r.markCapture = none) := by
  unfold CapRec.markCapture
  rw [if_pos h]
  exact ⟨fun hf => if_pos hf, fun hf => if_neg (by simp [hf])⟩

theorem markCapture_fall {r : CapRec} (h : r.riseMode ≠ .single) :
    (r.fallFlag = true → r.markCapture = r.fallCap) ∧ (r.fallFlag = false → r.markCapture = none) := by
  unfold CapRec.markCapture
  rw [if_neg h]
  exact ⟨fun hf => if_pos hf, fun hf => if_neg (by simp [hf])⟩

/-- An edge up to the close is on time, and so is one of the millisecond in which slewing passes the close over (R8). -/
theorem le_closeDue {w : CapWindow} {b : TB} {t : Int}
    (h : t ≤ w.closes ∨ (b.jumped = true ∧ b.showTime = w.closes + 1 ∧ t = b.showTime)) : t ≤ w.closeDue b := by
  unfold CapWindow.closeDue
  rcases h with h | ⟨hj, hs, rfl⟩
  · split <;> omega
  · rw [if_pos ⟨hj, hs⟩]

section
variable {r : CapRec} {w : CapWindow} {due : Int} {v : Fin 3} {t : Int}

theorem judge_missed (h : r.markCapture = none) : judge r w due v = .missed := by
  unfold judge; rw [h]

theorem judge_early (h : r.markCapture = some t) (ht : t < w.opens) : judge r w due v = .early := by
  unfold judge; rw [h]; exact if_pos ht

theorem judge_onTime (h : r.markCapture = some t) (ht : w.opens ≤ t) (hd : t ≤ due) : judge r w due v = .onTime := by
  unfold judge; rw [h]; exact (if_neg (by omega)).trans (if_pos hd)

end

section
variable {s : State} {u : CapUnit} {l : Lane} {cue : Nat} {w : CapWindow}

/-- The unit a judgement leaves FREE, a free value being used (R165; log entry 7). -/
def unitJudged (u : CapUnit) (s : State) : State := { s.setUnit u .free with free := s.free + 1 }

/-- What a window's close does by its verdict (R165). -/
def verdictTold (l : Lane) (cue : Nat) (v : MarkVerdict) (s : State) : State :=
  match v with
  | .early => cueFault l .markEarly cue none none s
  | .missed => cueFault l .markMissed cue none none s
  | .onTime => s

theorem closeWindow_judges (ho : (s.unit u).owner = .run l cue) (hw : (s.unit u).window = some w) :
    closeWindow u s = verdictTold l cue
      (judge (s.unit u) w (w.closeDue s.tb) (Config.lateMarkVerdict s.free)) (unitJudged u s) := by
  cases hv : judge (s.unit u) w (w.closeDue s.tb) (Config.lateMarkVerdict s.free) <;>
    simp only [closeWindow, ho, hw, hv] <;> rfl

/-- A window closes once show time has reached its close, while no hold suspends it (R165). -/
theorem captureWindowClose_due (ho : (s.unit u).owner = .run l cue) (hw : (s.unit u).window = some w)
    (hs : w.suspended = false) (hc : w.closes ≤ s.tb.showTime) {v : MarkVerdict}
    (hv : judge (s.unit u) w (w.closeDue s.tb) (Config.lateMarkVerdict s.free) = v) :
    exec (.captureWindowClose u) s = .next (settle (verdictTold l cue v (unitJudged u s))) := by
  have due : windowDue u s = true := by simp [windowDue, ho, hw, hs, hc]
  subst hv
  rw [← closeWindow_judges ho hw]
  exact congrArg _ (whenDue_true due)

end

theorem autoResume_due {s : State} {g : Group} {t : Nat} (h : (s.group g).settleEnd = some t) (ht : t ≤ s.tb.elapsed) :
    exec (.autoResume g) s = .next (settle (autoResume g s)) := by
  have due : resumeDue g s = true := by simp [resumeDue, h, ht]
  exact congrArg _ (whenDue_true due)

/-- A `find?` over all indices gives the lowest that satisfies the condition. -/
theorem find_finRange_eq {n : Nat} {p : Fin n → Bool} {i : Fin n} (hi : p i = true) (hl : ∀ j, j < i → p j = false) :
    (List.finRange n).find? p = some i := by
  refine List.find?_eq_some_iff_getElem.2 ⟨hi, i.val, by simp, by simp, fun j hj => ?_⟩
  simpa using hl ⟨j, by omega⟩ hj

theorem claimUnit_takes {l : Lane} {cue : Nat} {i : GInput} {e : Edge} {opens closes : Int} {s : State} {u : CapUnit}
    (hu : (s.unit u).owner = .free) (hl : ∀ v, v < u → (s.unit v).owner ≠ .free) :
    claimUnit l cue i e opens closes s = s.setUnit u (markUnit l cue i e opens closes) := by
  have lowest : allUnits.find? (fun u => (s.unit u).owner == .free) = some u :=
    find_finRange_eq (by simp [hu]) fun v hv => by simpa using hl v hv
  unfold claimUnit; rw [lowest]

theorem claimUnit_refused {l : Lane} {cue : Nat} {i : GInput} {e : Edge} {opens closes : Int} {s : State}
    (hn : ∀ u, (s.unit u).owner ≠ .free) :
    claimUnit l cue i e opens closes s = cueFault l .noCapture cue none none s := by
  have noFree : allUnits.find? (fun u => (s.unit u).owner == .free) = none :=
    List.find?_eq_none.2 fun u _ => by simpa using hn u
  unfold claimUnit; rw [noFree]

/-! ## Sampling (R154) -/

/-- A filtered input follows two of its three samples, an unfiltered one the latest. -/
theorem filtered_getLsbD {w : Nat} (on : BitVec w) (k : Bank w) {i : Nat} (hi : i < w) :
    (k.filtered on).getLsbD i = if on.getLsbD i then
      (k.s1.getLsbD i && k.s2.getLsbD i) || (k.s1.getLsbD i && k.s3.getLsbD i) || (k.s2.getLsbD i && k.s3.getLsbD i)
      else k.s1.getLsbD i := by
  simp only [Bank.filtered, median, BitVec.getLsbD_or, BitVec.getLsbD_and, BitVec.getLsbD_not, hi]
  cases on.getLsbD i <;> simp

theorem sampleInputs_first {s : State} (h : s.inm.fresh = true) :
    (sampleInputs s).inm = { s.inm with
      filterOn := s.hlc.live.inputFilter, fresh := false, general := s.inm.general.fill, echo := s.inm.echo.fill
      limits := s.inm.limits.fill, misc := s.inm.misc.fill } := by
  unfold sampleInputs; simp only [h, if_true]

theorem sampleInputs_later {s : State} (h : s.inm.fresh = false) : ∃ fallen,
    (sampleInputs s).inm = { s.inm with
      filterOn := s.hlc.live.inputFilter, general := s.inm.general.sample, echo := s.inm.echo.sample
      limits := s.inm.limits.sample, misc := { s.inm.misc.sample with level := fallen } } := by
  unfold sampleInputs; simp only [h]; exact ⟨_, rfl⟩

/-- A sample is taken under the filter set then in force, and the next one is no longer the first (R154). -/
theorem sampleInputs_taken (s : State) :
    (sampleInputs s).inm.filterOn = s.hlc.live.inputFilter ∧ (sampleInputs s).inm.fresh = false := by
  cases h : s.inm.fresh with
  | true => rw [sampleInputs_first h]; exact ⟨rfl, rfl⟩
  | false => obtain ⟨fallen, hi⟩ := sampleInputs_later h; rw [hi]; exact ⟨rfl, h⟩

/-- A general input whose filtered level has changed makes an edge due. -/
theorem edgeDue_of_general {s : State} (h : s.inm.general.filtered s.inm.filterOn ≠ s.inm.general.level) :
    edgeDue s ≠ none := by
  unfold edgeDue
  simp [onlyIf, h]

/-- Settles O53: the requests, the edges, captures, auto-resume and windows, the claiming of a unit, and sampling. -/
theorem capturesAndInputEvents : Obligations.CapturesAndInputEvents := by
  refine ⟨fun s h => ⟨fun unit args hb => ?setBadValue, fun u l cue i rise fall ho => ?setInUse,
      fun u i rise fall ho => ?sets, fun unit edges hb => captureGet_badValue h hb, fun u edges => ?getReads⟩,
    fun s => ⟨fun levels => ⟨generalTaken_level levels s, ?firstSample, ?capturesAlone, ?capturesThenGroups,
        generalEdges_step levels s⟩,
      fun c e => ⟨?ignores, ?records⟩, fun g t ht hle => autoResume_due ht hle,
      fun u l cue w ho hw hs hc => ⟨fun hm => ?missed, fun t hm ht => ?early, fun t hm ht hd => ?onTime⟩⟩,
    fun r => ⟨markCapture_rise, markCapture_fall⟩,
    fun l cue i e opens closes s => ⟨fun u => claimUnit_takes, claimUnit_refused⟩,
    fun w on k i => filtered_getLsbD on k,
    fun s => ⟨?filterInForce, ?notFresh, fun hf => ?fills, fun hf => ?shifts, edgeDue_of_general⟩⟩
  case setBadValue =>
    rcases hb with hb | hb
    · exact captureSet_badValue h (.inl (toFin_ge hb))
    · exact captureSet_badValue h (.inr (captureOf_outOfRange hb))
  case setInUse => exact ⟨captureSet_inUse h rfl ho, captureSet_inUse h (captureOf_host i rise fall) ho⟩
  case sets =>
    exact ⟨captureSet_sets h rfl ho, rfl, captureSet_sets h (captureOf_host i rise fall) ho⟩
  case getReads =>
    simp only [captureGet_reads h, CapRec.clearRead, readsRise_eq, readsFall_eq]
    rfl
  case firstSample =>
    intro hf
    exact congrArg (fun t => Host.Outcome.next (settle t)) ((generalEdges_eq levels s).trans (if_pos hf))
  case capturesAlone =>
    intro hf hs
    refine congrArg (fun t => Host.Outcome.next (settle t)) ((generalEdges_eq levels s).trans ?_)
    rw [if_neg (by simp [hf]), if_pos (by rwa [captured_step])]
    rfl
  case capturesThenGroups =>
    intro hf hs
    refine congrArg (fun t => Host.Outcome.next (settle t)) ((generalEdges_eq levels s).trans ?_)
    rw [if_neg (by simp [hf]), if_neg (by rw [captured_step]; omega)]
    rfl
  case ignores => intro h; exact captureEdge_ignores (by cases e <;> exact h)
  case records =>
    intro h
    refine (captureEdge_records (by cases e <;> exact h)).trans ?_
    cases e <;> rfl
  case missed => exact captureWindowClose_due (v := .missed) ho hw hs hc (judge_missed hm)
  case early => exact captureWindowClose_due (v := .early) ho hw hs hc (judge_early hm ht)
  case onTime => exact captureWindowClose_due (v := .onTime) ho hw hs hc (judge_onTime hm ht (le_closeDue hd))
  case filterInForce => exact (sampleInputs_taken s).1
  case notFresh => exact (sampleInputs_taken s).2
  case fills => rw [sampleInputs_first hf]; exact ⟨rfl, rfl, rfl, rfl⟩
  case shifts =>
    obtain ⟨fallen, hi⟩ := sampleInputs_later hf
    rw [hi]; exact ⟨rfl, rfl, rfl, rfl⟩

end Sys2Proof.Machine
end

