-- ==== Sys2Proof/Proofs/Settling.lean ====
section
/-! PROOF. What follows from an event in the same step: the order in which settling takes things, the work on the
entries, the ends of runs, the next request, arrivals and cue faults (R22, R59 to R63, R70, R71, R79). -/
namespace Sys2Proof.Machine

/-! ## One turn of settling -/

section
variable {n : Nat} {g : Agenda} {s : State}

theorem settleLoop_laneM {a : LaneAct} (h : laneAct .M (stageCheck s) = some a) :
    settleLoop (n + 1) g s = settleLoop n (doLane .M a g (stageCheck s)).2 (doLane .M a g (stageCheck s)).1 := by
  rw [settleLoop]; simp only [h]

theorem settleLoop_laneC {a : LaneAct} (hM : laneAct .M (stageCheck s) = none)
    (h : laneAct .C (stageCheck s) = some a) :
    settleLoop (n + 1) g s = settleLoop n (doLane .C a g (stageCheck s)).2 (doLane .C a g (stageCheck s)).1 := by
  rw [settleLoop]; simp only [hM, h]

/-- Neither lane's run does anything by itself. -/
def lanesRest (s : State) : Prop := laneAct .M s = none ∧ laneAct .C s = none

theorem settleLoop_done (h : lanesRest (stageCheck s)) (hl : g.looks = []) (hn : handNext (stageCheck s) = none) :
    settleLoop (n + 1) g s = stageCheck s := by
  rw [settleLoop]; simp only [h.1, h.2, hl, hn]

theorem settleLoop_hands {t : State} (h : lanesRest (stageCheck s)) (hl : g.looks = [] ∨ g.handFirst = true)
    (hn : handNext (stageCheck s) = some t) : settleLoop (n + 1) g s = settleLoop n g t := by
  rw [settleLoop]; simp only [h.1, h.2, hn]
  cases hg : g.looks with
  | nil => rfl
  | cons l ls => exact if_pos (hl.resolve_left (by simp [hg]))

theorem settleLoop_looks {t : State} {l : Lane} {ls : List Lane} (h : lanesRest (stageCheck s))
    (hl : g.looks = l :: ls) (hf : g.handFirst = false) (hn : handNext (stageCheck s) = some t) :
    settleLoop (n + 1) g s = settleLoop n { g with looks := ls } (lookNext l (stageCheck s)) := by
  rw [settleLoop]; simp only [h.1, h.2, hn, hl, hf]; rfl

theorem settleLoop_looksAlone {l : Lane} {ls : List Lane} (h : lanesRest (stageCheck s))
    (hl : g.looks = l :: ls) (hn : handNext (stageCheck s) = none) :
    settleLoop (n + 1) g s = settleLoop n { looks := ls, handFirst := false } (lookNext l (stageCheck s)) := by
  rw [settleLoop]; simp only [h.1, h.2, hn, hl]

/-! ## What the Scheduler does next (R22, R36) -/

theorem seqUp_iff : seqUp s = true ↔ 6 ≤ s.hlc.step := by simp [seqUp]

theorem handNext_request {q : ShowReq} {qs : List ShowReq} (h : s.sch.held = q :: qs) (hs : 6 ≤ s.hlc.step) :
    handNext s = some (arrive q { s with sch.held := qs }) := by
  unfold handNext; rw [h, seqUp_iff.2 hs]

theorem handNext_task {t : Task} {ts : List Task} (h : s.sch.held = [] ∨ s.hlc.step < 6) (hw : s.sch.work = t :: ts) :
    handNext s = some (doTask t { s with sch.work := ts }) := by
  unfold handNext; rw [hw]
  rcases h with h | h
  · rw [h]
  · rw [show seqUp s = false by simp [seqUp, h]]
    cases s.sch.held <;> rfl

theorem handNext_none (h : s.sch.held = [] ∨ s.hlc.step < 6) (hw : s.sch.work = []) : handNext s = none := by
  unfold handNext; rw [hw]
  rcases h with h | h
  · rw [h]
  · rw [show seqUp s = false by simp [seqUp, h]]
    cases s.sch.held <;> rfl

end

/-! ## Work on an entry (R22, R24) -/

section
variable {r : TrigRec} {upTo : Int} {i : Trig} {s : State}

theorem followsBy_iff : r.followsBy upTo = true ↔ ∃ f, r.followOn = some f ∧ f.due ≤ upTo := by
  unfold TrigRec.followsBy; cases r.followOn <;> simp

theorem firesBy_iff : r.firesBy upTo = true ↔ r.state = .armed ∧ ∃ t, r.next = some t ∧ t ≤ upTo := by
  unfold TrigRec.firesBy; cases r.next <;> simp

/-- The task to take what an instant had reached of an entry stands again behind what it takes (R22). -/
def dueAgain (i : Trig) (upTo : Int) (s : State) : State := { s with sch.work := .due i upTo :: s.sch.work }

theorem due_followOn {f : FollowOn} (hf : (s.trig i).followOn = some f) (hd : f.due ≤ upTo) :
    doTask (.due i upTo) s =
      (handOver i f.target f.due (dueAgain i upTo s)).mapTrig i fun r => { r with followOn := none } := by
  have follows : (s.trig i).followsBy upTo = true := followsBy_iff.2 ⟨f, hf, hd⟩
  have taken : fireFollowOn i (dueAgain i upTo s) =
      (handOver i f.target f.due (dueAgain i upTo s)).mapTrig i fun r => { r with followOn := none } := by
    unfold fireFollowOn; rw [show ((dueAgain i upTo s).trig i).followOn = some f from hf]
  exact (if_pos follows).trans taken

theorem not_followsBy (h : ∀ f, r.followOn = some f → upTo < f.due) : ¬r.followsBy upTo = true := by
  rw [followsBy_iff]; rintro ⟨f, hf, hd⟩; exact absurd (h f hf) (by omega)

theorem due_fire (hf : ∀ f, (s.trig i).followOn = some f → upTo < f.due) {t : Int} (hn : (s.trig i).next = some t)
    (ha : (s.trig i).state = .armed) (ht : t ≤ upTo) : doTask (.due i upTo) s = fire i t (dueAgain i upTo s) := by
  have fires : (s.trig i).firesBy upTo = true := firesBy_iff.2 ⟨ha, t, hn, ht⟩
  have taken : fireNext i (dueAgain i upTo s) = fire i t (dueAgain i upTo s) := by
    unfold fireNext; rw [show ((dueAgain i upTo s).trig i).next = some t from hn]
  exact (if_neg (not_followsBy hf)).trans ((if_pos fires).trans taken)

theorem due_nothing (hf : ∀ f, (s.trig i).followOn = some f → upTo < f.due)
    (hn : ∀ t, (s.trig i).next = some t → (s.trig i).state = .armed → upTo < t) : doTask (.due i upTo) s = s := by
  have noFire : ¬(s.trig i).firesBy upTo = true := by
    rw [firesBy_iff]; rintro ⟨ha, t, ht, hle⟩; exact absurd (hn t ht ha) (by omega)
  exact (if_neg (not_followsBy hf)).trans (if_neg noFire)

end

/-! ## What a lane's run does by itself (R70, R71, R79) -/

/-- A HALT on the run's behalf is under way (R79). -/
theorem haltWaits_iff (s : State) : haltWaits s = true ↔ ∃ t ∈ heldTxns s, ∃ g fs, t.owner = .halt true g fs := by
  unfold haltWaits
  rw [List.any_eq_true]
  refine exists_congr fun t => and_congr_right fun _ => ?_
  cases t.owner <;> simp

theorem bellWork_iff (l : Lane) (s : State) : bellWork l s = true ↔
    (∃ k ∈ s.bell.strikes, k.origin.lane? = some l) ∨
      ∃ b ∈ s.bell.bells.toList, ∃ k ∈ b.strokes, k.lane = some l ∧ k.done = false := by
  simp only [bellWork, Bool.or_eq_true, List.any_eq_true, Bool.and_eq_true, beq_iff_eq, Bool.not_eq_true']

theorem stageWork_iff (s : State) : stageWork s = true ↔
    (∃ f, (s.fig f).ofRun = true ∧ ((s.fig f).inStaging = true ∨ (s.fig f).state = .moving)) ∨
      (∃ d c, (s.door d).cmd = some c ∧ c.owner ≠ .host) ∨ ∃ c, s.stg.turn.cmd = some c ∧ c.owner ≠ .host := by
  unfold stageWork
  rw [Bool.or_eq_true, Bool.or_eq_true, List.any_eq_true, List.any_eq_true, or_assoc]
  simp only [List.mem_finRange, allFigs, true_and]
  refine or_congr (exists_congr fun f => ?_) (or_congr (exists_congr fun d => ?_) ?_)
  · simp
  · cases (s.door d).cmd <;> simp
  · cases s.stg.turn.cmd <;> simp

theorem captureClaims_iff (l : Lane) (s : State) :
    (captureClaims l s).isEmpty = false ↔ ∃ u, (s.unit u).ofLane l = true := by
  simp [captureClaims, allUnits]

/-- Something the run started is still counted (R70). -/
def counted (l : Lane) (r : Run) (s : State) : Prop :=
  (∃ k ∈ s.bell.strikes, k.origin.lane? = some l) ∨
  (∃ b ∈ s.bell.bells.toList, ∃ k ∈ b.strokes, k.lane = some l ∧ k.done = false) ∨
  (l = .M ∧ ((∃ f, (s.fig f).ofRun = true ∧ ((s.fig f).inStaging = true ∨ (s.fig f).state = .moving)) ∨
    (∃ d c, (s.door d).cmd = some c ∧ c.owner ≠ .host) ∨ ∃ c, s.stg.turn.cmd = some c ∧ c.owner ≠ .host)) ∨
  (∃ u, (s.unit u).ofLane l = true) ∨ ∃ c ∈ r.cues, c.issued = false

theorem workLeft_iff (l : Lane) (r : Run) (s : State) : workLeft l r s = true ↔ counted l r s := by
  have claims := captureClaims_iff l s
  simp only [workLeft, counted, Bool.or_eq_true, Bool.and_eq_true, bellWork_iff, stageWork_iff, beq_iff_eq,
    Bool.not_eq_true', claims, List.any_eq_true, or_assoc]

section
variable {l : Lane} {s : State} {r : Run}

theorem laneAct_idle (h : s.run l = none) : laneAct l s = none := by unfold laneAct; rw [h]

theorem laneAct_abort (h : s.run l = some r) (ha : r.abortAsked = true) (hs : r.state ≠ .aborting) :
    laneAct l s = some .abort := by
  unfold laneAct; rw [h]; exact if_pos (by simp [ha, hs])

theorem laneAct_halts (h : s.run l = some r) (hs : r.state = .aborting) (hw : l = .M ∧ haltWaits s = true) :
    laneAct l s = none := by
  unfold laneAct; simp only [h, hs]
  exact (if_neg (by simp)).trans (if_pos hw)

theorem laneAct_aborted (h : s.run l = some r) (hs : r.state = .aborting) (hw : ¬(l = .M ∧ haltWaits s = true)) :
    laneAct l s = some (.ends (.aborted (r.abortReason.getD .hostStop))) := by
  unfold laneAct; simp only [h, hs]
  exact (if_neg (by simp)).trans (if_neg hw)

theorem laneAct_works (h : s.run l = some r) (ha : r.abortAsked = false) (hs : r.state = .ending)
    (hw : workLeft l r s = true) : laneAct l s = none := by
  unfold laneAct; simp [h, ha, hs, hw]

theorem laneAct_ended (h : s.run l = some r) (ha : r.abortAsked = false) (hs : r.state = .ending)
    (hw : ¬workLeft l r s = true) :
    laneAct l s = some (.ends (if r.faults = 0 then .completed else .completedWithFaults)) := by
  unfold laneAct; simp [h, ha, hs, hw]

theorem laneAct_goesOn (h : s.run l = some r) (ha : r.abortAsked = false)
    (hs : r.state = .loading ∨ r.state = .running ∨ r.state = .holding) : laneAct l s = none := by
  unfold laneAct
  rcases hs with hs | hs | hs <;> simp [h, ha, hs]

end

end Sys2Proof.Machine
end

