-- ==== Sys2Proof/Proofs/RunEnds.lean ====
section
/-! PROOF. The end of a run, the next request of a lane, arrivals and cue faults (R11, R59 to R63, R70, R71). -/
namespace Sys2Proof.Machine

section
variable {l : Lane} {g : Agenda} {r : Run} {o : RunOutcome} {s : State}

/-! ## The end of a run (R70, R79) -/

theorem doLane_ends (h : s.run l = some r) : doLane l (.ends o) g s = afterEnd l g (endRun l r o s) := by
  unfold doLane; simp only [h]

/-- The last result of a run (R70). -/
def lastResult (r : Run) (o : RunOutcome) (s : State) : LastResult :=
  { subject := r.subject, origin := r.origin, start := r.start, ended := s.tb.showTime, outcome := o
    faults := r.faults, firstFault := r.firstFault }

/-- The lane IDLE, with the run's last result (R70). -/
def laneEnded (l : Lane) (r : Run) (o : RunOutcome) (s : State) : State :=
  s.setLane l { s.lane l with run := none, last := some (lastResult r o s) }

theorem endRun_pinned {n : Nat} (hs : r.subject = .script n) (hp : r.pinned = true) :
    endRun l r o s = raise (endCause l o) (forgetWork l (dropPin ⟨.script, n⟩ (laneEnded l r o s))) := by
  unfold endRun; simp only [hs, hp]; simp only [laneEnded, lastResult, hs]

theorem endRun_unpinned (h : r.pinned = false ∨ ∃ n, r.subject = .count n) :
    endRun l r o s = raise (endCause l o) (forgetWork l (laneEnded l r o s)) := by
  unfold endRun
  rcases h with hp | ⟨n, hs⟩
  · cases hs : r.subject <;> simp only [hp, laneEnded, lastResult, hs]
  · simp only [laneEnded, lastResult, hs]

/-! ## The idle notice and who looks next (R11, R63) -/

theorem bothIdle_iff : s.bothIdle = true ↔ s.run .M = none ∧ s.run .C = none := by
  simp [State.bothIdle, State.laneIdle]

theorem schBusy_iff : schBusy s = true ↔ s.sch.held ≠ [] ∨ s.sch.work ≠ [] := by
  simp [schBusy]

/-- The lanes that look after the end of a run on lane `l`, where `u` is the state after the idle notice. -/
def looksAfter (l : Lane) (g : Agenda) (s u : State) : List Lane :=
  if s.restraint = true ∧ u.restraint = false then [.M, .C] else g.looks ++ [l]

theorem afterEnd_busy (h : s.run .M ≠ none ∨ s.run .C ≠ none) :
    afterEnd l g s = (s, { g with looks := g.looks ++ [l] }) :=
  if_neg (by rw [bothIdle_iff]; tauto)

theorem afterEnd_quiet (hM : s.run .M = none) (hC : s.run .C = none) (hb : ¬schBusy (idleNotice s) = true) :
    afterEnd l g s = (idleNotice s, { g with looks := looksAfter l g s (idleNotice s) }) := by
  refine (if_pos (bothIdle_iff.2 ⟨hM, hC⟩)).trans ((if_neg hb).trans ?_)
  simp only [looksAfter, Bool.and_eq_true, Bool.not_eq_true']

theorem afterEnd_catchUps (hM : s.run .M = none) (hC : s.run .C = none) (hb : schBusy (idleNotice s) = true) :
    afterEnd l g s = ({ idleNotice s with free := (idleNotice s).free + 1 },
      { looks := looksAfter l g s (idleNotice s), handFirst := Config.catchUpsFirst (idleNotice s).free }) := by
  refine (if_pos (bothIdle_iff.2 ⟨hM, hC⟩)).trans ((if_pos hb).trans ?_)
  simp only [looksAfter, Bool.and_eq_true, Bool.not_eq_true']

/-! ## The next request of a lane (R63) -/

theorem laneIdle_iff : s.laneIdle l = true ↔ s.run l = none := by simp [State.laneIdle]

/-- A lane takes a request at once when it is IDLE and no forced step is held (R15, R61). -/
theorem laneOpen_iff : (s.laneIdle l && !s.restraint) = true ↔ s.run l = none ∧ s.restraint = false := by
  simp [laneIdle_iff]

theorem lookNext_shut (h : s.run l ≠ none ∨ s.restraint = true) : lookNext l s = s := by
  refine if_pos ?_
  rcases h with h | h <;> simp [State.laneIdle, Option.ne_none_iff_isSome.1, h]

/-- A lane that may take a request looks at its successor first, then at its queue (R63). -/
theorem lookNext_open (h : s.run l = none) (hr : s.restraint = false) :
    lookNext l s = match (s.lane l).successor with
    | some q =>
      if q.stale s.tb.showTime then
        takeHeads l (s.lane l).queue (discard .stale q (s.setLane l { s.lane l with successor := none }))
      else startRun l q (s.setLane l { s.lane l with successor := none })
    | none => takeHeads l (s.lane l).queue s := by
  refine (if_neg (by simp [laneIdle_iff.2 h, hr])).trans ?_
  cases (s.lane l).successor with
  | none => rfl
  | some q => simp only [setLane_tb, lane_setLane_self]

theorem takeHeads_stale {q : ShowReq} {qs : List ShowReq} (h : q.stale s.tb.showTime = true) :
    takeHeads l (q :: qs) s = takeHeads l qs (discard .stale q s) := by rw [takeHeads, if_pos h]

theorem takeHeads_starts {q : ShowReq} {qs : List ShowReq} (h : q.stale s.tb.showTime = false) :
    takeHeads l (q :: qs) s = startRun l q (s.setLane l { s.lane l with queue := qs }) := by
  rw [takeHeads, if_neg (by simp [h])]

theorem stale_iff (q : ShowReq) (now : Int) : q.stale now = true ↔
    q.staleness ≠ 0 ∧ (q.staleness : Int) * 1000 < max 0 (now - q.fireTime) := by
  simp [ShowReq.stale, ShowReq.age]

/-! ## Arrival (R59, R61, R62) -/

theorem placeOf_item {n : Nat} {i : Item} (h : findItem ⟨.script, n⟩ s = some i) :
    placeOf (.script n) s = if i.usable then .on (headerLane i.content) else .storeCheck := by
  unfold placeOf; simp only [h]

theorem placeOf_committing {n : Nat} {c : List Byte} {x : Half} {due : Nat} (h : findItem ⟨.script, n⟩ s = none)
    (ho : s.ps.op = some { what := .commit ⟨.script, n⟩ c x, due := due }) :
    placeOf (.script n) s = .on (headerLane c) := by
  simp [placeOf, h, ho]

theorem placeOf_absent {n : Nat} (h : findItem ⟨.script, n⟩ s = none)
    (ho : ∀ c x due, s.ps.op ≠ some { what := .commit ⟨.script, n⟩ c x, due := due }) :
    placeOf (.script n) s = .noScript := by
  cases hop : s.ps.op with
  | none => simp only [placeOf, h, hop]
  | some x =>
    obtain ⟨what, due⟩ := x
    cases what with
    | commit j c check =>
      have other : j ≠ ⟨.script, n⟩ := fun hj => ho c check due (hj ▸ hop)
      simp only [placeOf, h, hop, if_neg other]
    | erase id => simp only [placeOf, h, hop]
    | eraseAll => simp only [placeOf, h, hop]

theorem arriveAt_stale {q : ShowReq} (h : s.run l = none) (hr : s.restraint = false)
    (hq : q.stale s.tb.showTime = true) : arriveAt l q s = (discard .stale q s, .discarded) :=
  (if_pos (laneOpen_iff.2 ⟨h, hr⟩)).trans (if_pos hq)

theorem arriveAt_starts {q : ShowReq} (h : s.run l = none) (hr : s.restraint = false)
    (hq : q.stale s.tb.showTime = false) : arriveAt l q s = (startRun l q s, .started l) :=
  (if_pos (laneOpen_iff.2 ⟨h, hr⟩)).trans (if_neg (by simp [hq]))

/-- On a busy lane the request's policy decides (R61, R62). -/
theorem arriveAt_busy {q : ShowReq} (h : s.run l ≠ none ∨ s.restraint = true) :
    (q.policy = .queue → arriveAt l q s = queueReq l q s) ∧
    (q.policy = .drop → arriveAt l q s = (discard .laneBusy q s, .discarded)) ∧
    (q.policy = .preempt → arriveAt l q s = if s.laneIdle l then queueReq l q s else preempt l q s) := by
  have shut : ¬(s.laneIdle l && !s.restraint) = true := by rw [laneOpen_iff]; rcases h with h | h <;> simp [h]
  refine ⟨fun hp => ?_, fun hp => ?_, fun hp => ?_⟩ <;>
    exact (if_neg shut).trans (by simp only [hp])

theorem preempt_succeeds {q : ShowReq} (h : s.run l = some r) (hs : r.state = .aborting)
    (hn : (s.lane l).successor = none) :
    preempt l q s = (s.setLane l { s.lane l with successor := some q }, .queued l 0) := by
  unfold preempt; simp [h, hs, hn]

theorem preempt_queues {q : ShowReq} (h : s.run l = some r) (hs : r.state = .aborting)
    (hn : (s.lane l).successor ≠ none) : preempt l q s = queueReq l q s := by
  obtain ⟨p, hp⟩ := Option.ne_none_iff_exists'.1 hn
  unfold preempt; simp [h, hs, hp]

/-- A run that is not aborting yet is aborted, and a successor that already waits is discarded (R62). -/
theorem preempt_aborts {q : ShowReq} (h : s.run l = some r) (hs : r.state ≠ .aborting) :
    let u := abortLane l .preempted false s
    let v := match (u.lane l).successor with | some old => discard .laneBusy old u | none => u
    preempt l q s = (v.setLane l { v.lane l with successor := some q }, .queued l 0) := by
  unfold preempt; rw [h]; exact if_neg hs

theorem discard_eq (why : MissReason) (q : ShowReq) (s : State) : discard why q s =
    raise (.triggerMissed why q.origin (some q.subject) q.fireTime none (firstFlag q.origin s)) s := rfl

/-- The queue holds a request of the same trigger (R61). -/
theorem queueReq_twice {q : ShowReq} (h : q.origin ≠ .host ∧ ∃ p ∈ (s.lane l).queue, p.origin = q.origin) :
    queueReq l q s = (discard .duplicate q s, .discarded) :=
  if_pos ⟨h.1, by simpa using h.2⟩

theorem queueReq_once {q : ShowReq} (h : ¬(q.origin ≠ .host ∧ ∃ p ∈ (s.lane l).queue, p.origin = q.origin)) :
    queueReq l q s =
      if 4 ≤ (s.lane l).queue.length then
        if q.origin = .host then (s, .refusedFull) else (discard .queueFull q s, .discarded)
      else (s.setLane l { s.lane l with queue := (s.lane l).queue ++ [q] }, .queued l ((s.lane l).queue.length + 1)) :=
  if_neg (by simpa using h)

/-! ## Cue faults (R71) -/

theorem setLane_lane (l : Lane) (s : State) : s.setLane l (s.lane l) = s := by cases l <;> rfl

theorem mapRun_idle {f : Run → Run} (h : s.run l = none) : s.mapRun l f = s := by
  have same : { s.lane l with run := (s.lane l).run.map f } = s.lane l := by
    rw [show (s.lane l).run = none from h, Option.map_none, ← h]; rfl
  exact (congrArg (s.setLane l) same).trans (setLane_lane l s)

/-- A fault that reaches an IDLE lane is discarded. -/
theorem cueFault_idle {k : CueFaultKind} {cue : Nat} {fig : Option Fig} {door : Option Door} (h : s.run l = none) :
    cueFault l k cue fig door s = s := mapRun_idle h

theorem cueFault_run {k : CueFaultKind} {cue : Nat} {fig : Option Fig} {door : Option Door} (h : s.run l = some r) :
    cueFault l k cue fig door s = s.setLane l { s.lane l with run := some (faultRun k cue fig door r) } := by
  unfold cueFault State.mapRun
  rw [show (s.lane l).run = some r from h]; rfl

/-- The fault is counted, and the first is remembered (R71). -/
def Run.faultCounted (k : CueFaultKind) (cue : Nat) (r : Run) : Run :=
  { r with faults := satInc r.faults, firstFault := if r.firstFault = none then some (k, cue) else r.firstFault }

/-- Under policy CONTINUE the figure is excluded, or the door or the turntable skipped (R71). -/
def Run.faultCarried (k : CueFaultKind) (fig : Option Fig) (door : Option Door) (r : Run) : Run :=
  match k with
  | .stageRefused | .stageFailed | .moveLate | .arrivalEarly | .arrivalMissed | .figureLost =>
    match fig with
    | some f => { r with excluded := r.excluded ||| (1#12 <<< f.val) }
    | none => r
  | .doorBlocked | .doorStalled =>
    match door with
    | some d => { r with skipDoors := r.skipDoors ||| (1#2 <<< d.val) }
    | none => r
  | .turnBlocked | .turnFault => { r with skipTurn := true }
  | .markEarly | .markMissed | .noCapture => r

theorem faultRun_eq (k : CueFaultKind) (cue : Nat) (fig : Option Fig) (door : Option Door) (r : Run) :
    faultRun k cue fig door r =
      if r.state = .aborting then r.faultCounted k cue
      else if r.abortPolicy then { r.faultCounted k cue with abortAsked := true }
      else (r.faultCounted k cue).faultCarried k fig door := by
  have first : (r.firstFault <|> some (k, cue)) = if r.firstFault = none then some (k, cue) else r.firstFault := by
    cases r.firstFault <;> rfl
  unfold faultRun Run.faultCounted
  rw [← first]
  cases k <;> rfl

section
variable {k : CueFaultKind} {cue : Nat} {fig : Option Fig} {door : Option Door}

theorem cueFault_aborting (h : s.run l = some r) (hs : r.state = .aborting) :
    cueFault l k cue fig door s = s.setLane l { s.lane l with run := some (r.faultCounted k cue) } := by
  rw [cueFault_run h, faultRun_eq, if_pos hs]

theorem cueFault_asks (h : s.run l = some r) (hs : r.state ≠ .aborting) (hp : r.abortPolicy = true) :
    cueFault l k cue fig door s =
      s.setLane l { s.lane l with run := some { r.faultCounted k cue with abortAsked := true } } := by
  rw [cueFault_run h, faultRun_eq, if_neg hs, if_pos hp]

theorem cueFault_carries (h : s.run l = some r) (hc : r.state ≠ .aborting ∧ r.abortPolicy = false) :
    cueFault l k cue fig door s =
      s.setLane l { s.lane l with run := some ((r.faultCounted k cue).faultCarried k fig door) } := by
  rw [cueFault_run h, faultRun_eq, if_neg hc.1, if_neg (by simp [hc.2])]

end

end

/-- At the end of a run of lane M its figures and its transactions are no later run's (R77). -/
theorem forgetWork_laneM (s : State) : forgetWork .M s = forgetTxns { s with
    bell.bells := s.bell.bells.map fun r =>
      { r with strokes := r.strokes.map fun k => if k.lane = some .M then { k with lane := none } else k }
    stg.figs := s.stg.figs.map FigRec.afterRun } := rfl

/-- Settles O60: settling's turns, the Scheduler's work, the ends of runs, the looks, arrivals and cue faults. -/
theorem runsEndAndNextStarts : Obligations.RunsEndAndNextStarts := by
  refine ⟨fun _ => rfl,
    fun n g s => ⟨fun a => settleLoop_laneM, fun a => settleLoop_laneC, settleLoop_done, fun t => settleLoop_hands,
      fun l ls t => settleLoop_looks, fun l ls => settleLoop_looksAlone⟩,
    fun _ => rfl,
    fun s => ⟨fun q qs => handNext_request, fun t ts => handNext_task, handNext_none⟩,
    fun i upTo now old new s => ⟨fun f => due_followOn, fun hf => ⟨fun t => due_fire hf, due_nothing hf⟩, rfl, rfl, rfl,
      fun h => if_pos h, fun h => if_neg h, rfl⟩,
    fun l s => ⟨laneAct_idle, fun r h => ⟨laneAct_abort h, ?halts, ?aborted, ?works, ?ended, laneAct_goesOn h⟩⟩,
    fun l g r o s h => ⟨rfl, doLane_ends h, ?pinned, ?unpinned⟩,
    fun s => ⟨rfl, ?forgets⟩,
    fun l g s => ⟨afterEnd_busy, fun hM hC => ⟨?quiet, ?catchUps⟩⟩,
    fun l s => ⟨lookNext_shut, fun h hr => ⟨?queueHeads, fun q hq => ⟨?stale, ?fresh⟩⟩, rfl, fun q qs =>
      ⟨takeHeads_stale, takeHeads_starts, stale_iff q _⟩⟩,
    fun n s => ⟨rfl, fun i h => ⟨?usable, ?unusable⟩, fun h => ⟨fun c x due => placeOf_committing h, placeOf_absent h⟩⟩,
    fun l q s => ⟨?on, ?noScript, ?storeCheck, fun h hr => ⟨arriveAt_stale h hr, arriveAt_starts h hr⟩, ?busy,
      queueReq_twice, ?full, ?room, fun _ => ?discarded⟩,
    fun l k cue fig door s => ⟨cueFault_idle, fun r h => ⟨cueFault_aborting h, cueFault_asks h, ?figure, ?door, ?turn,
      ?mark⟩⟩⟩
  case halts => exact fun hs hw => laneAct_halts h hs (by rwa [haltWaits_iff])
  case aborted => exact fun hs hw => laneAct_aborted h hs (by rwa [haltWaits_iff])
  case works => exact fun ha hs hc => laneAct_works h ha hs ((workLeft_iff l r s).2 hc)
  case ended => exact fun ha hs hc => laneAct_ended h ha hs fun hw => hc ((workLeft_iff l r s).1 hw)
  case pinned =>
    intro n hs hp
    rw [endRun_pinned hs hp]
    cases o <;> rfl
  case unpinned =>
    intro hp
    rw [endRun_unpinned hp]
    cases o <;> rfl
  case forgets => exact forgetWork_laneM s
  case quiet =>
    intro hh hw
    exact afterEnd_quiet hM hC (by rw [schBusy_iff]; exact fun hb => hb.elim (· hh) (· hw))
  case catchUps => exact fun hb => afterEnd_catchUps hM hC (schBusy_iff.2 hb)
  case queueHeads =>
    intro hn
    rw [lookNext_open h hr, hn]
  case stale =>
    intro hst
    rw [lookNext_open h hr, hq]
    exact if_pos hst
  case fresh =>
    intro hst
    rw [lookNext_open h hr, hq]
    exact if_neg (by simp [hst])
  case usable => exact fun hu => (placeOf_item h).trans (if_pos hu)
  case unusable => exact fun hu => (placeOf_item h).trans (if_neg (by simp [hu]))
  case on =>
    intro hp
    unfold arrive; rw [hp]
  case noScript =>
    intro hp
    unfold arrive; rw [hp]
  case storeCheck =>
    intro hp
    unfold arrive; rw [hp]
  case busy =>
    intro hb
    obtain ⟨queues, drops, preempts⟩ := arriveAt_busy (q := q) hb
    refine ⟨drops, fun hq => ?_, fun r hp hr => ⟨fun ha hn => ?_, fun ha hn => ?_, fun ha => ?_⟩⟩
    · rcases hq with hq | ⟨hq, hi⟩
      · exact queues hq
      · exact (preempts hq).trans (if_pos (laneIdle_iff.2 hi))
    all_goals refine (preempts hp).trans ((if_neg (by simp [laneIdle_iff, hr])).trans ?_)
    · exact preempt_succeeds hr ha hn
    · exact preempt_queues hr ha hn
    · exact preempt_aborts hr ha
  case full =>
    intro ho hl
    rw [queueReq_once ho, if_pos hl]
    exact ⟨fun hh => if_pos hh, fun hh => if_neg hh⟩
  case room =>
    intro ho hl
    rw [queueReq_once ho, if_neg (by omega)]
  case discarded =>
    rw [discard_eq]
    cases q.origin <;> rfl
  case figure =>
    rintro f hc hk rfl
    rw [cueFault_carries h hc]
    rcases hk with rfl | rfl | rfl | rfl | rfl | rfl <;> rfl
  case door =>
    rintro d hc hk rfl
    rw [cueFault_carries h hc]
    rcases hk with rfl | rfl <;> rfl
  case turn =>
    rintro hc hk
    rw [cueFault_carries h hc]
    rcases hk with rfl | rfl <;> rfl
  case mark =>
    rintro hc hk
    rw [cueFault_carries h hc]
    rcases hk with rfl | rfl | rfl <;> rfl

end Sys2Proof.Machine
end

