-- ==== Sys2Proof/Proofs/Clock.lean ====
section
/-! PROOF. A step on an empty queue: which of the block's own events is due, and one millisecond (log entries 2 to 5). -/
namespace Sys2Proof.Machine

/-! ## The order of the block's own events (log entry 3) -/

/-- The first of a list of events is the first that is there. -/
theorem findSome?_id_cons {α : Type} (a : Option α) (l : List (Option α)) :
    (a :: l).findSome? id = a.or (l.findSome? id) := by cases a <;> rfl

theorem hOrElse_eq_or {α : Type} (a b : Option α) : (a <|> b) = a.or b := by cases a <;> rfl

section
variable (s : State)

theorem startupDue_eq : startupDue s =
    [Instr.startupSettings, .startupStore, .startupItems, .startupDoorsAndGuards, .startupLink,
      .startupTime][s.hlc.step]? := by
  by_cases h : s.hlc.step < 6
  · unfold startupDue
    interval_cases s.hlc.step <;> rfl
  · obtain ⟨n, hn⟩ : ∃ n, s.hlc.step = n + 6 := ⟨s.hlc.step - 6, by omega⟩
    unfold startupDue
    rw [hn]; rfl

/-- The Timebase's events. -/
theorem timeDue_eq : timeDue s =
    (onlyIf (decide (s.tb.correction ≠ 0 ∧ 100 ≤ s.tb.slewPhase)) .slewPeriodEnd).or
      ((onlyIf (decide (3155759999999 < s.tb.showTime)) .rangeEnd).or
        (onlyIf (decide (s.tb.showTime / 86400000 ≠ s.sch.today)) .dateChange)) := by
  simp only [timeDue, slewDue, hOrElse_eq_or, Bool.decide_and]; rfl

/-- The edge of the lowest-numbered input of a bank whose filtered level has changed. -/
theorem changedBit_map {w : Nat} (k : Bank w) (g : Fin w → Bool → Instr) :
    let f := k.filtered (BitVec.allOnes w)
    (changedBit k).map (fun (i, v) => g i v) =
      ((List.finRange w).find? fun i => f.getLsbD i.val != k.level.getLsbD i.val).map
        fun i => g i (f.getLsbD i.val) := by
  simp only [changedBit, firstWhere, Option.map_map]; rfl

theorem find_three (p : Fin 3 → Bool) (g : Fin 3 → Instr) : ((List.finRange 3).find? p).map g =
    (onlyIf (p 0) (g 0)).or ((onlyIf (p 1) (g 1)).or (onlyIf (p 2) (g 2))) := by
  have all : List.finRange 3 = [0, 1, 2] := rfl
  rw [all]
  cases h0 : p 0 <;> cases h1 : p 1 <;> cases h2 : p 2 <;> simp [onlyIf, h0, h1, h2]

/-- With a MINUTE fall taken, MINUTE differs from its level where it has risen, and the others where they have changed. -/
theorem miscRises_changed (k : Bank 3) (i : Fin 3) :
    let f := k.filtered (BitVec.allOnes 3)
    (f.getLsbD i.val != (miscRises k).level.getLsbD i.val) =
      if i = 0 then f.getLsbD 0 && !k.level.getLsbD 0 else f.getLsbD i.val != k.level.getLsbD i.val := by
  intro f
  have level : (miscRises k).level = k.level &&& (f ||| 6#3) := rfl
  rw [level]
  fin_cases i <;> simp
  cases f[0] <;> cases k.level[0] <;> rfl

/-- The edges of the bank of MINUTE, index and home: a fall of MINUTE is none (R155). -/
theorem miscDue_eq (k : Bank 3) :
    let f := k.filtered (BitVec.allOnes 3)
    (changedBit (miscRises k)).map (fun (i, v) => miscEdge i v) =
      (onlyIf (f.getLsbD 0 && !k.level.getLsbD 0) .minutePulse).or
        ((onlyIf (f.getLsbD 1 != k.level.getLsbD 1) (.turntableIndexEdge (f.getLsbD 1))).or
          (onlyIf (f.getLsbD 2 != k.level.getLsbD 2) (.turntableHomeEdge (f.getLsbD 2)))) := by
  have same : (miscRises k).filtered (BitVec.allOnes 3) = k.filtered (BitVec.allOnes 3) := rfl
  refine (changedBit_map (miscRises k) miscEdge).trans ?_
  rw [find_three]
  simp only [same, miscRises_changed]
  rfl

theorem frameStops_eq : frameStops s =
    decide (1 ≤ s.hlc.step ∧ s.hlc.rx = .inFrame ∧ s.hlc.lastByte + 20 < s.tb.elapsed) := by
  simp only [frameStops, inFrame, listening, Bool.decide_and, Bool.and_assoc]; rfl

theorem storeDue_eq : storeDue s = s.ps.op.bind fun o => onlyIf (decide (o.due ≤ s.tb.elapsed))
    (match o.what with | .commit .. => .commitComplete | .erase _ => .eraseComplete | .eraseAll => .eraseAllComplete) := by
  unfold storeDue opDue
  cases s.ps.op with
  | none => rfl
  | some o =>
    obtain ⟨what, due⟩ := o
    by_cases h : due ≤ s.tb.elapsed <;> cases what <;> simp [onlyIf, h]

/-- An instant of the elapsed count has been reached. -/
def reachedBy (elapsed : Nat) (t : Option Nat) : Bool := match t with | some t => decide (t ≤ elapsed) | none => false

theorem saveDue_isSome : (saveDue s).isSome = reachedBy s.tb.elapsed (s.hlc.save.map SaveRec.due) := by
  unfold saveDue
  cases s.hlc.save with
  | none => rfl
  | some v => by_cases h : v.due ≤ s.tb.elapsed <;> simp [reachedBy, h]

theorem indexOver_eq : indexOver s = reachedBy s.tb.elapsed (s.stg.turn.stepping.map Stepping.edgeBy) := by
  unfold indexOver
  cases s.stg.turn.stepping <;> rfl

/-- The row of a cue by its kind. -/
def rowOfCue (l : Lane) (i : Nat) (c : CueSlot) : Instr :=
  match c.cue.kind with
  | .strike .. => .strikeCue l i | .damp _ => .dampCue l i | .move .. => .moveCue l i | .door .. => .doorCue l i
  | .turn .. => .turnCue l i | .mark .. => .markCue l i | .lamp .. => .lampCue l i | .finish => .endCue l

theorem cueInstr_row (l : Lane) (i : Nat) (c : CueSlot) : cueInstr l i c.cue.kind.row = rowOfCue l i c := by
  unfold rowOfCue
  cases c.cue.kind <;> rfl

theorem laneCue_eq (l : Lane) : laneCue l s =
    (nextCue l s).bind fun i => (s.run l).bind fun r => r.cues[i]?.map (rowOfCue l i) := by
  unfold laneCue
  congr 1; funext i
  unfold cueRow
  cases s.run l with
  | none => rfl
  | some r => simp only [Option.map_map, Option.bind_some]; congr 1; funext c; exact cueInstr_row l i c

end

/-! ## Which events are due -/

section
variable (s : State)

theorem ringOver_iff (v : Option Voicing) (elapsed : Nat) (r : BellRec) : ringOver v elapsed r = true ↔
    (r.struckSinceLift = true → ∀ w l, v = some w → r.lastStrike = some l → l.elapsed + w.ring ≤ elapsed) := by
  unfold ringOver
  cases r.struckSinceLift <;> cases v <;> cases r.lastStrike <;> simp

theorem dropsNow_iff (b : Bell) : dropsNow s b = true ↔
    (s.bellRec b).damperUp = true ∧ (∀ k ∈ (s.bellRec b).strokes, k.pulseOn = false) ∧
      (∀ k ∈ s.bell.strikes, k.bell ≠ b) ∧ ((s.bellRec b).struckSinceLift = true →
        ∀ v l, s.voicingOf b = some v → (s.bellRec b).lastStrike = some l → l.elapsed + v.ring ≤ s.tb.elapsed) := by
  simp only [dropsNow, Bool.and_eq_true, ringOver_iff, and_assoc]
  simp [BellRec.hammerOn]

theorem goLate_iff (tag : Nat) : goLate tag s = true ↔
    (∃ m, moveOf tag s = some m ∧ m.due + m.tolerance ≤ s.tb.showTime) ∧ goFlying tag s = false := by
  unfold goLate moveTimes
  cases moveOf tag s <;> simp

theorem arrivalOver_iff (f : Fig) : arrivalOver f s = true ↔ (s.fig f).state = .moving ∧ (s.fig f).homing = none ∧
    ∃ m w, (s.fig f).move = some m ∧ m.started = some w ∧ w.closes ≤ s.tb.showTime := by
  unfold arrivalOver
  cases hm : (s.fig f).move with
  | none => simp [hm]
  | some m => cases hs : m.started <;> simp [hm, hs, and_assoc]

theorem crossingOpen_iff (f : Fig) : crossingOpen f s = true ↔
    ∀ c, (s.figDef f).crossing = some c → (s.door c.door).state = .opened := by
  unfold crossingOpen
  cases (s.figDef f).crossing <;> simp

theorem homeDue_iff (f : Fig) : homeDue f s = true ↔ (s.fig f).state = .staged ∧ ∃ h, (s.fig f).homing = some h ∧
    h.cleared = true ∧ h.queued = false ∧ claimGranted (.homing f) s = true ∧
      ∀ c, (s.figDef f).crossing = some c → (s.door c.door).state = .opened := by
  rw [← crossingOpen_iff]
  unfold homeDue
  cases hs : (s.fig f).state <;> cases hh : (s.fig f).homing <;> simp [and_assoc]

theorem homingOver_iff (f : Fig) : homingOver f s = true ↔ (s.fig f).state = .staged ∧
    ∃ h, (s.fig f).homing = some h ∧ h.queued = false ∧ h.startBy ≤ s.tb.elapsed := by
  unfold homingOver
  cases hs : (s.fig f).state <;> cases hh : (s.fig f).homing <;> simp

theorem homeLate_iff (f : Fig) : homeLate f s = true ↔ (s.fig f).state = .moving ∧
    ∃ h t, (s.fig f).homing = some h ∧ h.arriveBy = some t ∧ t ≤ s.tb.elapsed := by
  unfold homeLate
  cases hs : (s.fig f).state <;> cases hh : (s.fig f).homing with
  | none => simp
  | some h => cases ha : h.arriveBy <;> simp [ha]

theorem doorOverrun_iff (d : Door) : (doorOverrun d s).isSome = true ↔ ∃ c t, (s.door d).cmd = some c ∧
    c.driving = true ∧ (s.door d).travelStart = some t ∧ t + (s.door d).travelMs ≤ s.tb.elapsed := by
  unfold doorOverrun
  cases hc : (s.door d).cmd <;> cases ht : (s.door d).travelStart <;> simp

theorem doorOverdue_iff (d : Door) : (doorOverdue d s).isSome = true ↔
    ∃ c, (s.door d).cmd = some c ∧ c.driving = false ∧ c.deadline ≤ s.tb.elapsed := by
  unfold doorOverdue
  cases (s.door d).cmd <;> simp

theorem turnOverdue_iff : (turnOverdue s).isSome = true ↔
    ∃ c, s.stg.turn.cmd = some c ∧ c.driving = false ∧ c.deadline ≤ s.tb.elapsed := by
  unfold turnOverdue
  cases s.stg.turn.cmd <;> simp

theorem windowDue_iff (u : CapUnit) : windowDue u s = true ↔ ∃ l i w, (s.unit u).owner = .run l i ∧
    (s.unit u).window = some w ∧ w.suspended = false ∧ w.closes ≤ s.tb.showTime := by
  unfold windowDue
  cases ho : (s.unit u).owner <;> cases hw : (s.unit u).window <;> simp

theorem holdOver_iff (l : Lane) : holdOver l s = true ↔ ∃ r h, s.run l = some r ∧ r.state = .holding ∧
    r.holdStart = some h ∧ h.elapsed + 120000 ≤ s.tb.elapsed := by
  unfold holdOver
  cases hr : s.run l with
  | none => simp
  | some r => cases hh : r.holdStart <;> simp [hh, show 120000 = Config.holdLimit from rfl]

theorem fadeOver_iff (r : LampRec) : r.fadeOver = true ↔ r.frozen = false ∧ r.fading = true ∧ r.remaining = 0 := by
  simp [LampRec.fadeOver, and_assoc]

/-! ## Which events of the link are due -/

theorem lowOver_iff : lowOver s = true ↔ ∃ t, s.flc.wake = some (.low t) ∧ t ≤ s.tb.elapsed := by
  unfold lowOver
  rcases s.flc.wake with _ | ⟨_⟩ | ⟨_⟩ <;> simp

theorem settleOver_iff : settleOver s = true ↔ ∃ t, s.flc.wake = some (.settle t) ∧ t ≤ s.tb.elapsed := by
  unfold settleOver
  rcases s.flc.wake with _ | ⟨_⟩ | ⟨_⟩ <;> simp

theorem inLow_iff : inLow s = true ↔ ∃ t, s.flc.wake = some (.low t) := by
  unfold inLow
  rcases s.flc.wake with _ | ⟨_⟩ | ⟨_⟩ <;> simp

theorem inSettle_iff : inSettle s = true ↔ ∃ t, s.flc.wake = some (.settle t) := by
  unfold inSettle
  rcases s.flc.wake with _ | ⟨_⟩ | ⟨_⟩ <;> simp

/-- The instants of an attempt, in milliseconds rounded up (log entry 4). -/
theorem sentAt_eq (f : Flight) : f.sentAt = f.since + msOf (50 * f.txn.kind.sendBytes) := rfl

theorem noAnswerAt_eq (f : Flight) : f.noAnswerAt = f.since + msOf (50 * f.txn.kind.sendBytes + 384) := rfl

theorem endBy_eq (b : Begun) (n : Nat) : b.endBy n = b.since + msOf ((50 + 5 * b.gap) * n) := rfl

theorem sentWhole_iff (k : LinkKind) : (sentWhole k s).isSome = true ↔ ∃ f, s.flc.flight = some f ∧
    f.txn.kind = k ∧ f.stopAfter = none ∧ f.since + msOf (50 * f.txn.kind.sendBytes) ≤ s.tb.elapsed := by
  unfold sentWhole
  cases s.flc.flight <;> simp [← sentAt_eq]

theorem answerLate_iff : answerLate s = true ↔ ∃ f, s.flc.flight = some f ∧ 0 < f.txn.kind.answerBytes ∧
    f.answer = none ∧ f.since + msOf (50 * f.txn.kind.sendBytes + 384) ≤ s.tb.elapsed := by
  unfold answerLate
  cases s.flc.flight <;> simp [← noAnswerAt_eq, and_assoc]

theorem answerEnds_iff (i : Instr) : answerEnds s = some i ↔ ∃ f, s.flc.flight = some f ∧ ∃ b, f.answer = some b ∧
    b.since + msOf ((50 + 5 * b.gap) * f.txn.kind.answerBytes) ≤ s.tb.elapsed ∧
      i = if 1 < f.txn.kind.answerBytes then .gapTimeout else .frameError := by
  unfold answerEnds
  cases s.flc.flight with
  | none => simp
  | some f => cases ha : f.answer <;> simp [ha, ← endBy_eq, eq_comm]

theorem lowLasts_iff : lowLasts s = true ↔ ∃ t, s.flc.lowSince = some t ∧ t + 100 ≤ s.tb.elapsed ∧
    s.flc.flight = none ∧ s.flc.stuck = false ∧ ∀ t, s.flc.wake ≠ some (.low t) := by
  have low : inLow s = false ↔ ∀ t, s.flc.wake ≠ some (.low t) := by
    rw [← not_iff_not, Bool.not_eq_false, inLow_iff]; simp
  unfold lowLasts lowTooLong lineQuiet
  cases s.flc.lowSince with
  | none => simp
  | some t => simp [← low]; tauto

theorem stopDue_iff : stopDue s = true ↔
    ∃ f, s.flc.flight = some f ∧ ∃ t, f.stopAfter = some t ∧ t ≤ s.tb.elapsed := by
  unfold stopDue
  cases s.flc.flight with
  | none => simp
  | some f => cases h : f.stopAfter <;> simp [h]

theorem retryReady_iff : retryReady s = true ↔ ∃ r rest, s.flc.retry = r :: rest ∧ r.due ≤ s.tb.elapsed ∧
    linePermits s = true ∧ s.flc.flight = none ∧ (inSettle s = false ∨ r.txn.cls = .urgent) ∧
      oldest .urgent s.flc.queue = none := by
  unfold retryReady
  cases s.flc.retry <;> simp [and_assoc]

/-! ## One millisecond -/

theorem inFrame_iff : inFrame s = true ↔ 1 ≤ s.hlc.step ∧ s.hlc.rx = .inFrame := by
  simp [inFrame, listening]

/-- An answer is awaited (R119). -/
def Flight.awaited (f : Flight) (elapsed : Nat) : Prop :=
  0 < f.txn.kind.answerBytes ∧ f.answer = none ∧ f.sentAt ≤ elapsed ∧ elapsed ≤ f.noAnswerAt

theorem beginAnswer_awaited {s : State} {f : Flight} (hf : s.flc.flight = some f) (ha : f.awaited s.tb.elapsed) :
    let begun : Begun := { since := s.tb.elapsed, gap := s.hlc.live.gapLimit }
    beginAnswer s = { s with
      flc.flight := some { f with answer := if Config.answerBegins s.free then some begun else none }
      free := s.free + 1 } := by
  unfold beginAnswer; rw [hf]; exact if_pos ha

theorem beginAnswer_unawaited {s : State} (h : ∀ f, s.flc.flight = some f → ¬f.awaited s.tb.elapsed) :
    beginAnswer s = s := by
  unfold beginAnswer
  cases hf : s.flc.flight with
  | none => rfl
  | some f => exact if_neg (h f hf)

end

/-- Settles O2: the choice of `step`, the order of `nextDue`, what makes each event due, and one millisecond. -/
theorem stepOnEmptyQueue : Obligations.StepOnEmptyQueue := by
  refine ⟨fun s hp => ⟨fun c => step_of_due hp, step_of_nothing_due hp⟩, ?order,
    fun s => ⟨dropsNow_iff s, goLate_iff s, arrivalOver_iff s, homeDue_iff s, homingOver_iff s, homeLate_iff s,
      doorOverrun_iff s, doorOverdue_iff s, turnOverdue_iff s, windowDue_iff s, holdOver_iff s, fadeOver_iff⟩,
    fun s => ⟨lowOver_iff s, settleOver_iff s, sentWhole_iff s, answerLate_iff s, answerEnds_iff s, lowLasts_iff s,
      stopDue_iff s, retryReady_iff s, inSettle_iff s⟩,
    fun s => ⟨rfl, fun hr hs => if_pos ((inFrame_iff s).2 ⟨hs, hr⟩), fun h => if_neg ?noFrame,
      fun f => beginAnswer_awaited, beginAnswer_unawaited⟩,
    fun t => ⟨tbTick_unslewed, tbTick_inPeriod, tbTick_periodGains, tbTick_periodLoses⟩⟩
  case noFrame => rw [inFrame_iff]; rintro ⟨hs, hr⟩; exact h.elim (· hr) (by omega)
  case order =>
    intro s
    simp only [findSome?_id_cons, List.findSome?_nil, Option.or_none]
    unfold nextDue edgeDue bellDue stageDue showDue holdDue linkDue
    simp only [startupDue_eq, timeDue_eq, miscDue_eq, changedBit_map s.inm.echo,
      changedBit_map s.inm.limits fun i v => .doorLimitEdge (limitOf i).1 (limitOf i).2 v, frameStops_eq, storeDue_eq,
      saveDue_isSome, indexOver_eq, laneCue_eq, hOrElse_eq_or, Option.or_assoc]
    rfl

end Sys2Proof.Machine
end

