-- ==== Sys2Proof/Proofs/Calendar.lean ====
section
/-! PROOF. The calendar derived from show time (R3) and the seasons (R28, R29). -/
namespace Sys2Proof.Machine

/-! ## Seasons (R28, R29) -/

theorem dateLe_iff (a b : Nat × Nat) : dateLe a b = true ↔ a.1 < b.1 ∨ (a.1 = b.1 ∧ a.2 ≤ b.2) := by
  simp [dateLe]

/-- A season that does not wrap matches from its start to its end, one that wraps outside the gap (R28). -/
theorem matches_iff (e : Season) (md : Nat × Nat) : e.matches md = true ↔
    if dateLe (e.startMonth, e.startDay) (e.endMonth, e.endDay) then
      dateLe (e.startMonth, e.startDay) md = true ∧ dateLe md (e.endMonth, e.endDay) = true
    else dateLe (e.startMonth, e.startDay) md = true ∨ dateLe md (e.endMonth, e.endDay) = true := by
  unfold Season.matches
  dsimp only
  split <;> simp

/-- The entry chosen so far is the best of the entries seen: the highest priority, then the lowest index (R29). -/
def BestSeason (md : Nat × Nat) (es : List Season) (best : Option (Nat × Season)) : Prop :=
  match best with
  | none => ∀ y ∈ es, y.matches md = false
  | some (i, x) => es[i]? = some x ∧ x.matches md = true ∧
      ∀ j y, es[j]? = some y → y.matches md = true → y.priority ≤ x.priority ∧ (y.priority = x.priority → i ≤ j)

/-- One more entry: it is chosen if it matches and none before it has as high a priority. -/
theorem bestSeason_snoc {md : Nat × Nat} {es : List Season} {best : Option (Nat × Season)} {e : Season}
    (h : BestSeason md es best) :
    BestSeason md (es ++ [e]) (if e.matches md then betterSeason best es.length e else best) := by
  have seen {j : Nat} {y : Season} (hy : (es ++ [e])[j]? = some y) : es[j]? = some y ∨ (j = es.length ∧ y = e) := by
    rcases Nat.lt_trichotomy j es.length with hj | rfl | hj
    · exact .inl (by rwa [List.getElem?_append_left hj] at hy)
    · exact .inr ⟨rfl, by simpa using hy.symm⟩
    · simp [List.getElem?_append_right hj.le, show j - es.length ≠ 0 by omega] at hy
  have old {j : Nat} {y : Season} (hy : es[j]? = some y) : j < es.length := (List.getElem?_eq_some_iff.1 hy).1
  cases best with
  | none =>
    have none_matches {j : Nat} {y : Season} (hy : es[j]? = some y) : y.matches md = false :=
      h y (List.mem_of_getElem? hy)
    cases he : e.matches md with
    | false =>
      intro y hy
      rcases List.mem_append.1 hy with hy | hy
      · exact h y hy
      · rw [List.mem_singleton.1 hy]; exact he
    | true =>
      refine ⟨by simp, he, fun j y hy hm => ?_⟩
      rcases seen hy with hy | ⟨rfl, rfl⟩
      · simp [none_matches hy] at hm
      · exact ⟨le_rfl, fun _ => le_rfl⟩
  | some b =>
    obtain ⟨i, x⟩ := b
    obtain ⟨hx, hm, hbest⟩ := h
    have kept : (es ++ [e])[i]? = some x := by rw [List.getElem?_append_left (old hx)]; exact hx
    cases he : e.matches md with
    | false =>
      refine ⟨kept, hm, fun j y hy hym => ?_⟩
      rcases seen hy with hy | ⟨rfl, rfl⟩
      · exact hbest j y hy hym
      · simp [he] at hym
    | true =>
      by_cases hp : x.priority < e.priority
      · simp only [betterSeason, hp, if_true]
        refine ⟨by simp, he, fun j y hy hym => ?_⟩
        rcases seen hy with hy | ⟨rfl, rfl⟩
        · have := hbest j y hy hym; omega
        · exact ⟨le_rfl, fun _ => le_rfl⟩
      · simp only [betterSeason, hp, if_true, if_false]
        refine ⟨kept, hm, fun j y hy hym => ?_⟩
        rcases seen hy with hy | ⟨rfl, rfl⟩
        · exact hbest j y hy hym
        · exact ⟨by omega, fun _ => (old hx).le⟩

theorem chooseSeason_best {md : Nat × Nat} (es : List Season) {seen : List Season} {best : Option (Nat × Season)}
    (h : BestSeason md seen best) : BestSeason md (seen ++ es) (chooseSeason md seen.length es best) := by
  induction es generalizing seen best with
  | nil => simpa [chooseSeason] using h
  | cons e es ih =>
    have := ih (bestSeason_snoc (e := e) h)
    simpa [chooseSeason] using this

theorem chooseSeason_all (md : Nat × Nat) (es : List Season) : BestSeason md es (chooseSeason md 0 es none) := by
  have empty : BestSeason md [] none := fun _ h => absurd h (by simp)
  exact chooseSeason_best es empty

section
variable {s : State}

theorem evalSeasons_none (h : seasonNow s = none) : evalSeasons s = { s with
    sch.today := dayNumber s.tb.showTime, sch.active := s.hlc.live.defaultProgramme, sch.chosenBy := none } := by
  have now : seasonNow { s with sch.today := dayNumber s.tb.showTime } = none := h
  unfold evalSeasons; simp only [now]

theorem evalSeasons_some {i : Nat} {x : Season} (h : seasonNow s = some (i, x)) : evalSeasons s = { s with
    sch.today := dayNumber s.tb.showTime, sch.active := x.programme, sch.chosenBy := some i } := by
  have now : seasonNow { s with sch.today := dayNumber s.tb.showTime } = some (i, x) := h
  unfold evalSeasons; simp only [now]

theorem seasonNow_unset (h : s.tb.valid = false) : seasonNow s = none := by
  unfold seasonNow; simp only [h]

theorem seasonNow_absent (h : s.sch.seasons = none) : seasonNow s = none := by
  unfold seasonNow; cases s.tb.valid <;> simp only [h]

theorem seasonNow_set {es : List Season} (hv : s.tb.valid = true) (h : s.sch.seasons = some es) :
    seasonNow s = chooseSeason (monthDay (dayNumber s.tb.showTime)) 0 es none := by
  unfold seasonNow; simp only [hv, h]

/-- Where no entry matches, the default programme is active (R29). -/
theorem seasonNow_unmatched {es : List Season} (h : s.sch.seasons = some es)
    (hn : ∀ e ∈ es, e.matches (monthDay (dayNumber s.tb.showTime)) = false) : seasonNow s = none := by
  cases hv : s.tb.valid with
  | false => exact seasonNow_unset hv
  | true =>
    rw [seasonNow_set hv h]
    have best := chooseSeason_all (monthDay (dayNumber s.tb.showTime)) es
    cases hc : chooseSeason (monthDay (dayNumber s.tb.showTime)) 0 es none with
    | none => rfl
    | some p =>
      rw [hc] at best
      obtain ⟨hx, hm, -⟩ := best
      simp [hn _ (List.mem_of_getElem? hx)] at hm

/-- Where an entry matches, the best one is in force (R29). -/
theorem seasonNow_matched {es : List Season} {e : Season} (hv : s.tb.valid = true) (h : s.sch.seasons = some es)
    (he : e ∈ es) (hm : e.matches (monthDay (dayNumber s.tb.showTime)) = true) :
    ∃ i x, seasonNow s = some (i, x) ∧
      BestSeason (monthDay (dayNumber s.tb.showTime)) es (some (i, x)) := by
  rw [seasonNow_set hv h]
  have best := chooseSeason_all (monthDay (dayNumber s.tb.showTime)) es
  cases hc : chooseSeason (monthDay (dayNumber s.tb.showTime)) 0 es none with
  | none => rw [hc] at best; simp [best e he] at hm
  | some p => rw [hc] at best; exact ⟨p.1, p.2, rfl, best⟩

end

/-! ## The calendar (R3) -/

/-- The length of a month, every fourth year being a leap year. -/
def monthDays (leap : Bool) (m : Nat) : Nat :=
  if m = 2 then (if leap then 29 else 28) else if m = 4 ∨ m = 6 ∨ m = 9 ∨ m = 11 then 30 else 31

/-- The days of a year before a month. -/
def daysBefore (leap : Bool) (month : Nat) : Nat := ((List.range (month - 1)).map fun k => monthDays leap (k + 1)).sum

theorem monthLengths_eq (leap : Bool) : monthLengths leap = (List.range 12).map fun k => monthDays leap (k + 1) := by
  cases leap <;> rfl

/-- A day of the year is counted past the months before its own. -/
theorem monthDayIn_append (before : List Nat) (n : Nat) (after : List Nat) (m : Nat) {k : Nat} (hk : k < n) :
    monthDayIn (before ++ n :: after) m (before.sum + k) = (m + before.length, k + 1) := by
  induction before generalizing m with
  | nil => simp [monthDayIn, hk]
  | cons b bs ih =>
    have past : ¬(b :: bs).sum + k < b := by simp; omega
    have rest : (b :: bs).sum + k - b = bs.sum + k := by simp; omega
    rw [List.cons_append, monthDayIn, if_neg past, rest, ih]
    simp; omega

/-- The day of the year spelled by a month and a day of it. -/
theorem monthDayIn_spelled (leap : Bool) {month day : Nat} (h1 : 1 ≤ month) (h12 : month ≤ 12) (hd : 1 ≤ day)
    (hl : day ≤ monthDays leap month) :
    monthDayIn (monthLengths leap) 1 (daysBefore leap month + (day - 1)) = (month, day) := by
  obtain ⟨k, rfl⟩ : ∃ k, month = k + 1 := ⟨month - 1, by omega⟩
  have cut : List.range 12 = List.range k ++ k :: (List.range 12).drop (k + 1) := by
    have hk : k < (List.range 12).length := by simpa using h12
    conv_lhs => rw [← List.take_append_drop k (List.range 12), List.drop_eq_getElem_cons hk]
    simp [List.take_range, show min k 12 = k by omega]
  rw [monthLengths_eq, cut, List.map_append, List.map_cons]
  refine (monthDayIn_append _ _ _ 1 (show day - 1 < monthDays leap (k + 1) by omega)).trans ?_
  simp; omega

theorem daysBefore_next (leap : Bool) : ∀ k < 12,
    daysBefore leap (k + 1) + monthDays leap (k + 1) ≤ if leap then 366 else 365 := by
  cases leap <;> decide

/-- The year of a day number spelled by a year of the range and a day of that year (R3). -/
theorem yearOf_spelled {year n : Nat} (hn : n < if year % 4 = 0 then 366 else 365) :
    yearOf (365 * year + (year + 3) / 4 + n) = (2000 + year, decide (year % 4 = 0), n) := by
  unfold yearOf
  by_cases h : year % 4 = 0
  · simp only [h, if_true] at hn
    have hq : (365 * year + (year + 3) / 4 + n) / 1461 = year / 4 := by omega
    have hr : (365 * year + (year + 3) / 4 + n) % 1461 = n := by omega
    simp only [hq, hr, h, hn, if_true, decide_true, Prod.mk.injEq, and_true]
    omega
  · simp only [h, if_false] at hn
    have hq : (365 * year + (year + 3) / 4 + n) / 1461 = year / 4 := by omega
    have hr : (365 * year + (year + 3) / 4 + n) % 1461 = 365 * (year % 4) + 1 + n := by omega
    simp only [hq, hr, h, decide_false]
    rw [if_neg (by omega)]
    simp only [Prod.mk.injEq, true_and]
    constructor <;> omega

/-- The month and the day of a day number spelled by a date, and its year (R3). -/
theorem date_spelled {year month day : Nat} (h1 : 1 ≤ month) (h12 : month ≤ 12) (hd : 1 ≤ day)
    (hl : day ≤ monthDays (decide (year % 4 = 0)) month) :
    let number := 365 * year + (year + 3) / 4 + daysBefore (decide (year % 4 = 0)) month + (day - 1)
    monthDay number = (month, day) ∧ (yearOf number).1 = 2000 + year := by
  have bound := daysBefore_next (decide (year % 4 = 0)) (month - 1) (by omega)
  rw [Nat.sub_add_cancel h1] at bound
  have year_eq := yearOf_spelled (year := year) (n := daysBefore (decide (year % 4 = 0)) month + (day - 1))
    (by simp only [decide_eq_true_eq] at bound; omega)
  intro number
  have spelled : number = 365 * year + (year + 3) / 4 + (daysBefore (decide (year % 4 = 0)) month + (day - 1)) :=
    Nat.add_assoc ..
  rw [spelled, year_eq]
  refine ⟨?_, rfl⟩
  unfold monthDay
  rw [Int.toNat_natCast, year_eq]
  exact monthDayIn_spelled _ h1 h12 hd hl

/-- The day of an instant of a day is that day (R3). -/
theorem dayNumber_spelled {number time : Nat} (ht : time < 86400000) :
    dayNumber ((number : Int) * 86400000 + time) = number := by
  unfold dayNumber Config.dayMs; omega

end Sys2Proof.Machine
end

