-- ==== Sys2Proof/Proofs/TimebaseEvents.lean ====
section
/-! PROOF. The Timebase's own events, the end of the range, and an applied step with its work on the entries (R8, R9,
R11 to R13, R25 to R27). -/
namespace Sys2Proof.Machine

section
variable {s : State}

/-! ## Slewing periods, the pulse, the date (R3, R8, R9) -/

theorem slewPeriodEnd_due (h : s.tb.correction ≠ 0) (hp : 100 ≤ s.tb.slewPhase) :
    exec .slewPeriodEnd s = .next (endSlewPeriod s) := by
  have due : slewDue s = true := by simp [slewDue, h, hp]
  exact congrArg _ (whenDue_true due)

theorem losePulse_eq (s : State) : losePulse s = raise (.timeEvent .pulseLost) { s with
    tb.lossAt := none
    tb.disc := if s.tb.disc = .tracking ∨ s.tb.disc = .slewing then .seeking else s.tb.disc } := by
  unfold losePulse
  cases h : s.tb.disc <;> simp

theorem pulseLost_due {t : Nat} (h : s.tb.lossAt = some t) (ht : t ≤ s.tb.elapsed) :
    exec .pulseLost s = .next (losePulse s) := by
  have due : lossDue s = true := by simp [lossDue, h, ht]
  exact congrArg _ (whenDue_true due)

theorem dateChange_due (h : s.tb.showTime / 86400000 ≠ s.sch.today) : exec .dateChange s = .next (evalSeasons s) :=
  congrArg _ (whenDue_true (decide_eq_true h))

/-! ## The end of the range (R13, R27) -/

theorem setTrig_setTrig (i : Trig) (r r' : TrigRec) (s : State) : (s.setTrig i r).setTrig i r' = s.setTrig i r' := by
  unfold State.setTrig
  simp only [Vector.set_set]

/-- An entry that is ARMED waits for time (R27). -/
def TrigRec.waits (r : TrigRec) : TrigRec :=
  if r.state = .armed then { r with state := .waitingTime, next := none, first := false } else r

theorem TrigRec.waits_followOn (r : TrigRec) : r.waits.followOn = r.followOn := by unfold waits; split <;> rfl

theorem trig_mapTrig_self (i : Trig) (f : TrigRec → TrigRec) (s : State) : (s.mapTrig i f).trig i = f (s.trig i) :=
  trig_setTrig_self ..

theorem entryUnset_eq (i : Trig) (s : State) :
    let t := s.mapTrig i TrigRec.waits
    entryUnset i s = match (t.trig i).followOn with
    | some f => raise (.triggerMissed .timeUnset (.trigger i) none f.due none (some (t.trig i).first))
        (t.mapTrig i fun r => { r with followOn := none })
    | none => t := rfl

theorem entryUnset_waits {i : Trig} (h : (s.trig i).followOn = none) :
    entryUnset i s = s.setTrig i (s.trig i).waits := by
  have none_left : ((s.mapTrig i TrigRec.waits).trig i).followOn = none := by
    rw [trig_mapTrig_self, TrigRec.waits_followOn, h]
  rw [entryUnset_eq, none_left]; rfl

/-- A pending follow-on is discarded with TIME_UNSET (R27). -/
theorem entryUnset_discards {i : Trig} {f : FollowOn} (h : (s.trig i).followOn = some f) : entryUnset i s =
    raise (.triggerMissed .timeUnset (.trigger i) none f.due none (some (s.trig i).waits.first))
      (s.setTrig i { (s.trig i).waits with followOn := none }) := by
  have some_left : ((s.mapTrig i TrigRec.waits).trig i).followOn = some f := by
    rw [trig_mapTrig_self, TrigRec.waits_followOn, h]
  rw [entryUnset_eq, some_left]
  simp only [trig_mapTrig_self]
  simp only [State.mapTrig, trig_setTrig_self, setTrig_setTrig]

theorem entryUnset_keeps (i : Trig) (s : State) :
    (entryUnset i s).tb = s.tb ∧ (entryUnset i s).hlc.live = s.hlc.live := by
  cases h : (s.trig i).followOn with
  | none => rw [entryUnset_waits h]; exact ⟨rfl, rfl⟩
  | some f => rw [entryUnset_discards h, raise_tb, raise_live]; exact ⟨rfl, rfl⟩

theorem entriesUnset_keeps (l : List Trig) (s : State) :
    (l.foldl (fun t i => entryUnset i t) s).tb = s.tb ∧
      (l.foldl (fun t i => entryUnset i t) s).hlc.live = s.hlc.live := by
  induction l generalizing s with
  | nil => exact ⟨rfl, rfl⟩
  | cons i l ih =>
    obtain ⟨htb, hlive⟩ := ih (entryUnset i s)
    exact ⟨htb.trans (entryUnset_keeps i s).1, hlive.trans (entryUnset_keeps i s).2⟩

/-- The state at the end of the range before the seasons are evaluated: show time 0 and UNSET, the entries waiting. -/
def rangeUnset (s : State) : State :=
  (List.finRange 32).foldl (fun t i => entryUnset i t) { moveShow (-s.tb.showTime) s with tb.valid := false }

theorem endRange_eq (s : State) : endRange s = raise (.timeEvent .rangeEnd) (evalSeasons (rangeUnset s)) := by
  unfold endRange unsetEvent rangeUnset allTrigs; rfl

theorem rangeUnset_tb (s : State) :
    (rangeUnset s).tb = { (moveShow (-s.tb.showTime) s).tb with valid := false } := by
  unfold rangeUnset; rw [(entriesUnset_keeps _ _).1]

theorem rangeUnset_live (s : State) : (rangeUnset s).hlc.live = s.hlc.live := by
  unfold rangeUnset; rw [(entriesUnset_keeps _ _).2]; rfl

theorem evalSeasons_tb (s : State) : (evalSeasons s).tb = s.tb := by
  obtain ⟨a, c, h⟩ := evalSeasons_eq s
  rw [h]

theorem endRange_tb (s : State) :
    (endRange s).tb = { (moveShow (-s.tb.showTime) s).tb with valid := false } := by
  rw [endRange_eq, raise_tb, evalSeasons_tb, rangeUnset_tb]

theorem endRange_showTime (s : State) : (endRange s).tb.showTime = 0 := by
  rw [endRange_tb]; exact Int.add_right_neg s.tb.showTime

theorem endRange_active (s : State) : (endRange s).sch.active = s.hlc.live.defaultProgramme := by
  have unset : seasonNow (rangeUnset s) = none := seasonNow_unset (by rw [rangeUnset_tb])
  rw [endRange_eq, raise_sch, evalSeasons_none unset]
  dsimp only
  rw [rangeUnset_live]

theorem endRange_restraint (s : State) : (endRange s).restraint = false := by
  unfold State.restraint; rw [endRange_tb]; rfl

theorem rangeEnd_due (h : 3155759999999 < s.tb.showTime) :
    exec .rangeEnd s = .next (if s.restraint then
      settleLoop 1024 { looks := [.M, .C], handFirst := false } (endRange s) else settle (endRange s)) := by
  have due : rangeDue s = true := decide_eq_true h
  have run : exec .rangeEnd s = .next (settleFreed s (endRange s)) := congrArg _ (whenDue_true due)
  rw [run]
  cases hr : s.restraint with
  | true => rw [settleFreed_lifted hr (endRange_restraint s), if_pos rfl]
  | false => rw [settleFreed_kept (.inl hr), if_neg (by decide)]

/-! ## A step of show time (R11, R12) -/

theorem settledDiscipline_eq (t : TB) : settledDiscipline t = if t.disc = .off then .off else
    match t.lastPulse with
    | some p => if t.elapsed ≤ p.elapsed + 130000 then .tracking else .seeking
    | none => .seeking := by
  unfold settledDiscipline
  cases t.lastPulse <;> rfl

theorem moveShow_run (d : Int) (s : State) (l : Lane) :
    (moveShow d s).run l = (s.run l).map (Run.shift d) := by cases l <;> rfl

theorem moveShow_fig (d : Int) (s : State) (f : Fig) :
    (moveShow d s).fig f = { s.fig f with move := (s.fig f).move.map (Move.shift d) } := vector_get_map ..

theorem moveShow_unit (d : Int) (s : State) (u : CapUnit) :
    (moveShow d s).unit u = { s.unit u with window := (s.unit u).window.map (CapWindow.shift d) } := vector_get_map ..

theorem moveShow_bellRec (d : Int) (s : State) (b : Bell) :
    (moveShow d s).bellRec b = { s.bellRec b with nextPermitted := (s.bellRec b).nextPermitted.map (· + d) } :=
  vector_get_map ..

theorem applyStep_inRange {d : Int} (h : s.tb.showTime + d ≤ 3155759999999) :
    applyStep d s = raise (.timeEvent (.stepApplied d))
      (if s.tb.valid then stepEvent s.tb.showTime (s.tb.showTime + d) (moveShow d s) else moveShow d s) :=
  if_neg (by unfold Config.maxTime; omega)

/-! ## The step event (R25, R26) -/

theorem evalSeasons_step (s : State) : (evalSeasons s).hlc.step = s.hlc.step := by
  obtain ⟨a, c, h⟩ := evalSeasons_eq s
  rw [h]

theorem stepEvent_early {old new : Int} (h : s.hlc.step < 3) :
    stepEvent old new s = shiftFollowOns (new - old) (evalSeasons s) :=
  if_pos (by rwa [evalSeasons_step])

theorem stepEvent_zero {old new : Int} (h : 3 ≤ s.hlc.step) (he : old = new) : stepEvent old new s = evalSeasons s :=
  (if_neg (by rw [evalSeasons_step]; omega)).trans (if_pos he)

theorem stepEvent_works {old new : Int} (h : 3 ≤ s.hlc.step) (he : old ≠ new) : stepEvent old new s =
    { evalSeasons s with sch.work := (evalSeasons s).sch.work ++ stepTasks old new } :=
  (if_neg (by rw [evalSeasons_step]; omega)).trans (if_neg he)

/-! ## An ARMED entry at a step (R25, R26) -/

section
variable {old new : Int} {i : Trig}

theorem skipped_iff (r : TrigRec) (old new o : Int) :
    skipped r old new = some o ↔ latestTo r.defn r.lastFire (new - 1) = some o ∧ old < o := by
  simp [skipped, Option.filter_eq_some_iff]

theorem stepBackward_armed (h : (s.trig i).state = .armed) : stepBackward new i s =
    s.setTrig i (settleNext (earliestFrom (s.trig i).defn (s.trig i).lastFire new) (s.trig i).first (s.trig i)) :=
  if_neg (not_not.2 h)

theorem stepForward_nothing (h : (s.trig i).state = .armed) (hk : skipped (s.trig i) old new = none) :
    stepForward old new i s =
      s.setTrig i (settleNext (earliestFrom (s.trig i).defn (s.trig i).lastFire new) (s.trig i).first (s.trig i)) := by
  refine (if_neg (not_not.2 h)).trans ?_
  simp only [hk]

/-- An occurrence passed over fires within its window and is reported LATE after it (R25). -/
theorem stepForward_skipped (h : (s.trig i).state = .armed) {o : Int} (hk : skipped (s.trig i) old new = some o) :
    stepForward old new i s =
      if new - o ≤ (s.trig i).defn.window * 1000 then fire i o s
      else if (s.trig i).defn.kind = .once then raiseLate i o (s.setTrig i (settleNext none false (s.trig i)))
      else raiseLate i o (s.setTrig i
        (settleNext (earliestFrom (s.trig i).defn (s.trig i).lastFire new) (s.trig i).first (s.trig i))) := by
  refine (if_neg (not_not.2 h)).trans ?_
  simp only [hk, windowMs]
  cases (s.trig i).defn.kind <;> rfl

end

end

/-- Settles O18: the events, the seasons and the calendar, the end of the range, and an applied step. -/
theorem timebaseEvents : Obligations.TimebaseEvents := by
  refine ⟨fun s => slewPeriodEnd_due, fun s t h ht => (pulseLost_due h ht).trans (congrArg _ (losePulse_eq s)),
    fun s => dateChange_due, fun s => ⟨?unmatched, ?matched⟩,
    fun s h => ⟨rangeEnd_due h, rfl, endRange_active s, endRange_showTime s, ?unset, ?discarded, ?uncorrected⟩,
    fun i s => ⟨?noFollowOn, ?followOn⟩, fun e m d => ⟨?straight, ?wraps⟩, ?calendar,
    fun d s => ⟨rfl, rfl, rfl, rfl, rfl, settledDiscipline_eq _, rfl, moveShow_run d s, fun f => ?figs,
      moveShow_unit d s, moveShow_bellRec d s, rfl, rfl, rfl⟩,
    fun d s => ⟨fun h => if_pos h, applyStep_inRange⟩,
    fun old new s => ⟨stepEvent_early, stepEvent_zero, stepEvent_works⟩,
    fun old new r first => ⟨skipped_iff r old new, fun _ => rfl, rfl⟩,
    fun old new i s h => ⟨stepBackward_armed h, stepForward_nothing h, fun o ho => ⟨?fires, ?lateOnce, ?late⟩⟩⟩
  case unmatched =>
    rintro (hv | hs | ⟨es, hs, hn⟩)
    · exact evalSeasons_none (seasonNow_unset hv)
    · exact evalSeasons_none (seasonNow_absent hs)
    · exact evalSeasons_none (seasonNow_unmatched hs hn)
  case matched =>
    intro es e hv hs he hm
    obtain ⟨i, x, hnow, hx, hxm, hbest⟩ := seasonNow_matched hv hs he hm
    exact ⟨i, x, hx, hxm, hbest, evalSeasons_some hnow⟩
  case unset => rw [endRange_tb]
  case discarded => rw [endRange_tb]; rfl
  case uncorrected => rw [endRange_tb]; rfl
  case noFollowOn => exact entryUnset_waits
  case followOn => exact fun f => entryUnset_discards
  case straight =>
    intro hw
    rw [matches_iff, if_pos (by rw [dateLe_iff]; dsimp only; omega), dateLe_iff, dateLe_iff]
  case wraps =>
    intro hw
    rw [matches_iff, if_neg (by rw [dateLe_iff]; dsimp only; omega), dateLe_iff, dateLe_iff]
  case calendar =>
    intro year month day time hy h1 h12 ht days number hd hl
    have days_eq : days = monthDays (decide (year % 4 = 0)) := by
      funext m; simp only [days, monthDays, decide_eq_true_eq]
    have number_eq : number = 365 * year + (year + 3) / 4 + daysBefore (decide (year % 4 = 0)) month + (day - 1) := by
      simp only [number, days_eq, daysBefore]
    rw [days_eq] at hl
    obtain ⟨hmonth, hyear⟩ := date_spelled h1 h12 hd hl
    rw [← number_eq] at hmonth hyear
    refine ⟨hmonth, ?_⟩
    unfold dateOf
    rw [dayNumber_spelled ht, Int.toNat_natCast, hmonth, hyear]
  case figs => rw [moveShow_fig]; rfl
  case fires =>
    intro hl
    rw [stepForward_skipped h ho, if_pos (by omega)]
  case lateOnce =>
    intro hl hk
    rw [stepForward_skipped h ho, if_neg (by omega), if_pos hk]
  case late =>
    intro hl hk
    rw [stepForward_skipped h ho, if_neg (by omega), if_neg hk]

end Sys2Proof.Machine
end

