-- ==== Sys2Proof/Proofs/Occurrences.lean ====
section
/-! PROOF. The occurrences of a trigger: the earliest from an instant and the latest up to one (R18, R19). -/
namespace Sys2Proof.Machine

/-! ## The first that is found -/

theorem findSome?_range_some {α : Type} {n : Nat} {f : Nat → Option α} {a : α}
    (h : (List.range n).findSome? f = some a) : ∃ k < n, f k = some a ∧ ∀ j < k, f j = none := by
  rw [← List.map_coe_finRange_eq_range, List.findSome?_map, ← Fin.findSome?_eq_findSome?_finRange] at h
  obtain ⟨k, hk, hfirst⟩ := Fin.findSome?_eq_some_iff.1 h
  exact ⟨k, k.isLt, hk, fun j hj => hfirst ⟨j, hj.trans k.isLt⟩ hj⟩

theorem findSome?_range_none {α : Type} {n : Nat} {f : Nat → Option α} (h : (List.range n).findSome? f = none) {k : Nat}
    (hk : k < n) : f k = none :=
  List.findSome?_eq_none_iff.1 h k (List.mem_range.2 hk)

/-! ## The earliest and the latest of some instants -/

/-- A search's result is the best of the instants, and none where there are none. -/
def Found (Best : Set Int → Int → Prop) (S : Set Int) : Option Int → Prop
  | some o => Best S o
  | none => S = ∅

/-- A search's result is the earliest of the instants, and none where there are none. -/
abbrev EarliestOf : Set Int → Option Int → Prop := Found IsLeast

/-- A search's result is the latest of the instants, and none where there are none. -/
abbrev LatestOf : Set Int → Option Int → Prop := Found IsGreatest

section
variable {Best : Set Int → Int → Prop} {S : Set Int} {r : Option Int}

theorem found_none_iff (h : Found Best S r) (belongs : ∀ o, Best S o → o ∈ S) : r = none ↔ S = ∅ := by
  cases r with
  | none => exact iff_of_true rfl h
  | some x => exact iff_of_false (by simp) (Set.Nonempty.ne_empty ⟨x, belongs x h⟩)

theorem found_some_iff (h : Found Best S r) (belongs : ∀ o, Best S o → o ∈ S)
    (unique : ∀ o x, Best S o → Best S x → o = x) (o : Int) : r = some o ↔ Best S o := by
  cases r with
  | none =>
    have empty : S = ∅ := h
    exact iff_of_false (by simp) fun ho => absurd (belongs o ho) (by simp [empty])
  | some x =>
    rw [Option.some_inj]
    exact ⟨fun e => e ▸ h, unique x o h⟩

end

section
variable {S : Set Int} {r : Option Int}

theorem earliestOf_some_iff (h : EarliestOf S r) (o : Int) : r = some o ↔ IsLeast S o :=
  found_some_iff h (fun _ least => least.1) (fun _ _ => IsLeast.unique) o

theorem earliestOf_none_iff (h : EarliestOf S r) : r = none ↔ S = ∅ := found_none_iff h fun _ least => least.1

theorem latestOf_some_iff (h : LatestOf S r) (o : Int) : r = some o ↔ IsGreatest S o :=
  found_some_iff h (fun _ greatest => greatest.1) (fun _ _ => IsGreatest.unique) o

theorem latestOf_none_iff (h : LatestOf S r) : r = none ↔ S = ∅ := found_none_iff h fun _ greatest => greatest.1

end

/-- The latest, kept if it passes, is the latest that passes, where what comes after a passing instant passes. -/
theorem latestOf_filter {S : Set Int} {r : Option Int} {p : Int → Bool} (h : LatestOf S r)
    (hp : ∀ x y, x ≤ y → p x = true → p y = true) : LatestOf {o | o ∈ S ∧ p o = true} (r.filter p) := by
  cases r with
  | none =>
    have empty : S = ∅ := h
    simp [Found, empty]
  | some x =>
    obtain ⟨hx, hmax⟩ : IsGreatest S x := h
    by_cases hpx : p x = true
    · rw [Option.filter_some_pos hpx]
      exact ⟨⟨hx, hpx⟩, fun y hy => hmax hy.1⟩
    · rw [Option.filter_some_neg (by simpa using hpx)]
      exact Set.eq_empty_of_forall_notMem fun y hy => hpx (hp y x (hmax hy.1) hy.2)

/-! ## Instants on a grid -/

/-- An instant is in the range of show time (R18). -/
def InRange (o : Int) : Prop := 0 ≤ o ∧ o ≤ 3155759999999

theorem inRange_inside {o : Int} (h : InRange o) : inRange o = some o := if_pos h

theorem inRange_outside {o : Int} (h : ¬InRange o) : inRange o = none := if_neg h

theorem inRange_some_iff {o x : Int} : inRange o = some x ↔ InRange o ∧ o = x := by
  by_cases h : InRange o
  · simp [inRange_inside h, h]
  · simp [inRange_outside h, h]

/-- The instant of a place of a grid, if the place is one of those chosen and the instant is in the range. -/
def gridAt (step off : Int) (chosen : Int → Bool) (k : Int) : Option Int :=
  if 0 ≤ k ∧ chosen k = true then inRange (k * step + off) else none

/-- An instant of a grid: that of a chosen place, in the range. -/
def OnGrid (step off : Int) (chosen : Int → Bool) (o : Int) : Prop :=
  ∃ k, 0 ≤ k ∧ chosen k = true ∧ o = k * step + off ∧ InRange o

section
variable {step off : Int} {chosen : Int → Bool} {n : Nat}

theorem gridAt_some_iff {k x : Int} : gridAt step off chosen k = some x ↔
    0 ≤ k ∧ chosen k = true ∧ x = k * step + off ∧ InRange x := by
  unfold gridAt
  constructor
  · intro h
    split at h
    next hk =>
      obtain ⟨hr, rfl⟩ := inRange_some_iff.1 h
      exact ⟨hk.1, hk.2, rfl, hr⟩
    next => cases h
  · rintro ⟨h0, hc, rfl, hr⟩
    rw [if_pos ⟨h0, hc⟩, inRange_inside hr]

/-- A chosen place with nothing lies out of the range. -/
theorem gridAt_none {k : Int} (h : gridAt step off chosen k = none) (h0 : 0 ≤ k) (hc : chosen k = true) :
    ¬InRange (k * step + off) := by
  intro hr
  rw [gridAt, if_pos ⟨h0, hc⟩, inRange_inside hr] at h
  cases h

theorem grid_mono (hstep : 0 < step) {j k : Int} (h : j ≤ k) : j * step + off ≤ k * step + off :=
  Int.add_le_add_right (Int.mul_le_mul_of_nonneg_right h hstep.le) off

/-- A distance is a number of whole rounds of `n` places and less than a round more. -/
theorem exists_residue (hn : 0 < n) {a : Int} (ha : 0 ≤ a) : ∃ m < n, (m : Int) ≤ a ∧ (n : Int) ∣ a - m := by
  obtain ⟨b, rfl⟩ := Int.eq_ofNat_of_zero_le ha
  refine ⟨b % n, Nat.mod_lt b hn, by exact_mod_cast Nat.mod_le b n, ?_⟩
  rw [Int.natCast_emod]
  exact Int.dvd_self_sub_emod

/-- A search upwards from a place, over as many places as the choice repeats after, finds the earliest instant of the
grid that is at that place or above it. -/
theorem grid_earliest (hstep : 0 < step) (hoff : 0 ≤ off) (hn : 0 < n)
    (repeats : ∀ j k : Int, (n : Int) ∣ j - k → chosen j = chosen k) {low : Int} (h0 : 0 ≤ low) {P : Int → Prop}
    (hlow : ∀ k, 0 ≤ k → (low ≤ k ↔ P (k * step + off))) :
    EarliestOf {o | OnGrid step off chosen o ∧ P o}
      ((List.range n).findSome? fun k : Nat => gridAt step off chosen (low + k)) := by
  have above {x : Int} (hx : OnGrid step off chosen x ∧ P x) :
      ∃ j, low ≤ j ∧ chosen j = true ∧ x = j * step + off ∧ InRange x := by
    obtain ⟨⟨j, hj, hc, rfl, hr⟩, hP⟩ := hx
    exact ⟨j, (hlow j hj).2 hP, hc, rfl, hr⟩
  cases hf : (List.range n).findSome? fun k : Nat => gridAt step off chosen (low + k) with
  | some o =>
    obtain ⟨k, -, hk, hfirst⟩ := findSome?_range_some hf
    obtain ⟨hk0, hc, rfl, hr⟩ := gridAt_some_iff.1 hk
    refine ⟨⟨⟨_, hk0, hc, rfl, hr⟩, (hlow _ hk0).1 (by omega)⟩, fun x hx => ?_⟩
    obtain ⟨j, hj, hcj, rfl, hrj⟩ := above hx
    refine grid_mono hstep (not_lt.1 fun hlt => ?_)
    have passed := hfirst (j - low).toNat (by omega)
    rw [show low + ((j - low).toNat : Int) = j by omega] at passed
    exact gridAt_none passed (by omega) hcj hrj
  | none =>
    refine Set.eq_empty_of_forall_notMem fun x hx => ?_
    obtain ⟨j, hj, hcj, rfl, hr0, hrmax⟩ := above hx
    obtain ⟨m, hm, hle, hdvd⟩ := exists_residue hn (show 0 ≤ j - low by omega)
    have same : chosen (low + m) = chosen j := (repeats _ _ (by rwa [← sub_sub])).symm
    have before := grid_mono (off := off) hstep (show low + m ≤ j by omega)
    have pos := mul_nonneg (show 0 ≤ low + m by omega) hstep.le
    exact gridAt_none (findSome?_range_none hf hm) (by omega) (same.trans hcj) ⟨by omega, by omega⟩

/-- A search downwards from the last place up to an instant finds the latest instant of the grid up to it. -/
theorem grid_latest (hstep : 0 < step) (hoff : 0 ≤ off) (hn : 0 < n)
    (repeats : ∀ j k : Int, (n : Int) ∣ j - k → chosen j = chosen k) {high t : Int} (ht : t ≤ 3155759999999)
    (hhigh : ∀ k, k ≤ high ↔ k * step + off ≤ t) :
    LatestOf {o | OnGrid step off chosen o ∧ o ≤ t}
      ((List.range n).findSome? fun k : Nat => gridAt step off chosen (high - k)) := by
  have below {x : Int} (hx : OnGrid step off chosen x ∧ x ≤ t) :
      ∃ j, 0 ≤ j ∧ j ≤ high ∧ chosen j = true ∧ x = j * step + off ∧ InRange x := by
    obtain ⟨⟨j, hj, hc, rfl, hr⟩, hle⟩ := hx
    exact ⟨j, hj, (hhigh j).2 hle, hc, rfl, hr⟩
  cases hf : (List.range n).findSome? fun k : Nat => gridAt step off chosen (high - k) with
  | some o =>
    obtain ⟨k, -, hk, hfirst⟩ := findSome?_range_some hf
    obtain ⟨hk0, hc, rfl, hr⟩ := gridAt_some_iff.1 hk
    refine ⟨⟨⟨_, hk0, hc, rfl, hr⟩, (hhigh _).1 (by omega)⟩, fun x hx => ?_⟩
    obtain ⟨j, hj0, hj, hcj, rfl, hrj⟩ := below hx
    refine grid_mono hstep (not_lt.1 fun hlt => ?_)
    have passed := hfirst (high - j).toNat (by omega)
    rw [show high - ((high - j).toNat : Int) = j by omega] at passed
    exact gridAt_none passed hj0 hcj hrj
  | none =>
    refine Set.eq_empty_of_forall_notMem fun x hx => ?_
    obtain ⟨j, hj0, hj, hcj, rfl, hr0, hrmax⟩ := below hx
    obtain ⟨m, hm, hle, hdvd⟩ := exists_residue hn (show 0 ≤ high - j by omega)
    have same : chosen (high - m) = chosen j := repeats _ _ (by rwa [sub_right_comm])
    have before := (hhigh (high - m)).1 (by omega)
    have pos := mul_nonneg (show 0 ≤ high - m by omega) hstep.le
    exact gridAt_none (findSome?_range_none hf hm) (by omega) (same.trans hcj) ⟨by omega, by omega⟩

end

/-! ## The occurrences of an entry (R18, R19) -/

/-- The occurrences of an entry, by its kind (R18). -/
def TrigDef.Occurs (d : TrigDef) (o : Int) : Prop :=
  0 ≤ o ∧ o ≤ 3155759999999 ∧ match d.kind with
    | .daily => ∃ day : Nat, d.weekdays.getLsbD ((day + 5) % 7) = true ∧ o = (day * 86400000 + d.time : Nat)
    | .periodic => ∃ k : Nat, o = (d.time + k * d.period : Nat)
    | .once => o = d.time
    | .hours => ∃ day hour : Nat, hour < 24 ∧ d.hours.getLsbD hour = true ∧
        o = (day * 86400000 + hour * 3600000 : Nat)

/-- An occurrence lies beyond the last fire in the entry's measure (R19). -/
def TrigDef.Allows (d : TrigDef) (last : Option Int) (o : Int) : Prop :=
  ∀ l, last = some l → match d.kind with
    | .daily => l / 86400000 < o / 86400000
    | .periodic => l + d.period ≤ o
    | .once => True
    | .hours => l / 3600000 < o / 3600000

theorem ceilDiv_le_iff {a b k : Int} (hb : 0 < b) : ceilDiv a b ≤ k ↔ a ≤ k * b := by
  unfold ceilDiv
  rw [neg_le, Int.le_ediv_iff_mul_le hb, Int.neg_mul, neg_le_neg_iff]

section
variable {d : TrigDef} {last : Option Int} {t : Int}

theorem permitted_iff (o : Int) : permitted d last o = true ↔ d.Allows last o := by
  unfold permitted TrigDef.Allows
  cases last with
  | none => simp
  | some l =>
    simp only [Option.some.injEq, forall_eq']
    cases d.kind with
    | once => exact iff_of_true rfl trivial
    | daily | periodic | hours => exact decide_eq_true_iff

/-- What comes after a permitted instant is permitted. -/
theorem permitted_mono {x y : Int} (h : x ≤ y) (hx : permitted d last x = true) : permitted d last y = true := by
  rw [permitted_iff] at hx ⊢
  intro l hl
  have beyond := hx l hl
  cases hk : d.kind <;> simp only [hk] at beyond ⊢ <;> omega

/-- The occurrences of an entry are the instants of a grid, `n` being the places after which the choice repeats. -/
structure GridOf (d : TrigDef) (step off : Int) (chosen : Int → Bool) (n : Nat) : Prop where
  step_pos : 0 < step
  off_nonneg : 0 ≤ off
  n_pos : 0 < n
  repeats : ∀ j k : Int, (n : Int) ∣ j - k → chosen j = chosen k
  occurs_iff : ∀ o, d.Occurs o ↔ OnGrid step off chosen o

/-- The permitted occurrences from an instant. -/
def From (d : TrigDef) (last : Option Int) (t : Int) : Set Int := {o | d.Occurs o ∧ d.Allows last o ∧ t ≤ o}

/-- The occurrences up to an instant, permitted or not. -/
def UpTo (d : TrigDef) (t : Int) : Set Int := {o | d.Occurs o ∧ o ≤ t}

section
variable {step off : Int} {chosen : Int → Bool} {n : Nat}

theorem GridOf.earliest (g : GridOf d step off chosen n) {low : Int} (h0 : 0 ≤ low)
    (hlow : ∀ k, 0 ≤ k → (low ≤ k ↔ d.Allows last (k * step + off) ∧ t ≤ k * step + off)) :
    EarliestOf (From d last t) ((List.range n).findSome? fun k : Nat => gridAt step off chosen (low + k)) := by
  unfold From
  simp only [g.occurs_iff]
  exact grid_earliest g.step_pos g.off_nonneg g.n_pos g.repeats h0 hlow

theorem GridOf.latest (g : GridOf d step off chosen n) (ht : t ≤ 3155759999999) :
    LatestOf (UpTo d t) ((List.range n).findSome? fun k : Nat => gridAt step off chosen ((t - off) / step - k)) := by
  unfold UpTo
  simp only [g.occurs_iff]
  refine grid_latest g.step_pos g.off_nonneg g.n_pos g.repeats ht fun k => ?_
  rw [Int.le_ediv_iff_mul_le g.step_pos, le_sub_iff_add_le]

end

/-! ### DAILY -/

/-- The weekday of a day is in the set of the entry. -/
def TrigDef.onDay (d : TrigDef) (day : Int) : Bool := d.weekdays.getLsbD (weekday day)

theorem daily_grid (hk : d.kind = .daily) : GridOf d 86400000 d.time d.onDay 7 where
  step_pos := by decide
  off_nonneg := Int.natCast_nonneg _
  n_pos := by decide
  repeats j k h := by
    have same : weekday j = weekday k := by unfold weekday; omega
    unfold TrigDef.onDay; rw [same]
  occurs_iff o := by
    unfold TrigDef.Occurs OnGrid TrigDef.onDay
    simp only [hk]
    constructor
    · rintro ⟨h0, hmax, day, hday, ho⟩
      have same : weekday day = (day + 5) % 7 := by unfold weekday; omega
      exact ⟨day, by omega, by rw [same]; exact hday, by omega, h0, hmax⟩
    · rintro ⟨day, hd, hday, ho, h0, hmax⟩
      have same : weekday day = (day.toNat + 5) % 7 := by unfold weekday; omega
      exact ⟨h0, hmax, day.toNat, by rw [← same]; exact hday, by omega⟩

theorem earliestFrom_daily (hk : d.kind = .daily) (htime : d.time < 86400000) :
    EarliestOf (From d last t) (earliestFrom d last t) := by
  unfold earliestFrom
  simp only [hk]
  refine (daily_grid hk).earliest ?_ fun k h0 => ?_
  · split <;> omega
  · simp only [TrigDef.Allows, hk]
    have soon : ceilDiv (t - d.time) Config.dayMs ≤ k ↔ t - d.time ≤ k * 86400000 := ceilDiv_le_iff (by decide)
    cases last with
    | none => simp only [reduceCtorEq, false_implies, implies_true, true_and]; omega
    | some l => simp only [Option.some.injEq, forall_eq', dayNumber, Config.dayMs] at soon ⊢; omega

theorem latestOccurrence_daily (hk : d.kind = .daily) (ht : t ≤ 3155759999999) :
    LatestOf (UpTo d t) (latestOccurrence d t) := by
  unfold latestOccurrence
  simp only [hk]
  exact (daily_grid hk).latest ht

/-! ### HOURS -/

/-- The hour of the day of an hour counted from 2000-01-01 is in the set of the entry. -/
def TrigDef.atHour (d : TrigDef) (h : Int) : Bool := d.hours.getLsbD (h % 24).toNat

theorem hours_grid (hk : d.kind = .hours) : GridOf d 3600000 0 d.atHour 24 where
  step_pos := by decide
  off_nonneg := le_rfl
  n_pos := by decide
  repeats j k h := by
    have same : j % 24 = k % 24 := by omega
    unfold TrigDef.atHour; rw [same]
  occurs_iff o := by
    unfold TrigDef.Occurs OnGrid TrigDef.atHour
    simp only [hk]
    constructor
    · rintro ⟨h0, hmax, day, hour, hlt, hhour, ho⟩
      have same : (((day * 24 + hour : Nat) : Int) % 24).toNat = hour := by omega
      exact ⟨(day * 24 + hour : Nat), by omega, by rw [same]; exact hhour, by omega, h0, hmax⟩
    · rintro ⟨k, hk0, hhour, ho, h0, hmax⟩
      exact ⟨h0, hmax, (k / 24).toNat, (k % 24).toNat, by omega, hhour, by omega⟩

theorem hourAt_grid (k : Int) : hourAt d k = gridAt 3600000 0 d.atHour k := by
  unfold hourAt gridAt TrigDef.atHour Config.hourMs
  rw [Int.add_zero]

theorem earliestFrom_hours (hk : d.kind = .hours) : EarliestOf (From d last t) (earliestFrom d last t) := by
  unfold earliestFrom
  simp only [hk, hourAt_grid]
  refine (hours_grid hk).earliest ?_ fun k h0 => ?_
  · split <;> omega
  · simp only [TrigDef.Allows, hk]
    have soon : ceilDiv t Config.hourMs ≤ k ↔ t ≤ k * 3600000 := ceilDiv_le_iff (by decide)
    cases last with
    | none => simp only [reduceCtorEq, false_implies, implies_true, true_and]; omega
    | some l => simp only [Option.some.injEq, forall_eq', hourIndex, Config.hourMs] at soon ⊢; omega

theorem latestOccurrence_hours (hk : d.kind = .hours) (ht : t ≤ 3155759999999) :
    LatestOf (UpTo d t) (latestOccurrence d t) := by
  have search := (hours_grid hk).latest ht
  rw [Int.sub_zero] at search
  unfold latestOccurrence
  simp only [hk, hourAt_grid]
  exact search

/-! ### PERIODIC with a period -/

theorem periodic_grid (hk : d.kind = .periodic) (hp : d.period ≠ 0) :
    GridOf d d.period d.time (fun _ => true) 1 where
  step_pos := by omega
  off_nonneg := Int.natCast_nonneg _
  n_pos := by decide
  repeats _ _ _ := rfl
  occurs_iff o := by
    unfold TrigDef.Occurs OnGrid
    simp only [hk]
    constructor
    · rintro ⟨h0, hmax, k, ho⟩
      exact ⟨k, by omega, trivial, by rw [ho]; push_cast; ring, h0, hmax⟩
    · rintro ⟨k, hk0, -, ho, h0, hmax⟩
      obtain ⟨m, rfl⟩ := Int.eq_ofNat_of_zero_le hk0
      exact ⟨h0, hmax, m, by rw [ho]; push_cast; ring⟩

theorem gridAt_all {step off k : Int} (h : 0 ≤ k) : gridAt step off (fun _ => true) k = inRange (off + k * step) := by
  unfold gridAt
  rw [if_pos ⟨h, rfl⟩, Int.add_comm]

theorem earliestFrom_periodic (hk : d.kind = .periodic) (hp : d.period ≠ 0) :
    EarliestOf (From d last t) (earliestFrom d last t) := by
  have step_pos := (periodic_grid hk hp).step_pos
  have search (low : Int) (hlow : ∀ x, low ≤ x ↔ d.Allows last x ∧ t ≤ x) :
      EarliestOf (From d last t) (inRange (d.time + max 0 (ceilDiv (low - d.time) d.period) * d.period)) := by
    have first : 0 ≤ max 0 (ceilDiv (low - d.time) d.period) := le_max_left ..
    have found := (periodic_grid hk hp).earliest (last := last) (t := t) first fun k h0 => by
      rw [← hlow, max_le_iff, ceilDiv_le_iff step_pos]; omega
    simpa [gridAt_all] using found
  unfold earliestFrom
  simp only [hk, if_neg hp]
  refine search _ fun x => ?_
  simp only [TrigDef.Allows, hk]
  cases last with
  | none => simp
  | some l => simp [and_comm]

theorem latestOccurrence_periodic (hk : d.kind = .periodic) (hp : d.period ≠ 0) (ht : t ≤ 3155759999999) :
    LatestOf (UpTo d t) (latestOccurrence d t) := by
  have search := (periodic_grid hk hp).latest ht
  have place : 0 ≤ (t - d.time) / d.period ↔ (d.time : Int) ≤ t := by
    rw [Int.ediv_nonneg_iff_of_pos (periodic_grid hk hp).step_pos, Int.sub_nonneg]
  unfold latestOccurrence
  simp only [hk]
  by_cases hlt : t < d.time
  · simpa [hlt, gridAt, place, not_le.2 hlt] using search
  · simpa [hlt, hp, gridAt_all (place.2 (not_lt.1 hlt))] using search

/-! ### An entry with one occurrence: ONCE, and PERIODIC with a period of 0 -/

/-- An entry with one occurrence. -/
def TrigDef.single (d : TrigDef) : Prop := d.kind = .once ∨ d.kind = .periodic ∧ d.period = 0

theorem single_occurs (h : d.single) (o : Int) : d.Occurs o ↔ InRange o ∧ o = d.time := by
  unfold TrigDef.Occurs InRange
  rcases h with hk | ⟨hk, hp⟩
  · simp only [hk, and_assoc]
  · simp only [hk, hp, Nat.mul_zero, Nat.add_zero, exists_const, and_assoc]

/-- Of one instant at most, the search gives that instant where it counts. -/
theorem at_most_one {S : Set Int} {x : Int} {c : Prop} [Decidable c] (h : ∀ o, o ∈ S ↔ o = x ∧ InRange x ∧ c) :
    EarliestOf S (if c then inRange x else none) ∧ LatestOf S (if c then inRange x else none) := by
  by_cases hx : InRange x ∧ c
  · have one : S = {x} := Set.ext fun o => by rw [h, Set.mem_singleton_iff, and_iff_left hx]
    rw [one, if_pos hx.2, inRange_inside hx.1]
    exact ⟨isLeast_singleton, isGreatest_singleton⟩
  · have empty : S = ∅ := Set.eq_empty_of_forall_notMem fun o ho => hx ((h o).1 ho).2
    have nothing : (if c then inRange x else none) = none :=
      ite_eq_right_iff.2 fun hc => inRange_outside fun hr => hx ⟨hr, hc⟩
    rw [nothing]
    exact ⟨empty, empty⟩

theorem earliestFrom_single (h : d.single) : EarliestOf (From d last t) (earliestFrom d last t) := by
  have eq : earliestFrom d last t =
      if t ≤ d.time ∧ permitted d last d.time = true then inRange d.time else none := by
    unfold earliestFrom
    rcases h with hk | ⟨hk, hp⟩
    · have always : permitted d last d.time = true := by simp [permitted_iff, TrigDef.Allows, hk]
      simp only [hk, always, and_true]
    · simp only [hk, hp, if_true]
  rw [eq]
  refine (at_most_one fun o => ?_).1
  change d.Occurs o ∧ d.Allows last o ∧ t ≤ o ↔ _
  rw [single_occurs h, permitted_iff]
  constructor
  · rintro ⟨⟨hr, rfl⟩, ha, hle⟩; exact ⟨rfl, hr, hle, ha⟩
  · rintro ⟨rfl, hr, hle, ha⟩; exact ⟨⟨hr, rfl⟩, ha, hle⟩

theorem latestOccurrence_single (h : d.single) : LatestOf (UpTo d t) (latestOccurrence d t) := by
  have eq : latestOccurrence d t = if (d.time : Int) ≤ t then inRange d.time else none := by
    unfold latestOccurrence
    rcases h with hk | ⟨hk, hp⟩
    · simp only [hk]
    · simp only [hk, hp, if_true, ← not_le, ite_not]
  rw [eq]
  refine (at_most_one fun o => ?_).2
  change d.Occurs o ∧ o ≤ t ↔ _
  rw [single_occurs h]
  constructor
  · rintro ⟨⟨hr, rfl⟩, hle⟩; exact ⟨rfl, hr, hle⟩
  · rintro ⟨rfl, hr, hle⟩; exact ⟨⟨hr, rfl⟩, hle⟩

/-! ### Every kind -/

/-- An entry has one occurrence, or its occurrences are those of a day, of an hour, or of a period. -/
theorem kind_cases (d : TrigDef) :
    d.single ∨ d.kind = .daily ∨ d.kind = .hours ∨ d.kind = .periodic ∧ d.period ≠ 0 := by
  unfold TrigDef.single
  cases d.kind <;> simp [em]

theorem earliestFrom_earliest (htime : d.kind = .daily → d.time < 86400000) :
    EarliestOf (From d last t) (earliestFrom d last t) := by
  rcases kind_cases d with h | h | h | ⟨h, hp⟩
  · exact earliestFrom_single h
  · exact earliestFrom_daily h (htime h)
  · exact earliestFrom_hours h
  · exact earliestFrom_periodic h hp

theorem latestOccurrence_latest (ht : t ≤ 3155759999999) : LatestOf (UpTo d t) (latestOccurrence d t) := by
  rcases kind_cases d with h | h | h | ⟨h, hp⟩
  · exact latestOccurrence_single h
  · exact latestOccurrence_daily h ht
  · exact latestOccurrence_hours h ht
  · exact latestOccurrence_periodic h hp ht

theorem latestTo_latest : LatestOf {o | d.Occurs o ∧ d.Allows last o ∧ o ≤ t} (latestTo d last t) := by
  have capped : UpTo d (min t Config.maxTime) = UpTo d t :=
    Set.ext fun o => and_congr_right fun ⟨_, hmax, _⟩ => by unfold Config.maxTime; omega
  have latest : LatestOf (UpTo d t) (latestOccurrence d (min t Config.maxTime)) :=
    capped ▸ latestOccurrence_latest (min_le_right ..)
  have filtered : {o | d.Occurs o ∧ d.Allows last o ∧ o ≤ t} = {o | o ∈ UpTo d t ∧ permitted d last o = true} :=
    Set.ext fun o => by
      change _ ↔ (d.Occurs o ∧ o ≤ t) ∧ permitted d last o = true
      rw [permitted_iff, and_assoc, and_comm (a := o ≤ t)]; rfl
  rw [filtered]
  exact latestOf_filter latest fun _ _ => permitted_mono

/-- The search from an instant gives the earliest permitted occurrence, the search up to it the latest (R18, R19). -/
theorem occurrences_found (htime : d.kind = .daily → d.time < 86400000) :
    let good (o : Int) := d.Occurs o ∧ d.Allows last o
    (∀ o, earliestFrom d last t = some o ↔ (good o ∧ t ≤ o) ∧ ∀ x, good x → t ≤ x → o ≤ x) ∧
    (earliestFrom d last t = none ↔ ∀ x, good x → x < t) ∧
    (∀ o, latestTo d last t = some o ↔ (good o ∧ o ≤ t) ∧ ∀ x, good x → x ≤ t → x ≤ o) ∧
    (latestTo d last t = none ↔ ∀ x, good x → t < x) := by
  have earliest := earliestFrom_earliest (last := last) (t := t) htime
  have latest := latestTo_latest (d := d) (last := last) (t := t)
  refine ⟨fun o => (earliestOf_some_iff earliest o).trans ?_, (earliestOf_none_iff earliest).trans ?_,
    fun o => (latestOf_some_iff latest o).trans ?_, (latestOf_none_iff latest).trans ?_⟩
  · simp [IsLeast, lowerBounds, From, and_assoc]
  · simp [Set.eq_empty_iff_forall_notMem, From]
  · simp [IsGreatest, upperBounds, and_assoc]
  · simp [Set.eq_empty_iff_forall_notMem]

end
end Sys2Proof.Machine
end

