-- ==== Sys2Proof/Proofs/Triggers.lean ====
section
/-! PROOF. Fires, follow-ons and their order, and the arming of an entry (R20 to R24, R30). -/
namespace Sys2Proof.Machine

/-! ## Requests handed over (R21, R23, R30) -/

section
variable {i : Trig} {time : Int} {s : State}

theorem resolve_script (n : Nat) (s : State) : resolve (.script n) s = some n := rfl

theorem resolve_absent (h : s.sch.programmes = none) (n : Nat) : resolve (.slot n) s = none := by
  unfold resolve; simp only [h]

/-- A slot is that of the active programme (R30). -/
theorem resolve_slot {ps : Vector (Vector (Option Nat) 16) 8} (h : s.sch.programmes = some ps) (k : Fin 16) :
    resolve (.slot k.val) s = (ps.get s.sch.active).get k := by
  unfold resolve
  simp only [h]
  simp [Vector.get_eq_getElem]

/-- An entry's request for a subject, made and not yet handed to the Sequencer (R36). -/
def request (i : Trig) (time : Int) (q : Subject) (s : State) : State :=
  { s with sch.held := s.sch.held ++
      [{ subject := q, origin := .trigger i, fireTime := time, policy := (s.trig i).defn.policy
         staleness := (s.trig i).defn.staleness }] }

theorem handOver_resolved {t : Target} {n : Nat} (h : resolve t s = some n) :
    handOver i t time s = request i time (.script n) s := by
  unfold handOver; simp only [h]; rfl

/-- An empty slot is reported with the entry's first-fire-pending flag (R30; log entry 46). -/
theorem handOver_empty {k : Nat} (h : resolve (.slot k) s = none) : handOver i (.slot k) time s = raise
    (.triggerMissed .emptySlot (.trigger i) none time (some (s.sch.active, k)) (some (s.trig i).first)) s := by
  unfold handOver; simp only [h]

theorem handOver_trigs (i : Trig) (t : Target) (time : Int) (s : State) (j : Trig) :
    (handOver i t time s).trig j = s.trig j := by
  cases h : resolve t s with
  | some n => rw [handOver_resolved h]; rfl
  | none =>
    cases t with
    | script n => simp [resolve_script] at h
    | slot k => rw [handOver_empty h]; unfold State.trig; rw [raise_sch]

/-! ## A fire (R21) -/

theorem fire_hours (h : (s.trig i).defn.kind = .hours) :
    fire i time s = (request i time (.count (twelveHour (hourOf time))) s).mapTrig i (afterFire time) := by
  unfold fire; simp only [h]; rfl

theorem fire_target (h : (s.trig i).defn.kind ≠ .hours) :
    fire i time s = (handOver i (s.trig i).defn.target time s).mapTrig i (afterFire time) := by
  unfold fire
  cases hk : (s.trig i).defn.kind with
  | hours => exact absurd hk h
  | daily | periodic | once => simp only [hk]

theorem fire_trig (i : Trig) (time : Int) (s : State) : (fire i time s).trig i = afterFire time (s.trig i) := by
  by_cases h : (s.trig i).defn.kind = .hours
  · rw [fire_hours h, trig_mapTrig_self]; rfl
  · rw [fire_target h, trig_mapTrig_self, handOver_trigs]

theorem settleNext_eq (next : Option Int) (r : TrigRec) : settleNext next false r =
    { r with state := if next.isSome then .armed else .spent, next := next, first := false } := by
  cases next <;> rfl

/-- The next fire time after a fire: none for an entry with one occurrence (R21, step 4). -/
def nextAfter (time : Int) (d : TrigDef) : Option Int :=
  if d.kind = .once ∨ (d.kind = .periodic ∧ d.period = 0) then none else earliestFrom d (some time) (time + 1)

/-- The record after a fire, before the entry's follow-on is scheduled (R21, steps 3 and 4). -/
def TrigRec.fired (time : Int) (r : TrigRec) : TrigRec :=
  { r with
    lastFire := some time, count := satInc r.count, next := nextAfter time r.defn, first := false
    state := if (nextAfter time r.defn).isSome then .armed else .spent }

theorem afterFire_alone {r : TrigRec} (h : r.defn.followOn = none) : afterFire time r = r.fired time := by
  unfold afterFire
  simp only [settleNext_eq, h, Bool.or_eq_true, Bool.and_eq_true, decide_eq_true_eq]
  rfl

theorem afterFire_followOn {r : TrigRec} {off : Nat} {g : Target} (h : r.defn.followOn = some (off, g)) :
    afterFire time r = { r.fired time with followOn := some { due := time + off * 1000, target := g } } := by
  unfold afterFire
  simp only [settleNext_eq, h, Bool.or_eq_true, Bool.and_eq_true, decide_eq_true_eq]
  rfl

/-- A fire records its time and raises the count (R21, step 3). -/
theorem afterFire_records (time : Int) (r : TrigRec) :
    (afterFire time r).lastFire = some time ∧ (afterFire time r).count = satInc r.count := by
  cases h : r.defn.followOn with
  | none => rw [afterFire_alone h]; exact ⟨rfl, rfl⟩
  | some f => rw [afterFire_followOn h]; exact ⟨rfl, rfl⟩

/-! ## The order of what is due (R22) -/

theorem followOnDue_iff : followOnDue i s = true ↔
    3 ≤ s.hlc.step ∧ ∃ f, (s.trig i).followOn = some f ∧ f.due ≤ s.tb.showTime := by
  rw [followOnDue, Bool.and_eq_true, decide_eq_true_eq, followsBy_iff]

theorem fireDue_iff : fireDue i s = true ↔
    3 ≤ s.hlc.step ∧ (s.trig i).state = .armed ∧ ∃ t, (s.trig i).next = some t ∧ t ≤ s.tb.showTime := by
  rw [fireDue, Bool.and_eq_true, decide_eq_true_eq, firesBy_iff]

/-- What is taken of an entry alone: its follow-on before its own fire (R22). -/
def dueOf (s : State) (i : Trig) : Option (Trig × Bool) :=
  if followOnDue i s then some (i, true) else if fireDue i s then some (i, false) else none

theorem dueOf_none : dueOf s i = none ↔ ¬followOnDue i s = true ∧ ¬fireDue i s = true := by
  unfold dueOf; split_ifs <;> simp_all

theorem dueOf_followOn {j : Trig} : dueOf s j = some (i, true) ↔ j = i ∧ followOnDue j s = true := by
  unfold dueOf; split_ifs <;> simp_all

theorem dueOf_fire {j : Trig} : dueOf s j = some (i, false) ↔ j = i ∧ fireDue j s = true ∧ ¬followOnDue j s = true := by
  unfold dueOf; split_ifs <;> simp_all

theorem nextFire_dateDue (h : s.tb.showTime / 86400000 ≠ s.sch.today) : nextFire s = none :=
  if_pos (decide_eq_true h)

/-- Otherwise the lowest index with something due is taken (R22). -/
theorem nextFire_some_iff (h : s.tb.showTime / 86400000 = s.sch.today) (p : Trig × Bool) :
    nextFire s = some p ↔ ∃ i, dueOf s i = some p ∧ ∀ j < i, dueOf s j = none := by
  have search : nextFire s = (List.finRange 32).findSome? (dueOf s) :=
    if_neg fun due => absurd h (of_decide_eq_true due)
  rw [search, ← Fin.findSome?_eq_findSome?_finRange, Fin.findSome?_eq_some_iff]

theorem nextFire_followOn_iff (h : s.tb.showTime / 86400000 = s.sch.today) (i : Trig) :
    nextFire s = some (i, true) ↔
      followOnDue i s = true ∧ ∀ j < i, ¬followOnDue j s = true ∧ ¬fireDue j s = true := by
  simp only [nextFire_some_iff h, dueOf_followOn, dueOf_none, and_assoc, exists_eq_left]

theorem nextFire_fire_iff (h : s.tb.showTime / 86400000 = s.sch.today) (i : Trig) :
    nextFire s = some (i, false) ↔
      fireDue i s = true ∧ ¬followOnDue i s = true ∧ ∀ j < i, ¬followOnDue j s = true ∧ ¬fireDue j s = true := by
  simp only [nextFire_some_iff h, dueOf_fire, dueOf_none, and_assoc, exists_eq_left]

theorem fireNext_at {t : Int} (h : (s.trig i).next = some t) : fireNext i s = fire i t s := by
  unfold fireNext; simp only [h]

theorem fireFollowOn_at {f : FollowOn} (h : (s.trig i).followOn = some f) : fireFollowOn i s =
    (handOver i f.target f.due s).mapTrig i fun r => { r with followOn := none } := by
  unfold fireFollowOn; simp only [h]

theorem triggerFire_next {t : Int} (h : nextFire s = some (i, false)) (hn : (s.trig i).next = some t) :
    exec (.triggerFire i) s = .next (settle (fire i t s)) := by
  have run : exec (.triggerFire i) s = .next (settle (fireNext i s)) := congrArg _ (whenDue_true (decide_eq_true h))
  rw [run, fireNext_at hn]

theorem followOnFire_next {f : FollowOn} (h : nextFire s = some (i, true)) (hf : (s.trig i).followOn = some f) :
    exec (.followOnFire i) s = .next (settle
      ((handOver i f.target f.due s).mapTrig i fun r => { r with followOn := none })) := by
  have run : exec (.followOnFire i) s = .next (settle (fireFollowOn i s)) :=
    congrArg _ (whenDue_true (decide_eq_true h))
  rw [run, fireFollowOn_at hf]

/-! ## Arming (R20) -/

/-- The entry with its next fire time the earliest permitted occurrence after an instant, its first fire pending, or
SPENT where there is none (R20). -/
def TrigRec.armedAfter (now : Int) (r : TrigRec) : TrigRec :=
  settleNext (earliestFrom r.defn r.lastFire (now + 1)) true r

theorem armOrDisable_enabled {now : Int} (h : (s.trig i).defn.enabled = true) : armOrDisable i now s = arm i now s :=
  if_pos h

theorem armOrDisable_disabled {now : Int} (h : (s.trig i).defn.enabled = false) :
    armOrDisable i now s = s.mapTrig i disable :=
  if_neg (by simp [h])

theorem arm_unset {now : Int} (h : s.tb.valid = false) :
    arm i now s = s.setTrig i { s.trig i with state := .waitingTime, next := none, first := false } :=
  if_pos (by simp [h])

theorem arm_set {now : Int} (h : s.tb.valid = true) : arm i now s =
    match latestTo (s.trig i).defn (s.trig i).lastFire now with
    | some l =>
      if now - l ≤ (s.trig i).defn.window * 1000 then fire i l s
      else
        match (s.trig i).defn.kind with
        | .once => raiseLate i l (s.setTrig i (settleNext none false (s.trig i)))
        | .periodic => raiseLate i l (s.setTrig i ((s.trig i).armedAfter now))
        | _ => s.setTrig i ((s.trig i).armedAfter now)
    | none => s.setTrig i ((s.trig i).armedAfter now) :=
  if_neg (by simp [h])

theorem arm_fresh {now : Int} (h : s.tb.valid = true) (hl : latestTo (s.trig i).defn (s.trig i).lastFire now = none) :
    arm i now s = s.setTrig i ((s.trig i).armedAfter now) := by
  rw [arm_set h, hl]

section
variable {now l : Int}

theorem arm_within (h : s.tb.valid = true) (hl : latestTo (s.trig i).defn (s.trig i).lastFire now = some l)
    (hw : now - l ≤ (s.trig i).defn.window * 1000) : arm i now s = fire i l s := by
  rw [arm_set h, hl]; exact if_pos hw

/-- Past its window an occurrence is reported LATE by the kinds whose occurrences do not come round again (R20). -/
theorem arm_passed (h : s.tb.valid = true) (hl : latestTo (s.trig i).defn (s.trig i).lastFire now = some l)
    (hw : (s.trig i).defn.window * 1000 < now - l) : arm i now s =
      match (s.trig i).defn.kind with
      | .once => raiseLate i l (s.setTrig i (settleNext none false (s.trig i)))
      | .periodic => raiseLate i l (s.setTrig i ((s.trig i).armedAfter now))
      | _ => s.setTrig i ((s.trig i).armedAfter now) := by
  rw [arm_set h, hl]; exact if_neg (by omega)

end

end

end Sys2Proof.Machine
end

