-- ==== Sys2Proof/Proofs/TriggerCmds.lean ====
section
/-! PROOF. The Scheduler's requests and events (R18 to R24, R30 to R34). -/
namespace Sys2Proof.Machine

/-- A request of the Scheduler is carried out once start-up step 3 has ended (R181). -/
theorem gated_scheduler {k : Byte} {f : State → State} {s : State} (hk : gateStep k = 3) (h : 3 ≤ s.hlc.step) :
    (Host.Outcome.next (gated k f s) : Host.Outcome State Fault Refusal) = .next (f s) :=
  congrArg _ (gated_at hk h)

theorem tableLocked_locked {s : State} (h : 2 ≤ s.ps.writeLevel.val) : tableLocked s = true := decide_eq_true h

theorem tableLocked_open {s : State} (h : s.ps.writeLevel.val < 2) : tableLocked s = false :=
  decide_eq_false (by omega)

/-! ## TRIG-GET, TRIG-DISARM, SEASON-GET (R32 to R34) -/

section
variable {index : Nat} {s : State}

theorem trigGet_outOfRange (h : 3 ≤ s.hlc.step) (hi : 32 ≤ index) :
    exec (.trigGet index) s = .next (reply 0x19#8 .badValue .none s) := by
  refine (gated_scheduler (by decide) h).trans ?_
  rw [toFin_ge hi]

theorem trigGet_entry (h : 3 ≤ s.hlc.step) (i : Trig) : exec (.trigGet i.val) s =
    .next (reply 0x19#8 .ok (.trigGet (s.trig i) ((s.trig i).lastFire.map lastFireAt)) s) := by
  refine (gated_scheduler (by decide) h).trans ?_
  rw [toFin_val]

theorem trigDisarm_locked (h : 3 ≤ s.hlc.step) (hw : 2 ≤ s.ps.writeLevel.val) :
    exec (.trigDisarm index) s = .next (reply 0x1A#8 .locked .none s) :=
  (gated_scheduler (by decide) h).trans (congrArg _ (if_pos (tableLocked_locked hw)))

theorem trigDisarm_open (h : 3 ≤ s.hlc.step) (hw : s.ps.writeLevel.val < 2) : exec (.trigDisarm index) s =
    .next (match toFin 32 index with
      | some i => reply 0x1A#8 .ok .none (s.mapTrig i disable)
      | none => reply 0x1A#8 .badValue .none s) :=
  (gated_scheduler (by decide) h).trans (congrArg _ (if_neg (by simp [tableLocked_open hw])))

theorem seasonGet_replies (h : 3 ≤ s.hlc.step) : exec .seasonGet s = .next (reply 0x1B#8 .ok
    (.seasonGet s.sch.active s.sch.chosenBy (s.sch.seasons.getD []).length s.sch.programmes.isSome) s) :=
  gated_scheduler (by decide) h

end

/-- Settles O20: the entry is returned whole, and an index beyond 31 is refused. -/
theorem trigGetReplies : Obligations.TrigGetReplies :=
  fun _ _ h => ⟨trigGet_outOfRange h, fun i hi => hi ▸ trigGet_entry h i⟩

/-- Settles O21: the requests, the fire and the follow-on, their order, the targets, and what a fire hands over. -/
theorem triggersFireAndDisarm : Obligations.TriggersFireAndDisarm := by
  refine ⟨⟨fun index s h => ⟨trigDisarm_locked h, fun hw hi => ?beyond, fun hw i hi => ?disarm⟩,
      fun s => seasonGet_replies⟩,
    ⟨fun i t s h hn => ⟨triggerFire_next h hn, ?lastFire, ?count⟩, fun i f s => followOnFire_next⟩,
    fun s => ⟨nextFire_dateDue, fun hd => ⟨fun i => ?followOnNext, fun i => ?fireNext⟩⟩,
    fun n k s => ⟨rfl, fun h => resolve_absent h n, fun ps h => resolve_slot h k⟩,
    fun i time t s => ⟨?script, ?slot, ?empty, fire_hours, fire_target,
      fun r => ⟨afterFire_alone, fun off g => afterFire_followOn⟩⟩⟩
  case beyond => rw [trigDisarm_open h hw, toFin_ge hi]
  case disarm => rw [trigDisarm_open h hw, hi, toFin_val]; rfl
  case lastFire => rw [fire_trig]; exact (afterFire_records t _).1
  case count => rw [fire_trig]; exact (afterFire_records t _).2
  case followOnNext =>
    simp only [nextFire_followOn_iff hd, followOnDue_iff, fireDue_iff]
  case fireNext =>
    simp only [nextFire_fire_iff hd, followOnDue_iff, fireDue_iff]
  case script => rintro n rfl; exact handOver_resolved (resolve_script n s)
  case slot => rintro k n rfl h; exact handOver_resolved h
  case empty => rintro k rfl h; exact handOver_empty h

/-! ## TRIG-SET: the fields of a kind and their ranges (R31, section 2.1) -/

/-- A target is one of the 16 slots or one of the 128 scripts (section 2.1). -/
def KnownTarget (g : Target) : Prop := match g with | .slot n => n < 16 | .script n => n < 128

theorem targetOk_iff (g : Target) : targetOk g = true ↔ KnownTarget g := by
  cases g <;> exact decide_eq_true_iff

section
variable (k : TrigKind) (p : Policy) (a : TrigArgs) (armed : Bool)

/-- The fields every kind has lie in their ranges (section 2.1). -/
def SharedFields : Prop :=
  (∀ o g, a.followOn = some (o, g) → 1 ≤ o ∧ o ≤ 600 ∧ KnownTarget g) ∧ a.staleness ≤ 3600 ∧ a.window.getD 60 ≤ 600

/-- The entry has a target and no hours. -/
def Aimed : Prop := a.hours = none ∧ ∃ g, a.target = some g ∧ KnownTarget g

/-- The fields a kind has, and no others, are given and lie in their ranges (section 2.1). -/
def OwnFields : Prop :=
  match k with
  | .daily => (∃ t, a.time = some t ∧ t ≤ 86399999) ∧ a.period = none ∧ (∃ w, a.weekdays = some w ∧ w ≠ 0) ∧ Aimed a
  | .periodic => (∃ t, a.time = some t ∧ t ≤ 3155759999999) ∧ (∃ t, a.period = some t ∧ t ≤ 86400000) ∧
      a.weekdays = none ∧ Aimed a
  | .once => (∃ t, a.time = some t ∧ t ≤ 3155759999999) ∧ a.period = none ∧ a.weekdays = none ∧ Aimed a
  | .hours => a.time = none ∧ a.period = none ∧ a.weekdays = none ∧ a.target = none ∧
      ∃ h, a.hours = some h ∧ h ≠ 0

/-- The definition a request spells, a catch-up window that is not given being 60 s. -/
def trigSpelled : TrigDef :=
  { kind := k, enabled := armed, time := a.time.getD 0, period := a.period.getD 0
    weekdays := a.weekdays.getD 0, hours := a.hours.getD 0, target := a.target.getD (.slot 0)
    followOn := a.followOn, policy := p, staleness := a.staleness, window := a.window.getD 60 }

variable {k p a armed}

theorem followOnOk_iff {f : Option (Nat × Target)} :
    followOnOk f = true ↔ ∀ o g, f = some (o, g) → 1 ≤ o ∧ o ≤ 600 ∧ KnownTarget g := by
  cases f with
  | none => simp [followOnOk]
  | some x =>
    obtain ⟨o, g⟩ := x
    simp [followOnOk, within, targetOk_iff, and_assoc]

theorem sharedFields_iff :
    (followOnOk a.followOn && decide (a.staleness ≤ 3600) && decide (a.window.getD 60 ≤ 600)) = true ↔
      SharedFields a := by
  rw [Bool.and_eq_true, Bool.and_eq_true, decide_eq_true_eq, decide_eq_true_eq, followOnOk_iff, and_assoc]; rfl

theorem trigOfKind_unshared (h : ¬SharedFields a) : trigOfKind k p a armed = none := by
  rw [← sharedFields_iff, Bool.not_eq_true] at h
  exact if_pos (by simp only [h, Bool.not_false])

theorem trigOfKind_own (h : SharedFields a) (ho : OwnFields k a) :
    trigOfKind k p a armed = some (trigSpelled k p a armed) := by
  rw [← sharedFields_iff] at h
  unfold trigOfKind
  dsimp only
  rw [if_neg (by rw [h]; decide)]
  obtain ⟨kind, time, period, weekdays, hours, target, followOn, policy, staleness, window⟩ := a
  cases k with
  | daily =>
    obtain ⟨⟨t, rfl, ht⟩, rfl, ⟨w, rfl, hw⟩, rfl, g, rfl, hg⟩ := ho
    exact if_pos ⟨by omega, hw, (targetOk_iff g).2 hg⟩
  | periodic =>
    obtain ⟨⟨t, rfl, ht⟩, ⟨q, rfl, hq⟩, rfl, rfl, g, rfl, hg⟩ := ho
    exact if_pos ⟨by unfold Config.maxTime; omega, hq, (targetOk_iff g).2 hg⟩
  | once =>
    obtain ⟨⟨t, rfl, ht⟩, rfl, rfl, rfl, g, rfl, hg⟩ := ho
    exact if_pos ⟨by unfold Config.maxTime; omega, (targetOk_iff g).2 hg⟩
  | hours =>
    obtain ⟨rfl, rfl, rfl, rfl, h, rfl, hh⟩ := ho
    exact if_pos hh

/-- A definition is spelled only by the fields of its kind. -/
theorem own_of_trigOfKind {d : TrigDef} (h : trigOfKind k p a armed = some d) : OwnFields k a := by
  unfold trigOfKind at h
  obtain ⟨kind, time, period, weekdays, hours, target, followOn, policy, staleness, window⟩ := a
  dsimp only at h
  split at h
  next => cases h
  next shared =>
    clear shared
    split at h
    next t w g =>
      split at h
      next hc =>
        obtain ⟨ht, hw, hg⟩ := hc
        exact ⟨⟨t, rfl, by omega⟩, rfl, ⟨w, rfl, hw⟩, rfl, g, rfl, (targetOk_iff g).1 hg⟩
      next => cases h
    next t q g =>
      split at h
      next hc =>
        obtain ⟨ht, hq, hg⟩ := hc
        unfold Config.maxTime at ht
        exact ⟨⟨t, rfl, by omega⟩, ⟨q, rfl, hq⟩, rfl, rfl, g, rfl, (targetOk_iff g).1 hg⟩
      next => cases h
    next t g =>
      split at h
      next hc =>
        obtain ⟨ht, hg⟩ := hc
        unfold Config.maxTime at ht
        exact ⟨⟨t, rfl, by omega⟩, rfl, rfl, rfl, g, rfl, (targetOk_iff g).1 hg⟩
      next => cases h
    next b =>
      split at h
      next hb => exact ⟨rfl, rfl, rfl, rfl, b, rfl, hb⟩
      next => cases h
    next => cases h

theorem trigOfKind_none (h : ¬(SharedFields a ∧ OwnFields k a)) : trigOfKind k p a armed = none := by
  by_cases hs : SharedFields a
  · cases hd : trigOfKind k p a armed with
    | none => rfl
    | some d => exact absurd ⟨hs, own_of_trigOfKind hd⟩ h
  · exact trigOfKind_unshared hs

theorem trigOfArgs_coded (hk : a.kind = .val k) (hp : a.policy = .val p) :
    trigOfArgs a armed = trigOfKind k p a armed := by
  unfold trigOfArgs; simp only [hk, hp]

/-- A code outside the kinds or the policies spells no definition. -/
theorem trigOfArgs_uncoded (h : (∃ c, a.kind = .other c) ∨ ∃ c, a.policy = .other c) : trigOfArgs a armed = none := by
  unfold trigOfArgs
  rcases h with ⟨c, hc⟩ | ⟨c, hc⟩
  · simp only [hc]
  · cases a.kind <;> simp only [hc]

theorem trigOfArgs_enabled {d : TrigDef} (h : trigOfArgs a armed = some d) : d.enabled = armed := by
  cases hk : a.kind with
  | other c => rw [trigOfArgs_uncoded (.inl ⟨c, hk⟩)] at h; cases h
  | val k =>
    cases hp : a.policy with
    | other c => rw [trigOfArgs_uncoded (.inr ⟨c, hp⟩)] at h; cases h
    | val p =>
      rw [trigOfArgs_coded hk hp] at h
      by_cases hf : SharedFields a ∧ OwnFields k a
      · rw [trigOfKind_own hf.1 hf.2] at h; cases h; rfl
      · rw [trigOfKind_none hf] at h; cases h

end

/-! ## TRIG-SET: the entry written (R31) -/

section
variable {index : Nat} {a : TrigArgs} {armed : Bool} {s : State}

theorem trigSet_locked (h : 3 ≤ s.hlc.step) (hw : 2 ≤ s.ps.writeLevel.val) :
    exec (.trigSet index a armed) s = .next (reply 0x18#8 .locked .none s) :=
  (gated_scheduler (by decide) h).trans (congrArg _ (if_pos (tableLocked_locked hw)))

theorem trigSet_open (h : 3 ≤ s.hlc.step) (hw : s.ps.writeLevel.val < 2) : exec (.trigSet index a armed) s =
    .next (match toFin 32 index, trigOfArgs a armed with
      | some i, some d =>
        settle (reply 0x18#8 .ok (.trigSet ((writeTrig i d s).trig i).state ((writeTrig i d s).trig i).next)
          (writeTrig i d s))
      | _, _ => reply 0x18#8 .badValue .none s) :=
  (gated_scheduler (by decide) h).trans (congrArg _ (if_neg (by simp [tableLocked_open hw])))

theorem trigSet_refused (h : 3 ≤ s.hlc.step) (hw : s.ps.writeLevel.val < 2)
    (hb : 32 ≤ index ∨ trigOfArgs a armed = none) :
    exec (.trigSet index a armed) s = .next (reply 0x18#8 .badValue .none s) := by
  rw [trigSet_open h hw]
  rcases hb with hi | hd
  · rw [toFin_ge hi]
  · rw [hd]; cases toFin 32 index <;> rfl

/-- A change of date that has still to be acted on is acted on first (R22). -/
theorem takeDate_eq (s : State) :
    takeDate s = if s.tb.showTime / 86400000 ≠ s.sch.today then evalSeasons s else s :=
  if_congr decide_eq_true_iff rfl rfl

theorem takeDate_tb (s : State) : (takeDate s).tb = s.tb := by
  unfold takeDate
  split
  · exact evalSeasons_tb s
  · rfl

section
variable {i : Trig} {d : TrigDef}

/-- The state in which the entry has its new definition and no pending follow-on, and is not yet armed (R31). -/
def redefined (i : Trig) (d : TrigDef) (s : State) : State :=
  (takeDate s).setTrig i { (takeDate s).trig i with defn := d, followOn := none }

theorem writeTrig_eq (i : Trig) (d : TrigDef) (s : State) :
    writeTrig i d s = armOrDisable i s.tb.showTime (redefined i d s) := rfl

theorem redefined_defn : ((redefined i d s).trig i).defn = d := by unfold redefined; rw [trig_setTrig_self]

theorem writeTrig_disabled (hd : d.enabled = false) :
    ((writeTrig i d s).trig i).state = .disabled ∧ ((writeTrig i d s).trig i).next = none := by
  rw [writeTrig_eq, armOrDisable_disabled (by rw [redefined_defn, hd]), trig_mapTrig_self]
  exact ⟨rfl, rfl⟩

theorem writeTrig_unset (hd : d.enabled = true) (hv : s.tb.valid = false) :
    ((writeTrig i d s).trig i).state = .waitingTime := by
  have unset : (redefined i d s).tb.valid = false := by unfold redefined; rw [setTrig_tb, takeDate_tb, hv]
  rw [writeTrig_eq, armOrDisable_enabled (by rw [redefined_defn, hd]), arm_unset unset, trig_setTrig_self]

theorem trigSet_written (h : 3 ≤ s.hlc.step) (hw : s.ps.writeLevel.val < 2) (hd : trigOfArgs a armed = some d) :
    exec (.trigSet i.val a armed) s = .next (settle (reply 0x18#8 .ok
      (.trigSet ((writeTrig i d s).trig i).state ((writeTrig i d s).trig i).next) (writeTrig i d s))) := by
  rw [trigSet_open h hw, toFin_val, hd]

end

end

/-- Settles O19: the refusals, the fields, the entry written, its arming, and its occurrences. -/
theorem trigSetWrites : Obligations.TrigSetWrites := by
  refine ⟨fun index a armed s h => ⟨trigSet_locked h, trigSet_refused h, trigOfArgs_uncoded, fun k p hk hp => ?fields,
      fun hw i d hi hd => ?written⟩,
    fun i now s => ⟨armOrDisable_enabled, arm_unset, fun hv => ⟨arm_fresh hv, fun l hl => ⟨arm_within hv hl, ?once,
      ?periodic, ?others⟩⟩⟩,
    fun d last t => occurrences_found⟩
  case fields =>
    rw [trigOfArgs_coded hk hp]
    exact ⟨trigOfKind_none, fun hs => trigOfKind_own hs.1 hs.2⟩
  case written =>
    intro v u
    have enabled := trigOfArgs_enabled hd
    have same : u = writeTrig i d s := by rw [writeTrig_eq, redefined, takeDate_eq]
    rw [same, hi]
    exact ⟨enabled, fun hd => writeTrig_disabled (enabled.trans hd), fun hd => writeTrig_unset (enabled.trans hd),
      trigSet_written h hw hd⟩
  case once =>
    intro hw hk
    rw [arm_passed hv hl hw, hk]; rfl
  case periodic =>
    intro hw hk
    rw [arm_passed hv hl hw, hk]; rfl
  case others =>
    rintro hw (hk | hk)
    all_goals rw [arm_passed hv hl hw, hk]; rfl

end Sys2Proof.Machine
end

