-- ==== Sys2Proof/Proofs/Invariants.lean ====
section
/-! PROOF. What every step keeps: the bounds, and the store's protection once it is locked. -/
namespace Sys2Proof.Machine

variable {s t : State} {i : Instr}

/-! ## The bounds (R40, R61, R88, R106, R123) -/

/-- Every command keeps the bounds: a power-on reset empties what they bound, an erase-all erases none of it, and the
other commands keep them. -/
theorem exec_bounded (b : Bounded s) (h : exec i s = .next t) : Bounded t := by
  by_cases hr : i = .powerOnReset
  · subst hr
    obtain rfl := Host.Outcome.next.inj h
    exact powerOnReset_bounded
  by_cases he : i = .eraseAllComplete
  · subst he
    replace h : execEraseAllComplete s = .next t := h
    rcases eraseAllComplete_next (s := s) with hs | hs
    · obtain rfl := Host.Outcome.next.inj (hs.symm.trans h)
      exact b
    · obtain rfl := Host.Outcome.next.inj (hs.symm.trans h)
      exact finishEraseAll_inner.2 b
  · obtain ⟨u, hu, -, -, keeps, -⟩ := exec_keeps (s := s) i ⟨hr, he⟩
    obtain rfl := Host.Outcome.next.inj (hu.symm.trans h)
    exact keeps b

/-- Settles O6: the step is a waiting command, an event of the block's own, or a millisecond. -/
theorem stepKeepsBounded : Obligations.StepKeepsBounded := by
  intro s t b h
  cases hp : s.pending with
  | cons c rest =>
    have command : step s = exec c { s with pending := rest } := by unfold step; rw [hp]
    exact exec_bounded (s := { s with pending := rest }) b (command.symm.trans h)
  | nil =>
    cases hd : nextDue s with
    | some c => exact exec_bounded b ((step_of_due hp hd).symm.trans h)
    | none =>
      obtain rfl := Host.Outcome.next.inj ((step_of_nothing_due hp hd).symm.trans h)
      exact tick_bounded b

/-! ## The protection lock (R52) -/

/-- Once the protection is locked, every command but the completion of an erase-all leaves it, a reset included. -/
theorem exec_protection (hl : s.ps.protLock = true) (hi : i ≠ .eraseAllComplete) (h : exec i s = .next t) :
    protection t = protection s := by
  by_cases hr : i = .powerOnReset
  · subst hr
    obtain rfl := Host.Outcome.next.inj h
    rfl
  · obtain ⟨u, hu, -, -, -, keeps⟩ := exec_keeps (s := s) i ⟨hr, hi⟩
    obtain rfl := Host.Outcome.next.inj (hu.symm.trans h)
    exact keeps hl

end Sys2Proof.Machine
end

