-- ==== Sys2Proof/Proofs/StoreRequests.lean ====
section
/-! PROOF. The Programme Store's requests (R40 to R43, R51 to R57). -/
namespace Sys2Proof.Machine

variable {s : State}

/-- A request of the store is carried out once start-up step 2 has ended (R181). -/
theorem gated_store {k : Byte} {f : State → State} (hk : gateStep k = 2) (h : 2 ≤ s.hlc.step) :
    (Host.Outcome.next (gated k f s) : Host.Outcome State Fault Refusal) = .next (f s) :=
  congrArg _ (gated_at hk h)

section
variable {k : Byte} {f : State → State}

theorem unlessBusy_busy (h : s.ps.op.isSome = true) : unlessBusy k f s = reply k .busy .none s := if_pos h

theorem unlessBusy_free (h : s.ps.op = none) : unlessBusy k f s = f s := if_neg (by simp [h])

/-- A request that waits for no operation in progress. -/
theorem gated_store_busy (hk : gateStep k = 2) (h : 2 ≤ s.hlc.step) (ho : s.ps.op.isSome = true) :
    (Host.Outcome.next (gated k (unlessBusy k f) s) : Host.Outcome State Fault Refusal) =
      .next (reply k .busy .none s) :=
  (gated_store hk h).trans (congrArg _ (unlessBusy_busy ho))

theorem gated_store_free (hk : gateStep k = 2) (h : 2 ≤ s.hlc.step) (ho : s.ps.op = none) :
    (Host.Outcome.next (gated k (unlessBusy k f) s) : Host.Outcome State Fault Refusal) = .next (f s) :=
  (gated_store hk h).trans (congrArg _ (unlessBusy_free ho))

end

theorem within_iff (lo hi v : Nat) : within lo hi v = true ↔ lo ≤ v ∧ v ≤ hi := by simp [within]

/-! ## STORE-PUT (R40) -/

section
variable {start : Bool} {offset : Nat} {data : List Byte}

theorem storePut_badLength (h : 2 ≤ s.hlc.step) (ho : s.ps.op = none) (hd : data.length = 0) :
    exec (.storePut start offset data) s = .next (reply 0x20#8 .badLength .none s) :=
  (gated_store_free (by decide) h ho).trans (congrArg _ (if_pos (.inl hd)))

theorem storePut_lengthOk (h : 2 ≤ s.hlc.step) (ho : s.ps.op = none) (hd : 1 ≤ data.length)
    (hc : data.length ≤ 1024) : exec (.storePut start offset data) s =
      .next (if Config.stagingBytes < offset + data.length then reply 0x20#8 .badValue .none s
        else reply 0x20#8 .ok (.staged (putChunk start offset data s).ps.stagedLen) (putChunk start offset data s)) :=
  (gated_store_free (by decide) h ho).trans (congrArg _ (if_neg (by unfold Config.chunkBytes; omega)))

theorem storePut_badValue (h : 2 ≤ s.hlc.step) (ho : s.ps.op = none) (hd : 1 ≤ data.length)
    (hc : data.length ≤ 1024) (hb : 16384 < offset + data.length) :
    exec (.storePut start offset data) s = .next (reply 0x20#8 .badValue .none s) :=
  (storePut_lengthOk h ho hd hc).trans (congrArg _ (if_pos hb))

theorem storePut_writes (h : 2 ≤ s.hlc.step) (ho : s.ps.op = none) (hd : 1 ≤ data.length)
    (hc : data.length ≤ 1024) (hb : offset + data.length ≤ 16384) : exec (.storePut start offset data) s =
      .next (reply 0x20#8 .ok (.staged (putChunk start offset data s).ps.stagedLen) (putChunk start offset data s)) :=
  (storePut_lengthOk h ho hd hc).trans (congrArg _ (if_neg (by unfold Config.stagingBytes; omega)))

/-- The buffer that a chunk is written into: emptied first where the chunk starts a new item (R40). -/
theorem base_wf (hm : Memory.wf s.ps.staging = true) : Memory.wf (if start then [] else s.ps.staging) = true := by
  cases start
  · exact hm
  · rfl

theorem read_base (a : Nat) : Memory.read (if start then [] else s.ps.staging) a =
    if start then 0 else Memory.read s.ps.staging a := by
  cases start <;> rfl

theorem putChunk_wf (hm : Memory.wf s.ps.staging = true) :
    Memory.wf (putChunk start offset data s).ps.staging = true :=
  Memory.writeBytes_wf _ _ _ (base_wf hm)

theorem read_putChunk (hm : Memory.wf s.ps.staging = true) (a : Nat) :
    Memory.read (putChunk start offset data s).ps.staging a =
      if offset ≤ a then data[a - offset]?.getD (if start then 0 else Memory.read s.ps.staging a)
      else if start then 0 else Memory.read s.ps.staging a := by
  rw [← read_base]
  exact Memory.read_writeBytes data _ offset a (base_wf hm)

theorem read_putChunk_inside (hm : Memory.wf s.ps.staging = true) {k : Nat} (hk : k < data.length) :
    Memory.read (putChunk start offset data s).ps.staging (offset + k) = data.getD k 0 := by
  rw [read_putChunk hm, if_pos (by omega), Nat.add_sub_cancel_left]
  simp [hk]

theorem read_putChunk_outside (hm : Memory.wf s.ps.staging = true) {a : Nat}
    (ha : a < offset ∨ offset + data.length ≤ a) : Memory.read (putChunk start offset data s).ps.staging a =
      if start then 0 else Memory.read s.ps.staging a := by
  rw [read_putChunk hm]
  split
  · rw [List.getElem?_eq_none (by omega), Option.getD_none]
  · rfl

end

/-- Settles O22: the refusals in their order, then the buffer that the chunk leaves, read byte by byte. -/
theorem storePutWrites : Obligations.StorePutWrites :=
  fun start offset data s h hm => ⟨gated_store_busy (by decide) h, storePut_badLength h, storePut_badValue h,
    fun ho hd hc hb => ⟨(putChunk start offset data s).ps.staging, storePut_writes h ho hd hc hb, putChunk_wf hm,
      fun _ hk => read_putChunk_inside hm hk, fun _ ha => read_putChunk_outside hm ha⟩⟩

/-! ## STORE-READ (R57) -/

/-- What STORE-READ answers once its values are in range and no operation is in progress. -/
def readItem (id : ItemId) (offset count : Nat) (s : State) : State :=
  if s.ps.readLock then reply 0x25#8 .locked .none s
  else
    match findItem id s with
    | none => reply 0x25#8 .notFound .none s
    | some i =>
      if i.content.length ≤ offset then reply 0x25#8 .badValue .none s
      else reply 0x25#8 .ok (.storeRead ((i.content.drop offset).take count) i.usable) s

section
variable {id : ItemId} {offset count : Nat}

theorem readItem_locked (hl : s.ps.readLock = true) :
    readItem id offset count s = reply 0x25#8 .locked .none s := if_pos hl

theorem readItem_notFound (hl : s.ps.readLock = false) (hf : findItem id s = none) :
    readItem id offset count s = reply 0x25#8 .notFound .none s := by
  unfold readItem; simp only [hl, hf]; rfl

theorem readItem_beyond {x : Item} (hl : s.ps.readLock = false) (hf : findItem id s = some x)
    (hx : x.content.length ≤ offset) : readItem id offset count s = reply 0x25#8 .badValue .none s := by
  unfold readItem; simp only [hl, hf]; exact if_pos hx

theorem readItem_bytes {x : Item} (hl : s.ps.readLock = false) (hf : findItem id s = some x)
    (hx : offset < x.content.length) : readItem id offset count s =
      reply 0x25#8 .ok (.storeRead ((x.content.drop offset).take count) x.usable) s := by
  unfold readItem; simp only [hl, hf]; exact if_neg (Nat.not_le.2 hx)

end

section
variable {kind number offset count : Nat}

theorem storeRead_run (h : 1 ≤ s.hlc.step) : exec (.storeRead kind number offset count) s =
    .next (match itemId kind number with
      | none => reply 0x25#8 .badValue .none s
      | some id =>
        if !within 1 Config.chunkBytes count then reply 0x25#8 .badValue .none s
        else if s.hlc.step < gateStep 0x25#8 ∨ s.ps.op.isSome = true then reply 0x25#8 .busy .none s
        else readItem id offset count s) :=
  congrArg Host.Outcome.next (if_neg (by omega))

/-- The values are looked at first (R57). -/
theorem storeRead_badValue (h : 1 ≤ s.hlc.step) (hv : itemId kind number = none ∨ count = 0 ∨ 1024 < count) :
    exec (.storeRead kind number offset count) s = .next (reply 0x25#8 .badValue .none s) := by
  rw [storeRead_run h]
  cases hid : itemId kind number with
  | none => rfl
  | some id =>
    have bad : within 1 Config.chunkBytes count = false := by
      simp only [hid, reduceCtorEq, false_or] at hv
      rw [Bool.eq_false_iff, Ne, within_iff, Config.chunkBytes]
      omega
    simp [bad]

section
variable {id : ItemId} (hid : itemId kind number = some id) (h1 : 1 ≤ count) (h2 : count ≤ 1024)
include hid h1 h2

theorem storeRead_valuesOk (h : 1 ≤ s.hlc.step) : exec (.storeRead kind number offset count) s =
    .next (if s.hlc.step < gateStep 0x25#8 ∨ s.ps.op.isSome = true then reply 0x25#8 .busy .none s
      else readItem id offset count s) := by
  rw [storeRead_run h, hid]
  exact congrArg _ (if_neg (by simp [(within_iff 1 Config.chunkBytes count).2 ⟨h1, h2⟩]))

theorem storeRead_busy (h : 1 ≤ s.hlc.step) (hb : s.hlc.step < 2 ∨ s.ps.op.isSome = true) :
    exec (.storeRead kind number offset count) s = .next (reply 0x25#8 .busy .none s) :=
  (storeRead_valuesOk hid h1 h2 h).trans (congrArg _ (if_pos hb))

theorem storeRead_answers (h : 2 ≤ s.hlc.step) (ho : s.ps.op = none) :
    exec (.storeRead kind number offset count) s = .next (readItem id offset count s) := by
  have started : ¬s.hlc.step < gateStep 0x25#8 := by rw [show gateStep 0x25#8 = 2 by decide]; omega
  exact (storeRead_valuesOk hid h1 h2 (by omega)).trans (congrArg _ (if_neg (by simp [ho, started])))

end

end

/-- Settles O24: the checks of R57 one after the other. -/
theorem storeReadReplies : Obligations.StoreReadReplies := by
  refine fun kind number offset count s h1 => ⟨storeRead_badValue h1, fun id hid hc hc' =>
    ⟨storeRead_busy hid hc hc' h1, fun h ho => ?_⟩⟩
  rw [storeRead_answers hid hc hc' h ho]
  exact ⟨fun hl => congrArg _ (readItem_locked hl), fun hl hf => congrArg _ (readItem_notFound hl hf),
    fun x hl hf hx => congrArg _ (readItem_beyond hl hf hx), fun x hl hf hx => congrArg _ (readItem_bytes hl hf hx)⟩

/-! ## STORE-LIST and STORE-SUM (R55, R56) -/

/-- With no commit in progress no blocks are reserved (R39). -/
theorem freeBlocks_free (ho : s.ps.op = none) : freeBlocks s = 896 - usedBlocks s.ps.items := by
  unfold freeBlocks; rw [ho]; rfl

theorem storeList_replies (h : 2 ≤ s.hlc.step) (ho : s.ps.op = none) : exec .storeList s = .next (reply 0x24#8 .ok
    (.storeList (s.ps.items.map Item.view) (896 - usedBlocks s.ps.items) s.ps.stagedLen s.ps.writeLevel s.ps.readLock
      s.ps.protLock (if s.ps.readLock then none else some s.ps.identity)) s) := by
  rw [← freeBlocks_free ho]
  exact gated_store_free (by decide) h ho

theorem storeSum_replies (h : 2 ≤ s.hlc.step) (ho : s.ps.op = none) :
    exec .storeSum s = .next (reply 0x26#8 .ok (.storeSum (storeSum s)) s) :=
  gated_store_free (by decide) h ho

theorem storeSum_locked (hl : s.ps.readLock = true) : storeSum s =
    BitVec.ofNat 16 (protectionWord s + (s.ps.identity.toList.map BitVec.toNat).sum) := if_pos hl

theorem storeSum_open (hl : s.ps.readLock = false) : storeSum s =
    BitVec.ofNat 16 (protectionWord s + ((s.ps.items.filter (·.usable)).map fun i => sumWords i.content).sum) :=
  if_neg (by simp [hl])

/-! ## STORE-PROTECT, STORE-LOCK and STORE-IDENTITY (R51 to R53) -/

section
variable {level : Nat} {readLock : Bool}

theorem storeProtect_outOfRange (h : 2 ≤ s.hlc.step) (hl : 3 < level) :
    exec (.storeProtect level readLock) s = .next (reply 0x27#8 .badValue .none s) := by
  refine (gated_store (by decide) h).trans ?_
  rw [toFin_ge hl]

theorem storeProtect_inRange (h : 2 ≤ s.hlc.step) (l : Fin 4) : exec (.storeProtect l.val readLock) s =
    .next (unlessBusy 0x27#8 (fun s =>
      if s.ps.protLock then reply 0x27#8 .locked .none s
      else reply 0x27#8 .ok .none { s with ps.writeLevel := l, ps.readLock := readLock }) s) := by
  refine (gated_store (by decide) h).trans ?_
  rw [toFin_val]

theorem storeProtect_busy (h : 2 ≤ s.hlc.step) (hl : level ≤ 3) (ho : s.ps.op.isSome = true) :
    exec (.storeProtect level readLock) s = .next (reply 0x27#8 .busy .none s) :=
  (storeProtect_inRange h ⟨level, by omega⟩).trans (congrArg _ (unlessBusy_busy ho))

theorem storeProtect_locked (h : 2 ≤ s.hlc.step) (hl : level ≤ 3) (ho : s.ps.op = none)
    (hp : s.ps.protLock = true) : exec (.storeProtect level readLock) s = .next (reply 0x27#8 .locked .none s) :=
  (storeProtect_inRange h ⟨level, by omega⟩).trans (congrArg _ ((unlessBusy_free ho).trans (if_pos hp)))

theorem storeProtect_protects (h : 2 ≤ s.hlc.step) (l : Fin 4) (ho : s.ps.op = none) (hp : s.ps.protLock = false) :
    exec (.storeProtect l.val readLock) s =
      .next (reply 0x27#8 .ok .none { s with ps.writeLevel := l, ps.readLock := readLock }) :=
  (storeProtect_inRange h l).trans (congrArg _ ((unlessBusy_free ho).trans (if_neg (by simp [hp]))))

end

section
variable {w0 w1 w2 w3 : Nat}

theorem storeIdentity_outOfRange (h : 2 ≤ s.hlc.step)
    (hw : 65535 < w0 ∨ 65535 < w1 ∨ 65535 < w2 ∨ 65535 < w3) :
    exec (.storeIdentity w0 w1 w2 w3) s = .next (reply 0x29#8 .badValue .none s) :=
  (gated_store (by decide) h).trans (congrArg _ (if_neg (by simp; omega)))

section
variable (h : 2 ≤ s.hlc.step) (h0 : w0 ≤ 65535) (h1 : w1 ≤ 65535) (h2 : w2 ≤ 65535) (h3 : w3 ≤ 65535)
include h h0 h1 h2 h3

theorem storeIdentity_inRange : exec (.storeIdentity w0 w1 w2 w3) s =
    .next (unlessBusy 0x29#8 (fun s =>
      if s.ps.protLock then reply 0x29#8 .locked .none s
      else reply 0x29#8 .ok .none { s with ps.identity :=
        #v[BitVec.ofNat 16 w0, BitVec.ofNat 16 w1, BitVec.ofNat 16 w2, BitVec.ofNat 16 w3] }) s) :=
  (gated_store (by decide) h).trans (congrArg _ (if_pos (by simp [h0, h1, h2, h3])))

theorem storeIdentity_busy (ho : s.ps.op.isSome = true) :
    exec (.storeIdentity w0 w1 w2 w3) s = .next (reply 0x29#8 .busy .none s) :=
  (storeIdentity_inRange h h0 h1 h2 h3).trans (congrArg _ (unlessBusy_busy ho))

theorem storeIdentity_locked (ho : s.ps.op = none) (hp : s.ps.protLock = true) :
    exec (.storeIdentity w0 w1 w2 w3) s = .next (reply 0x29#8 .locked .none s) :=
  (storeIdentity_inRange h h0 h1 h2 h3).trans (congrArg _ ((unlessBusy_free ho).trans (if_pos hp)))

theorem storeIdentity_writes (ho : s.ps.op = none) (hp : s.ps.protLock = false) :
    exec (.storeIdentity w0 w1 w2 w3) s = .next (reply 0x29#8 .ok .none { s with ps.identity :=
      #v[BitVec.ofNat 16 w0, BitVec.ofNat 16 w1, BitVec.ofNat 16 w2, BitVec.ofNat 16 w3] }) :=
  (storeIdentity_inRange h h0 h1 h2 h3).trans (congrArg _ ((unlessBusy_free ho).trans (if_neg (by simp [hp]))))

end

end

/-- Settles O25: each request by its refusals in order and its answer. -/
theorem storeListSumProtectAndIdentity : Obligations.StoreListSumProtectAndIdentity := by
  refine ⟨fun s h => ⟨fun ho => ⟨gated_store_busy (by decide) h ho, gated_store_busy (by decide) h ho⟩,
      fun ho => ⟨storeList_replies h ho, fun hl => ?locked, fun hl => ?opened⟩⟩,
    fun s h => ⟨fun level readLock => ⟨storeProtect_outOfRange h, storeProtect_busy h, storeProtect_locked h,
        fun l hl => hl ▸ storeProtect_protects h l⟩,
      fun w0 w1 w2 w3 => ⟨storeIdentity_outOfRange h, fun h0 h1 h2 h3 => ⟨storeIdentity_busy h h0 h1 h2 h3,
        storeIdentity_locked h h0 h1 h2 h3, storeIdentity_writes h h0 h1 h2 h3⟩⟩⟩⟩
  case locked => rw [storeSum_replies h ho, storeSum_locked hl]; rfl
  case opened => rw [storeSum_replies h ho, storeSum_open hl]; rfl

/-- Settles O26: the request, the refusals while the lock is set, and the protection that every command leaves. -/
theorem protectionLockHolds : Obligations.ProtectionLockHolds :=
  ⟨fun _ h => ⟨gated_store_busy (by decide) h, gated_store_free (by decide) h, fun ho hp =>
      ⟨fun _ _ hl => storeProtect_locked h hl ho hp,
        fun _ _ _ _ h0 h1 h2 h3 => storeIdentity_locked h h0 h1 h2 h3 ho hp⟩⟩,
    fun _ _ _ hl hi h => exec_protection hl hi h⟩

end Sys2Proof.Machine
end

