-- ==== Sys2Proof/Proofs/Scripts.lean ====
section
/-! PROOF. The content of a SCRIPT item: its header, its cues and their fields (R45, section 10.6). -/
namespace Sys2Proof.Machine

theorem toFin_eq_some {n k : Nat} {i : Fin n} : toFin n k = some i ↔ k = i.val := by
  unfold toFin
  split
  · rw [Option.some.injEq, Fin.ext_iff]
  · constructor
    · intro h; cases h
    · rintro rfl; omega

/-! ## The fields of a cue -/

section
variable {bs r : List Byte} {c : CueKind}

theorem parseGoal_eq_some {b : Byte} {g : Goal} : parseGoal b = some g ↔
    (b.toNat = 0 ∧ g = .opened) ∨ (b.toNat = 1 ∧ g = .closed) := by
  unfold parseGoal
  split
  · next h => simp [h, eq_comm]
  · next h => simp [h, eq_comm]
  · next h0 h1 => simpa using ⟨fun h => (h0 h).elim, fun h => (h1 h).elim⟩

theorem parseDir_eq_some {b : Byte} {d : TurnDir} : parseDir b = some d ↔
    (b.toNat = 0 ∧ d = .shortest) ∨ (b.toNat = 1 ∧ d = .cw) ∨ (b.toNat = 2 ∧ d = .ccw) := by
  unfold parseDir
  split
  · next h => simp [h, eq_comm]
  · next h => simp [h, eq_comm]
  · next h => simp [h, eq_comm]
  · next h0 h1 h2 => simpa using ⟨fun h => (h0 h).elim, fun h => (h1 h).elim, fun h => (h2 h).elim⟩

theorem parsePairs_zero {ps : List (Fig × Int)} : parsePairs 0 bs = some (ps, r) ↔ ps = [] ∧ r = bs := by
  simp [parsePairs, eq_comm]

theorem parsePairs_succ {k : Nat} {ps : List (Fig × Int)} : parsePairs (k + 1) bs = some (ps, r) ↔
    ∃ x lo hi rest qs, ∃ f : Fig, bs = x :: lo :: hi :: rest ∧ x.toNat = f.val ∧ parsePairs k rest = some (qs, r) ∧
      ps = (f, sle16 lo hi) :: qs := by
  constructor
  · intro h
    unfold parsePairs at h
    split at h
    next => omega
    next k' x lo hi rest hk =>
      cases hk
      split at h
      next f qs r' hf hq =>
        cases h
        exact ⟨x, lo, hi, rest, qs, f, rfl, toFin_eq_some.1 hf, hq, rfl⟩
      next => cases h
    next => cases h
  · rintro ⟨x, lo, hi, rest, qs, f, rfl, hf, hq, rfl⟩
    simp only [parsePairs, toFin_eq_some.2 hf, hq]

theorem parseFields_strike : parseFields 0 bs = some (c, r) ↔ ∃ x v, ∃ b : Bell, bs = x :: v :: r ∧
    x.toNat = b.val ∧ 1 ≤ v.toNat ∧ v.toNat ≤ 8 ∧ c = .strike b v.toNat := by
  constructor
  · intro h
    rcases bs with _ | ⟨x, _ | ⟨v, rest⟩⟩
    · cases h
    · cases h
    · simp only [parseFields, bind, Option.bind_eq_some_iff, Option.ite_none_right_eq_some, toFin_eq_some,
        within_iff] at h
      obtain ⟨b, hx, ⟨h1, h8⟩, e⟩ := h
      cases e
      exact ⟨x, v, b, rfl, hx, h1, h8, rfl⟩
  · rintro ⟨x, v, b, rfl, hx, h1, h8, rfl⟩
    simp [parseFields, toFin_eq_some.2 hx, (within_iff 1 8 _).2 ⟨h1, h8⟩]

theorem parseFields_damp : parseFields 1 bs = some (c, r) ↔ ∃ x y z, bs = x :: y :: z :: r ∧
    0 < x.toNat + 256 * y.toNat + 65536 * z.toNat ∧ x.toNat + 256 * y.toNat + 65536 * z.toNat < 2 ^ 20 ∧
    c = .damp (BitVec.ofNat 20 (x.toNat + 256 * y.toNat + 65536 * z.toNat)) := by
  constructor
  · intro h
    rcases bs with _ | ⟨x, _ | ⟨y, _ | ⟨z, rest⟩⟩⟩
    · cases h
    · cases h
    · cases h
    · simp only [parseFields, Option.ite_none_right_eq_some] at h
      obtain ⟨⟨h0, h20⟩, e⟩ := h
      cases e
      exact ⟨x, y, z, rfl, h0, h20, rfl⟩
  · rintro ⟨x, y, z, rfl, h0, h20, rfl⟩
    exact if_pos ⟨h0, h20⟩

/-- A MOVE's own values lie in their ranges, and no figure is named twice (R45). -/
theorem moveOk_iff {dur w gap late k : Nat} {ps : List (Fig × Int)} :
    (within 200 60000 dur && decide (w ≤ 100) && decide (gap ≤ 2000) && decide (late ≤ 2000) && within 1 12 k &&
      decide (ps.map Prod.fst).Nodup) = true ↔
      200 ≤ dur ∧ dur ≤ 60000 ∧ w ≤ 100 ∧ gap ≤ 2000 ∧ late ≤ 2000 ∧ 1 ≤ k ∧ k ≤ 12 ∧ (ps.map Prod.fst).Nodup := by
  simp only [Bool.and_eq_true, within_iff, decide_eq_true_eq, and_assoc]

theorem parseFields_move : parseFields 2 bs = some (c, r) ↔ ∃ d0 d1 w g0 g1 t0 t1 k rest ps,
    bs = d0 :: d1 :: w :: g0 :: g1 :: t0 :: t1 :: k :: rest ∧ parsePairs k.toNat rest = some (ps, r) ∧
    200 ≤ le16 d0 d1 ∧ le16 d0 d1 ≤ 60000 ∧ w.toNat ≤ 100 ∧ le16 g0 g1 ≤ 2000 ∧ le16 t0 t1 ≤ 2000 ∧ 1 ≤ k.toNat ∧
    k.toNat ≤ 12 ∧ (ps.map Prod.fst).Nodup ∧ c = .move (le16 d0 d1) w.toNat (le16 g0 g1) (le16 t0 t1) ps := by
  constructor
  · intro h
    rcases bs with _ | ⟨d0, _ | ⟨d1, _ | ⟨w, _ | ⟨g0, _ | ⟨g1, _ | ⟨t0, _ | ⟨t1, _ | ⟨k, rest⟩⟩⟩⟩⟩⟩⟩⟩
    case cons.cons.cons.cons.cons.cons.cons.cons =>
      simp only [parseFields, bind, Option.bind_eq_some_iff, Option.ite_none_right_eq_some, moveOk_iff] at h
      obtain ⟨⟨ps, r'⟩, hp, ⟨hd, hd', hw, hg, ht, hk, hk', hn⟩, e⟩ := h
      cases e
      exact ⟨d0, d1, w, g0, g1, t0, t1, k, rest, ps, rfl, hp, hd, hd', hw, hg, ht, hk, hk', hn, rfl⟩
    all_goals cases h
  · rintro ⟨d0, d1, w, g0, g1, t0, t1, k, rest, ps, rfl, hp, hd, hd', hw, hg, ht, hk, hk', hn, rfl⟩
    simp only [parseFields, hp, bind, Option.bind_some]
    exact if_pos (moveOk_iff.2 ⟨hd, hd', hw, hg, ht, hk, hk', hn⟩)

theorem parseFields_door : parseFields 3 bs = some (c, r) ↔ ∃ x y, ∃ d : Door, ∃ g, bs = x :: y :: r ∧
    x.toNat = d.val ∧ ((y.toNat = 0 ∧ g = .opened) ∨ (y.toNat = 1 ∧ g = .closed)) ∧ c = .door d g := by
  constructor
  · intro h
    rcases bs with _ | ⟨x, _ | ⟨y, rest⟩⟩
    · cases h
    · cases h
    · simp only [parseFields, bind, Option.bind_eq_some_iff, toFin_eq_some, parseGoal_eq_some] at h
      obtain ⟨d, hx, g, hg, e⟩ := h
      cases e
      exact ⟨x, y, d, g, rfl, hx, hg, rfl⟩
  · rintro ⟨x, y, d, g, rfl, hx, hg, rfl⟩
    simp [parseFields, toFin_eq_some.2 hx, parseGoal_eq_some.2 hg]

theorem parseFields_turn : parseFields 4 bs = some (c, r) ↔ ∃ x y, ∃ p : Fin 12, ∃ d, bs = x :: y :: r ∧
    x.toNat = p.val ∧ ((y.toNat = 0 ∧ d = .shortest) ∨ (y.toNat = 1 ∧ d = .cw) ∨ (y.toNat = 2 ∧ d = .ccw)) ∧
    c = .turn p d := by
  constructor
  · intro h
    rcases bs with _ | ⟨x, _ | ⟨y, rest⟩⟩
    · cases h
    · cases h
    · simp only [parseFields, bind, Option.bind_eq_some_iff, toFin_eq_some, parseDir_eq_some] at h
      obtain ⟨p, hx, d, hd, e⟩ := h
      cases e
      exact ⟨x, y, p, d, rfl, hx, hd, rfl⟩
  · rintro ⟨x, y, p, d, rfl, hx, hd, rfl⟩
    simp [parseFields, toFin_eq_some.2 hx, parseDir_eq_some.2 hd]

theorem edge_eq_some {n : Nat} {e : Edge} :
    (match n with | 0 => some Edge.rise | 1 => some Edge.fall | _ => none) = some e ↔
      (n = 0 ∧ e = .rise) ∨ (n = 1 ∧ e = .fall) := by
  rcases n with _ | _ | n <;> simp [eq_comm]

theorem parseFields_mark : parseFields 5 bs = some (c, r) ↔ ∃ x y x0 x1 x2 x3 h0 h1, ∃ i : GInput, ∃ e,
    bs = x :: y :: x0 :: x1 :: x2 :: x3 :: h0 :: h1 :: r ∧ x.toNat = i.val ∧
    ((y.toNat = 0 ∧ e = .rise) ∨ (y.toNat = 1 ∧ e = .fall)) ∧ le32 x0 x1 x2 x3 ≤ 600000 ∧
    10 ≤ le16 h0 h1 ∧ le16 h0 h1 ≤ 5000 ∧ c = .mark i e (le32 x0 x1 x2 x3) (le16 h0 h1) := by
  constructor
  · intro h
    rcases bs with _ | ⟨x, _ | ⟨y, _ | ⟨x0, _ | ⟨x1, _ | ⟨x2, _ | ⟨x3, _ | ⟨h0, _ | ⟨h1, rest⟩⟩⟩⟩⟩⟩⟩⟩
    case cons.cons.cons.cons.cons.cons.cons.cons =>
      simp only [parseFields, bind, Option.bind_eq_some_iff, Option.ite_none_right_eq_some, toFin_eq_some,
        within_iff] at h
      obtain ⟨i, hx, e, he, ⟨ho, hh, hh'⟩, eq⟩ := h
      cases eq
      exact ⟨x, y, x0, x1, x2, x3, h0, h1, i, e, rfl, hx, edge_eq_some.1 he, ho, hh, hh', rfl⟩
    all_goals cases h
  · rintro ⟨x, y, x0, x1, x2, x3, h0, h1, i, e, rfl, hx, he, ho, hh, hh', rfl⟩
    simp only [parseFields, bind, toFin_eq_some.2 hx, Option.bind_some]
    refine Option.bind_eq_some_iff.2 ⟨e, edge_eq_some.2 he, if_pos ⟨ho, (within_iff _ _ _).2 ⟨hh, hh'⟩⟩⟩

theorem parseFields_lamp : parseFields 6 bs = some (c, r) ↔ ∃ x l f0 f1, ∃ ch : Lamp,
    bs = x :: l :: f0 :: f1 :: r ∧ x.toNat = ch.val ∧ le16 f0 f1 ≤ 10000 ∧ c = .lamp ch l (le16 f0 f1) := by
  constructor
  · intro h
    rcases bs with _ | ⟨x, _ | ⟨l, _ | ⟨f0, _ | ⟨f1, rest⟩⟩⟩⟩
    case cons.cons.cons.cons =>
      simp only [parseFields, bind, Option.bind_eq_some_iff, Option.ite_none_right_eq_some, toFin_eq_some] at h
      obtain ⟨ch, hx, hf, e⟩ := h
      cases e
      exact ⟨x, l, f0, f1, ch, rfl, hx, hf, rfl⟩
    all_goals cases h
  · rintro ⟨x, l, f0, f1, ch, rfl, hx, hf, rfl⟩
    simp [parseFields, toFin_eq_some.2 hx, hf]

theorem parseFields_end : parseFields 7 bs = some (c, r) ↔ c = .finish ∧ r = bs := by
  simp [parseFields, eq_comm]

theorem parseFields_unknown {k : Nat} (h : 8 ≤ k) : parseFields k bs = none := by
  unfold parseFields
  split
  case h_9 => rfl
  all_goals omega

end

/-! ## The cues -/

section
variable {bs r : List Byte} {c : Cue}

theorem parseCue_eq_some : parseCue bs = some (c, r) ↔
    ∃ o0 o1 o2 o3 k rest, bs = o0 :: o1 :: o2 :: o3 :: k :: rest ∧ c.offset ≤ 600000 ∧
      c.offset = le32 o0 o1 o2 o3 ∧ parseFields k.toNat rest = some (c.kind, r) := by
  constructor
  · intro h
    rcases bs with _ | ⟨o0, _ | ⟨o1, _ | ⟨o2, _ | ⟨o3, _ | ⟨k, rest⟩⟩⟩⟩⟩
    case cons.cons.cons.cons.cons =>
      cases hf : parseFields k.toNat rest with
      | none => simp [parseCue, hf] at h
      | some f =>
        simp only [parseCue, hf, Option.ite_none_right_eq_some] at h
        obtain ⟨ho, e⟩ := h
        cases e
        exact ⟨o0, o1, o2, o3, k, rest, rfl, ho, rfl, hf⟩
    all_goals simp [parseCue] at h
  · rintro ⟨o0, o1, o2, o3, k, rest, rfl, ho, hc, hf⟩
    simp only [parseCue, hf]
    rw [← hc]
    exact if_pos ho

theorem laneCOk_iff (k : CueKind) : k.laneCOk = true ↔
    (∀ d w g t ps, k ≠ .move d w g t ps) ∧ (∀ d g, k ≠ .door d g) ∧ ∀ p d, k ≠ .turn p d := by
  cases k <;> simp [CueKind.laneCOk]

/-- A cue that may stand where `n` cues are still to come, after one at offset `low` (R45). -/
def GoodCue (lane : Lane) (n low : Nat) (c : Cue) : Prop :=
  low ≤ c.offset ∧ (c.kind = .finish ↔ n = 0) ∧
    (lane = .C → (∀ d w g t ps, c.kind ≠ .move d w g t ps) ∧ (∀ d g, c.kind ≠ .door d g) ∧ ∀ p d, c.kind ≠ .turn p d)

variable {lane : Lane} {n i low : Nat}

/-- The condition under which the parser takes a cue as failing. -/
theorem badCue_iff : (c.offset < low ∨ (lane = .C ∧ c.kind.laneCOk = false) ∨
    (decide (c.kind = .finish) ≠ decide (n = 0))) ↔ ¬GoodCue lane n low c := by
  have last : decide (c.kind = .finish) ≠ decide (n = 0) ↔ ¬(c.kind = .finish ↔ n = 0) := by simp
  have held : (lane = .C ∧ c.kind.laneCOk = false) ↔ ¬(lane = .C → c.kind.laneCOk = true) := by simp
  unfold GoodCue
  rw [last, held, laneCOk_iff, not_and_or, not_and_or]
  exact or_congr Nat.not_le.symm or_comm

theorem parseCues_zero : parseCues lane 0 i low bs = if bs = [] then .ok [] else .error none := by
  simp [parseCues]

/-- The first cue that does not pass is named (log entry 16). -/
theorem parseCues_failing (h : ∀ c r, parseCue bs = some (c, r) → ¬GoodCue lane n low c) :
    parseCues lane (n + 1) i low bs = .error (some i) := by
  unfold parseCues
  split
  next => rfl
  next c r hc => exact if_pos (badCue_iff.2 (h c r hc))

theorem parseCues_passing (hc : parseCue bs = some (c, r)) (h : GoodCue lane n low c) :
    parseCues lane (n + 1) i low bs =
      match parseCues lane n (i + 1) c.offset r with
      | .ok cs => .ok (c :: cs)
      | .error e => .error e := by
  simp only [parseCues, hc]
  exact if_neg (badCue_iff.not_left.2 h)

theorem parseCues_error {e : Option Nat} (hc : parseCue bs = some (c, r)) (h : GoodCue lane n low c)
    (he : parseCues lane n (i + 1) c.offset r = .error e) : parseCues lane (n + 1) i low bs = .error e := by
  rw [parseCues_passing hc h, he]

theorem parseCues_ok {cs : List Cue} (hc : parseCue bs = some (c, r)) (h : GoodCue lane n low c)
    (hr : parseCues lane n (i + 1) c.offset r = .ok cs) : parseCues lane (n + 1) i low bs = .ok (c :: cs) := by
  rw [parseCues_passing hc h, hr]

end

/-! ## The header -/

theorem parseScript_short {bs : List Byte} (h : bs.length < 4) : parseScript bs = .error none := by
  unfold parseScript
  split
  · simp only [List.length_cons] at h; omega
  · rfl

section
variable {l p n0 n1 : Byte} {rest : List Byte}

/-- The header names a lane, a policy and 1 to 512 cues (R45). -/
def GoodHeader (l p n0 n1 : Byte) : Prop := l.toNat ≤ 1 ∧ p.toNat ≤ 1 ∧ 1 ≤ le16 n0 n1 ∧ le16 n0 n1 ≤ 512

/-- The lane that the header's first byte names. -/
def laneOf (l : Byte) : Lane := if l.toNat = 0 then .M else .C

theorem parseScript_badHeader (h : ¬GoodHeader l p n0 n1) : parseScript (l :: p :: n0 :: n1 :: rest) = .error none :=
  if_neg (by rwa [within_iff])

theorem parseScript_goodHeader (h : GoodHeader l p n0 n1) : parseScript (l :: p :: n0 :: n1 :: rest) =
    match parseCues (laneOf l) (le16 n0 n1) 0 0 rest with
    | .ok cs => .ok { lane := laneOf l, abortPolicy := decide (p.toNat = 1), cues := cs }
    | .error e => .error e :=
  if_pos (by rwa [within_iff])

theorem parseScript_error {e : Option Nat} (h : GoodHeader l p n0 n1)
    (he : parseCues (laneOf l) (le16 n0 n1) 0 0 rest = .error e) :
    parseScript (l :: p :: n0 :: n1 :: rest) = .error e := by
  rw [parseScript_goodHeader h, he]

theorem parseScript_ok {cs : List Cue} (h : GoodHeader l p n0 n1)
    (hc : parseCues (laneOf l) (le16 n0 n1) 0 0 rest = .ok cs) : parseScript (l :: p :: n0 :: n1 :: rest) =
      .ok { lane := laneOf l, abortPolicy := decide (p.toNat = 1), cues := cs } := by
  rw [parseScript_goodHeader h, hc]

end

end Sys2Proof.Machine
end

