-- ==== Sys2Proof/Proofs/StoreOperations.lean ====
section
/-! PROOF. STORE-COMMIT, STORE-ERASE and STORE-ERASE-ALL: their checks in order and the operations they begin (R38, R39,
R41, R43, R51, R54). -/
namespace Sys2Proof.Machine

variable {s : State}

/-! ## Items, protection and validity (R38, R46, R51) -/

theorem itemId_eq_some {kind number : Nat} {id : ItemId} : itemId kind number = some id ↔
    (kind = 0 ∧ number = 0 ∧ id = ⟨.voicing, 0⟩) ∨ (kind = 1 ∧ number = 0 ∧ id = ⟨.figures, 0⟩) ∨
    (kind = 2 ∧ number = 0 ∧ id = ⟨.seasons, 0⟩) ∨ (kind = 3 ∧ number = 0 ∧ id = ⟨.programmes, 0⟩) ∨
    (kind = 4 ∧ number = 0 ∧ id = ⟨.triggers, 0⟩) ∨ (kind = 5 ∧ number < 128 ∧ id = ⟨.script, number⟩) := by
  unfold itemId
  split
  next => simp [eq_comm]
  next => simp [eq_comm]
  next => simp [eq_comm]
  next => simp [eq_comm]
  next => simp [eq_comm]
  next n => simp [eq_comm]
  next script voicing figures seasons programmes triggers =>
    refine iff_of_false (by simp) ?_
    rintro (⟨hk, hn, -⟩ | ⟨hk, hn, -⟩ | ⟨hk, hn, -⟩ | ⟨hk, hn, -⟩ | ⟨hk, hn, -⟩ | ⟨hk, -, -⟩)
    · exact voicing hk hn
    · exact figures hk hn
    · exact seasons hk hn
    · exact programmes hk hn
    · exact triggers hk hn
    · exact script hk

theorem validate_script_ok {bs : List Byte} {sc : Script} (h : parseScript bs = .ok sc) :
    validate .script bs = .valid := by
  unfold validate; simp only [h]

theorem validate_script_error {bs : List Byte} {e : Option Nat} (h : parseScript bs = .error e) :
    validate .script bs = .badScript e := by
  unfold validate; simp only [h]

/-! ## The checks of a commit and of an erase (R41, R43) -/

/-- The item is present and pinned by a run (R48). -/
def pinnedItem (id : ItemId) (s : State) : Bool :=
  match findItem id s with
  | some i => decide (i.pins ≠ 0)
  | none => false

section
variable {kind number : Nat}

theorem changeRefusal_unknown (h : itemId kind number = none) : changeRefusal kind number s = some .badValue := by
  unfold changeRefusal; simp only [h]

theorem changeRefusal_named {id : ItemId} (h : itemId kind number = some id) : changeRefusal kind number s =
    if protectedAt s.ps.writeLevel id.kind then some .locked
    else if pinnedItem id s then some .inUse
    else if s.ps.op.isSome then some .busy
    else none := by
  unfold changeRefusal; simp only [h]; rfl

theorem storeCommit_refused {st : Status} (h : 2 ≤ s.hlc.step) (hr : changeRefusal kind number s = some st) :
    exec (.storeCommit kind number) s = .next (reply 0x21#8 st .none s) := by
  refine (gated_store (by decide) h).trans ?_
  rw [hr]

theorem storeErase_refused {st : Status} (h : 2 ≤ s.hlc.step) (hr : changeRefusal kind number s = some st) :
    exec (.storeErase kind number) s = .next (reply 0x22#8 st .none s) := by
  refine (gated_store (by decide) h).trans ?_
  rw [hr]

/-- What a request does that is refused as the checks of the directory say, and otherwise goes on: the protection, the
pins and the operation in progress are looked at in this order (R41, R43). -/
theorem changeChecks {id : ItemId} (hid : itemId kind number = some id) {k : Byte}
    {o : Host.Outcome State Fault Refusal} {t : State}
    (refused : ∀ st, changeRefusal kind number s = some st → o = .next (reply k st .none s))
    (free : changeRefusal kind number s = none → o = .next t) : o = .next (
      if protectedAt s.ps.writeLevel id.kind = true then reply k .locked .none s
      else if pinnedItem id s = true then reply k .inUse .none s
      else if s.ps.op.isSome = true then reply k .busy .none s
      else t) := by
  have refusal := changeRefusal_named (s := s) hid
  by_cases locked : protectedAt s.ps.writeLevel id.kind = true
  · rw [if_pos locked] at refusal ⊢
    exact refused _ refusal
  rw [if_neg locked] at refusal ⊢
  by_cases pinned : pinnedItem id s = true
  · rw [if_pos pinned] at refusal ⊢
    exact refused _ refusal
  rw [if_neg pinned] at refusal ⊢
  by_cases busy : s.ps.op.isSome = true
  · rw [if_pos busy] at refusal ⊢
    exact refused _ refusal
  rw [if_neg busy] at refusal ⊢
  exact free refusal

section
variable {id : ItemId} (h : 2 ≤ s.hlc.step) (hid : itemId kind number = some id)
include h hid

theorem storeCommit_badContent {st : Status} {d : ReplyData} (hr : changeRefusal kind number s = none)
    (hc : contentRefusal id s = some (st, d)) : exec (.storeCommit kind number) s = .next (reply 0x21#8 st d s) := by
  refine (gated_store (by decide) h).trans ?_
  simp only [hr, hid, hc]

theorem storeCommit_accepted (hr : changeRefusal kind number s = none) (hc : contentRefusal id s = none) :
    exec (.storeCommit kind number) s = .next (reply 0x21#8 .ok .none (acceptCommit id s)) := by
  refine (gated_store (by decide) h).trans ?_
  simp only [hr, hid, hc]

theorem storeErase_unrefused (hr : changeRefusal kind number s = none) : exec (.storeErase kind number) s =
    .next (if (findItem id s).isNone then reply 0x22#8 .notFound .none s
      else reply 0x22#8 .ok .none (beginOp (.erase id) 30 s)) := by
  refine (gated_store (by decide) h).trans ?_
  rw [hr, hid]

/-- STORE-COMMIT's checks in their order, then the operation it begins (R41). -/
theorem storeCommit_checks : exec (.storeCommit kind number) s = .next (
    if protectedAt s.ps.writeLevel id.kind = true then reply 0x21#8 .locked .none s
    else if pinnedItem id s = true then reply 0x21#8 .inUse .none s
    else if s.ps.op.isSome = true then reply 0x21#8 .busy .none s
    else if s.ps.stagedLen = 0 then reply 0x21#8 .badLength .none s
    else match validate id.kind (stagedContent s) with
      | .badScript c => reply 0x21#8 .badScript (.badCue c) s
      | .badValue => reply 0x21#8 .badValue .none s
      | .valid =>
        if freeBlocks s < blocksOf s.ps.stagedLen then reply 0x21#8 .full .none s
        else reply 0x21#8 .ok .none (acceptCommit id s)) := by
  refine changeChecks hid (fun st => storeCommit_refused h) fun refusal => ?_
  by_cases empty : s.ps.stagedLen = 0
  · rw [if_pos empty]
    exact storeCommit_badContent h hid refusal (if_pos empty)
  rw [if_neg empty]
  cases hv : validate id.kind (stagedContent s) with
  | badScript c => exact storeCommit_badContent h hid refusal (by simp only [contentRefusal, if_neg empty, hv])
  | badValue => exact storeCommit_badContent h hid refusal (by simp only [contentRefusal, if_neg empty, hv])
  | valid =>
    by_cases full : freeBlocks s < blocksOf s.ps.stagedLen
    · simp only [if_pos full]
      exact storeCommit_badContent h hid refusal (by simp only [contentRefusal, if_neg empty, hv, if_pos full])
    · simp only [if_neg full]
      exact storeCommit_accepted h hid refusal (by simp only [contentRefusal, if_neg empty, hv, if_neg full])

/-- STORE-ERASE's checks in their order, then the operation it begins (R43). -/
theorem storeErase_checks : exec (.storeErase kind number) s = .next (
    if protectedAt s.ps.writeLevel id.kind = true then reply 0x22#8 .locked .none s
    else if pinnedItem id s = true then reply 0x22#8 .inUse .none s
    else if s.ps.op.isSome = true then reply 0x22#8 .busy .none s
    else if (findItem id s).isNone = true then reply 0x22#8 .notFound .none s
    else reply 0x22#8 .ok .none (beginOp (.erase id) 30 s)) :=
  changeChecks hid (fun _ => storeErase_refused h) (storeErase_unrefused h hid)

end

end

/-- STORE-ERASE-ALL's checks in their order, then the operation it begins. -/
theorem storeEraseAll_checks (h : 2 ≤ s.hlc.step) : exec .storeEraseAll s = .next (
    if somePinned s = true then reply 0x23#8 .inUse .none s
    else if s.ps.op.isSome = true then reply 0x23#8 .busy .none s
    else reply 0x23#8 .ok .none (beginOp .eraseAll (eraseAllMs s) s)) :=
  gated_store (by decide) h

/-- Settles O23: the items, the requests' checks, then the validity of each kind of content. -/
theorem storeOperationsBegin : Obligations.StoreOperationsBegin := by
  refine ⟨fun kind number id => itemId_eq_some, fun level k => ?protection, fun n => rfl,
    fun kind number s h hid => ?unknown, fun kind number id s h hid => ⟨?commit, ?erase⟩,
    fun s h => storeEraseAll_checks h,
    fun bs => ⟨fun sc => validate_script_ok, fun e => validate_script_error, rfl, rfl, rfl, rfl, rfl⟩,
    fun l p n0 n1 rest => ⟨parseScript_badHeader, fun e => parseScript_error, fun cs => parseScript_ok⟩,
    fun bs => parseScript_short,
    fun lane n i low bs => ⟨parseCues_zero, parseCues_failing, fun c r hc hg =>
      ⟨fun e => parseCues_error hc hg, fun cs => parseCues_ok hc hg⟩⟩,
    fun bs r c => parseCue_eq_some,
    fun bs r c => ⟨parseFields_strike, parseFields_damp, parseFields_move, parseFields_door, parseFields_turn,
      parseFields_mark, parseFields_lamp, parseFields_end, fun k => parseFields_unknown⟩,
    fun k bs r ps => ⟨parsePairs_zero, parsePairs_succ⟩⟩
  case protection => cases k <;> exact decide_eq_true_iff
  case unknown => exact ⟨storeCommit_refused h (changeRefusal_unknown hid),
    storeErase_refused h (changeRefusal_unknown hid)⟩
  case commit => exact storeCommit_checks h hid
  case erase => exact storeErase_checks h hid

end Sys2Proof.Machine
end

