-- ==== Sys2Proof/Proofs/Records.lean ====
section
/-! PROOF. The records of the stored items, of the layout of section 10.6, each within its ranges (R46). -/
namespace Sys2Proof.Machine

/-! ## A record of so many bytes -/

/-- The bytes begin with a record of `n` bytes of which `p` holds, and go on with `r`. -/
def Record (n : Nat) (bs r : List Byte) (p : (Nat → Nat) → Prop) : Prop :=
  ∃ h : List Byte, h.length = n ∧ bs = h ++ r ∧ p fun i => (h.getD i 0).toNat

theorem map_getD_range {n : Nat} {h : List Byte} (hl : h.length = n) : (List.range n).map (h.getD · 0) = h := by
  subst hl
  refine List.ext_getElem (by simp) fun i hi hi' => ?_
  simp [hi']

/-- A parser that fails on fewer than `n` bytes, and whose value on `n` bytes is the one of which `p` holds, reads a
record of `n` bytes. -/
theorem reads_record {α : Type} {P : List Byte → Option (α × List Byte)} {n : Nat} {p : α → (Nat → Nat) → Prop}
    (short : ∀ bs, bs.length < n → P bs = none)
    (spelled : ∀ (b : Nat → Byte) (rest r : List Byte) (a : α),
      P ((List.range n).map b ++ rest) = some (a, r) ↔ p a (fun i => (b i).toNat) ∧ rest = r)
    {bs r : List Byte} {a : α} : P bs = some (a, r) ↔ Record n bs r (p a) := by
  constructor
  · intro h
    by_cases hl : bs.length < n
    · rw [short bs hl] at h; cases h
    · have taken : (bs.take n).length = n := List.length_take_of_le (by omega)
      rw [← List.take_append_drop n bs, ← map_getD_range taken] at h
      obtain ⟨hp, hr⟩ := (spelled _ _ _ _).1 h
      exact ⟨bs.take n, taken, by rw [← hr, List.take_append_drop], hp⟩
  · rintro ⟨h, hl, rfl, hp⟩
    have spelt := (spelled (h.getD · 0) r r a).2 ⟨hp, rfl⟩
    rwa [map_getD_range hl] at spelt

/-- The two bytes from `i` on as a number, low byte first (section 10.6). -/
def word (b : Nat → Nat) (i : Nat) : Nat := b i + 256 * b (i + 1)

/-- The same in two's complement. -/
def signedWord (b : Nat → Nat) (i : Nat) : Int := (BitVec.ofNat 16 (word b i)).toInt

section
variable {bs r : List Byte}

/-! ## Voicings, doors and the turntable -/

/-- The bytes of a bell's voicing. -/
def VoicingBytes (v : Voicing) (b : Nat → Nat) : Prop :=
  v.pulse.toList = (List.range 8).map b ∧ (∀ x ∈ v.pulse.toList, 2 ≤ x ∧ x ≤ 40) ∧ v.window = b 8 ∧ 2 ≤ b 8 ∧
    b 8 ≤ 60 ∧ v.recovery = word b 9 ∧ 60 ≤ word b 9 ∧ word b 9 ≤ 2000 ∧ v.lead = b 11 ∧ b 11 ≤ 50 ∧
    v.ring = word b 12 ∧ word b 12 ≤ 10000 ∧ v.units = b 14 ∧ 1 ≤ b 14 ∧ b 14 ≤ 8

theorem parseVoicing_iff {v : Voicing} : parseVoicing bs = some (v, r) ↔ Record 15 bs r (VoicingBytes v) := by
  refine reads_record (fun bs h => ?short) fun b rest r v => ?spelled
  case short =>
    unfold parseVoicing
    split
    · simp only [List.length_cons] at h; omega
    · rfl
  case spelled =>
    simp only [List.range, List.range.loop, List.map, List.cons_append, List.nil_append, parseVoicing,
      Option.ite_none_right_eq_some, Bool.and_eq_true, List.all_eq_true, within_iff, decide_eq_true_eq]
    constructor
    · rintro ⟨⟨⟨⟨⟨⟨hp, hw, hw'⟩, hr, hr'⟩, hl⟩, hg⟩, hu, hu'⟩, e⟩
      cases e
      exact ⟨⟨rfl, hp, rfl, hw, hw', rfl, hr, hr', rfl, hl, rfl, hg, rfl, hu, hu'⟩, rfl⟩
    · obtain ⟨pulse, window, recovery, lead, ring, units⟩ := v
      rintro ⟨⟨pulses, hp, rfl, hw, hw', rfl, hr, hr', rfl, hl, rfl, hg, rfl, hu, hu'⟩, rfl⟩
      obtain rfl : pulse = #v[(b 0).toNat, (b 1).toNat, (b 2).toNat, (b 3).toNat, (b 4).toNat, (b 5).toNat,
        (b 6).toNat, (b 7).toNat] := Vector.toList_inj.1 pulses
      exact ⟨⟨⟨⟨⟨⟨hp, hw, hw'⟩, hr, hr'⟩, hl⟩, hg⟩, hu, hu'⟩, rfl⟩

/-- The bytes of a door's definition. -/
def DoorBytes (d : DoorDef) (b : Nat → Nat) : Prop :=
  d.travel = b 0 ∧ 1 ≤ b 0 ∧ b 0 ≤ 30 ∧ d.units = b 1 ∧ 1 ≤ b 1 ∧ b 1 ≤ 16 ∧ d.wait = word b 2 ∧ word b 2 ≤ 2000

theorem parseDoor_iff {d : DoorDef} : parseDoor bs = some (d, r) ↔ Record 4 bs r (DoorBytes d) := by
  refine reads_record (fun bs h => ?short) fun b rest r d => ?spelled
  case short =>
    unfold parseDoor
    split
    · simp only [List.length_cons] at h; omega
    · rfl
  case spelled =>
    simp only [List.range, List.range.loop, List.map, List.cons_append, List.nil_append, parseDoor,
      Option.ite_none_right_eq_some, Bool.and_eq_true, within_iff, decide_eq_true_eq]
    constructor
    · rintro ⟨⟨⟨⟨ht, ht'⟩, hu, hu'⟩, hw⟩, e⟩
      cases e
      exact ⟨⟨rfl, ht, ht', rfl, hu, hu', rfl, hw⟩, rfl⟩
    · obtain ⟨travel, units, wait⟩ := d
      rintro ⟨⟨rfl, ht, ht', rfl, hu, hu', rfl, hw⟩, rfl⟩
      exact ⟨⟨⟨⟨ht, ht'⟩, hu, hu'⟩, hw⟩, rfl⟩

/-- The bytes of the turntable's definition. -/
def TurnBytes (d : TurnDef) (b : Nat → Nat) : Prop :=
  d.perPosition = word b 0 ∧ 500 ≤ word b 0 ∧ word b 0 ≤ 10000 ∧ d.units = b 2 ∧ 1 ≤ b 2 ∧ b 2 ≤ 16 ∧
    d.wait = word b 3 ∧ word b 3 ≤ 2000

theorem parseTurn_iff {d : TurnDef} : parseTurn bs = some (d, r) ↔ Record 5 bs r (TurnBytes d) := by
  refine reads_record (fun bs h => ?short) fun b rest r d => ?spelled
  case short =>
    unfold parseTurn
    split
    · simp only [List.length_cons] at h; omega
    · rfl
  case spelled =>
    simp only [List.range, List.range.loop, List.map, List.cons_append, List.nil_append, parseTurn,
      Option.ite_none_right_eq_some, Bool.and_eq_true, within_iff, decide_eq_true_eq]
    constructor
    · rintro ⟨⟨⟨⟨hp, hp'⟩, hu, hu'⟩, hw⟩, e⟩
      cases e
      exact ⟨⟨rfl, hp, hp', rfl, hu, hu', rfl, hw⟩, rfl⟩
    · obtain ⟨perPosition, units, wait⟩ := d
      rintro ⟨⟨rfl, hp, hp', rfl, hu, hu', rfl, hw⟩, rfl⟩
      exact ⟨⟨⟨⟨hp, hp'⟩, hu, hu'⟩, hw⟩, rfl⟩

/-! ## Figures -/

theorem parseFlag_eq_some {x : Byte} {f : Bool} : parseFlag x = some f ↔ x.toNat ≤ 1 ∧ f = decide (x.toNat = 1) := by
  unfold parseFlag
  split
  · next h => simp [h, eq_comm]
  · next h => simp [h, eq_comm]
  · next h0 h1 => exact iff_of_false (by simp) fun h => (Nat.le_one_iff_eq_zero_or_eq_one.1 h.1).elim h0 h1

/-- A crossing byte of 0 goes with a zone of zeros, 1 and 2 name a door (section 10.6). -/
theorem crossing_eq_some {n : Nat} {low high : Int} {c : Option Crossing} :
    (match n with
      | 0 => if low = 0 ∧ high = 0 then some none else none
      | 1 => if low ≤ high then some (some { door := 0, low := low, high := high : Crossing }) else none
      | 2 => if low ≤ high then some (some { door := 1, low := low, high := high : Crossing }) else none
      | _ => none) = some c ↔
      (n = 0 ∧ low = 0 ∧ high = 0 ∧ c = none) ∨
        ∃ x, c = some x ∧ n = x.door.val + 1 ∧ x.low = low ∧ x.high = high ∧ x.low ≤ x.high := by
  constructor
  · intro h
    split at h
    · obtain ⟨⟨hl, hh⟩, e⟩ := Option.ite_none_right_eq_some.1 h
      cases e
      exact .inl ⟨rfl, hl, hh, rfl⟩
    · obtain ⟨hz, e⟩ := Option.ite_none_right_eq_some.1 h
      cases e
      exact .inr ⟨_, rfl, rfl, rfl, rfl, hz⟩
    · obtain ⟨hz, e⟩ := Option.ite_none_right_eq_some.1 h
      cases e
      exact .inr ⟨_, rfl, rfl, rfl, rfl, hz⟩
    · cases h
  · rintro (⟨rfl, rfl, rfl, rfl⟩ | ⟨⟨door, low, high⟩, rfl, rfl, rfl, rfl, hz⟩)
    · rfl
    · match door with
      | 0 => exact if_pos hz
      | 1 => exact if_pos hz

theorem address_iff {n : Nat} {address : Option (Fin 16)} :
    (∃ a : Fin 16, n = a.val ∧ (if a = 0 then none else some a) = address) ↔
      (n = 0 ∧ address = none) ∨ ∃ a : Fin 16, a ≠ 0 ∧ n = a.val ∧ address = some a := by
  constructor
  · rintro ⟨a, rfl, rfl⟩
    by_cases ha : a = 0
    · exact .inl ⟨by rw [ha]; rfl, if_pos ha⟩
    · exact .inr ⟨a, ha, rfl, if_neg ha⟩
  · rintro (⟨rfl, rfl⟩ | ⟨a, ha, rfl, rfl⟩)
    · exact ⟨0, rfl, rfl⟩
    · exact ⟨a, rfl, if_neg ha⟩

/-- The bytes of a figure's definition. -/
def FigureBytes (d : FigDef) (b : Nat → Nat) : Prop :=
  ((b 0 = 0 ∧ d.address = none) ∨ ∃ a : Fin 16, a ≠ 0 ∧ b 0 = a.val ∧ d.address = some a) ∧
    d.travelMin = signedWord b 1 ∧ d.travelMax = signedWord b 3 ∧ d.home = signedWord b 5 ∧ d.travelMin ≤ d.home ∧
    d.home ≤ d.travelMax ∧ d.units = b 7 ∧ b 7 ≤ 4 ∧ b 8 ≤ 1 ∧ d.rides = decide (b 8 = 1) ∧
    ((b 9 = 0 ∧ signedWord b 10 = 0 ∧ signedWord b 12 = 0 ∧ d.crossing = none) ∨
      ∃ c, d.crossing = some c ∧ b 9 = c.door.val + 1 ∧ c.low = signedWord b 10 ∧ c.high = signedWord b 12 ∧
        c.low ≤ c.high)

theorem parseFigure_iff {d : FigDef} : parseFigure bs = some (d, r) ↔ Record 14 bs r (FigureBytes d) := by
  refine reads_record (fun bs h => ?short) fun b rest r d => ?spelled
  case short =>
    unfold parseFigure
    split
    · simp only [List.length_cons] at h; omega
    · rfl
  case spelled =>
    simp only [List.range, List.range.loop, List.map, List.cons_append, List.nil_append, parseFigure, bind,
      Option.bind_eq_some_iff, Option.ite_none_right_eq_some, parseFlag_eq_some, toFin_eq_some]
    constructor
    · rintro ⟨rides, ⟨hr, rfl⟩, a, ha, crossing, hc, ⟨-, hmin, hmax, hu⟩, e⟩
      cases e
      exact ⟨⟨address_iff.1 ⟨a, ha, rfl⟩, rfl, rfl, rfl, hmin, hmax, rfl, hu, hr, rfl, crossing_eq_some.1 hc⟩, rfl⟩
    · obtain ⟨address, travelMin, travelMax, home, units, rides, crossing⟩ := d
      rintro ⟨⟨ha, rfl, rfl, rfl, hmin, hmax, rfl, hu, hr, rfl, hc⟩, rfl⟩
      obtain ⟨a, byte, rfl⟩ := address_iff.2 ha
      exact ⟨_, ⟨hr, rfl⟩, a, byte, crossing, crossing_eq_some.2 hc, ⟨hmin.trans hmax, hmin, hmax, hu⟩, rfl⟩

/-! ## Seasons and slots -/

/-- A month and a day of it, the 29th of February included (R28). -/
def GoodDate (m d : Nat) : Prop :=
  1 ≤ m ∧ m ≤ 12 ∧ 1 ≤ d ∧ d ≤ if m = 2 then 29 else if m = 4 ∨ m = 6 ∨ m = 9 ∨ m = 11 then 30 else 31

theorem dateOk_iff {m d : Nat} : dateOk m d = true ↔ GoodDate m d := by
  have days : 1 ≤ m → m ≤ 12 →
      daysOfMonth m = if m = 2 then 29 else if m = 4 ∨ m = 6 ∨ m = 9 ∨ m = 11 then 30 else 31 := by
    intro h1 h12
    interval_cases m <;> rfl
  unfold dateOk GoodDate
  rw [Bool.and_eq_true, within_iff, within_iff, and_assoc]
  exact and_congr_right fun h1 => and_congr_right fun h12 => by rw [days h1 h12]

/-- The bytes of a season. -/
def SeasonBytes (e : Season) (b : Nat → Nat) : Prop :=
  e.startMonth = b 0 ∧ e.startDay = b 1 ∧ e.endMonth = b 2 ∧ e.endDay = b 3 ∧ GoodDate (b 0) (b 1) ∧
    GoodDate (b 2) (b 3) ∧ e.priority = b 4 ∧ b 4 ≤ 15 ∧ e.programme.val = b 5

theorem parseSeason_iff {e : Season} : parseSeason bs = some (e, r) ↔ Record 6 bs r (SeasonBytes e) := by
  refine reads_record (fun bs h => ?short) fun b rest r e => ?spelled
  case short =>
    unfold parseSeason
    split
    · simp only [List.length_cons] at h; omega
    · rfl
  case spelled =>
    simp only [List.range, List.range.loop, List.map, List.cons_append, List.nil_append, parseSeason, bind,
      Option.bind_eq_some_iff, Option.ite_none_right_eq_some, toFin_eq_some, Bool.and_eq_true, dateOk_iff,
      decide_eq_true_eq]
    constructor
    · rintro ⟨g, hg, ⟨⟨hs, he⟩, hp⟩, e⟩
      cases e
      exact ⟨⟨rfl, rfl, rfl, rfl, hs, he, rfl, hp, hg.symm⟩, rfl⟩
    · obtain ⟨startMonth, startDay, endMonth, endDay, priority, programme⟩ := e
      rintro ⟨⟨rfl, rfl, rfl, rfl, hs, he, rfl, hp, hg⟩, rfl⟩
      exact ⟨programme, hg.symm, ⟨⟨hs, he⟩, hp⟩, rfl⟩

/-- The byte of a programme's slot. -/
def SlotBytes (x : Option Nat) (b : Nat → Nat) : Prop := (b 0 = 255 ∧ x = none) ∨ (b 0 < 128 ∧ x = some (b 0))

theorem parseSlot_iff {x : Option Nat} : parseSlot bs = some (x, r) ↔ Record 1 bs r (SlotBytes x) := by
  refine reads_record (fun bs h => ?short) fun b rest r x => ?spelled
  case short =>
    obtain rfl : bs = [] := List.length_eq_zero_iff.1 (by omega)
    rfl
  case spelled =>
    simp only [List.range, List.range.loop, List.map, List.cons_append, List.nil_append, parseSlot]
    constructor
    · intro h
      split at h
      next hn => cases h; exact ⟨.inl ⟨hn, rfl⟩, rfl⟩
      next =>
        obtain ⟨hn, e⟩ := Option.ite_none_right_eq_some.1 h
        cases e
        exact ⟨.inr ⟨hn, rfl⟩, rfl⟩
    · rintro ⟨⟨hn, rfl⟩ | ⟨hn, rfl⟩, rfl⟩
      · exact if_pos hn
      · have slot : (b 0).toNat < 128 := hn
        rw [if_neg (by omega), if_pos slot]

/-! ## Trigger definitions -/

theorem policy_eq_some {n : Nat} {p : Policy} :
    (match n with
      | 0 => some Policy.queue
      | 1 => some Policy.drop
      | 2 => some Policy.preempt
      | _ => none) = some p ↔ (n = 0 ∧ p = .queue) ∨ (n = 1 ∧ p = .drop) ∨ (n = 2 ∧ p = .preempt) := by
  constructor
  · intro h
    split at h
    · cases h; exact .inl ⟨rfl, rfl⟩
    · cases h; exact .inr (.inl ⟨rfl, rfl⟩)
    · cases h; exact .inr (.inr ⟨rfl, rfl⟩)
    · cases h
  · rintro (⟨rfl, rfl⟩ | ⟨rfl, rfl⟩ | ⟨rfl, rfl⟩)
    all_goals rfl

/-- The target that a byte spells (section 10.6). -/
def aimOf (n : Nat) : Option Target :=
  if n < 16 then some (.slot n) else if 128 ≤ n then some (.script (n - 128)) else none

theorem parseTarget_eq (x : Byte) : parseTarget x = aimOf x.toNat := rfl

theorem aimOf_ok {x : Byte} {g : Target} (h : aimOf x.toNat = some g) : targetOk g = true := by
  have byte := x.isLt
  unfold aimOf at h
  split at h
  next slot => cases h; exact decide_eq_true slot
  next =>
    split at h
    next => cases h; simp only [targetOk, decide_eq_true_eq]; omega
    next => cases h

/-- The follow-on that an offset and a target byte spell: none where both are 0 (section 10.6). -/
theorem followOn_iff {n : Nat} {x : Byte} {f : Option (Nat × Target)} :
    ((if n = 0 then (if x = 0 then some none else none) else (aimOf x.toNat).map fun g => some (n, g)) = some f ∧
      followOnOk f = true) ↔
      (n = 0 ∧ x.toNat = 0 ∧ f = none) ∨ ∃ g, 1 ≤ n ∧ n ≤ 600 ∧ aimOf x.toNat = some g ∧ f = some (n, g) := by
  have zero : x = 0 ↔ x.toNat = 0 := BitVec.toNat_inj.symm
  by_cases hn : n = 0
  · rw [if_pos hn, Option.ite_none_right_eq_some, zero]
    constructor
    · rintro ⟨⟨hx, e⟩, -⟩
      cases e
      exact .inl ⟨hn, hx, rfl⟩
    · rintro (⟨-, hx, rfl⟩ | ⟨g, h1, -⟩)
      · exact ⟨⟨hx, rfl⟩, rfl⟩
      · omega
  · rw [if_neg hn, Option.map_eq_some_iff]
    constructor
    · rintro ⟨⟨g, hg, rfl⟩, ok⟩
      obtain ⟨h1, h600, -⟩ := followOnOk_iff.1 ok n g rfl
      exact .inr ⟨g, h1, h600, hg, rfl⟩
    · rintro (⟨h0, -⟩ | ⟨g, h1, h600, hg, rfl⟩)
      · exact absurd h0 hn
      · refine ⟨⟨g, hg, rfl⟩, followOnOk_iff.2 ?_⟩
        rintro _ _ ⟨⟩
        exact ⟨h1, h600, (targetOk_iff g).1 (aimOf_ok hg)⟩

/-- The bytes of a trigger's definition; a field that the kind does not have holds 0. -/
def TriggerBytes (d : TrigDef) (b : Nat → Nat) : Prop :=
  let days := b 14 + 256 * b 15 + 65536 * b 16
  b 1 ≤ 1 ∧ d.enabled = decide (b 1 = 1) ∧
    d.time = word b 2 + 65536 * word b 4 + 4294967296 * (word b 6 + 65536 * word b 8) ∧
    d.period = word b 10 + 65536 * word b 12 ∧ aimOf (b 17) = some d.target ∧
    ((word b 18 = 0 ∧ b 20 = 0 ∧ d.followOn = none) ∨
      ∃ g, 1 ≤ word b 18 ∧ word b 18 ≤ 600 ∧ aimOf (b 20) = some g ∧ d.followOn = some (word b 18, g)) ∧
    ((b 21 = 0 ∧ d.policy = .queue) ∨ (b 21 = 1 ∧ d.policy = .drop) ∨ (b 21 = 2 ∧ d.policy = .preempt)) ∧
    d.staleness = word b 22 ∧ word b 22 ≤ 3600 ∧ d.window = word b 24 ∧ word b 24 ≤ 600 ∧
    ((b 0 = 0 ∧ d.kind = .daily ∧ d.time ≤ 86399999 ∧ d.period = 0 ∧ 0 < days ∧ days < 128 ∧
        d.weekdays = BitVec.ofNat 7 days ∧ d.hours = 0) ∨
      (b 0 = 1 ∧ d.kind = .periodic ∧ d.time ≤ 3155759999999 ∧ d.period ≤ 86400000 ∧ days = 0 ∧ d.weekdays = 0 ∧
        d.hours = 0) ∨
      (b 0 = 2 ∧ d.kind = .once ∧ d.time ≤ 3155759999999 ∧ d.period = 0 ∧ days = 0 ∧ d.weekdays = 0 ∧ d.hours = 0) ∨
      (b 0 = 3 ∧ d.kind = .hours ∧ d.time = 0 ∧ d.period = 0 ∧ 0 < days ∧ b 17 = 0 ∧ d.weekdays = 0 ∧
        d.hours = BitVec.ofNat 24 days))

theorem parseTrigger_iff {d : TrigDef} : parseTrigger bs = some (d, r) ↔ Record 26 bs r (TriggerBytes d) := by
  refine reads_record (fun bs h => ?short) fun b rest r d => ?spelled
  case short =>
    unfold parseTrigger
    split
    · simp only [List.length_cons] at h; omega
    · rfl
  case spelled =>
    simp only [List.range, List.range.loop, List.map, List.cons_append, List.nil_append, parseTrigger, bind,
      Option.bind_eq_some_iff, Option.ite_none_left_eq_some, parseFlag_eq_some, parseTarget_eq, Bool.not_eq_true',
      Bool.not_eq_false, Bool.and_eq_true, decide_eq_true_eq]
    constructor
    · rintro ⟨enabled, ⟨hen, rfl⟩, policy, hp, followOn, hf, target, ht, ⟨⟨ok, hs⟩, hw⟩, h⟩
      have policy := policy_eq_some.1 hp
      have follows := followOn_iff.1 ⟨hf, ok⟩
      split at h
      next hk =>
        obtain ⟨⟨time, period, days, days'⟩, e⟩ := Option.ite_none_right_eq_some.1 h
        cases e
        exact ⟨⟨hen, rfl, rfl, period.symm, ht, follows, policy, rfl, hs, rfl, hw,
          .inl ⟨hk, rfl, Nat.le_of_lt_succ time, rfl, days, days', rfl, rfl⟩⟩, rfl⟩
      next hk =>
        obtain ⟨⟨time, period, days⟩, e⟩ := Option.ite_none_right_eq_some.1 h
        cases e
        exact ⟨⟨hen, rfl, rfl, rfl, ht, follows, policy, rfl, hs, rfl, hw,
          .inr (.inl ⟨hk, rfl, Int.ofNat_le.1 time, period, days, rfl, rfl⟩)⟩, rfl⟩
      next hk =>
        obtain ⟨⟨time, period, days⟩, e⟩ := Option.ite_none_right_eq_some.1 h
        cases e
        exact ⟨⟨hen, rfl, rfl, period.symm, ht, follows, policy, rfl, hs, rfl, hw,
          .inr (.inr (.inl ⟨hk, rfl, Int.ofNat_le.1 time, rfl, days, rfl, rfl⟩))⟩, rfl⟩
      next hk =>
        obtain ⟨⟨time, period, days, aim⟩, e⟩ := Option.ite_none_right_eq_some.1 h
        cases e
        have aim0 : (b 17).toNat = 0 := congrArg BitVec.toNat aim
        exact ⟨⟨hen, rfl, time.symm, period.symm, congrArg aimOf aim0, follows, policy, rfl, hs, rfl, hw,
          .inr (.inr (.inr ⟨hk, rfl, rfl, rfl, days, aim0, rfl, rfl⟩))⟩, rfl⟩
      next => cases h
    · obtain ⟨kind, enabled, time, period, weekdays, hours, target, followOn, policy, staleness, window⟩ := d
      rintro ⟨⟨hen, rfl, htime, hperiod, ht, hf, hp, rfl, hs, rfl, hw, hk⟩, rfl⟩
      obtain ⟨hf, ok⟩ := followOn_iff.2 hf
      refine ⟨_, ⟨hen, rfl⟩, policy, policy_eq_some.2 hp, followOn, hf, target, ht, ⟨⟨ok, hs⟩, hw⟩, ?_⟩
      rcases hk with ⟨hk, rfl, ht', hp', hd, hd', rfl, rfl⟩ | ⟨hk, rfl, ht', hp', hd, rfl, rfl⟩ |
        ⟨hk, rfl, ht', hp', hd, rfl, rfl⟩ | ⟨hk, rfl, ht', hp', hd, aim, rfl, rfl⟩
      all_goals
        beta_reduce at hk
        rw [hk]
      · obtain rfl : time = _ := htime
        obtain rfl : period = 0 := hp'
        exact if_pos ⟨Nat.lt_succ_of_le ht', hperiod.symm, hd, hd'⟩
      · obtain rfl : time = _ := htime
        obtain rfl : period = _ := hperiod
        exact if_pos ⟨Int.ofNat_le.2 ht', hp', hd⟩
      · obtain rfl : time = _ := htime
        obtain rfl : period = 0 := hp'
        exact if_pos ⟨Int.ofNat_le.2 ht', hperiod.symm, hd⟩
      · obtain rfl : time = 0 := ht'
        obtain rfl : period = 0 := hp'
        have slot0 : aimOf 0 = some target := aim ▸ ht
        cases slot0
        exact if_pos ⟨htime.symm, hperiod.symm, hd, BitVec.eq_of_toNat_eq aim⟩

end

end Sys2Proof.Machine
end

