-- ==== Sys2Proof/Proofs/StoredItems.lean ====
section
/-! PROOF. The stored items, read whole from their records (R46, section 10.6). -/
namespace Sys2Proof.Machine

/-! ## Records in a row -/

section
variable {α : Type} {f : List Byte → Option (α × List Byte)} {n : Nat} {bs r : List Byte} {l : List α}

theorem parseMany_zero : parseMany f 0 bs = some (l, r) ↔ l = [] ∧ r = bs := by
  simp [parseMany, eq_comm]

theorem parseMany_succ : parseMany f (n + 1) bs = some (l, r) ↔
    ∃ a rest as, f bs = some (a, rest) ∧ parseMany f n rest = some (as, r) ∧ l = a :: as := by
  constructor
  · intro h
    unfold parseMany at h
    split at h
    next a rest hf =>
      split at h
      next as r' hm => cases h; exact ⟨a, rest, as, hf, hm, rfl⟩
      next => cases h
    next => cases h
  · rintro ⟨a, rest, as, hf, hm, rfl⟩
    simp only [parseMany, hf, hm]

/-- As many values are read as there are records. -/
theorem parseMany_count (h : parseMany f n bs = some (l, r)) : l.length = n := by
  induction n generalizing bs l with
  | zero => rw [(parseMany_zero.1 h).1]; rfl
  | succ n ih =>
    obtain ⟨a, rest, as, -, hm, rfl⟩ := parseMany_succ.1 h
    rw [List.length_cons, ih hm]

/-- Records of `k` bytes each take up `k` bytes each. -/
theorem parseMany_bytes {k : Nat} (hf : ∀ bs a r, f bs = some (a, r) → bs.length = k + r.length)
    (h : parseMany f n bs = some (l, r)) : bs.length = k * n + r.length := by
  induction n generalizing bs l with
  | zero => rw [(parseMany_zero.1 h).2]; omega
  | succ n ih =>
    obtain ⟨a, rest, as, ha, hm, -⟩ := parseMany_succ.1 h
    rw [hf _ _ _ ha, ih hm, Nat.mul_succ]; omega

theorem vectorOf_eq_some {v : Vector α n} : vectorOf n l = some v ↔ v.toList = l := by
  unfold vectorOf
  split
  next h =>
    rw [Option.some.injEq, ← Vector.toList_inj]
    exact eq_comm
  next h => exact iff_of_false (by simp) fun e => h (by rw [← e]; simp)

/-- An item that is `n` records and no more. -/
theorem wholeItem_iff {v : Vector α n} :
    ((parseMany f n bs).bind fun p => if p.2.isEmpty then vectorOf n p.1 else none) = some v ↔
      parseMany f n bs = some (v.toList, []) := by
  rw [Option.bind_eq_some_iff]
  constructor
  · rintro ⟨⟨l, r⟩, hm, h⟩
    obtain ⟨hr, hv⟩ := Option.ite_none_right_eq_some.1 h
    obtain rfl : r = [] := List.isEmpty_iff.1 hr
    rw [vectorOf_eq_some.1 hv, hm]
  · intro hm
    exact ⟨_, hm, (if_pos rfl).trans (vectorOf_eq_some.2 rfl)⟩

end

section
variable {bs r : List Byte}

theorem parseVoicingItem_iff {v : Vector Voicing 20} :
    parseVoicingItem bs = some v ↔ parseMany parseVoicing 20 bs = some (v.toList, []) := wholeItem_iff

theorem parseProgrammesItem_iff {v : Vector (Vector (Option Nat) 16) 8} :
    parseProgrammesItem bs = some v ↔ parseMany parseProgramme 8 bs = some (v.toList, []) := wholeItem_iff

theorem parseTriggersItem_iff {v : Vector TrigDef 32} :
    parseTriggersItem bs = some v ↔ parseMany parseTrigger 32 bs = some (v.toList, []) := wholeItem_iff

theorem parseProgramme_iff {v : Vector (Option Nat) 16} :
    parseProgramme bs = some (v, r) ↔ parseMany parseSlot 16 bs = some (v.toList, r) := by
  simp only [parseProgramme, bind, Option.bind_eq_some_iff, vectorOf_eq_some]
  constructor
  · rintro ⟨⟨l, r'⟩, hm, v', rfl, e⟩
    cases e
    exact hm
  · intro hm
    exact ⟨_, hm, v, rfl, rfl⟩

theorem parseSeason_bytes (bs : List Byte) (e : Season) (r : List Byte) (h : parseSeason bs = some (e, r)) :
    bs.length = 6 + r.length := by
  obtain ⟨head, hl, rfl, -⟩ := parseSeason_iff.1 h
  rw [List.length_append, hl]

/-- The number of seasons is that of the records the item's length holds (R28). -/
theorem parseSeasonsItem_iff {es : List Season} : parseSeasonsItem bs = some es ↔
    1 ≤ es.length ∧ es.length ≤ 16 ∧ parseMany parseSeason es.length bs = some (es, []) := by
  simp only [parseSeasonsItem, bind, Option.bind_eq_some_iff, Option.ite_none_right_eq_some, Bool.and_eq_true,
    List.isEmpty_iff, within_iff]
  constructor
  · rintro ⟨⟨es', r⟩, hm, ⟨rfl, h1, h16⟩, e⟩
    cases e
    rw [parseMany_count hm]
    exact ⟨h1, h16, hm⟩
  · rintro ⟨h1, h16, hm⟩
    have count : bs.length / 6 = es.length := by
      rw [parseMany_bytes parseSeason_bytes hm, List.length_nil]; omega
    rw [count]
    exact ⟨_, hm, ⟨rfl, h1, h16⟩, rfl⟩

theorem parseFiguresItem_iff {m : Machinery} : parseFiguresItem bs = some m ↔
    ∃ r1 r2, parseMany parseFigure 12 bs = some (m.figs.toList, r1) ∧
      parseMany parseDoor 2 r1 = some (m.doors.toList, r2) ∧ parseTurn r2 = some (m.turn, []) ∧
      (m.figs.toList.filterMap FigDef.address).Nodup := by
  simp only [parseFiguresItem, bind, Option.bind_eq_some_iff, Option.ite_none_right_eq_some, Bool.and_eq_true,
    List.isEmpty_iff, vectorOf_eq_some, decide_eq_true_eq]
  constructor
  · rintro ⟨⟨fs, r1⟩, hf, ⟨ds, r2⟩, hd, ⟨t, r3⟩, ht, fv, hfv, dv, hdv, ⟨hr, hn⟩, e⟩
    cases e
    cases hfv
    cases hdv
    cases hr
    exact ⟨r1, r2, hf, hd, ht, hn⟩
  · rintro ⟨r1, r2, hf, hd, ht, hn⟩
    exact ⟨_, hf, _, hd, _, ht, _, rfl, _, rfl, ⟨rfl, hn⟩, rfl⟩

end

end Sys2Proof.Machine
end

