-- ==== Sys2Proof/Proofs/StoreCompletions.lean ====
section
/-! PROOF. The completions of the store's operations, the loads that wait, and what the blocks take up (R37, R38, R42,
R43, R49, R54, R121, R133). -/
namespace Sys2Proof.Machine

variable {s : State}

/-! ## The directory (R38) -/

/-- The items stand in the order of their kinds and numbers. -/
def InOrder (items : List Item) : Prop := items.Pairwise fun a b => itemRank a.id < itemRank b.id

theorem mem_putItem {x y : Item} {items : List Item} (h : InOrder items) :
    y ∈ putItem x items ↔ y = x ∨ (y ∈ items ∧ itemRank y.id ≠ itemRank x.id) := by
  induction items with
  | nil => simp [putItem]
  | cons i is ih =>
    obtain ⟨above, rest⟩ := List.pairwise_cons.1 h
    have other {z : Item} (hz : z ∈ is) (hi : itemRank x.id ≤ itemRank i.id) : itemRank z.id ≠ itemRank x.id := by
      have := above z hz; omega
    unfold putItem
    split
    next same =>
      simp only [List.mem_cons]
      constructor
      · rintro (rfl | hy)
        · exact .inl rfl
        · exact .inr ⟨.inr hy, other hy same.ge⟩
      · rintro (rfl | ⟨rfl | hy, hr⟩)
        · exact .inl rfl
        · exact absurd same hr
        · exact .inr hy
    next differs =>
      split
      next below =>
        simp only [List.mem_cons]
        constructor
        · rintro (rfl | rfl | hy)
          · exact .inl rfl
          · exact .inr ⟨.inl rfl, differs⟩
          · exact .inr ⟨.inr hy, other hy below.le⟩
        · rintro (rfl | ⟨hy, -⟩)
          · exact .inl rfl
          · exact .inr hy
      next =>
        simp only [List.mem_cons, ih rest]
        constructor
        · rintro (rfl | rfl | ⟨hy, hr⟩)
          · exact .inr ⟨.inl rfl, differs⟩
          · exact .inl rfl
          · exact .inr ⟨.inr hy, hr⟩
        · rintro (rfl | ⟨rfl | hy, hr⟩)
          · exact .inr (.inl rfl)
          · exact .inl rfl
          · exact .inr (.inr ⟨hy, hr⟩)

theorem putItem_inOrder {x : Item} {items : List Item} (h : InOrder items) : InOrder (putItem x items) := by
  induction items with
  | nil => exact List.pairwise_singleton _ _
  | cons i is ih =>
    obtain ⟨above, rest⟩ := List.pairwise_cons.1 h
    unfold putItem
    split
    next same => exact List.pairwise_cons.2 ⟨fun y hy => same ▸ above y hy, rest⟩
    next differs =>
      split
      next below =>
        refine List.pairwise_cons.2 ⟨fun y hy => ?_, h⟩
        rcases List.mem_cons.1 hy with rfl | hy
        · exact below
        · exact below.trans (above y hy)
      next =>
        refine List.pairwise_cons.2 ⟨fun y hy => ?_, ih rest⟩
        rcases (mem_putItem rest).1 hy with rfl | ⟨hy, -⟩
        · omega
        · exact above y hy

/-! ## The completions (R42, R43, R54) -/

/-- The operation in progress is due from its completion instant on. -/
theorem opDue_at {what : StoreOp} {due : Nat} (h : due ≤ s.tb.elapsed)
    (ho : s.ps.op = some { what := what, due := due }) : opDue s = some what := by
  unfold opDue; rw [ho]; exact if_pos h

theorem commitComplete_next {id : ItemId} {content : List Byte} {check : Half}
    (h : opDue s = some (.commit id content check)) :
    exec .commitComplete s = .next (finishCommit id content check s) := by
  show execCommitComplete s = _
  unfold execCommitComplete; simp only [h]

theorem eraseComplete_next {id : ItemId} (h : opDue s = some (.erase id)) :
    exec .eraseComplete s = .next (finishErase id s) := by
  show execEraseComplete s = _
  unfold execEraseComplete; simp only [h]

theorem eraseAllComplete_due (h : opDue s = some .eraseAll) : exec .eraseAllComplete s = .next (finishEraseAll s) := by
  show execEraseAllComplete s = _
  unfold execEraseAllComplete; simp only [h]

/-- At an erase-all the blocks take the absence of their items one after the other (log entry 85). -/
theorem finishEraseAll_eq (s : State) : finishEraseAll s = settle (takeUp .figures none (takeUp .voicing none
    (takeUp .programmes none (takeUp .seasons none (takeUp .triggers none
      (answerWaiting (raise (.storeEvent .erasedAll) (eraseAllItems s)))))))) := by
  unfold finishEraseAll
  simp only [List.foldl_cons, List.foldl_nil]

/-! ## What the blocks take up (R29, R30, R37, R87) -/

section
variable {c : Option (List Byte)}

theorem evalSeasons_trig (i : Trig) : (evalSeasons s).trig i = s.trig i := by
  obtain ⟨a, b, h⟩ := evalSeasons_eq s
  rw [h]; rfl

theorem evalSeasons_work : (evalSeasons s).sch.work = s.sch.work := by
  obtain ⟨a, b, h⟩ := evalSeasons_eq s
  rw [h]

theorem takeDate_trig (i : Trig) : (takeDate s).trig i = s.trig i := by
  unfold takeDate
  split
  · exact evalSeasons_trig i
  · rfl

theorem takeDate_work : (takeDate s).sch.work = s.sch.work := by
  unfold takeDate
  split
  · exact evalSeasons_work
  · rfl

/-- A committed TRIGGERS item replaces the definitions and has the entries armed or disabled (R37). -/
theorem takeTriggers_eq (ds : Vector TrigDef 32) (s : State) : takeTriggers ds s = { takeDate s with
    sch.trigs := Vector.ofFn fun i => { s.trig i with defn := ds.get i, followOn := none, first := false, next := none }
    sch.work := s.sch.work ++ (List.finRange 32).map fun i => .armOrDisable i s.tb.showTime } := by
  have entry (i : Trig) : (takeDate s).sch.trigs.get i = s.trig i := takeDate_trig i
  simp only [takeTriggers, entry, takeDate_work, takeDate_tb]
  rfl

theorem takeUp_triggers {ds : Vector TrigDef 32} (h : c.bind parseTriggersItem = some ds) :
    takeUp .triggers c s = takeTriggers ds s := by
  unfold takeUp; simp only [h]

theorem takeUp_noTriggers (h : c.bind parseTriggersItem = none) : takeUp .triggers c s = eraseTriggers s := by
  unfold takeUp; simp only [h]

end

/-! ## New bindings (R121, R133) -/

section
variable {f : Fig} {next : Option (Fin 16)}

theorem rebindFig_same (h : (s.figDef f).address = next) : rebindFig f next s = s := if_pos h

/-- A figure taken from its node is UNKNOWN or unbound, without a report (R133). -/
def unbindFig (f : Fig) (next : Option (Fin 16)) (s : State) : State :=
  s.mapFig f fun r =>
    { r with state := if next.isSome then .unknown else .unbound, report := none, interrupted := none }

theorem rebindFig_inMove (h : (s.figDef f).address ≠ next)
    (hm : (s.fig f).state = .staged ∨ (s.fig f).state = .moving) : rebindFig f next s = unbindFig f next
      (leaveMove f .unknown (haltFig false f (withdrawTxns (TxnOwner.ofFig f) (reportFig f .figureLost s)))) := by
  unfold rebindFig
  dsimp only
  rw [if_neg h, if_pos hm]
  rfl

theorem rebindFig_atRest (h : (s.figDef f).address ≠ next) (hs : (s.fig f).state ≠ .staged)
    (hm : (s.fig f).state ≠ .moving) :
    rebindFig f next s = unbindFig f next (loseRecord f (withdrawTxns (TxnOwner.ofFig f) s)) := by
  unfold rebindFig
  dsimp only
  rw [if_neg h, if_neg (by simp [hs, hm])]
  rfl

end

/-- Nodes newly bound are ASLEEP, those no longer bound ABSENT, the others as they were (R121). -/
theorem bindNodes_eq (bound : List (Fin 16)) (s : State) : bindNodes bound s = tidySweep { s with
    flc.nodes := Vector.ofFn fun a =>
      if a ∈ bound then
        if (s.flc.nodes.get a).state = .absent then
          { s.flc.nodes.get a with state := .asleep, confirmed := false, failures := 0 }
        else s.flc.nodes.get a
      else { NodeRec.absent with lastAnswer := (s.flc.nodes.get a).lastAnswer } } := by
  unfold bindNodes
  simp only [List.contains_iff_mem]

/-- Once the figures have ended their parts in ascending index (`u`, log entry 81) and the new definitions are in place
(`v`), the link is told the bound addresses, and a wake is requested where a node is newly bound and the link is up
(R121). -/
theorem takeMachinery_eq {m : Machinery} {bound : List (Fin 16)} {u v : State} (hb : boundAddresses m = bound)
    (hu : (List.finRange 12).foldl (fun t f => rebindFig f (m.figs.get f).address t) s = u)
    (hv : { u with stg.figDefs := m.figs, stg.doorDefs := m.doors, stg.turnDef := m.turn } = v) : takeMachinery m s =
    if (∃ a ∈ bound, (v.node a).state = .absent) ∧ 5 ≤ (bindNodes bound v).hlc.step then
      requestWake true (bindNodes bound v)
    else bindNodes bound v := by
  unfold takeMachinery allFigs
  dsimp only
  rw [hu, hv, hb]
  simp only [Bool.and_eq_true, List.any_eq_true, beq_iff_eq, decide_eq_true_eq]

/-- Settles O27: the completions, the directory, what the blocks take up, the bindings, and the records. -/
theorem storeOperationsComplete : Obligations.StoreOperationsComplete := by
  refine ⟨fun s due h => ⟨fun id content check ho => ?commit, fun id ho => ?erase, fun ho => ⟨?eraseAll, ?erased⟩⟩,
    fun s => rfl,
    fun x items h => ⟨putItem_inOrder h, fun y => mem_putItem h⟩,
    fun s c => ⟨fun ds h => ?triggers, takeUp_noTriggers, rfl, rfl, rfl, rfl, rfl⟩,
    fun f next s => ⟨rebindFig_same, fun h => ⟨rebindFig_inMove h, rebindFig_atRest h⟩⟩,
    fun m s => ?machinery,
    fun bound s => bindNodes_eq bound s,
    fun α p n bs r l => ⟨parseMany_zero, parseMany_succ⟩,
    fun bs => ⟨fun v => parseVoicingItem_iff, fun v => parseProgrammesItem_iff, fun v => parseTriggersItem_iff,
      fun es => parseSeasonsItem_iff, fun m => parseFiguresItem_iff⟩,
    fun bs r => ⟨fun v => parseVoicing_iff, fun d => parseFigure_iff, fun d => parseDoor_iff, fun d => parseTurn_iff,
      fun e => parseSeason_iff, fun v => parseProgramme_iff, fun x => parseSlot_iff, fun d => parseTrigger_iff⟩⟩
  case commit => exact commitComplete_next (opDue_at h ho)
  case erase => exact eraseComplete_next (opDue_at h ho)
  case eraseAll => rw [eraseAllComplete_due (opDue_at h ho), finishEraseAll_eq]; rfl
  case erased =>
    have kept : Inner (eraseAllItems s) (finishEraseAll s) := finishEraseAll_inner
    exact ⟨_, eraseAllComplete_due (opDue_at h ho), kept.protection, kept.op, kept.staging, kept.stagedLen⟩
  case machinery =>
    intro bound u v
    exact takeMachinery_eq (bound := bound) (u := u) (v := v) rfl rfl rfl
  case triggers =>
    rw [takeUp_triggers h, takeTriggers_eq, takeDate_eq]

end Sys2Proof.Machine
end

