-- ==== Sys2Proof/Proofs/ShowRequests.lean ====
section
/-! PROOF. SHOW-STATUS, QUEUE-GET, QUEUE-FLUSH and LAMP-SET, and the fades of the lamps (R80, R84, R85). -/
namespace Sys2Proof.Machine

/-- A request of the Show Sequencer is carried out once start-up step 6 has ended (R181). -/
theorem gated_sequencer {k : Byte} {f : State → State} {s : State} (hk : gateStep k = 6) (h : 6 ≤ s.hlc.step) :
    (Host.Outcome.next (gated k f s) : Host.Outcome State Fault Refusal) = .next (f s) :=
  congrArg _ (gated_at hk h)

/-- Settles O30: the replies are read off, and a flush empties the lanes it names. -/
theorem showStatusAndQueues : Obligations.ShowStatusAndQueues := fun _ h =>
  ⟨gated_sequencer (by decide) h, gated_sequencer (by decide) h, gated_sequencer (by decide) h,
    gated_sequencer (by decide) h, gated_sequencer (by decide) h, fun _ => gated_sequencer (by decide) h⟩

/-! ## LAMP-SET (R85) -/

section
variable {channel level fade : Nat} {s : State}

theorem lampSet_outOfRange (h : 6 ≤ s.hlc.step) (hv : 8 ≤ channel ∨ 255 < level ∨ 10000 < fade) :
    exec (.lampSet channel level fade) s = .next (reply 0x37#8 .badValue .none s) := by
  refine (gated_sequencer (by decide) h).trans ?_
  by_cases hc : channel < 8
  · rw [toFin_lt hc]
    exact congrArg _ (if_neg (by omega))
  · rw [toFin_ge (by omega)]

theorem lampSet_inRange (h : 6 ≤ s.hlc.step) (ch : Lamp) (v : Byte) (hf : fade ≤ 10000) :
    exec (.lampSet ch.val v.toNat fade) s =
      .next (reply 0x37#8 .ok .none (mapLamp ch (LampRec.put v fade .host) s)) := by
  have byte : v.toNat ≤ 255 := Nat.le_of_lt_succ v.isLt
  refine (gated_sequencer (by decide) h).trans ?_
  rw [toFin_val]
  refine (congrArg _ (if_pos ⟨byte, hf⟩)).trans ?_
  rw [BitVec.ofNat_toNat, BitVec.setWidth_eq]

end

/-! ## Fades (R80) -/

section
variable {r : LampRec}

theorem lampFadeEnd_due {ch : Lamp} {s : State} (h : (s.seq.lamps.get ch).fadeOver = true) :
    exec (.lampFadeEnd ch) s = .next (mapLamp ch LampRec.finish s) :=
  congrArg _ (whenDue_true h)

theorem lampTick_rests (h : r.frozen = true ∨ r.remaining = 0) : r.tick = r :=
  if_pos (by simpa using h)

/-- A fade goes on by a millisecond, its level truncated towards the start level. -/
theorem lampTick_fades (hf : r.frozen = false) (hr : 0 < r.remaining) (hl : 0 < r.length) :
    r.tick = { r with
      remaining := r.remaining - 1
      level := BitVec.ofInt 8 (r.startLevel.toNat + (((r.target.toNat : Int) - r.startLevel.toNat) *
        ((r.length : Int) - (r.remaining - 1 : Nat))).tdiv r.length) } := by
  have level : fadeLevel r.startLevel r.target r.length (r.remaining - 1) = BitVec.ofInt 8 (r.startLevel.toNat +
      (((r.target.toNat : Int) - r.startLevel.toNat) * ((r.length : Int) - (r.remaining - 1 : Nat))).tdiv r.length) :=
    if_neg (by omega)
  rw [← level]
  refine if_neg ?_
  simp [hf]; omega

theorem lampDuty_mul (r : LampRec) : r.duty * 255 = r.level.toNat :=
  div_mul_cancel₀ _ (by norm_num)

end

/-- Settles O31: LAMP-SET, a millisecond of a fade, its end, and the duty of a channel. -/
theorem lampsFade : Obligations.LampsFade := by
  refine ⟨fun channel level fade s h => ⟨lampSet_outOfRange h, ?inRange⟩, fun ch s => ?ends,
    fun r => ⟨lampTick_rests, fun hf hr hl _ => lampTick_fades hf hr hl, lampDuty_mul r⟩⟩
  case inRange =>
    rintro ch v rfl rfl hf
    exact lampSet_inRange h ch v hf
  case ends => exact fun hf hr hg => lampFadeEnd_due ((fadeOver_iff _).2 ⟨hf, hg, hr⟩)

end Sys2Proof.Machine
end

