-- ==== Sys2Proof/Proofs/ShowStart.lean ====
section
/-! PROOF. SHOW-START, and how a run starts: its load, its answer, and its entry into RUNNING or HOLDING (R47, R48, R61,
R64 to R67, R72, R73, R82). -/
namespace Sys2Proof.Machine

section
variable {l : Lane} {r : Run} {s : State}

/-! ## The run on a lane -/

theorem mapRun_run {f : Run → Run} (h : s.run l = some r) :
    s.mapRun l f = s.setLane l { s.lane l with run := some (f r) } := by
  unfold State.mapRun
  rw [show (s.lane l).run = some r from h]; rfl

theorem run_setLane_self (q : LaneRec) : (s.setLane l q).run l = q.run := by
  unfold State.run
  rw [lane_setLane_self]

theorem setLane_lamps (q : LaneRec) : (s.setLane l q).seq.lamps = s.seq.lamps := by cases l <;> rfl

theorem isHeld_iff (r : Run) : r.isHeld = true ↔ r.heldHost = true ∨ r.heldGroups ≠ 0 := by
  simp [Run.isHeld]

theorem notHeld_iff (r : Run) : r.isHeld = false ↔ r.heldHost = false ∧ r.heldGroups = 0 := by
  simp [Run.isHeld]

/-! ## SHOW-START (R61, R82) -/

section
variable {subject : Subject} {staleness : Nat}

/-- The values of a SHOW-START are in range (R82). -/
def StartInRange (subject : Subject) (staleness : Nat) : Prop :=
  staleness ≤ 3600 ∧ match subject with | .script n => n < 128 | .count n => 1 ≤ n ∧ n ≤ 12

theorem startInRange_iff :
    (subjectOk subject && decide (staleness ≤ 3600)) = true ↔ StartInRange subject staleness := by
  unfold StartInRange
  rw [Bool.and_eq_true, decide_eq_true_eq, and_comm]
  cases subject with
  | script n => simp [subjectOk]
  | count n => simp [subjectOk, within_iff]

theorem showStart_outOfRange (h : 6 ≤ s.hlc.step) (hv : ¬StartInRange subject staleness) :
    exec (.showStart subject staleness) s = .next (reply 0x30#8 .badValue .none s) := by
  rw [← startInRange_iff, Bool.not_eq_true] at hv
  exact (gated_sequencer (by decide) h).trans (congrArg _ (if_pos (by simp only [hv, Bool.not_false])))

/-- A request in range goes where its subject's lane is (R59, R82). -/
theorem showStart_inRange (h : 6 ≤ s.hlc.step) (hv : StartInRange subject staleness) :
    exec (.showStart subject staleness) s = .next (match placeOf subject s with
      | .noScript => reply 0x30#8 .notFound .none s
      | .storeCheck => reply 0x30#8 .badScript .none s
      | .on l => settle (arrivalReply (arriveAt l (hostReq subject staleness s) s).2
          (arriveAt l (hostReq subject staleness s) s).1)) := by
  rw [← startInRange_iff] at hv
  exact (gated_sequencer (by decide) h).trans (congrArg _ (if_neg (by simp only [hv]; decide)))

theorem showStart_noScript (h : 6 ≤ s.hlc.step) (hv : StartInRange subject staleness)
    (hp : placeOf subject s = .noScript) :
    exec (.showStart subject staleness) s = .next (reply 0x30#8 .notFound .none s) := by
  rw [showStart_inRange h hv, hp]

theorem showStart_storeCheck (h : 6 ≤ s.hlc.step) (hv : StartInRange subject staleness)
    (hp : placeOf subject s = .storeCheck) :
    exec (.showStart subject staleness) s = .next (reply 0x30#8 .badScript .none s) := by
  rw [showStart_inRange h hv, hp]

/-- The answer to a SHOW-START is the answer of its request's arrival (R82). -/
theorem showStart_arrives (h : 6 ≤ s.hlc.step) (hv : StartInRange subject staleness) (hp : placeOf subject s = .on l)
    {t : State} {a : Arrival} (ha : arriveAt l (hostReq subject staleness s) s = (t, a)) :
    exec (.showStart subject staleness) s = .next (settle (arrivalReply a t)) := by
  rw [showStart_inRange h hv, hp]
  simp only [ha]

/-- A host request is made now, so that it is never stale at its arrival (R60). -/
theorem hostReq_fresh (subject : Subject) (staleness : Nat) (s : State) :
    (hostReq subject staleness s).stale s.tb.showTime = false := by
  simp [ShowReq.stale, ShowReq.age, hostReq]

theorem arriveAt_hostStarts (h : s.run l = none) (hr : s.restraint = false) :
    arriveAt l (hostReq subject staleness s) s = (startRun l (hostReq subject staleness s) s, .started l) :=
  arriveAt_starts h hr (hostReq_fresh subject staleness s)

/-- A host request on a busy lane takes the end of the queue, and is refused by a full one (R61). -/
theorem arriveAt_hostQueues (h : s.run l ≠ none ∨ s.restraint = true) :
    arriveAt l (hostReq subject staleness s) s =
      if 4 ≤ (s.lane l).queue.length then (s, .refusedFull)
      else (s.setLane l { s.lane l with queue := (s.lane l).queue ++ [hostReq subject staleness s] },
        .queued l ((s.lane l).queue.length + 1)) := by
  have host : (hostReq subject staleness s).origin = .host := rfl
  rw [(arriveAt_busy h).1 rfl, queueReq_once (fun hd => hd.1 host), if_pos host]

end

/-! ## The run enters RUNNING or HOLDING (R66, R72, R73) -/

/-- A run with its cues and its pre-roll, RUNNING (R66). -/
def Run.begun (cues : List Cue) (policy : Bool) (now : Int) (r : Run) : Run :=
  { r with
    cues := cues.map fun c => { cue := c, issued := false }
    abortPolicy := policy, start := some (now + 200), state := .running, holdStart := none
    resumeEnding := false }

theorem beginRun_run {cues : List Cue} {policy : Bool} (h : s.run l = some r) : beginRun l cues policy s =
    raise (.showStarted l r.subject r.origin)
      (if r.isHeld then mapLamps (fun _ p => p.freeze l)
        (s.setLane l { s.lane l with run := some { r.begun cues policy s.tb.showTime with
          state := .holding, holdStart := some s.stamp } })
      else s.setLane l { s.lane l with run := some (r.begun cues policy s.tb.showTime) }) := by
  have held (cs : List CueSlot) (p : Bool) (t : Option Int) (st : RunState) (hs : Option Stamp) (e : Bool) :
      Run.isHeld { r with cues := cs, abortPolicy := p, start := t, state := st, holdStart := hs, resumeEnding := e }
        = r.isHeld := rfl
  unfold beginRun
  simp only [h, held]
  cases r.isHeld <;> rfl

/-! ## The load is asked for (R47, R64, R67) -/

theorem someAsleep_iff (s : State) : someAsleep s = true ↔ ∃ n ∈ s.flc.nodes.toList, n.state = .asleep := by
  simp only [someAsleep, List.any_eq_true, beq_iff_eq]

/-- The lane with the run of a request, LOADING (R64). -/
def laneLoading (l : Lane) (q : ShowReq) (s : State) : State := s.setLane l { s.lane l with run := some (newRun q) }

theorem startRun_count {q : ShowReq} {n : Nat} (h : q.subject = .count n) : startRun l q s =
    beginRun l (countCues n s.hlc.live.countBell s.hlc.live.countSpacing) false (laneLoading l q s) := by
  unfold startRun
  simp only [h, setLane_hlc]
  rfl

/-- The lane with the run of a request, LOADING; lane M's run asks for a wake if a bound node is ASLEEP (R64). -/
def laneWoken (l : Lane) (q : ShowReq) (s : State) : State :=
  if l = .M ∧ ∃ n ∈ s.flc.nodes.toList, n.state = .asleep then requestWake true (laneLoading l q s)
  else laneLoading l q s

theorem startRun_script {q : ShowReq} {n : Nat} (h : q.subject = .script n) : startRun l q s =
    if opConcerns ⟨.script, n⟩ (laneWoken l q s) then joinWaiting (.lane l) (laneWoken l q s)
    else answerLoad l (laneWoken l q s) := by
  unfold startRun
  simp only [h, someAsleep_iff, setLane_flc]
  rfl

/-- The load waits while a store operation concerns the script (R47). -/
theorem startRun_waits {q : ShowReq} {n : Nat} (h : q.subject = .script n)
    (hc : opConcerns ⟨.script, n⟩ (laneWoken l q s) = true) :
    startRun l q s = joinWaiting (.lane l) (laneWoken l q s) :=
  (startRun_script h).trans (if_pos hc)

theorem startRun_loads {q : ShowReq} {n : Nat} (h : q.subject = .script n)
    (hc : opConcerns ⟨.script, n⟩ (laneWoken l q s) = false) : startRun l q s = answerLoad l (laneWoken l q s) :=
  (startRun_script h).trans (if_neg (by rw [hc]; decide))

/-! ## The load is answered (R48, R65) -/

section
variable {n : Nat}

/-- The item of a load found in the directory is pinned by the run (R48). -/
def loadPinned (l : Lane) (n : Nat) (s : State) : State :=
  (addPin ⟨.script, n⟩ (loadItem ⟨.script, n⟩ s).1).mapRun l fun r => { r with pinned := true }

theorem answerLoad_absent (h : s.run l = some r) (hs : r.state = .loading) (hn : r.subject = .script n)
    (hf : findItem ⟨.script, n⟩ s = none) : answerLoad l s = failLoad l .noScript s := by
  have load : loadItem ⟨.script, n⟩ s = (s, .absent) := by unfold loadItem; rw [hf]
  unfold answerLoad
  simp [h, hs, hn, load, hf]

/-- An item that the directory holds is pinned, and its content decides (R47, R65). -/
theorem answerLoad_present (h : s.run l = some r) (hs : r.state = .loading) (hn : r.subject = .script n)
    (hf : findItem ⟨.script, n⟩ s ≠ none) :
    ((loadItem ⟨.script, n⟩ s).2 = .unusable → answerLoad l s = failLoad l .storeCheck (loadPinned l n s)) ∧
    ∀ bs, (loadItem ⟨.script, n⟩ s).2 = .content bs → answerLoad l s = match parseScript bs with
      | .ok sc =>
        if sc.lane = l then beginRun l sc.cues sc.abortPolicy (loadPinned l n s)
        else failLoad l .wrongLane (loadPinned l n s)
      | .error _ => failLoad l .storeCheck (loadPinned l n s) := by
  have present : (findItem ⟨.script, n⟩ s).isSome = true := Option.ne_none_iff_isSome.1 hf
  refine ⟨fun hl => ?_, fun bs hl => ?_⟩
  all_goals
    unfold answerLoad
    simp only [h, hs, hn, present, hl, if_true]
    rfl

end

end

/-- Settles O28: the arrival of a host request, the start of a run, its load's answer, and its entry into RUNNING or
HOLDING. -/
theorem showStartStarts : Obligations.ShowStartStarts := by
  refine ⟨fun subject staleness s h => ⟨showStart_outOfRange h, showStart_noScript h, showStart_storeCheck h,
      fun l hv hp => ⟨fun hi hr => ?starts, fun hb hl => ?queues, fun hb hl => ?full⟩⟩,
    fun l q s => ⟨fun n hq => startRun_count hq, fun n hq => ⟨startRun_waits hq, startRun_loads hq⟩⟩,
    fun l n r s h hs hn => ⟨answerLoad_absent h hs hn, fun hf => ?present⟩,
    fun l cues policy r s h => ⟨fun hh => ?runs, fun hh => ?holds⟩⟩
  case starts => rw [showStart_arrives h hv hp (arriveAt_hostStarts hi hr)]; rfl
  case queues =>
    rw [showStart_arrives h hv hp ((arriveAt_hostQueues hb).trans (if_neg (by omega)))]; rfl
  case full => rw [showStart_arrives h hv hp ((arriveAt_hostQueues hb).trans (if_pos hl))]; rfl
  case present =>
    obtain ⟨unusable, content⟩ := answerLoad_present h hs hn hf
    refine ⟨unusable, fun bs hl => ⟨fun e he => ?_, fun sc hsc hne => ?_, fun sc hsc heq => ?_⟩⟩
    · rw [content bs hl, he]; rfl
    · rw [content bs hl, hsc]; exact if_neg hne
    · rw [content bs hl, hsc]; exact if_pos heq
  case runs => exact (beginRun_run h).trans (congrArg _ (if_neg (by simp [(notHeld_iff r).2 hh])))
  case holds =>
    rw [beginRun_run h, if_pos ((isHeld_iff r).2 hh)]
    simp only [mapLamps, setLane_lamps]
    rfl

end Sys2Proof.Machine
end

