-- ==== Sys2Proof/Proofs/Cues.lean ====
section
/-! PROOF. The cues of a run: which is issued next and when, and what each kind does (R68 to R70, R92). -/
namespace Sys2Proof.Machine

/-! ## The cues that have fallen due (R68) -/

section
variable {now : Int} {r : Run} {k : Nat} {cs : List CueSlot}

/-- The issue instant and the index of a cue that has fallen due and has not been issued. -/
def Run.dueAt (now : Int) (r : Run) (c : CueSlot × Nat) : Option (Int × Nat) :=
  if c.1.issued then none else ((r.issueAt c.1.cue).filter (· ≤ now)).map (·, c.2)

theorem dueAt_some_iff {c : CueSlot × Nat} {p : Int × Nat} : r.dueAt now c = some p ↔
    c.1.issued = false ∧ r.issueAt c.1.cue = some p.1 ∧ p.1 ≤ now ∧ c.2 = p.2 := by
  unfold Run.dueAt
  cases c.1.issued <;> simp [Option.filter_eq_some_iff, Prod.ext_iff, and_assoc]

theorem dueCues_eq (now : Int) (r : Run) (k : Nat) (cs : List CueSlot) :
    dueCues now r k cs = (cs.zipIdx k).filterMap (r.dueAt now) := by
  induction cs generalizing k with
  | nil => rfl
  | cons c cs ih =>
    rw [List.zipIdx_cons, List.filterMap_cons, ← ih, dueCues, Run.dueAt]
    cases c.issued with
    | true => cases r.issueAt c.cue <;> rfl
    | false =>
      cases r.issueAt c.cue with
      | none => rfl
      | some t => by_cases ht : t ≤ now <;> simp [ht, Option.filter_some]

theorem mem_dueCues {t : Int} {i : Nat} : (t, i) ∈ dueCues now r 0 cs ↔
    ∃ c, cs[i]? = some { cue := c, issued := false } ∧ r.issueAt c = some t ∧ t ≤ now := by
  rw [dueCues_eq, List.mem_filterMap]
  simp only [dueAt_some_iff, List.mem_zipIdx_iff_getElem?]
  constructor
  · rintro ⟨⟨⟨c, b⟩, j⟩, hc, rfl, ht, hn, rfl⟩
    exact ⟨c, hc, ht, hn⟩
  · rintro ⟨c, hc, ht, hn⟩
    exact ⟨(_, i), hc, rfl, ht, hn, rfl⟩

/-- The cues that have fallen due stand in the order of their indices. -/
theorem dueCues_ascending : (dueCues now r k cs).Pairwise fun p q => p.2 < q.2 := by
  rw [dueCues_eq]
  have indices : (cs.zipIdx k).Pairwise fun c d => c.2 < d.2 := by
    rw [← List.pairwise_map (f := Prod.snd) (R := (· < ·)), List.zipIdx_map_snd]
    exact List.pairwise_lt_range' 1
  refine indices.filterMap _ fun c d hlt p hp q hq => ?_
  obtain ⟨-, -, -, hcp⟩ := dueAt_some_iff.1 hp
  obtain ⟨-, -, -, hdq⟩ := dueAt_some_iff.1 hq
  omega

end

/-! ## The earliest of them (R68; log entry 51) -/

/-- A cue comes no later than another: by its instant, or among cues of one instant by its index. -/
def CueBefore (x y : Int × Nat) : Prop := x.1 < y.1 ∨ (x.1 = y.1 ∧ x.2 ≤ y.2)

theorem earliest_none_iff {xs : List (Int × Nat)} : earliest xs = none ↔ xs = [] := by
  cases xs with
  | nil => simp [earliest]
  | cons x xs =>
    unfold earliest
    cases earliest xs with
    | none => simp
    | some y => by_cases h : y.1 < x.1 <;> simp [h]

theorem earliest_first {xs : List (Int × Nat)} {x : Int × Nat} (hs : xs.Pairwise fun p q => p.2 < q.2)
    (h : earliest xs = some x) : x ∈ xs ∧ ∀ y ∈ xs, CueBefore x y := by
  induction xs generalizing x with
  | nil => cases h
  | cons a xs ih =>
    obtain ⟨above, rest⟩ := List.pairwise_cons.1 hs
    unfold earliest at h
    cases he : earliest xs with
    | none =>
      obtain rfl := earliest_none_iff.1 he
      simp only [he, Option.some.injEq] at h
      simp [← h, CueBefore]
    | some y =>
      obtain ⟨hy, first⟩ := ih rest he
      simp only [he] at h
      split at h
      next less =>
        obtain rfl := Option.some.inj h
        refine ⟨.tail _ hy, fun z hz => ?_⟩
        rcases List.mem_cons.1 hz with rfl | hz
        · exact .inl less
        · exact first z hz
      next notLess =>
        obtain rfl := Option.some.inj h
        refine ⟨.head _, fun z hz => ?_⟩
        rcases List.mem_cons.1 hz with rfl | hz
        · exact .inr ⟨rfl, le_rfl⟩
        · have index := above z hz
          have instant := first z hz
          unfold CueBefore at instant ⊢
          omega

theorem earliest_some_iff {xs : List (Int × Nat)} {x : Int × Nat} (hs : xs.Pairwise fun p q => p.2 < q.2) :
    earliest xs = some x ↔ x ∈ xs ∧ ∀ y ∈ xs, CueBefore x y := by
  refine ⟨earliest_first hs, fun ⟨hx, first⟩ => ?_⟩
  cases he : earliest xs with
  | none => simp [earliest_none_iff.1 he] at hx
  | some z =>
    obtain ⟨hz, least⟩ := earliest_first hs he
    have hxz := first z hz
    have hzx := least x hx
    unfold CueBefore at hxz hzx
    have same : z = x := Prod.ext (by omega) (by omega)
    rw [same]

/-! ## The next cue of a lane (R68) -/

section
variable {l : Lane} {i : Nat} {r : Run} {c : Cue} {s : State}

theorem issues_iff (r : Run) :
    r.issues = true ↔ r.abortAsked = false ∧ (r.state = .running ∨ r.state = .ending) := by
  simp [Run.issues]

theorem nextCue_run (h : s.run l = some r) : nextCue l s =
    if r.issues then (earliest (dueCues s.tb.showTime r 0 r.cues)).map Prod.snd else none := by
  unfold nextCue; rw [h]

theorem nextCue_none (h : s.run l = some r) (hs : r.abortAsked = true ∨ (r.state ≠ .running ∧ r.state ≠ .ending)) :
    nextCue l s = none := by
  refine (nextCue_run h).trans (if_neg ?_)
  rw [issues_iff]
  rcases hs with ha | hs <;> simp_all

theorem issues_of_nextCue (h : s.run l = some r) (hn : nextCue l s = some i) : r.issues = true := by
  by_contra hi
  rw [nextCue_run h, if_neg hi] at hn
  cases hn

theorem nextCue_some_iff (h : s.run l = some r) (ha : r.abortAsked = false)
    (hs : r.state = .running ∨ r.state = .ending) : nextCue l s = some i ↔
      ∃ t, (t, i) ∈ dueCues s.tb.showTime r 0 r.cues ∧
        ∀ y ∈ dueCues s.tb.showTime r 0 r.cues, CueBefore (t, i) y := by
  rw [nextCue_run h, if_pos ((issues_iff r).2 ⟨ha, hs⟩), Option.map_eq_some_iff]
  simp only [earliest_some_iff dueCues_ascending, Prod.exists, exists_eq_right]

/-! ## A cue is issued (R69, R70) -/

theorem issueCue_idle (h : s.run l = none) : issueCue l i s = s := by
  unfold issueCue; rw [h]

theorem issueCue_passes (h : s.run l = some r)
    (hc : r.abortAsked = true ∨ ∀ c, r.cues[i]? = some c → c.issued = true) : issueCue l i s = s := by
  unfold issueCue
  simp only [h]
  cases hi : r.cues[i]? with
  | none => rfl
  | some c =>
    refine if_pos ?_
    rcases hc with ha | hc
    · simp [ha]
    · simp [hc c hi]

theorem issueCue_performs (h : s.run l = some r) (ha : r.abortAsked = false)
    (hc : r.cues[i]? = some { cue := c, issued := false }) :
    issueCue l i s = performCue l i r c (s.mapRun l (markIssued i)) := by
  unfold issueCue
  simp only [h, hc, ha]
  rfl

theorem cueRow_some (h : s.run l = some r) (hc : r.cues[i]? = some { cue := c, issued := false }) :
    cueRow l i s = some c.kind.row := by
  unfold cueRow; simp only [h, hc]; rfl

/-- The lane's next cue does what its kind does, and settling follows (R69). -/
theorem cueEvent_next (h : s.run l = some r) (hn : nextCue l s = some i)
    (hc : r.cues[i]? = some { cue := c, issued := false }) {row : CueRow} (hr : c.kind.row = row) :
    cueEvent row l i s = settle (performCue l i r c (s.mapRun l (markIssued i))) := by
  obtain ⟨ha, -⟩ := (issues_iff r).1 (issues_of_nextCue h hn)
  rw [← issueCue_performs h ha hc]
  exact whenDue_true (by simp [cueDue, hn, cueRow_some h hc, hr])

theorem endCue_next (h : s.run l = some r) (hn : nextCue l s = some i)
    (hc : r.cues[i]? = some { cue := c, issued := false }) (hk : c.kind = .finish) :
    exec (.endCue l) s = .next (settle (issueEnd l s)) := by
  have due : endDue l s = true := by simp [endDue, hn, cueRow_some h hc, hk, CueKind.row]
  exact congrArg _ (whenDue_true due)

theorem issueEnd_run (h : s.run l = some r) : issueEnd l s =
    ((List.range r.cues.length).foldl (fun s j => issueCue l j s) s).mapRun l
      fun r => if r.abortAsked then r else { r with state := .ending } := by
  unfold issueEnd; rw [h]

/-! ## What each kind does, and when (R68, R69) -/

section
variable {t : Int}

theorem dueTime_started (h : r.start = some t) (c : Cue) : r.dueTime c = some (t + c.offset + r.accHold) := by
  unfold Run.dueTime; rw [h]; rfl

theorem expected_started (h : r.start = some t) (x : Nat) : r.expected x = some (t + x + r.accHold) := by
  unfold Run.expected; rw [h]; rfl

/-- What a cue of a started run does, by its kind (R69). -/
theorem performCue_started (h : r.start = some t) : performCue l i r c s = match c.kind with
    | .strike b v => offerStrike b v (t + c.offset + r.accHold) (.lane l i) s
    | .damp bs => dampBells bs s
    | .move d w g tol ps =>
      if (ps.filter fun p => !r.excluded.getLsbD p.1.val) = [] then s
      else takeMove i d w g tol (t + c.offset + r.accHold) (ps.filter fun p => !r.excluded.getLsbD p.1.val) false s
    | .door d g => if r.skipDoors.getLsbD d.val then s else takeDoor d g (.run i) s
    | .turn p dir => if r.skipTurn then s else takeTurn (.to p dir) (.run i) s
    | .mark input e x w => claimUnit l i input e (t + x + r.accHold - w) (t + x + r.accHold + w) s
    | .lamp ch level fade => mapLamp ch (LampRec.put level fade (.lane l)) s
    | .finish => s := by
  have due := dueTime_started h c
  unfold performCue
  cases c.kind with
  | strike b v => simp only [due]
  | damp bs => rfl
  | move d w g tol ps =>
    simp only [due]
    cases ps.filter fun p => !r.excluded.getLsbD p.1.val with
    | nil => rfl
    | cons p rest => rfl
  | door d g => rfl
  | turn p dir => rfl
  | mark input e x w => simp only [expected_started h]
  | lamp ch level fade => rfl
  | finish => rfl

theorem issueAt_unstarted (h : r.start = none) (c : Cue) : r.issueAt c = none := by
  unfold Run.issueAt Run.dueTime Run.expected
  rw [h]
  cases c.kind <;> rfl

/-- The instant at which a cue of a started run is issued, by its kind (R68). -/
theorem issueAt_started (h : r.start = some t) : r.issueAt c = some (match c.kind with
    | .strike .. => t + c.offset + r.accHold - 100
    | .move .. => t + c.offset + r.accHold - 300
    | .mark _ _ x w => t + x + r.accHold - w
    | _ => t + c.offset + r.accHold) := by
  have due := dueTime_started h c
  unfold Run.issueAt
  rw [due]
  cases c.kind with
  | mark input e x w => simp only [expected_started h]; rfl
  | _ => rfl

end

end

/-- Settles O32: the next cue of a lane, its issue instant, and what each kind of cue does. -/
theorem cuesAreIssued : Obligations.CuesAreIssued := by
  refine ⟨fun l i r c s h hn hc => ?issued,
    fun l i s => ⟨fun _ => rfl, issueCue_idle, fun r h => ⟨issueCue_passes h, fun c => issueCue_performs h⟩⟩,
    fun l i r c t s h => ?does,
    fun r c => ⟨fun h => issueAt_unstarted h c, fun t h => ?instants⟩,
    fun l r s h => ⟨nextCue_none h, fun ha hs i => ?next⟩⟩
  case issued =>
    have next {row : CueRow} (hr : c.kind.row = row) :
        (Host.Outcome.next (cueEvent row l i s) : Host.Outcome State Fault Refusal) =
          .next (settle (performCue l i r c (s.mapRun l (markIssued i)))) :=
      congrArg _ (cueEvent_next h hn hc hr)
    refine ⟨fun b v hk => next (row := .strike) ?_, fun bs hk => next (row := .damp) ?_,
      fun d w g tol ps hk => next (row := .move) ?_, fun d g hk => next (row := .door) ?_,
      fun p dir hk => next (row := .turn) ?_, fun input e x w hk => next (row := .mark) ?_,
      fun ch level fade hk => next (row := .lamp) ?_, fun hk => ?finish⟩
    case finish => rw [endCue_next h hn hc hk, issueEnd_run h]
    all_goals rw [hk]; rfl
  case does =>
    have does := performCue_started (l := l) (i := i) (c := c) (s := s) h
    refine ⟨fun b v hk => ?_, fun bs hk => ?_, fun d w g tol ps hk => ?_, fun d g hk => ?_, fun p dir hk => ?_,
      fun input e x w hk => ?_, fun ch level fade hk => ?_, fun hk => ?_⟩
    all_goals rw [does, hk]
  case instants =>
    have instant := issueAt_started (c := c) h
    refine ⟨fun b v hk => ?_, fun d w g tol ps hk => ?_, fun input e x w hk => ?_, ?others⟩
    case others => rintro (⟨bs, hk⟩ | ⟨d, g, hk⟩ | ⟨p, dir, hk⟩ | ⟨ch, level, fade, hk⟩ | hk) <;> rw [instant, hk]
    all_goals rw [instant, hk]
  case next =>
    simp only [nextCue_some_iff h ha hs, mem_dueCues, Prod.forall, CueBefore]
    exact exists_congr fun t => and_congr_right fun _ => forall_comm

end Sys2Proof.Machine
end

