-- ==== Sys2Proof/Proofs/StopsAndResumes.lean ====
section
/-! PROOF. SHOW-STOP, SHOW-HOLD and SHOW-RESUME, and the limit of a hold (R74, R75, R83). -/
namespace Sys2Proof.Machine

section
variable {l : Lane} {r : Run} {s : State}

theorem canStop_iff : canStop l s = true ↔ ∃ r, s.run l = some r ∧ r.state ≠ .aborting := by
  unfold canStop
  cases s.run l <;> simp

theorem canResume_iff : canResume l s = true ↔
    ∃ r, s.run l = some r ∧ (r.state = .holding ∨ (r.state = .loading ∧ r.isHeld = true)) := by
  unfold canResume
  cases s.run l <;> simp

end

section
variable {lanes : LaneSel} {s : State}

/-- SHOW-STOP and SHOW-HOLD act on a named lane with a run that is not ABORTING (R83). -/
theorem anyCanStop_iff : ((laneList lanes).any fun l => canStop l s) = true ↔
    ∃ l ∈ laneList lanes, ∃ r, s.run l = some r ∧ r.state ≠ .aborting := by
  simp only [List.any_eq_true, canStop_iff]

/-- SHOW-RESUME acts on a named lane that is HOLDING, or LOADING with a hold recorded (R83). -/
theorem anyCanResume_iff : ((laneList lanes).any fun l => canResume l s) = true ↔
    ∃ l ∈ laneList lanes, ∃ r, s.run l = some r ∧
      (r.state = .holding ∨ (r.state = .loading ∧ r.isHeld = true)) := by
  simp only [List.any_eq_true, canResume_iff]

theorem showStop_acts (h : 6 ≤ s.hlc.step) (ha : ∃ l ∈ laneList lanes, ∃ r, s.run l = some r ∧ r.state ≠ .aborting) :
    exec (.showStop (.val lanes)) s = .next (settle (reply 0x31#8 .ok .none
      ((laneList lanes).foldl (fun s l => abortLane l .hostStop false s) s))) :=
  (gated_sequencer (by decide) h).trans (congrArg _ (if_pos (anyCanStop_iff.2 ha)))

theorem showHold_acts (h : 6 ≤ s.hlc.step) (ha : ∃ l ∈ laneList lanes, ∃ r, s.run l = some r ∧ r.state ≠ .aborting) :
    exec (.showHold (.val lanes)) s = .next (settle (reply 0x32#8 .ok .none
      ((laneList lanes).foldl (fun s l => holdLane l .host s) s))) :=
  (gated_sequencer (by decide) h).trans (congrArg _ (if_pos (anyCanStop_iff.2 ha)))

theorem not_anyCanStop (hn : ∀ l ∈ laneList lanes, ∀ r, s.run l = some r → r.state = .aborting) :
    ¬((laneList lanes).any fun l => canStop l s) = true := by
  rw [anyCanStop_iff]
  rintro ⟨l, hl, r, hr, hs⟩
  exact hs (hn l hl r hr)

theorem showStop_notNow (h : 6 ≤ s.hlc.step)
    (hn : ∀ l ∈ laneList lanes, ∀ r, s.run l = some r → r.state = .aborting) :
    exec (.showStop (.val lanes)) s = .next (reply 0x31#8 .notNow .none s) :=
  (gated_sequencer (by decide) h).trans (congrArg _ (if_neg (not_anyCanStop hn)))

theorem showHold_notNow (h : 6 ≤ s.hlc.step)
    (hn : ∀ l ∈ laneList lanes, ∀ r, s.run l = some r → r.state = .aborting) :
    exec (.showHold (.val lanes)) s = .next (reply 0x32#8 .notNow .none s) :=
  (gated_sequencer (by decide) h).trans (congrArg _ (if_neg (not_anyCanStop hn)))

/-- SHOW-RESUME lifts the host's hold and those of the MATCHING groups; a lane still held is named (R75, R83). -/
theorem showResume_acts (h : 6 ≤ s.hlc.step) (ha : ∃ l ∈ laneList lanes, ∃ r, s.run l = some r ∧
      (r.state = .holding ∨ (r.state = .loading ∧ r.isHeld = true))) :
    let u := (laneList lanes).foldl (fun t l => liftHold l true (matchingGroups s) t) s
    let left := (laneList lanes).foldl (fun w l => w ||| heldGroups l u) 0
    exec (.showResume (.val lanes)) s = .next (settle
      (if left = 0 then reply 0x33#8 .ok .none u else reply 0x33#8 .notNow (.heldBy left) u)) :=
  (gated_sequencer (by decide) h).trans (congrArg _ (if_pos (anyCanResume_iff.2 ha)))

theorem showResume_notNow (h : 6 ≤ s.hlc.step) (hn : ∀ l ∈ laneList lanes, ∀ r, s.run l = some r →
      r.state ≠ .holding ∧ (r.state = .loading → r.isHeld = false)) :
    exec (.showResume (.val lanes)) s = .next (reply 0x33#8 .notNow .none s) := by
  refine (gated_sequencer (by decide) h).trans (congrArg _ (if_neg ?_))
  rw [anyCanResume_iff]
  rintro ⟨l, hl, r, hr, hs⟩
  obtain ⟨notHolding, notHeld⟩ := hn l hl r hr
  rcases hs with hs | ⟨hs, held⟩
  · exact notHolding hs
  · simp [notHeld hs] at held

end

/-- A hold of 120,000 ms aborts its run (R74). -/
theorem holdTimeout_aborts {l : Lane} {r : Run} {h : Stamp} {s : State} (hr : s.run l = some r)
    (hs : r.state = .holding) (hh : r.holdStart = some h) (ht : h.elapsed + 120000 ≤ s.tb.elapsed) :
    exec (.holdTimeout l) s = .next (settle (abortLane l .holdTimeout false s)) :=
  congrArg _ (whenDue_true ((holdOver_iff s l).2 ⟨r, h, hr, hs, hh, ht⟩))

end Sys2Proof.Machine
end

