-- ==== Sys2Proof/Proofs/Aborts.lean ====
section
/-! PROOF. An abort of a run, what it does to the run's figures, and the drives that a run commands, stopped together
(R77, R81, R141, R150). -/
namespace Sys2Proof.Machine

/-! ## The abort of a run (R77) -/

section
variable {l : Lane} {why : AbortReason} {guard : Bool} {r : Run} {s : State}

theorem abortLane_aborting (h : s.run l = some r) (hs : r.state = .aborting) : abortLane l why guard s = s := by
  unfold abortLane; simp only [h, hs]

/-- The lane with its run ABORTING (R77). -/
def laneAborting (l : Lane) (why : AbortReason) (r : Run) (s : State) : State :=
  s.setLane l { s.lane l with run := some (r.aborted why) }

theorem abortLane_loading (h : s.run l = some r) (hs : r.state = .loading) : abortLane l why guard s =
    { laneAborting l why r s with ps.waiting := (laneAborting l why r s).ps.waiting.filter (· != .lane l) } := by
  unfold abortLane; simp only [h, hs, mapRun_run h]; rfl

/-- An abort takes a run's strikes, its figures and its drives, in this order (R77; log entry 60). -/
def workAborted (l : Lane) (guard : Bool) (s : State) : State :=
  if l = .C then withdrawStrikes l s
  else stopDrives (if guard then withdrawRun (withdrawStrikes l s) else abortFigs (withdrawStrikes l s))

/-- A run with work under way gives up its work, then its captures, then its lamps (R77, R81). -/
theorem abortLane_working (h : s.run l = some r) (hs : r.state = .running ∨ r.state = .holding ∨ r.state = .ending) :
    abortLane l why guard s = restLamps l (freeClaims l (workAborted l guard (laneAborting l why r s))) := by
  unfold abortLane
  rcases hs with hs | hs | hs
  all_goals
    simp only [h, hs, mapRun_run h]
    cases l <;> rfl

end

/-! ## The figures of an aborted run (R141) -/

section
variable {f : Fig} {s : State}

/-- A move that a run owns and that no run has left behind (R77). -/
theorem figOfRun_iff (r : FigRec) : r.ofRun = true ↔
    r.homing = none ∧ ∃ m, r.move = some m ∧ m.owner ≠ .host ∧ m.ended = false := by
  unfold FigRec.ofRun
  cases r.move <;> simp

theorem halts_iff (r : FigRec) : r.halts = true ↔ r.ofRun = true ∧ (r.state = .staged ∨ r.state = .moving) := by
  simp [FigRec.halts]

theorem ofHold_iff (o : TxnOwner) : o.ofHold = true ↔ ∃ f, o = .holdClear f false := by
  cases o <;> simp [TxnOwner.ofHold]

/-- The CLEARs that the run's holds queued are withdrawn first, then figure by figure the rest (R141). -/
theorem withdrawRun_eq (s : State) : withdrawRun s = (List.finRange 12).foldl (fun t f => abortWithdraw f t)
    { s with flc.queue := s.flc.queue.filter fun t => decide (∀ f, t.owner ≠ .holdClear f false) } := by
  have clears : (fun t : Txn => !t.owner.ofHold) = fun t => decide (∀ f, t.owner ≠ .holdClear f false) := by
    funext t
    rw [Bool.eq_iff_iff, Bool.not_eq_true', ← Bool.not_eq_true, ofHold_iff]
    simp
  rw [← clears]
  rfl

theorem abortHalt_halts (h : (s.fig f).halts = true) :
    abortHalt f s = leaveMove f .halted (haltFig true f s) := if_pos h

theorem abortHalt_atRest (h : ¬(s.fig f).halts = true) : abortHalt f s = s := if_neg h

theorem abortWithdraw_atRest (h : ¬(s.fig f).halts = true) :
    abortWithdraw f s = s.setFig f { s.fig f with interrupted := none } := if_neg h

theorem abortWithdraw_halts {m : Move} (h : (s.fig f).halts = true) (hm : (s.fig f).move = some m) :
    abortWithdraw f s = { s.setFig f { s.fig f with interrupted := none } with
      flc.queue := s.flc.queue.filter fun t => !(TxnOwner.ofFig f t.owner || t.owner == .go m.tag) } := by
  refine (if_pos h).trans ?_
  conv_lhs => rw [hm]
  rfl

end

/-! ## The drives of a run, stopped together (R73, R77, R150) -/

section
variable {s : State}

theorem doorRunCmd_iff (r : DoorRec) : r.runCmd.isSome = true ↔ ∃ c, r.cmd = some c ∧ c.owner ≠ .host := by
  unfold DoorRec.runCmd
  cases r.cmd <;> simp

theorem turnRunCmd_iff (r : TurnRec) : r.runCmd.isSome = true ↔ ∃ c, r.cmd = some c ∧ c.owner ≠ .host := by
  unfold TurnRec.runCmd
  cases r.cmd <;> simp

theorem doorRunCmd_owned {r : DoorRec} {c : DoorCmd} (h : r.cmd = some c) (ho : c.owner ≠ .host) :
    r.runCmd = some c := by
  unfold DoorRec.runCmd; rw [h]; exact Option.filter_some_pos (by simpa using ho)

theorem turnRunCmd_owned {r : TurnRec} {c : TurnCmd} (h : r.cmd = some c) (ho : c.owner ≠ .host) :
    r.runCmd = some c := by
  unfold TurnRec.runCmd; rw [h]; exact Option.filter_some_pos (by simpa using ho)

theorem dropKeys_eq (ks : List ClaimKey) (s : State) : dropKeys ks s =
    if ∃ c ∈ s.dbu.claims, c.kind.key ∈ ks then
      grantPass { s with dbu.claims := s.dbu.claims.filter fun c => decide (c.kind.key ∉ ks) }
    else s := by
  unfold dropKeys
  simp only [List.any_eq_true, List.contains_eq_mem, decide_eq_true_eq, decide_not]

/-- The doors and the turntable that a run commands, stopped; their claims still stand. -/
def drivesStopped (s : State) : State :=
  { s with stg.doors := Vector.ofFn (runDoorStopped s), stg.turn := runTurnStopped s.stg.turn }

/-- The claims of the drives stopped are withdrawn together (R110, R150). -/
theorem stopDrives_eq (s : State) : stopDrives s = dropKeys (runDriveKeys s.stg) (drivesStopped s) := rfl

theorem drivesStopped_door (d : Door) : (drivesStopped s).door d = runDoorStopped s d := vector_get_ofFn ..

theorem runDoorStopped_other {d : Door} (h : ¬∃ c, (s.door d).cmd = some c ∧ c.owner ≠ .host) :
    runDoorStopped s d = s.door d := by
  have none : (s.door d).runCmd = none := by simpa using (doorRunCmd_iff (s.door d)).not.2 h
  unfold runDoorStopped; rw [none]

/-- A door that the run was driving is STOPPED, but UNKNOWN with both limits active (R144, R150; log entry 37). -/
theorem runDoorStopped_owned {d : Door} {c : DoorCmd} (h : (s.door d).cmd = some c) (ho : c.owner ≠ .host) :
    runDoorStopped s d = { s.door d with
      state := if s.limit d .closed = true ∧ s.limit d .opened = true then .unknown
        else if c.driving then .stopped else (s.door d).state
      cmd := none, travelStart := none } := by
  unfold runDoorStopped
  simp only [doorRunCmd_owned h ho, DoorRec.ended, State.bothLimits, Bool.and_eq_true]
  rfl

theorem runTurnStopped_other {r : TurnRec} (h : ∀ c, r.cmd = some c → ¬c.owner ≠ .host) : runTurnStopped r = r := by
  have none : r.runCmd = none := by
    simpa using (turnRunCmd_iff r).not.2 fun ⟨c, hc, ho⟩ => h c hc ho
  unfold runTurnStopped; rw [none]

theorem runTurnStopped_owned {r : TurnRec} {c : TurnCmd} (h : r.cmd = some c) (ho : c.owner ≠ .host) :
    runTurnStopped r = { r with
      state := if c.driving then .stopped else r.state, cmd := none, stepping := none } := by
  unfold runTurnStopped
  rw [turnRunCmd_owned h ho]
  rfl

end

end Sys2Proof.Machine
end

