-- ==== Sys2Proof/Proofs/Holds.lean ====
section
/-! PROOF. A hold of a run and of its figures, and what the run takes up again when it resumes (R72, R73, R75, R76,
R141). -/
namespace Sys2Proof.Machine

/-! ## A hold reaches a run (R72, R73) -/

section
variable {l : Lane} {src : HoldSource} {r : Run} {s : State}

theorem holdLane_aborting (h : s.run l = some r) (hs : r.state = .aborting) : holdLane l src s = s := by
  unfold holdLane; simp only [h, hs]

/-- The lane with the hold's source recorded (R72). -/
def laneHeld (l : Lane) (src : HoldSource) (r : Run) (s : State) : State :=
  s.setLane l { s.lane l with run := some (r.addHold src) }

theorem holdLane_records (h : s.run l = some r) (hs : r.state = .loading ∨ r.state = .holding) :
    holdLane l src s = laneHeld l src r s := by
  unfold holdLane
  rcases hs with hs | hs <;> simp only [h, hs, mapRun_run h] <;> rfl

/-- The run HOLDING, the cues of its withdrawn strikes unissued again and the drives it commands remembered (R73). -/
def Run.holdingIn (l : Lane) (s : State) (r : Run) : Run :=
  { unissue (withdrawnCues l s) r with
    resumeEnding := decide (r.state = .ending), state := .holding, holdStart := some s.stamp
    stoppedDoors := Vector.ofFn fun d => if l = .M then (s.door d).cmd.bind fun c => ownedCue c.owner else none
    stoppedTurn := if l = .M then s.stg.turn.cmd.bind fun c => ownedCue c.owner else none }

/-- What a hold stops: strikes, figures, drives, windows and fades, in this order (R73; log entry 61). -/
def workHeld (l : Lane) (s : State) : State :=
  mapLamps (fun _ p => p.freeze l)
    (mapUnits (fun c =>
        if c.ofLane l then { c with window := c.window.map fun w => { w with suspended := true } } else c)
      (if l = .M then stopDrives (holdFigs (withdrawStrikes l s)) else withdrawStrikes l s))

theorem enterHold_eq (h : s.run l = some r) :
    enterHold l s = workHeld l (s.setLane l { s.lane l with run := some (r.holdingIn l s) }) := by
  unfold enterHold
  simp only [mapRun_run h]
  rfl

theorem holdLane_holds (h : s.run l = some r) (hs : r.state = .running ∨ r.state = .ending) :
    holdLane l src s =
      workHeld l (s.setLane l { s.lane l with run := some ((r.addHold src).holdingIn l s) }) := by
  have enters : holdLane l src s = enterHold l (laneHeld l src r s) := by
    unfold holdLane
    rcases hs with hs | hs <;> simp only [h, hs, mapRun_run h] <;> rfl
  have held : (laneHeld l src r s).run l = some (r.addHold src) := run_setLane_self _
  rw [enters, enterHold_eq held]
  cases l <;> rfl

/-! ## The hold is lifted (R75) -/

/-- The run with sources of its hold removed (R75). -/
def Run.lifted (host : Bool) (groups : BitVec 4) (r : Run) : Run :=
  { r with heldHost := r.heldHost && !host, heldGroups := r.heldGroups &&& ~~~groups }

theorem liftHold_run {host : Bool} {groups : BitVec 4} (h : s.run l = some r) : liftHold l host groups s =
    if r.state = .holding ∧ (r.lifted host groups).isHeld = false then
      resumeRun l (s.setLane l { s.lane l with run := some (r.lifted host groups) })
    else s.setLane l { s.lane l with run := some (r.lifted host groups) } := by
  unfold liftHold
  simp only [mapRun_run h, run_setLane_self]
  rfl

/-! ## The run resumes (R76) -/

/-- The run RUNNING or ENDING again, the hold's length joined to the accumulated hold (R76). -/
def Run.resumed (len : Nat) (r : Run) : Run :=
  { r with
    accHold := r.accHold + len, holdStart := none, heldHost := false, heldGroups := 0
    state := if r.resumeEnding then .ending else .running }

/-- The figures recorded move again, cue by cue, then the doors, then the turntable (R76; log entries 57 and 86). -/
def stageResumed (l : Lane) (r : Run) (s : State) : State :=
  if l = .M then
    let v := (recordedCues s).foldl (fun t c => resumeCue (runOr l r t) t c) s
    let w := (List.finRange 2).foldl (fun t d => resumeDoor (runOr l r t) d t) v
    resumeTurn (runOr l r w) w
  else s

/-- The drives stopped are forgotten; windows move on by the hold's length, and fades go on (R76, R81). -/
def workFreed (l : Lane) (len : Nat) (s : State) : State :=
  mapLamps (fun _ p => p.thaw l)
    (mapUnits (fun c =>
        if c.ofLane l then
          { c with window := c.window.map fun w => { w.shift (len : Int) with suspended := false } }
        else c)
      (s.mapRun l fun r => { r with stoppedDoors := Vector.replicate 2 none, stoppedTurn := none }))

theorem resumeRun_run {h : Stamp} (hr : s.run l = some r) (hh : r.holdStart = some h) :
    let len := s.tb.elapsed - h.elapsed
    resumeRun l s = workFreed l len
      (stageResumed l (r.resumed len) (s.setLane l { s.lane l with run := some (r.resumed len) })) := by
  unfold resumeRun
  simp only [hr, hh]
  refine congrArg (workFreed l (s.tb.elapsed - h.elapsed)) ?_
  unfold stageResumed
  by_cases hl : l = .M
  · simp only [if_pos hl]; rfl
  · simp only [if_neg hl]; rfl

end

/-! ## The figures of a hold (R141) -/

section
variable {f : Fig} {m : Move} {s : State}

theorem remaining_staged (now : Nat) (h : m.started = none) : remaining now m = m.duration := by
  unfold remaining; rw [h]

theorem remaining_started {w : Started} (now : Nat) (h : m.started = some w) :
    remaining now m = max 200 (m.duration - (now - w.goElapsed)) := by
  unfold remaining; rw [h]

/-- The figure HALTED, its interrupted move recorded (R141). -/
def figRecorded (f : Fig) (m : Move) (s : State) : State :=
  s.mapFig f fun r =>
    { r with state := .halted, move := none, interrupted := some (interruptedOf m.owner.cue s.tb.elapsed m) }

theorem holdFig_moving (hm : (s.fig f).move = some m) (hs : (s.fig f).state = .moving) :
    holdFig f s = release m.ref f (figRecorded f m (haltFig true f s)) := by
  unfold holdFig
  simp only [hm, hs, if_true]
  rfl

/-- A figure before its GO gives up its STAGE, the GO and the claim; one whose GO is on the line is halted, another sent
a CLEAR (R141; log entries 27 and 95). -/
theorem holdFig_staged (hm : (s.fig f).move = some m) (hs : (s.fig f).inStaging = true) :
    let u := dropClaim (.figures m.ref)
      (figRecorded f m (withdrawQueued (fun o => o.isStage f || o == .go m.tag) s))
    holdFig f s =
      if goFlying m.tag s then haltFig true f u else enqueue .clear (u.figAddress f) [] (.holdClear f false) u := by
  have still : (s.fig f).state ≠ .moving := by
    intro moving
    simp [FigRec.inStaging, moving] at hs
  unfold holdFig
  simp only [hm, still, hs, if_true, if_false]
  rfl

theorem mem_insertCue {c d : Nat} {ds : List Nat} : c ∈ insertCue d ds ↔ c = d ∨ c ∈ ds := by
  induction ds with
  | nil => simp [insertCue]
  | cons e ds ih =>
    unfold insertCue
    split_ifs with _ same
    · simp
    · simp [same]
    · simp only [List.mem_cons, ih]; tauto

theorem insertCue_ascending {d : Nat} {ds : List Nat} (h : ds.Pairwise (· < ·)) :
    (insertCue d ds).Pairwise (· < ·) := by
  induction ds with
  | nil => exact List.pairwise_singleton _ _
  | cons e ds ih =>
    obtain ⟨above, rest⟩ := List.pairwise_cons.1 h
    unfold insertCue
    split_ifs with below same
    · refine List.pairwise_cons.2 ⟨fun c hc => ?_, h⟩
      rcases List.mem_cons.1 hc with rfl | hc
      · exact below
      · exact below.trans (above c hc)
    · exact h
    · refine List.pairwise_cons.2 ⟨fun c hc => ?_, ih rest⟩
      rcases mem_insertCue.1 hc with rfl | hc
      · omega
      · exact above c hc

theorem mem_foldr_insertCue {c : Nat} {ds : List Nat} : c ∈ ds.foldr insertCue [] ↔ c ∈ ds := by
  induction ds with
  | nil => rfl
  | cons d ds ih => rw [List.foldr_cons, mem_insertCue, ih, List.mem_cons]

theorem foldr_insertCue_ascending (ds : List Nat) : (ds.foldr insertCue []).Pairwise (· < ·) := by
  induction ds with
  | nil => exact .nil
  | cons d ds ih => exact insertCue_ascending ih

theorem mem_recordedCues {c : Nat} :
    c ∈ recordedCues s ↔ ∃ f i, (s.fig f).interrupted = some i ∧ i.cue = c := by
  unfold recordedCues
  simp [mem_foldr_insertCue, allFigs]

/-! ## The parts of a resume (R76) -/

theorem mem_recordedPairs {cue : Nat} {order : List Fig} {i : Interrupted} : (f, i) ∈ recordedPairs cue order s ↔
    f ∈ order ∧ (s.fig f).interrupted = some i ∧ i.cue = cue := by
  unfold recordedPairs
  rw [List.mem_filterMap]
  constructor
  · rintro ⟨g, hg, hi⟩
    split at hi
    next j hj =>
      split_ifs at hi with hc
      obtain ⟨rfl, rfl⟩ := Prod.mk.inj (Option.some.inj hi)
      exact ⟨hg, hj, hc⟩
    next => cases hi
  · rintro ⟨hf, hi, hc⟩
    exact ⟨f, hf, by simp only [hi, if_pos hc]⟩

/-- The figures that a run excludes lose their records and stay HALTED (R76, R141). -/
def excludedDropped (r : Run) (pairs : List (Fig × Interrupted)) (s : State) : State :=
  (pairs.filter fun p => r.excluded.getLsbD p.1.val).foldl
    (fun t p => t.setFig p.1 { t.fig p.1 with interrupted := none }) s

/-- The figures recorded of a MOVE cue resume in the order in which the cue lists them (R76). -/
theorem resumeCue_move {r : Run} {cue : Nat} {slot : CueSlot} {d w g tol : Nat} {ps : List (Fig × Int)}
    (hc : r.cues[cue]? = some slot) (hk : slot.cue.kind = .move d w g tol ps) :
    let pairs := recordedPairs cue (ps.map Prod.fst) s
    let u := excludedDropped r pairs s
    resumeCue r s cue = match pairs.filter fun p => !r.excluded.getLsbD p.1.val with
      | [] => u
      | (f, i) :: rest =>
        takeMove cue i.remaining i.windowOpen i.grace i.tolerance (u.tb.showTime + 300)
          (((f, i) :: rest).map fun p => (p.1, p.2.target)) true u := by
  obtain ⟨⟨offset, kind⟩, issued⟩ := slot
  obtain rfl : kind = _ := hk
  unfold resumeCue
  simp only [hc]
  rfl

theorem excludedDropped_tb (r : Run) (pairs : List (Fig × Interrupted)) (s : State) :
    (excludedDropped r pairs s).tb = s.tb := by
  unfold excludedDropped
  induction pairs.filter fun p => r.excluded.getLsbD p.1.val generalizing s with
  | nil => rfl
  | cons p ps ih => rw [List.foldl_cons, ih]; rfl

theorem resumeDoor_stopped {r : Run} {d : Door} {i : Nat} {g : Goal} (h : r.stoppedDoors.get d = some i)
    (hg : (s.door d).goal = some g) :
    resumeDoor r d s = if r.skipDoors.getLsbD d.val then s else takeDoor d g (.run i) s := by
  unfold resumeDoor; rw [h, hg]

theorem resumeDoor_other {r : Run} {d : Door} (h : r.stoppedDoors.get d = none) : resumeDoor r d s = s := by
  unfold resumeDoor; rw [h]

theorem resumeTurn_stopped {r : Run} {i : Nat} {g : TurnGoal} (h : r.stoppedTurn = some i)
    (hg : s.stg.turn.goal = some g) :
    resumeTurn r s = if r.skipTurn then s else takeTurn g (.run i) s := by
  unfold resumeTurn; rw [h, hg]

theorem resumeTurn_other {r : Run} (h : r.stoppedTurn = none) : resumeTurn r s = s := by
  unfold resumeTurn; rw [h]

end

/-- Settles O29: the three requests, the hold limit, and what an abort, a hold and a resume do. -/
theorem runsStopHoldAndResume : Obligations.RunsStopHoldAndResume := by
  refine ⟨fun code s h => ⟨gated_sequencer (by decide) h, gated_sequencer (by decide) h, gated_sequencer (by decide) h⟩,
    fun lanes s h => ⟨fun ha => ⟨showStop_acts h ha, showHold_acts h ha⟩,
      fun hn => ⟨showStop_notNow h hn, showHold_notNow h hn⟩, showResume_acts h, showResume_notNow h⟩,
    fun l r h s hr hs hh ht => holdTimeout_aborts hr hs hh ht,
    fun l why guard r s h => ⟨abortLane_aborting h, abortLane_loading h, fun hs => ?aborted⟩,
    fun s => ⟨withdrawRun_eq s, rfl, fun f => ⟨fun ha => ?halted, fun ha => ?atRest, fun m ha hm => ?withdrawn⟩⟩,
    fun s => ⟨rfl, figOfRun_iff, foldr_insertCue_ascending _, fun c => mem_recordedCues⟩,
    fun s => ⟨fun d => doorRunCmd_iff _, turnRunCmd_iff _, drivesStopped s, ?claims, rfl,
      fun d => ⟨fun hd => ?doorOther, fun c hc ho => ?doorOwned⟩, fun ht => ?turnOther, fun c hc ho => ?turnOwned⟩,
    fun l src r s h => ⟨holdLane_aborting h, fun hs => ?records, fun hs => ?holds⟩,
    fun f m s hm => ⟨remaining_staged _, fun w => remaining_started _, holdFig_moving hm, holdFig_staged hm⟩,
    fun l host groups r s h => ⟨fun hs hh hg => ?resumes, fun hn => ?stillHeld⟩,
    fun l r h s hr hh => ?resumed,
    fun r d cue s => ⟨fun i g => resumeDoor_stopped, resumeDoor_other, fun i g => resumeTurn_stopped, resumeTurn_other,
      fun slot dur w g tol ps hc hk => ⟨fun f i => mem_recordedPairs, fun hl => ?noneLeft, fun f i rest hl => ?moves⟩⟩⟩
  case aborted => rw [abortLane_working h hs]; cases l <;> rfl
  case halted => exact abortHalt_halts ((halts_iff _).2 ha)
  case atRest =>
    rw [← halts_iff] at ha
    exact ⟨abortHalt_atRest ha, abortWithdraw_atRest ha⟩
  case withdrawn => exact abortWithdraw_halts ((halts_iff _).2 ha) hm
  case claims => exact (stopDrives_eq s).trans (dropKeys_eq _ _)
  case doorOther => exact (drivesStopped_door d).trans (runDoorStopped_other hd)
  case doorOwned => exact (drivesStopped_door d).trans (runDoorStopped_owned hc ho)
  case turnOther => exact runTurnStopped_other ht
  case turnOwned => exact runTurnStopped_owned hc ho
  case records => rw [holdLane_records h hs]; cases src <;> rfl
  case holds => rw [holdLane_holds h hs]; cases src <;> rfl
  case resumes =>
    refine (liftHold_run h).trans (if_pos ⟨hs, ?_⟩)
    exact (notHeld_iff _).2 ⟨hh, hg⟩
  case stillHeld =>
    refine (liftHold_run h).trans (if_neg fun ⟨hs, free⟩ => ?_)
    obtain ⟨hh, hg⟩ := (notHeld_iff _).1 free
    rcases hn with hn | hn | hn
    · exact hn hs
    · exact Bool.noConfusion (hn.symm.trans hh)
    · exact hn hg
  case resumed =>
    intro len gone now u v w x y
    have staged : stageResumed l (r.resumed len) u = x := by
      unfold stageResumed
      by_cases hl : l = .M
      · simp only [x, w, v, if_pos hl]; rfl
      · simp only [x, w, v, if_neg hl]
    exact (resumeRun_run hr hh).trans (congrArg (workFreed l len) staged)
  case noneLeft =>
    rw [resumeCue_move hc hk, hl]; rfl
  case moves =>
    rw [resumeCue_move hc hk, hl, excludedDropped_tb]; rfl

end Sys2Proof.Machine
end

