-- ==== Sys2Proof/Proofs/Strikes.lean ====
section
/-! PROOF. Strikes: their admission (R88, R103), their own events (R90, R93, R95, R99, R107), and the grant (R94). -/
namespace Sys2Proof.Machine

/-! ## Bells and voicings -/

section
variable {b : Bell} {s : State}

theorem setBell_bellRec (b : Bell) (s : State) : s.setBell b (s.bellRec b) = s := by
  unfold State.setBell State.bellRec BELL.bellAt
  rw [vector_set_get_self]

/-- A bell with a voicing has a damper unless its ring time is 0 (R90). -/
theorem hasDamper_iff : s.hasDamper b = true ↔ ∃ v, s.voicingOf b = some v ∧ v.ring ≠ 0 := by
  unfold State.hasDamper
  cases s.voicingOf b <;> simp [Voicing.hasDamper]

end

/-! ## The grant of a strike (R94) -/

section
variable {b : Bell} {due : Int} {k : Strike} {v : Voicing} {s : State}

/-- The stroke that a granted strike begins: its pulse, its echo window and its stuck test (R94, R96, R97). -/
def Strike.stroke (k : Strike) (v : Voicing) (elapsed : Nat) : Stroke :=
  { lane := k.origin.lane?, pulseEnd := elapsed + v.pulse.toList.getD (k.velocity - 1) 0, pulseOn := true
    echoClose := elapsed + v.window, echoOpen := true, seen := false
    stuckAt := elapsed + v.recovery, stuckDue := true }

/-- The record of a bell whose strike has been granted (R94). -/
def struckRec (b : Bell) (k : Strike) (v : Voicing) (s : State) : BellRec :=
  let r := s.bellRec b
  { r with
    state := .striking, damperUp := r.damperUp || v.hasDamper, struckSinceLift := true, lastStrike := some s.stamp
    nextPermitted := some (s.tb.showTime + v.recovery)
    counters := { r.counters with strikes := satInc r.counters.strikes }
    strokes := r.strokes ++ [k.stroke v s.tb.elapsed] }

theorem startPulse_granted (hk : s.bell.strikes.find? (Strike.isFor b due) = some k) (hv : s.voicingOf b = some v) :
    startPulse b due s = State.setBell { s with bell.strikes := s.bell.strikes.erase k } b (struckRec b k v s) := by
  unfold startPulse
  rw [hk, hv]
  rfl

end

/-- Settles O38: a granted strike leaves the queue, and its bell has the record `struckRec`. -/
theorem grantedStrikeStrikes : Obligations.GrantedStrikeStrikes := by
  intro b due k v s hk hv t r
  have ht : t = State.setBell { s with bell.strikes := s.bell.strikes.erase k } b (struckRec b k v s) :=
    startPulse_granted hk hv
  have hr : t.bellRec b = struckRec b k v s := by rw [ht, bellRec_setBell_self]
  have lane (l : Lane) (i : Nat) (ho : k.origin = .lane l i) : k.origin.lane? = some l := by rw [ho]; rfl
  have host (ho : k.origin = .host) : k.origin.lane? = none := by rw [ho]; rfl
  refine ⟨congrArg (·.bell.strikes) ht, ?frame, ?_⟩
  case frame => rw [hr, ht]; rfl
  rw [hr]
  exact ⟨rfl, rfl, rfl, rfl, rfl, rfl, k.stroke v s.tb.elapsed, rfl, rfl, rfl, rfl, rfl, rfl, rfl, rfl, lane, host⟩

/-! ## Admission (R88) -/

section
variable {b : Bell} {velocity : Nat} {due : Int} {o : StrikeOrigin} {v : Voicing} {r : StrikeRefusal} {s : State}

/-- The bell is not yet permitted a strike, or has one queued nearer than its recovery (R88). -/
def tooSoon (b : Bell) (due : Int) (v : Voicing) (s : State) : Bool :=
  (s.bellRec b).nextPermitted.any (fun t => decide (due < t)) ||
    s.bell.strikes.any fun k => k.bell == b && tooNear v.recovery k.due due

theorem tooSoon_iff : tooSoon b due v s = true ↔
    (∃ t, (s.bellRec b).nextPermitted = some t ∧ due < t) ∨
      ∃ k ∈ s.bell.strikes, k.bell = b ∧ k.due - due < v.recovery ∧ due - k.due < v.recovery := by
  simp [tooSoon, tooNear, Option.any_eq_true]

theorem strikeRefusal_unvoiced (h : s.voicingOf b = none) : strikeRefusal b due s = some .unvoiced := by
  unfold strikeRefusal; rw [h]

/-- The checks of R88 in their order (log entry 62). -/
theorem strikeRefusal_voiced (h : s.voicingOf b = some v) : strikeRefusal b due s =
    if (s.bellRec b).state = .fault then some .fault
    else if s.muted b = true then some .muted
    else if tooSoon b due v s = true then some .tooSoon
    else if 16 ≤ s.bell.strikes.length then some .full
    else none := by
  unfold strikeRefusal tooSoon
  rw [h]
  cases (s.bellRec b).nextPermitted <;> rfl

/-- A strike enters the queue behind those due no later (R89). -/
theorem insertStrike_split (k : Strike) (l : List Strike) : ∃ before after, l = before ++ after ∧
    (∀ j ∈ before, j.due ≤ k.due) ∧ (∀ j, after.head? = some j → k.due < j.due) ∧
      insertStrike k l = before ++ k :: after := by
  induction l with
  | nil => exact ⟨[], [], rfl, by simp, by simp, rfl⟩
  | cons j js ih =>
    unfold insertStrike
    split_ifs with earlier
    · obtain ⟨before, after, hl, hb, ha, hi⟩ := ih
      exact ⟨j :: before, after, by rw [hl]; rfl, List.forall_mem_cons.2 ⟨earlier, hb⟩, ha, by rw [hi]; rfl⟩
    · exact ⟨[], j :: js, rfl, by simp, by simpa using earlier, rfl⟩

theorem offerStrike_admitted (h : strikeRefusal b due s = none) :
    offerStrike b velocity due o s = admitStrike (newStrike b velocity due o s) s := by
  unfold offerStrike; rw [h]

theorem offerStrike_refused (h : strikeRefusal b due s = some r) :
    offerStrike b velocity due o s = countRefusal b r s := by
  unfold offerStrike; rw [h]

theorem countRefusal_other (hf : r ≠ .full) (ht : r ≠ .tooSoon) : countRefusal b r s =
    s.setBell b { s.bellRec b with
      counters := { (s.bellRec b).counters with refused := satInc (s.bellRec b).counters.refused } } := by
  cases r with
  | full => exact absurd rfl hf
  | tooSoon => exact absurd rfl ht
  | unvoiced | fault | muted => rfl

end

/-- Settles O33: the refusal is the first of R88's checks that fails, and `insertStrike` finds the place. -/
theorem strikesAreAdmitted : Obligations.StrikesAreAdmitted := by
  intro b velocity due o s
  refine ⟨strikeRefusal_unvoiced, fun v hv => ?checks, fun r hr => ?counters⟩
  case checks =>
    intro near
    have refusal := strikeRefusal_voiced (due := due) hv
    have soon : tooSoon b due v s = true ↔ near := tooSoon_iff
    refine ⟨fun hf => ?_, fun hf hm => ?_, fun hf hm hn => ?_, fun hf hm hn hl => ?_, fun hf hm hn hl => ?_⟩
    · rw [refusal, if_pos hf]
    · rw [refusal, if_neg hf, if_pos hm]
    · rw [refusal, if_neg hf, if_neg (by simp [hm]), if_pos (soon.2 hn)]
    · rw [refusal, if_neg hf, if_neg (by simp [hm]), if_neg (soon.not.2 hn), if_pos hl]
    · have admitted : strikeRefusal b due s = none := by
        rw [refusal, if_neg hf, if_neg (by simp [hm]), if_neg (soon.not.2 hn), if_neg (by omega)]
      obtain ⟨before, after, hs, hb, ha, hi⟩ := insertStrike_split (newStrike b velocity due o s) s.bell.strikes
      refine ⟨admitted, before, after, hs, hb, ha, ?_⟩
      rw [offerStrike_admitted admitted, admitStrike, hi]
      rfl
  case counters =>
    intro c
    rw [offerStrike_refused hr]
    exact ⟨by rintro rfl; rfl, by rintro rfl; rfl, countRefusal_other⟩

/-! ## BELL-STRIKE (R103) -/

section
variable {bell velocity : Nat} {s : State}

theorem bellStrike_badValue (h : 3 ≤ s.hlc.step) (hb : 20 ≤ bell ∨ velocity = 0 ∨ 8 < velocity) :
    exec (.bellStrike bell velocity) s = .next (reply 0x40#8 .badValue .none s) := by
  refine (gated_scheduler (by decide) h).trans (congrArg _ ?_)
  rcases Nat.lt_or_ge bell 20 with hlt | hge
  · rw [toFin_lt hlt]
    exact if_neg (by rw [within_iff]; omega)
  · rw [toFin_ge hge]

theorem bellStrike_offers {b : Bell} (h : 3 ≤ s.hlc.step) (hl : 1 ≤ velocity) (hu : velocity ≤ 8) :
    exec (.bellStrike b.val velocity) s = .next (hostStrike b velocity s) := by
  refine (gated_scheduler (by decide) h).trans (congrArg _ ?_)
  rw [toFin_val]
  exact if_pos ((within_iff 1 8 velocity).2 ⟨hl, hu⟩)

/-- The reply tells what became of the strike (R103). -/
theorem hostStrike_admitted {b : Bell} (h : strikeRefusal b (s.tb.showTime + 100) s = none) :
    hostStrike b velocity s = reply 0x40#8 .ok (.strike (s.tb.showTime + 100))
      (offerStrike b velocity (s.tb.showTime + 100) .host s) := by
  unfold hostStrike Config.strikeLead
  simp only [h]

theorem hostStrike_full {b : Bell} (h : strikeRefusal b (s.tb.showTime + 100) s = some .full) :
    hostStrike b velocity s = reply 0x40#8 .full .none (offerStrike b velocity (s.tb.showTime + 100) .host s) := by
  unfold hostStrike Config.strikeLead
  simp only [h]

theorem hostStrike_notNow {b : Bell} {r : StrikeRefusal} (h : strikeRefusal b (s.tb.showTime + 100) s = some r)
    (hr : r ≠ .full) : hostStrike b velocity s =
      reply 0x40#8 .notNow (.strikeRefused r) (offerStrike b velocity (s.tb.showTime + 100) .host s) := by
  unfold hostStrike Config.strikeLead
  simp only [h]

end

/-- Settles O34: the reply tells what became of the strike, by the refusal it met. -/
theorem bellStrikeStrikes : Obligations.BellStrikeStrikes := by
  intro bell velocity s h
  refine ⟨bellStrike_badValue h, ?_⟩
  rintro b rfl hl hu due u
  rw [bellStrike_offers h hl hu]
  exact ⟨fun hr => congrArg _ (hostStrike_admitted hr),
    fun hr => ⟨offerStrike_refused hr, congrArg _ (hostStrike_full hr)⟩,
    fun r hr hf => congrArg _ (hostStrike_notNow hr hf)⟩

/-! ## The strikes' own events (R90, R93, R95, R107) -/

section
variable {b : Bell} {k : Strike} {v : Voicing} {s : State}

/-- The lift of a strike's damper (R90). -/
theorem liftFor_eq (k : Strike) (s : State) : liftFor k s =
    State.mapBell { s with bell.strikes := s.bell.strikes.map fun j => if j = k then { j with lifted := true } else j }
      k.bell fun r => { r with
        struckSinceLift := r.damperUp && r.struckSinceLift, damperUp := true
        state := if r.state = .quiet ∨ r.state = .ringing then .lifted else r.state } := by
  unfold liftFor
  refine congrArg (State.mapBell _ k.bell) (funext fun r => ?_)
  obtain ⟨state, _⟩ := r
  cases state <;> rfl

theorem damperLift_lifts (h : strikeToLift b s = some k) : exec (.damperLift b) s = .next (liftFor k s) := by
  change execDamperLift b s = _
  unfold execDamperLift; rw [h]

theorem strikeClaim_claims (h : strikeToClaim b s = some k) :
    exec (.strikeClaim b) s = .next (settle (claimStrike k s)) := by
  change execStrikeClaim b s = _
  unfold execStrikeClaim; rw [h]

theorem strikeDeadline_drops (h : strikeToDrop b s = some k) :
    exec (.strikeDeadline b) s = .next (settle (dropLate k s)) := by
  change execStrikeDeadline b s = _
  unfold execStrikeDeadline; rw [h]

/-- A strike claim that fits the budget in force is taken, however many move claims wait (R107). -/
theorem claimAnswer_strike {due : Int} {o : StrikeOrigin} {units : Nat} (h : units ≤ s.hlc.live.budget) :
    claimAnswer (.strike b due o) units s = .taken := by
  unfold claimAnswer
  simp [Nat.not_lt.2 h]

theorem claimStrike_taken (hv : s.voicingOf k.bell = some v) (h : v.units ≤ s.hlc.live.budget) :
    claimStrike k s = makeClaim (.strike k.bell k.due k.origin) v.units (markClaiming k s) := by
  unfold claimStrike
  simp only [hv, claimAnswer_strike h]

theorem claimStrike_overBudget (hv : s.voicingOf k.bell = some v) (hz : v.units ≠ 0)
    (h : s.hlc.live.budget < v.units) : claimStrike k s = dropLate k s := by
  have refused : claimAnswer (.strike k.bell k.due k.origin) v.units s = .overBudget :=
    (if_neg hz).trans (if_pos h)
  unfold claimStrike
  simp only [hv, refused]

/-! ## Which strike an event is for (R89; log entries 49 and 87) -/

/-- `strikeWhere` gives the first strike of the bell in the queue that meets the condition. -/
theorem strikeWhere_some_iff {p : Strike → Bool} {P : Strike → Prop} (hP : ∀ j, j.bell = b ∧ p j = true ↔ P j) :
    strikeWhere b p s = some k ↔
      ∃ before after, s.bell.strikes = before ++ k :: after ∧ P k ∧ ∀ j ∈ before, ¬P j := by
  have holds (j : Strike) : (j.bell == b && p j) = true ↔ P j := by rw [Bool.and_eq_true, beq_iff_eq, hP]
  unfold strikeWhere
  simp only [List.find?_eq_some_iff_append, Bool.not_eq_true', ← Bool.not_eq_true, holds]
  exact ⟨fun ⟨hk, before, after, hs, hb⟩ => ⟨before, after, hs, hk, hb⟩,
    fun ⟨before, after, hs, hk, hb⟩ => ⟨hk, before, after, hs, hb⟩⟩

theorem liftDue_iff {j : Strike} : j.bell = b ∧ liftDue j s = true ↔ j.bell = b ∧ j.lifted = false ∧
    ∃ v, s.voicingOf b = some v ∧ v.ring ≠ 0 ∧ j.due - v.lead ≤ s.tb.showTime := by
  refine and_congr_right ?_
  rintro rfl
  unfold liftDue
  cases s.voicingOf j.bell <;> simp [Voicing.hasDamper, and_assoc, and_left_comm]

theorem claimDue_iff {j : Strike} : j.bell = b ∧ claimDue j s = true ↔
    j.bell = b ∧ j.claiming = false ∧ j.due ≤ s.tb.showTime ∧
      (∀ i ∈ s.bell.strikes, i.bell = b → i.claiming = false) ∧
      ∃ v, s.voicingOf b = some v ∧
        ∀ l, (s.bellRec b).lastStrike = some l → l.elapsed + v.recovery ≤ s.tb.elapsed := by
  refine and_congr_right ?_
  rintro rfl
  unfold claimDue
  cases s.voicingOf j.bell <;> cases (s.bellRec j.bell).lastStrike <;> simp [and_assoc]

theorem late_iff {j : Strike} : j.bell = b ∧ j.late s.tb.showTime = true ↔
    j.bell = b ∧ ∃ t, j.deadline = some t ∧ t ≤ s.tb.showTime := by
  unfold Strike.late
  cases j.deadline <;> simp

/-! ## Strikes removed (R99) -/

/-- The claims of the strikes removed are withdrawn in one grant pass, and their bells' dampers tested (R99). -/
theorem removeStrikes_eq (p : Strike → Bool) (s : State) :
    let gone := s.bell.strikes.filter p
    let keys := keysOf gone
    let u : State := { s with bell.strikes := s.bell.strikes.filter fun k => !p k }
    removeStrikes p s = gone.foldl (fun t k => afterRemoval k.bell t)
      (if ∃ c ∈ s.dbu.claims, c.kind.key ∈ keys then
        grantPass { u with dbu.claims := s.dbu.claims.filter fun c => decide (c.kind.key ∉ keys) } else u) :=
  congrArg (testRemoved _) (dropKeys_eq _ _)

end

/-- Settles O36: what each of the strikes' events does, which strike it is for, and what a removal does. -/
theorem strikeEvents : Obligations.StrikeEvents := by
  refine ⟨fun b k s => ⟨fun h => ?lifts, rfl, fun v h hv => ⟨fun hu => ?claims, fun hz hu => ?overBudget⟩,
      strikeDeadline_drops⟩,
    fun b k s => ⟨?toLift, ?toClaim, ?toDrop⟩,
    fun k s => ⟨rfl, rfl⟩, removeStrikes_eq⟩
  case lifts => rw [damperLift_lifts h, liftFor_eq]
  case claims => rw [strikeClaim_claims h, claimStrike_taken hv hu]
  case overBudget => rw [strikeClaim_claims h, claimStrike_overBudget hv hz hu]
  case toLift => exact strikeWhere_some_iff fun _ => liftDue_iff
  case toClaim => exact strikeWhere_some_iff fun _ => claimDue_iff
  case toDrop => exact strikeWhere_some_iff fun _ => late_iff

end Sys2Proof.Machine
end

