-- ==== Sys2Proof/Proofs/BellRequests.lean ====
section
/-! PROOF. BELL-DAMP, BELL-MUTE, BELL-CLEAR and BELL-STATUS, and the damping of a set of bells (R90, R92, R100, R101,
R104). -/
namespace Sys2Proof.Machine

/-! ## The rules of a bell's record -/

/-- The damper down on a bell's record (R91). -/
theorem drop_eq (r : BellRec) : r.drop =
    { r with damperUp := false, state := if r.state = .lifted ∨ r.state = .ringing then .quiet else r.state } := by
  obtain ⟨state, _⟩ := r
  cases state <;> rfl

/-- No stroke of the bell has its pulse on or its echo window open (R96). -/
theorem allDone_iff (r : BellRec) : r.allDone = true ↔ ∀ k ∈ r.strokes, k.pulseOn = false ∧ k.echoOpen = false := by
  simp [BellRec.allDone, Stroke.done]

/-! ## A set of bells (R92) -/

section
variable {bells : List Nat} {w : BitVec 20}

theorem foldBells_getLsbD (bells : List Nat) (w : BitVec 20) (b : Bell) :
    (bells.foldl (fun w b => w ||| (1#20 <<< b)) w).getLsbD b.val = (w.getLsbD b.val || decide (b.val ∈ bells)) := by
  induction bells generalizing w with
  | nil => simp
  | cons c cs ih =>
    have bit : (1#20 <<< c).getLsbD b.val = decide (b.val = c) := by
      have := b.isLt
      rw [Bool.eq_iff_iff, BitVec.getLsbD_shiftLeft, BitVec.getLsbD_one]
      simp only [Bool.and_eq_true, Bool.not_eq_true', decide_eq_true_eq, decide_eq_false_iff_not]
      omega
    rw [List.foldl_cons, ih, BitVec.getLsbD_or, bit]
    simp [Bool.or_assoc]

theorem bellSet_none (h : bells = [] ∨ ∃ b ∈ bells, 20 ≤ b) : bellSet bells = none :=
  if_pos (by simpa using h)

theorem bellSet_some (hne : bells ≠ []) (hr : ∀ b ∈ bells, b < 20) :
    bellSet bells = some (bells.foldl (fun w b => w ||| (1#20 <<< b)) 0) :=
  if_neg (by simpa using ⟨hne, hr⟩)

/-- A list of bells, none out of range, names the set of its members. -/
theorem bellSet_some_iff : bellSet bells = some w ↔
    bells ≠ [] ∧ (∀ b ∈ bells, b < 20) ∧ ∀ b : Bell, w.getLsbD b.val = true ↔ b.val ∈ bells := by
  by_cases bad : bells = [] ∨ ∃ b ∈ bells, 20 ≤ b
  · rw [bellSet_none bad]
    refine iff_of_false nofun fun ⟨hne, hr, _⟩ => ?_
    obtain rfl | ⟨b, hb, hge⟩ := bad
    · exact hne rfl
    · exact absurd (hr b hb) (by omega)
  · obtain ⟨hne, hr⟩ : bells ≠ [] ∧ ∀ b ∈ bells, b < 20 := by simpa using bad
    have bits (b : Bell) : (bells.foldl (fun w b => w ||| (1#20 <<< b)) 0).getLsbD b.val = decide (b.val ∈ bells) := by
      rw [foldBells_getLsbD]
      simp
    rw [bellSet_some hne hr, Option.some.injEq]
    refine ⟨?_, fun ⟨_, _, hw⟩ => BitVec.eq_of_getLsbD_eq fun i hi => ?_⟩
    · rintro rfl
      exact ⟨hne, hr, fun b => by rw [bits, decide_eq_true_iff]⟩
    · rw [bits ⟨i, hi⟩, eq_comm, Bool.eq_iff_iff, hw ⟨i, hi⟩, decide_eq_true_iff]

end

/-! ## A DAMP (R92) -/

section
variable {b : Bell} {w : BitVec 20} {s : State}

theorem dampBell_damps (hs : (s.bellRec b).state = .ringing) (hd : s.hasDamper b = true) :
    dampBell b s = s.setBell b { s.bellRec b with damperUp := false, state := .quiet } := by
  unfold dampBell
  rw [if_pos ⟨hs, hd⟩, State.mapBell, drop_eq, if_pos (.inr hs)]

theorem dampBell_leaves (h : (s.bellRec b).state ≠ .ringing ∨ s.hasDamper b = false) : dampBell b s = s := by
  refine if_neg fun ⟨hs, hd⟩ => ?_
  rcases h with h | h
  · exact h hs
  · exact Bool.noConfusion (h.symm.trans hd)

/-- A bell's record after a DAMP of a set of bells. -/
def dampedRec (w : BitVec 20) (s : State) (b : Bell) : BellRec :=
  if w.getLsbD b.val = true ∧ (s.bellRec b).state = .ringing ∧ s.hasDamper b = true then
    { s.bellRec b with damperUp := false, state := .quiet }
  else s.bellRec b

theorem dampStep_eq (w : BitVec 20) (s : State) (b : Bell) :
    (if w.getLsbD b.val then dampBell b s else s) = s.setBell b (dampedRec w s b) := by
  unfold dampedRec
  by_cases hw : w.getLsbD b.val = true
  · rw [if_pos hw]
    by_cases hr : (s.bellRec b).state = .ringing ∧ s.hasDamper b = true
    · obtain ⟨hs, hd⟩ := hr
      rw [if_pos ⟨hw, hs, hd⟩, dampBell_damps hs hd]
    · rw [if_neg (fun h => hr h.2), setBell_bellRec]
      exact if_neg hr
  · rw [if_neg hw, if_neg (fun h => hw h.1), setBell_bellRec]

/-- What a DAMP does to a bell depends on that bell alone. -/
theorem dampedRec_setBell_other {c : Bell} (h : b ≠ c) (r : BellRec) :
    dampedRec w (s.setBell b r) c = dampedRec w s c := by
  unfold dampedRec
  rw [bellRec_setBell_other s h]
  rfl

theorem ofFn_bellRec (s : State) : Vector.ofFn s.bellRec = s.bell.bells :=
  Vector.ext fun i hi => by simp [State.bellRec, BELL.bellAt, Vector.get_eq_getElem]

theorem foldl_damp (w : BitVec 20) {bs : List Bell} (hbs : bs.Nodup) (s : State) :
    bs.foldl (fun s b => if w.getLsbD b.val then dampBell b s else s) s =
      { s with bell.bells := Vector.ofFn fun b => if b ∈ bs then dampedRec w s b else s.bellRec b } := by
  induction bs generalizing s with
  | nil => simp only [List.foldl_nil, List.not_mem_nil, if_false, ofFn_bellRec]
  | cons b bs ih =>
    obtain ⟨hb, hbs⟩ := List.nodup_cons.1 hbs
    rw [List.foldl_cons, dampStep_eq, ih hbs]
    have records (c : Bell) : (if c ∈ bs then dampedRec w (s.setBell b (dampedRec w s b)) c
        else (s.setBell b (dampedRec w s b)).bellRec c) =
          if c ∈ b :: bs then dampedRec w s c else s.bellRec c := by
      by_cases hc : b = c
      · subst hc
        rw [if_neg hb, if_pos List.mem_cons_self, bellRec_setBell_self]
      · rw [dampedRec_setBell_other hc, bellRec_setBell_other s hc]
        simp [Ne.symm hc]
    simp only [records]
    rfl

theorem dampBells_eq (w : BitVec 20) (s : State) :
    dampBells w s = { s with bell.bells := Vector.ofFn (dampedRec w s) } := by
  unfold dampBells
  simp only [foldl_damp w (List.nodup_finRange 20), List.mem_finRange, if_true]

end

/-! ## The mute flag (R100) -/

section
variable {b : Bell} {s : State}

/-- The bell's mute flag set, its queued strikes taken off the queue. -/
def muteFlagged (b : Bell) (s : State) : State :=
  removeStrikes (fun k => k.bell == b) { s with hlc.live.bellMutes := s.hlc.live.bellMutes ||| (1#20 <<< b.val) }

/-- A mute takes effect at once on a QUIET, LIFTED or RINGING bell with no stroke under way. -/
theorem setMute_on (b : Bell) (s : State) :
    let u := muteFlagged b s
    let r := u.bellRec b
    setMute b true s =
      if (r.state = .quiet ∨ r.state = .lifted ∨ r.state = .ringing) ∧ r.allDone = true then
        u.setBell b { r with damperUp := false, state := .muted }
      else u := rfl

theorem setMute_off (b : Bell) (s : State) : setMute b false s =
    State.setBell { s with hlc.live.bellMutes := s.hlc.live.bellMutes &&& ~~~(1#20 <<< b.val) } b
      { s.bellRec b with state := if (s.bellRec b).state = .muted then .quiet else (s.bellRec b).state } := rfl

end

/-! ## BELL-CLEAR (R101) -/

section
variable {b : Bell} {counters : Bool} {s : State}

theorem clear_fault {r : BellRec} {muted : Bool} (h : r.state = .fault) : r.clear counters muted =
    { r with
      state := if muted then .muted else .quiet, reason := none, missCount := 0
      counters := if counters then .zero else r.counters } := by
  unfold BellRec.clear
  cases counters <;> simp [h, restState]

theorem clear_other {r : BellRec} {muted : Bool} (h : r.state ≠ .fault) :
    r.clear true muted = { r with counters := .zero } := by
  unfold BellRec.clear
  simp [h]

theorem bellClear_eq (h : 3 ≤ s.hlc.step) (b : Bell) (counters : Bool) : exec (.bellClear b.val counters) s = .next (
    if (s.bellRec b).state = .fault ∨ counters = true then
      reply 0x43#8 .ok .none (s.setBell b ((s.bellRec b).clear counters (s.muted b)))
    else reply 0x43#8 .notNow .none s) := by
  refine (gated_scheduler (by decide) h).trans (congrArg _ ?_)
  rw [toFin_val]
  rfl

end

/-- Settles O35: the four requests, and what a DAMP and a mute do to the bells. -/
theorem bellRequestsAndDamping : Obligations.BellRequestsAndDamping := by
  refine ⟨fun s h => ⟨fun bells => ⟨fun hb => ?dampBad, fun w hw => ?damps,
        fun hne hr => ⟨_, bellSet_some hne hr⟩, fun w => bellSet_some_iff⟩,
      fun bell on => ⟨fun hb => ?muteBad, ?mutes⟩, fun bell counters => ⟨fun hb => ?clearBad, ?clears⟩,
      gated_scheduler (by decide) h⟩,
    fun b s => ⟨dampBell_damps, dampBell_leaves⟩, dampBells_eq, fun b s => hasDamper_iff,
    fun b s => ?setMute⟩
  case dampBad =>
    refine (gated_scheduler (by decide) h).trans (congrArg _ ?_)
    rw [bellSet_none hb]
  case damps =>
    refine (gated_scheduler (by decide) h).trans (congrArg _ ?_)
    rw [hw]
  case muteBad =>
    refine (gated_scheduler (by decide) h).trans (congrArg _ ?_)
    rw [toFin_ge hb]
  case mutes =>
    rintro b rfl
    refine (gated_scheduler (by decide) h).trans (congrArg _ ?_)
    rw [toFin_val]
  case clearBad =>
    refine (gated_scheduler (by decide) h).trans (congrArg _ ?_)
    rw [toFin_ge hb]
  case clears =>
    rintro b rfl r c
    rw [bellClear_eq h]
    refine ⟨fun hf => ?_, fun hf hc => ?_, fun hf hc => ?_⟩
    · rw [if_pos (.inl hf), clear_fault hf]
    · subst hc
      rw [if_pos (.inr rfl), clear_other hf]
      rfl
    · rw [if_neg (not_or.2 ⟨hf, by simp [hc]⟩)]
  case setMute =>
    intro u rests still c
    have effective : rests ∧ still ↔ rests ∧ (u.bellRec b).allDone = true := and_congr_right' (allDone_iff _).symm
    refine ⟨fun hm => (setMute_on b s).trans (if_pos (effective.1 hm)),
      fun hm => (setMute_on b s).trans (if_neg (effective.not.1 hm)), fun hm => ?_, fun hm => ?_⟩
    · rw [setMute_off, if_pos hm]
    · rw [setMute_off, if_neg hm]

end Sys2Proof.Machine
end

