-- ==== Sys2Proof/Proofs/Strokes.lean ====
section
/-! PROOF. The strokes' own events: the end of a pulse, the close of an echo window, the stuck test, FAULT, the fall of
the damper, and the echo inputs (R91, R94, R96 to R98, R100). -/
namespace Sys2Proof.Machine

/-! ## The strokes of a bell -/

section
variable {b : Bell} {s : State}

theorem tidy_eq (r : BellRec) :
    r.tidy = { r with strokes := r.strokes.filter fun k => k.pulseOn || k.echoOpen || k.stuckDue } := by
  have stays (k : Stroke) : (!k.over) = (k.pulseOn || k.echoOpen || k.stuckDue) := by
    simp [Stroke.over, Stroke.done]
  unfold BellRec.tidy
  simp only [stays]

/-- The strokes that are over, forgotten. -/
theorem mapBell_tidy (b : Bell) (s : State) : s.mapBell b BellRec.tidy =
    s.mapBell b fun r => { r with strokes := r.strokes.filter fun k => k.pulseOn || k.echoOpen || k.stuckDue } :=
  congrArg (s.mapBell b) (funext tidy_eq)

theorem pulseDue_iff : pulseDue b s = true ↔
    ∃ k ∈ (s.bellRec b).strokes, k.pulseOn = true ∧ k.pulseEnd ≤ s.tb.elapsed := by simp [pulseDue]

theorem echoDue_iff : echoDue b s = true ↔
    ∃ k ∈ (s.bellRec b).strokes, k.echoOpen = true ∧ k.echoClose ≤ s.tb.elapsed := by simp [echoDue]

theorem stuckDue_iff : stuckDue b s = true ↔
    ∃ k ∈ (s.bellRec b).strokes, k.stuckDue = true ∧ k.stuckAt ≤ s.tb.elapsed := by simp [stuckDue]

/-- The hammer off: the pulses that have run their width have ended (R94). -/
def pulseEnded (b : Bell) (s : State) : State :=
  s.setBell b { s.bellRec b with
    state := if (s.bellRec b).state = .striking then .ringing else (s.bellRec b).state
    strokes := (s.bellRec b).strokes.map fun k =>
      if k.pulseOn = true ∧ k.pulseEnd ≤ s.tb.elapsed then { k with pulseOn := false } else k }

/-- The echo windows that have run out, closed (R96). -/
def echoClosed (b : Bell) (s : State) : State :=
  s.setBell b { s.bellRec b with
    strokes := (s.bellRec b).strokes.map fun k =>
      if k.echoOpen = true ∧ k.echoClose ≤ s.tb.elapsed then { k with echoOpen := false } else k }

/-- The stuck tests that were due, made (R97). -/
def stuckTested (b : Bell) (s : State) : State :=
  s.setBell b { s.bellRec b with
    strokes := (s.bellRec b).strokes.map fun k =>
      if k.stuckDue = true ∧ k.stuckAt ≤ s.tb.elapsed then { k with stuckDue := false } else k }

/-- A miss counted on a bell (R96). -/
def missCounted (b : Bell) (s : State) : State :=
  s.mapBell b fun r => { r with
    missCount := min 3 (r.missCount + 1), counters := { r.counters with misses := satInc r.counters.misses } }

theorem endPulse_eq (b : Bell) (s : State) : endPulse b s =
    (whenDone b (testDamper b (releasePulse b (pulseEnded b s)))).mapBell b BellRec.tidy := by
  unfold endPulse pulseEnded
  simp only [State.mapBell, Bool.and_eq_true, decide_eq_true_eq]

/-- A window closes in which no echo was seen (R96). -/
def echoMissed (b : Bell) (s : State) : Bool :=
  (s.bellRec b).strokes.any fun k => k.echoOpen && decide (k.echoClose ≤ s.tb.elapsed) && !k.seen

theorem echoMissed_iff : echoMissed b s = true ↔
    ∃ k ∈ (s.bellRec b).strokes, (k.echoOpen = true ∧ k.echoClose ≤ s.tb.elapsed) ∧ k.seen = false := by
  simp [echoMissed]

theorem closeEcho_eq (b : Bell) (s : State) : closeEcho b s =
    (whenDone b (if echoMissed b s then countMiss b (echoClosed b s) else echoClosed b s)).mapBell b BellRec.tidy := by
  unfold closeEcho echoClosed echoMissed
  simp only [State.mapBell, Bool.and_eq_true, decide_eq_true_eq]

theorem testStuck_eq (b : Bell) (s : State) : testStuck b s = (whenDone b
    (if s.inm.echo.level.getLsbD b.val then enterFault b .stuck (stuckTested b s) else stuckTested b s)).mapBell b
      BellRec.tidy := by
  unfold testStuck stuckTested
  simp only [State.mapBell, Bool.and_eq_true, decide_eq_true_eq]
  rfl

/-- The third miss in a row is FAULT (R96). -/
theorem countMiss_third (h : (s.bellRec b).missCount = 2) : countMiss b s = enterFault b .miss (missCounted b s) :=
  if_pos h

theorem countMiss_earlier (h : (s.bellRec b).missCount ≠ 2) : countMiss b s = missCounted b s :=
  if_neg h

theorem echoClosed_missCount : ((echoClosed b s).bellRec b).missCount = (s.bellRec b).missCount := by
  rw [echoClosed, bellRec_setBell_self]

/-! ## The events -/

theorem pulseEnd_ends (h : pulseDue b s = true) : exec (.pulseEnd b) s = .next (settle
    ((whenDone b (testDamper b (releasePulse b (pulseEnded b s)))).mapBell b BellRec.tidy)) := by
  rw [← endPulse_eq]
  exact congrArg Host.Outcome.next (whenDue_true h)

theorem echoWindowClose_heard (h : echoDue b s = true) (hm : ¬echoMissed b s = true) :
    exec (.echoWindowClose b) s = .next (settle ((whenDone b (echoClosed b s)).mapBell b BellRec.tidy)) := by
  have closed := closeEcho_eq b s
  rw [if_neg hm] at closed
  rw [← closed]
  exact congrArg _ (whenDue_true h)

theorem echoWindowClose_missed (h : echoDue b s = true) (hm : echoMissed b s = true) : exec (.echoWindowClose b) s =
    .next (settle ((whenDone b (countMiss b (echoClosed b s))).mapBell b BellRec.tidy)) := by
  have closed := closeEcho_eq b s
  rw [if_pos hm] at closed
  rw [← closed]
  exact congrArg _ (whenDue_true h)

theorem stuckEchoTest_tests (h : stuckDue b s = true) : exec (.stuckEchoTest b) s = .next (settle ((whenDone b
    (if s.inm.echo.level.getLsbD b.val then enterFault b .stuck (stuckTested b s) else stuckTested b s)).mapBell b
      BellRec.tidy)) := by
  rw [← testStuck_eq]
  exact congrArg _ (whenDue_true h)

end

/-! ## The units of a pulse (R94; log entry 94) -/

section
variable {b : Bell} {s : State}

/-- The granted strike claims of a bell. -/
theorem pulseOf_iff (c : Claim) : c.pulseOf b = true ↔ c.granted = true ∧ ∃ due o, c.kind = .strike b due o := by
  unfold Claim.pulseOf
  cases c.kind <;> simp

theorem releasePulse_none (h : ∀ c ∈ s.dbu.claims, ¬c.pulseOf b = true) : releasePulse b s = s :=
  if_neg (by simpa using h)

theorem releasePulse_some (h : ∃ c ∈ s.dbu.claims, c.pulseOf b = true) :
    releasePulse b s = grantPass { s with dbu.claims := s.dbu.claims.filter fun c => !c.pulseOf b } :=
  if_pos (by simpa using h)

/-! ## A bell whose strokes are done (R91, R100) -/

theorem whenDone_busy (h : (s.bellRec b).allDone = false) : whenDone b s = s := if_pos h

theorem whenDone_muted (h : (s.bellRec b).allDone = true) (hf : (s.bellRec b).state ≠ .fault)
    (hm : s.muted b = true) :
    whenDone b s = s.setBell b { s.bellRec b with damperUp := false, state := .muted } :=
  (if_neg (by simp [h])).trans (if_pos ⟨hf, hm⟩)

/-- A bell that no mute concerns falls QUIET as a RINGING bell without a damper, or stays (R91). -/
theorem whenDone_unmuted (h : (s.bellRec b).allDone = true)
    (hm : (s.bellRec b).state = .fault ∨ s.muted b = false) : whenDone b s =
      if (s.bellRec b).state = .ringing ∧ s.hasDamper b = false ∧ (s.bellRec b).damperUp = false then
        s.setBell b { s.bellRec b with state := .quiet }
      else s := by
  have unmuted : ¬((s.bellRec b).state ≠ .fault ∧ s.muted b = true) := by
    rintro ⟨hf, hn⟩
    rcases hm with hm | hm
    · exact hf hm
    · exact Bool.noConfusion (hm.symm.trans hn)
  exact (if_neg (by simp [h])).trans (if_neg unmuted)

/-! ## The fall of the damper (R91; log entry 87) -/

theorem testDamper_falls (h : dropsNow s b = true) : testDamper b s = s.setBell b { s.bellRec b with
    damperUp := false
    state := if (s.bellRec b).state = .lifted ∨ (s.bellRec b).state = .ringing then .quiet
      else (s.bellRec b).state } := by
  rw [testDamper, if_pos h, State.mapBell, drop_eq]

theorem testDamper_stays (h : ¬dropsNow s b = true) : testDamper b s = s := if_neg h

theorem afterRemoval_falls (h : dropsNow s b = true) : afterRemoval b s = testDamper b s :=
  (if_pos h).trans (if_pos h).symm

/-- A LIFTED bell whose damper stays up is RINGING once no queued strike of it has been lifted (R91). -/
theorem afterRemoval_stays (h : ¬dropsNow s b = true) : afterRemoval b s =
    if (s.bellRec b).state = .lifted ∧ ∀ k ∈ s.bell.strikes, k.bell = b → k.lifted = false then
      s.setBell b { s.bellRec b with state := .ringing }
    else s := by
  unfold afterRemoval
  rw [if_neg h]
  simp [State.mapBell]

end

/-! ## The echo inputs (R96, R98; log entry 31) -/

section
variable {b : Bell} {v : Bool} {r : BellRec} {s : State}

/-- The filtered level of a bell's echo input set. -/
def echoPut (b : Bell) (v : Bool) (s : State) : State := { s with inm.echo := s.inm.echo.putBit b.val v }

/-- A fall of the input, and a level that it has already, change only the input. -/
theorem echoEdge_silent (h : v = false ∨ s.inm.echo.level.getLsbD b.val = v) : echoEdge b v s = echoPut b v s := by
  refine if_pos ?_
  rcases h with rfl | h
  · exact Bool.or_true _
  · rw [h, beq_self_eq_true, Bool.or_true, Bool.true_or]

theorem echoEdge_rises (hf : s.inm.fresh = false) (h : s.inm.echo.level.getLsbD b.val = false) :
    echoEdge b true s = (echoPut b true s).mapBell b hearEcho := by
  refine if_neg ?_
  change ¬(s.inm.fresh || s.inm.echo.level.getLsbD b.val == true || !true) = true
  rw [hf, h]
  decide

/-- An echo outside every window is spurious (R98). -/
theorem hearEcho_spurious (h : ∀ k ∈ r.strokes, k.echoOpen = false) :
    hearEcho r = { r with counters := { r.counters with spurious := satInc r.counters.spurious } } := by
  have closed (p : Stroke → Bool) : r.strokes.any (fun k => k.echoOpen && p k) = false :=
    List.any_eq_false.2 fun k hk => by simp [h k hk]
  unfold hearEcho
  rw [closed, closed]
  rfl

/-- The first echo in a window clears the miss count (R96). -/
theorem hearEcho_seen (h : ∃ k ∈ r.strokes, k.echoOpen = true ∧ k.seen = false) : hearEcho r = { r with
    missCount := 0, strokes := r.strokes.map fun k => if k.echoOpen then { k with seen := true } else k } := by
  have unseen : r.strokes.any (fun k => k.echoOpen && !k.seen) = true := by simpa using h
  unfold hearEcho
  simp only [unseen, Bool.not_true, Bool.and_false, Bool.false_eq_true, if_false, if_true]

/-- A further echo in a window changes nothing. -/
theorem hearEcho_again (h : ∃ k ∈ r.strokes, k.echoOpen = true)
    (hs : ∀ k ∈ r.strokes, k.echoOpen = true → k.seen = true) : hearEcho r = r := by
  obtain ⟨k, hk, ho⟩ := h
  have seen : r.strokes.any (fun k => k.echoOpen && k.seen) = true :=
    List.any_eq_true.2 ⟨k, hk, by simp [ho, hs k hk ho]⟩
  have noneUnseen : r.strokes.any (fun k => k.echoOpen && !k.seen) = false := by simpa using hs
  unfold hearEcho
  rw [seen, noneUnseen]
  rfl

end

/-- Settles O37: the pulse, the window, the stuck test, FAULT, the units, the damper, and the echo inputs. -/
theorem strokesAndEchoes : Obligations.StrokesAndEchoes := by
  refine ⟨fun b s => ?strokes, fun b s hf => ?echoes⟩
  case strokes =>
    intro r tidy
    have tidied (t : State) : t.mapBell b BellRec.tidy = tidy t := mapBell_tidy b t
    refine ⟨fun h => ?pulse, fun h => ?window, fun h => ?stuck, fun why => rfl, ⟨?unitsKept, ?unitsBack⟩, ?done,
      ?damper⟩
    case pulse =>
      intro u
      rw [← tidied]
      exact pulseEnd_ends (pulseDue_iff.2 h)
    case window =>
      intro closes u missed
      simp only [← tidied]
      have due := echoDue_iff.2 h
      refine ⟨fun hs => echoWindowClose_heard due ?_, fun hm hn => ?_, fun hm hn => ?_⟩
      · rw [echoMissed_iff]
        rintro ⟨k, hk, hc, hn⟩
        exact Bool.noConfusion (hn.symm.trans (hs k hk hc))
      · rw [echoWindowClose_missed due (echoMissed_iff.2 hm), countMiss_earlier (by rwa [echoClosed_missCount])]
        rfl
      · rw [echoWindowClose_missed due (echoMissed_iff.2 hm), countMiss_third (by rwa [echoClosed_missCount])]
        rfl
    case stuck =>
      intro u
      rw [← tidied]
      exact stuckEchoTest_tests (stuckDue_iff.2 h)
    case unitsKept =>
      intro h
      exact releasePulse_none fun c hc => (pulseOf_iff c).not.2 (h c hc)
    case unitsBack =>
      rintro ⟨c, hc, hm⟩
      refine ⟨_, releasePulse_some ⟨c, hc, (pulseOf_iff c).2 hm⟩, List.filter_sublist, fun d hd => ?_⟩
      rw [List.mem_filter, and_iff_right hd, Bool.not_eq_true', ← Bool.not_eq_true]
      exact (pulseOf_iff d).not
    case done =>
      intro busy
      have idle : r.allDone = true ↔ ¬busy := by simp [allDone_iff, busy]
      refine ⟨fun h => whenDone_busy (eq_false_of_ne_true (idle.not_left.2 h)),
        fun h hf hm => whenDone_muted (idle.2 h) hf hm, fun h hm => ⟨fun hs hd hu => ?_, fun hn => ?_⟩⟩
      · exact (whenDone_unmuted (idle.2 h) hm).trans (if_pos ⟨hs, hd, hu⟩)
      · refine (whenDone_unmuted (idle.2 h) hm).trans (if_neg fun ⟨hs, hd, hu⟩ => ?_)
        rcases hn with hn | hn | hn
        · exact hn hs
        · exact Bool.noConfusion (hd.symm.trans hn)
        · exact Bool.noConfusion (hu.symm.trans hn)
    case damper =>
      intro falls
      have drops : dropsNow s b = true ↔ falls := dropsNow_iff s b
      refine ⟨fun h => testDamper_falls (drops.2 h), fun h => testDamper_stays (drops.not.2 h), rfl,
        fun h => afterRemoval_falls (drops.2 h), fun h hl hq => ?_, fun h hn => ?_⟩
      · exact (afterRemoval_stays (drops.not.2 h)).trans (if_pos ⟨hl, hq⟩)
      · refine (afterRemoval_stays (drops.not.2 h)).trans (if_neg fun ⟨hl, hq⟩ => ?_)
        rcases hn with hn | ⟨k, hk, hb, lifted⟩
        · exact hn hl
        · exact Bool.noConfusion ((hq k hk hb).symm.trans lifted)
  case echoes =>
    intro u
    have rises (h : s.inm.echo.level.getLsbD b.val = false) {r : BellRec} (hr : hearEcho (s.bellRec b) = r) :
        exec (.echoEdge b true) s = .next ((u true).setBell b r) :=
      congrArg _ ((echoEdge_rises hf h).trans (congrArg (State.setBell _ b) hr))
    refine ⟨congrArg _ (echoEdge_silent (.inl rfl)), fun h hc => rises h (hearEcho_spurious hc),
      fun h ho => rises h (hearEcho_seen ho), fun h ho hs => (rises h (hearEcho_again ho hs)).trans ?_,
      fun h => congrArg _ (echoEdge_silent (.inr h))⟩
    exact congrArg _ (setBell_bellRec b (u true))

end Sys2Proof.Machine
end

