-- ==== Sys2Proof/Proofs/DriveBudget.lean ====
section
/-! PROOF. The drive budget: claims at their arrival, the claim a pass grants next, grants and whole passes, BUDGET-GET,
and the bounds at reset (R106 to R108, R112). -/
namespace Sys2Proof.Machine

/-- Settles O5: at reset nothing is claimed, queued or staged. -/
theorem resetIsBounded : Obligations.ResetIsBounded :=
  ⟨Nat.zero_le _, Nat.zero_le _, Nat.zero_le _, Nat.zero_le _, Nat.zero_le _, rfl⟩

/-! ## WAITING strike claims and move claims (R108) -/

section
variable {c : Claim}

theorem strikeDue_some_iff {due : Int} :
    c.strikeDue = some due ↔ c.granted = false ∧ ∃ b o, c.kind = .strike b due o := by
  unfold Claim.strikeDue
  split
  next b d o hg hk => simp [hg, hk]
  next other =>
    refine iff_of_false nofun ?_
    rintro ⟨hg, b, o, hk⟩
    exact other b due o hg hk

theorem isMove_iff : c.isMove = true ↔ ∀ b due o, c.kind ≠ .strike b due o := by
  unfold Claim.isMove
  split
  next b due o hk => simp [hk]
  next other => exact iff_of_true rfl other

theorem waitingMove_iff : c.waitingMove = true ↔ c.granted = false ∧ ∀ b due o, c.kind ≠ .strike b due o := by
  rw [← isMove_iff]
  simp [Claim.waitingMove]

end

/-! ## The answer to a claim (R107) -/

section
variable {k : ClaimKind} {units : Nat} {s : State}

theorem claimAnswer_listFull (hz : units ≠ 0) (hu : units ≤ s.hlc.live.budget) (move : ∀ b due o, k ≠ .strike b due o)
    (full : 4 ≤ (s.dbu.claims.filter Claim.waitingMove).length) : claimAnswer k units s = .listFull := by
  cases k with
  | strike b due o => exact absurd rfl (move b due o)
  | figures | door | turntable => simp [claimAnswer, hz, Nat.not_lt.2 hu, Config.moveClaims, full]

theorem claimAnswer_taken (hu : units ≤ s.hlc.live.budget)
    (room : (¬∀ b due o, k ≠ .strike b due o) ∨ (s.dbu.claims.filter Claim.waitingMove).length < 4) :
    claimAnswer k units s = .taken := by
  cases k with
  | strike b due o => exact claimAnswer_strike hu
  | figures | door | turntable =>
    have few := room.resolve_left (by simp)
    simp [claimAnswer, Nat.not_lt.2 hu, Config.moveClaims, Nat.not_le.2 few]

end

/-! ## The claim granted next (R108) -/

/-- No WAITING strike claim is due before an instant, and none ahead of a place in the list is due at it. -/
def EarliestDue (cs : List Claim) (i : Nat) (due : Int) : Prop :=
  ∀ j x e, cs[j]? = some x → x.strikeDue = some e → due ≤ e ∧ (j < i → due < e)

/-- The WAITING strike claim with the earliest due time, the first of equals. -/
def FirstStrike (cs : List Claim) (i : Nat) (c : Claim) : Prop :=
  cs[i]? = some c ∧ ∃ due, c.strikeDue = some due ∧ EarliestDue cs i due

/-- The first WAITING move claim, while no strike claim is WAITING. -/
def FirstMove (cs : List Claim) (i : Nat) (c : Claim) : Prop :=
  cs[i]? = some c ∧ c.waitingMove = true ∧ (∀ x ∈ cs, x.strikeDue = none) ∧
    ∀ j x, j < i → cs[j]? = some x → x.waitingMove = false

/-- The one claim that a pass may grant next. -/
def NextClaim (cs : List Claim) (i : Nat) (c : Claim) : Prop := FirstStrike cs i c ∨ FirstMove cs i c

section
variable {free i j n u : Nat} {d : Int} {a c x : Claim} {cs : List Claim}

/-- A WAITING strike claim at the head of the list is the first where none after it is due earlier. -/
theorem earliestDue_head (ha : a.strikeDue = some d) (none_earlier : ∀ x ∈ cs, ∀ e, x.strikeDue = some e → d ≤ e) :
    EarliestDue (a :: cs) 0 d := by
  intro j x e hx he
  refine ⟨?_, fun hj => absurd hj (Nat.not_lt_zero j)⟩
  rcases List.mem_cons.1 (List.mem_of_getElem? hx) with rfl | hx
  · exact (Option.some.inj (ha.symm.trans he)).le
  · exact none_earlier x hx e he

/-- The first of a list's strike claims stays the first behind a claim that is due later or is no such claim. -/
theorem earliestDue_tail (ha : ∀ e, a.strikeDue = some e → d < e) (first : EarliestDue cs i d) :
    EarliestDue (a :: cs) (i + 1) d := by
  intro j x e hx he
  cases j with
  | zero =>
    obtain rfl := Option.some.inj hx
    exact ⟨(ha e he).le, fun _ => ha e he⟩
  | succ j =>
    obtain ⟨le, lt⟩ := first j x e hx he
    exact ⟨le, fun hlt => lt (Nat.lt_of_succ_lt_succ hlt)⟩

theorem EarliestDue.le (h : EarliestDue cs i d) : ∀ x ∈ cs, ∀ e, x.strikeDue = some e → d ≤ e := by
  intro x hx e he
  obtain ⟨j, hj⟩ := List.mem_iff_getElem?.1 hx
  exact (h j x e hj he).1

theorem bestStrike_none (h : bestStrike n cs = none) : ∀ c ∈ cs, c.strikeDue = none := by
  induction cs generalizing n with
  | nil => simp
  | cons a cs ih =>
    unfold bestStrike at h
    split at h
    next => split at h <;> cases h
    next => cases h
    next ha => exact List.forall_mem_cons.2 ⟨ha, ih h⟩

theorem bestStrike_some (h : bestStrike n cs = some (j, d, u)) :
    ∃ i c, j = n + i ∧ u = c.units ∧ cs[i]? = some c ∧ c.strikeDue = some d ∧ EarliestDue cs i d := by
  induction cs generalizing n j d u with
  | nil => cases h
  | cons a cs ih =>
    unfold bestStrike at h
    split at h
    next d₁ j₂ d₂ u₂ ha ht =>
      obtain ⟨i, c, hj, hu, hc, hd, first⟩ := ih ht
      split at h
      next le =>
        cases h
        exact ⟨0, a, rfl, rfl, rfl, ha, earliestDue_head ha fun x hx e he => le.trans (first.le x hx e he)⟩
      next notLe =>
        cases h
        refine ⟨i + 1, c, by omega, hu, hc, hd, earliestDue_tail (fun e he => ?_) first⟩
        exact Option.some.inj (ha.symm.trans he) ▸ not_le.1 notLe
    next d₁ ha ht =>
      cases h
      refine ⟨0, a, rfl, rfl, rfl, ha, earliestDue_head ha fun x hx e he => ?_⟩
      cases (bestStrike_none ht x hx).symm.trans he
    next ha =>
      obtain ⟨i, c, hj, hu, hc, hd, first⟩ := ih h
      refine ⟨i + 1, c, by omega, hu, hc, hd, earliestDue_tail (fun e he => ?_) first⟩
      cases ha.symm.trans he

theorem firstMove_none (h : firstMove n cs = none) : ∀ c ∈ cs, c.waitingMove = false := by
  induction cs generalizing n with
  | nil => simp
  | cons a cs ih =>
    unfold firstMove at h
    split at h
    next => cases h
    next ha => exact List.forall_mem_cons.2 ⟨eq_false_of_ne_true ha, ih h⟩

theorem firstMove_some (h : firstMove n cs = some (j, u)) : ∃ i c, j = n + i ∧ u = c.units ∧ cs[i]? = some c ∧
    c.waitingMove = true ∧ ∀ j x, j < i → cs[j]? = some x → x.waitingMove = false := by
  induction cs generalizing n with
  | nil => cases h
  | cons a cs ih =>
    unfold firstMove at h
    split at h
    next ha =>
      cases h
      exact ⟨0, a, rfl, rfl, rfl, ha, by simp⟩
    next ha =>
      obtain ⟨i, c, hj, hu, hc, hm, first⟩ := ih h
      refine ⟨i + 1, c, by omega, hu, hc, hm, fun j x hlt hx => ?_⟩
      cases j with
      | zero => exact Option.some.inj hx ▸ eq_false_of_ne_true ha
      | succ j => exact first j x (by omega) hx

theorem NextClaim.listed (h : NextClaim cs i c) : cs[i]? = some c := h.elim And.left And.left

theorem NextClaim.waiting (h : NextClaim cs i c) : c.granted = false := by
  rcases h with ⟨-, due, hd, -⟩ | ⟨-, hm, -⟩
  · exact (strikeDue_some_iff.1 hd).1
  · exact (waitingMove_iff.1 hm).1

theorem firstStrike_not_firstMove (hs : FirstStrike cs i c) : ¬FirstMove cs j x := by
  rintro ⟨-, -, noStrike, -⟩
  obtain ⟨hc, due, hd, -⟩ := hs
  cases (noStrike c (List.mem_of_getElem? hc)).symm.trans hd

theorem firstStrike_place_le (h : FirstStrike cs i c) (k : FirstStrike cs j x) : i ≤ j := by
  obtain ⟨hc, due, hd, first⟩ := h
  obtain ⟨hx, e, he, least⟩ := k
  by_contra lt
  have earlier := (first j x e hx he).2 (by omega)
  have later := (least i c due hc hd).1
  omega

theorem firstMove_place_le (h : FirstMove cs i c) (k : FirstMove cs j x) : i ≤ j := by
  obtain ⟨-, -, -, first⟩ := h
  obtain ⟨hx, hm, -⟩ := k
  by_contra lt
  cases (first j x (by omega) hx).symm.trans hm

theorem NextClaim.unique (h : NextClaim cs i c) (k : NextClaim cs j x) : i = j ∧ c = x := by
  have same : i = j := by
    rcases h with hs | hm <;> rcases k with ks | km
    · exact le_antisymm (firstStrike_place_le hs ks) (firstStrike_place_le ks hs)
    · exact absurd km (firstStrike_not_firstMove hs)
    · exact absurd hm (firstStrike_not_firstMove ks)
    · exact le_antisymm (firstMove_place_le hm km) (firstMove_place_le km hm)
  subst same
  exact ⟨rfl, Option.some.inj (h.listed.symm.trans k.listed)⟩

/-- A pass grants its next claim if that fits, and none where there is no such claim. -/
theorem nextGrant_cases (free : Nat) (cs : List Claim) :
    (∃ i c, NextClaim cs i c ∧ nextGrant free cs = if c.units ≤ free then some i else none) ∨
      (∀ i c, ¬NextClaim cs i c) ∧ nextGrant free cs = none := by
  unfold nextGrant
  split
  next j due u hb =>
    obtain ⟨i, c, rfl, rfl, hc, hd, first⟩ := bestStrike_some hb
    exact .inl ⟨i, c, .inl ⟨hc, due, hd, first⟩, by rw [Nat.zero_add]⟩
  next hb =>
    have noStrike := bestStrike_none hb
    split
    next j u hm =>
      obtain ⟨i, c, rfl, rfl, hc, hw, first⟩ := firstMove_some hm
      exact .inl ⟨i, c, .inr ⟨hc, hw, noStrike, first⟩, by rw [Nat.zero_add]⟩
    next hm =>
      have noMove := firstMove_none hm
      refine .inr ⟨?_, rfl⟩
      rintro i c (⟨hc, due, hd, -⟩ | ⟨hc, hw, -⟩)
      · cases (noStrike c (List.mem_of_getElem? hc)).symm.trans hd
      · cases (noMove c (List.mem_of_getElem? hc)).symm.trans hw

theorem nextGrant_eq (h : NextClaim cs i c) : nextGrant free cs = if c.units ≤ free then some i else none := by
  rcases nextGrant_cases free cs with ⟨j, x, hx, hg⟩ | ⟨no, -⟩
  · obtain ⟨rfl, rfl⟩ := hx.unique h
    exact hg
  · exact absurd h (no i c)

theorem nextGrant_some_iff : nextGrant free cs = some i ↔ ∃ c, NextClaim cs i c ∧ c.units ≤ free := by
  constructor
  · intro h
    rcases nextGrant_cases free cs with ⟨j, c, hc, hg⟩ | ⟨-, hg⟩
    · obtain ⟨fits, same⟩ : c.units ≤ free ∧ j = i := by simpa using hg.symm.trans h
      exact ⟨c, same ▸ hc, fits⟩
    · cases hg.symm.trans h
  · rintro ⟨c, hc, fits⟩
    rw [nextGrant_eq hc, if_pos fits]

theorem nextGrant_none_iff : nextGrant free cs = none ↔ ∀ i c, NextClaim cs i c → free < c.units := by
  constructor
  · intro h i c hc
    by_contra fits
    cases h.symm.trans (nextGrant_some_iff.2 ⟨c, hc, not_lt.1 fits⟩)
  · intro h
    refine Option.eq_none_iff_forall_ne_some.2 fun i hi => ?_
    obtain ⟨c, hc, fits⟩ := nextGrant_some_iff.1 hi
    exact absurd (h i c hc) (not_lt.2 fits)

end

/-! ## The held sum and the WAITING claims -/

/-- How many claims are WAITING. -/
def waitingClaims (cs : List Claim) : Nat := cs.countP fun c => !c.granted

/-- The list with a claim of it GRANTED. -/
abbrev grantedAt (i : Nat) (c : Claim) (cs : List Claim) : List Claim := cs.set i { c with granted := true }

section
variable {i : Nat} {c : Claim} {cs ds : List Claim}

theorem heldSum_eq (cs : List Claim) : heldSum cs = ((cs.filter (·.granted)).map Claim.units).sum := by
  induction cs with
  | nil => rfl
  | cons c cs ih =>
    rw [heldSum_cons, ih, Claim.heldUnits]
    cases hg : c.granted <;> simp [hg]

theorem heldSum_sublist (h : cs.Sublist ds) : heldSum cs ≤ heldSum ds :=
  (h.map Claim.heldUnits).sum_le_sum fun _ _ => Nat.zero_le _

theorem grantAt_eq_set (h : cs[i]? = some c) : grantAt i cs = grantedAt i c cs := by
  induction cs generalizing i with
  | nil => cases h
  | cons a cs ih =>
    cases i with
    | zero =>
      obtain rfl := Option.some.inj h
      rfl
    | succ i => exact congrArg (a :: ·) (ih h)

theorem heldSum_grantedAt (h : cs[i]? = some c) (hg : c.granted = false) :
    heldSum (grantedAt i c cs) = heldSum cs + c.units := by
  induction cs generalizing i with
  | nil => cases h
  | cons a cs ih =>
    cases i with
    | zero =>
      obtain rfl := Option.some.inj h
      simp [heldSum_cons, Claim.heldUnits, hg, Nat.add_comm]
    | succ i => rw [grantedAt, List.set_cons_succ, heldSum_cons, heldSum_cons, ih h, Nat.add_assoc]

theorem waitingClaims_grantedAt (h : cs[i]? = some c) (hg : c.granted = false) :
    waitingClaims (grantedAt i c cs) < waitingClaims cs := by
  obtain ⟨hi, hc⟩ := List.getElem?_eq_some_iff.1 h
  have waits : 0 < waitingClaims cs := List.countP_pos_iff.2 ⟨c, List.mem_of_getElem? h, by simp [hg]⟩
  unfold waitingClaims at waits ⊢
  rw [List.countP_set hi, hc]
  simp only [hg, Bool.not_false, Bool.not_true, if_true, Bool.false_eq_true, if_false]
  omega

end

/-! ## A grant (R94, R145, R148) -/

section
variable {i : Nat} {c : Claim} {s : State}

theorem startPulse_dbu (b : Bell) (due : Int) (s : State) : (startPulse b due s).dbu = s.dbu := by
  unfold startPulse
  split <;> rfl

/-- A door told of its grant keeps its claim, or withdraws it where its interlock forbids the drive (R145). -/
theorem doorGranted_claims (d : Door) (s : State) : (doorGranted d s).dbu.claims = s.dbu.claims ∨
    (doorGranted d s).dbu.claims = dropKey (.door d) s.dbu.claims := by
  unfold doorGranted
  dsimp only
  split
  next => exact .inl rfl
  next cmd _ =>
    split_ifs
    · exact .inl rfl
    · right
      split
      · rfl
      · rw [raise_dbu, setDoor_dbu]
    · exact .inl rfl

/-- A turn that takes no step has its claim released at once (R148). -/
theorem turnStart_claims (cmd : TurnCmd) (s : State) : (turnStart cmd s).dbu.claims = s.dbu.claims ∨
    (turnStart cmd s).dbu.claims = dropKey .turntable s.dbu.claims := by
  unfold turnStart
  dsimp only
  split
  next => exact .inl rfl
  next => exact .inl rfl
  next =>
    split
    next => exact .inl rfl
    next =>
      split
      next => exact .inr rfl
      next => exact .inl rfl

theorem turnGranted_claims (s : State) : (turnGranted s).dbu.claims = s.dbu.claims ∨
    (turnGranted s).dbu.claims = dropKey .turntable s.dbu.claims := by
  unfold turnGranted
  dsimp only
  split
  next => exact .inl rfl
  next cmd _ =>
    split_ifs
    · exact .inl rfl
    · exact turnStart_claims cmd s
    · right
      split
      · rfl
      · rw [raise_dbu]

/-- The claimant told of its grant adds no claim and changes none; it may take its own off the list. -/
theorem tellGranted_claims (k : ClaimKind) (s : State) :
    (tellGranted k s).dbu.claims = s.dbu.claims ∨ (tellGranted k s).dbu.claims = dropKey k.key s.dbu.claims := by
  cases k with
  | strike b due o => exact .inl (congrArg _ (startPulse_dbu b due s))
  | figures => exact .inl rfl
  | door d goal => exact doorGranted_claims d s
  | turntable goal => exact turnGranted_claims s

theorem grantOne_eq (h : s.dbu.claims[i]? = some c) :
    grantOne i s = tellGranted c.kind { s with dbu.claims := grantedAt i c s.dbu.claims } := by
  unfold grantOne
  rw [h, ← grantAt_eq_set h]

theorem grantOne_claims (h : s.dbu.claims[i]? = some c) :
    (grantOne i s).dbu.claims.Sublist (grantedAt i c s.dbu.claims) := by
  rw [grantOne_eq h]
  rcases tellGranted_claims c.kind { s with dbu.claims := grantedAt i c s.dbu.claims } with hc | hc <;> rw [hc]
  exact List.filter_sublist

/-- What a pass grants next is WAITING and fits in the free units. -/
theorem nextGrant_waiting (h : nextGrant s.freeUnits s.dbu.claims = some i) :
    ∃ c, s.dbu.claims[i]? = some c ∧ c.granted = false ∧ c.units ≤ s.freeUnits := by
  obtain ⟨c, hc, fits⟩ := nextGrant_some_iff.1 h
  exact ⟨c, hc.listed, hc.waiting, fits⟩

theorem grantOne_waitingClaims (h : nextGrant s.freeUnits s.dbu.claims = some i) :
    waitingClaims (grantOne i s).dbu.claims < waitingClaims s.dbu.claims := by
  obtain ⟨c, hc, hg, -⟩ := nextGrant_waiting h
  exact (grantOne_claims hc).countP_le.trans_lt (waitingClaims_grantedAt hc hg)

theorem grantOne_length (h : nextGrant s.freeUnits s.dbu.claims = some i) :
    (grantOne i s).dbu.claims.length ≤ s.dbu.claims.length := by
  obtain ⟨c, hc, -⟩ := nextGrant_waiting h
  exact (grantOne_claims hc).length_le.trans_eq List.length_set

/-- A grant that fits keeps the held sum within the budget (R106). -/
theorem grantOne_withinBudget (h : nextGrant s.freeUnits s.dbu.claims = some i) (within : s.held ≤ s.hlc.live.budget) :
    (grantOne i s).held ≤ (grantOne i s).hlc.live.budget := by
  obtain ⟨c, hc, hg, fits⟩ := nextGrant_waiting h
  rw [(grantOne_inner i (.refl s) ⟨c, hc, fits⟩).live]
  calc (grantOne i s).held
    _ ≤ heldSum (grantedAt i c s.dbu.claims) := heldSum_sublist (grantOne_claims hc)
    _ = s.held + c.units := heldSum_grantedAt hc hg
    _ ≤ s.hlc.live.budget := by unfold State.freeUnits at fits; omega

end

/-! ## A grant pass (R108) -/

section
variable {i : Nat} {s : State}

theorem grantLoop_stops (h : nextGrant s.freeUnits s.dbu.claims = none) (n : Nat) : grantLoop n s = s := by
  cases n with
  | zero => rfl
  | succ n => rw [grantLoop, h]

/-- Every grant leaves fewer claims WAITING, so as many rounds as claims are WAITING make the whole pass. -/
theorem grantLoop_enough (n m : Nat) (s : State) (hn : waitingClaims s.dbu.claims ≤ n)
    (hm : waitingClaims s.dbu.claims ≤ m) : grantLoop n s = grantLoop m s := by
  cases hg : nextGrant s.freeUnits s.dbu.claims with
  | none => rw [grantLoop_stops hg, grantLoop_stops hg]
  | some i =>
    have fewer := grantOne_waitingClaims hg
    obtain ⟨n, rfl⟩ : ∃ k, n = k + 1 := ⟨n - 1, by omega⟩
    obtain ⟨m, rfl⟩ : ∃ k, m = k + 1 := ⟨m - 1, by omega⟩
    rw [grantLoop, grantLoop, hg]
    exact grantLoop_enough n m (grantOne i s) (by omega) (by omega)

theorem grantPass_ends (h : nextGrant s.freeUnits s.dbu.claims = none) : grantPass s = s := grantLoop_stops h _

theorem grantPass_grants (h : nextGrant s.freeUnits s.dbu.claims = some i) :
    grantPass s = grantPass (grantOne i s) := by
  have fewer := grantOne_waitingClaims h
  have listed : waitingClaims s.dbu.claims ≤ s.dbu.claims.length := List.countP_le_length
  calc grantPass s
    _ = grantLoop (s.dbu.claims.length + 1) s := grantLoop_enough _ _ s listed (by omega)
    _ = grantLoop s.dbu.claims.length (grantOne i s) := by rw [grantLoop, h]
    _ = grantPass (grantOne i s) := grantLoop_enough _ _ _ (by omega) List.countP_le_length

/-- A pass ends with no grant to make, and keeps whatever each grant keeps. -/
theorem grantPass_induction {P : State → Prop}
    (grant : ∀ s i, nextGrant s.freeUnits s.dbu.claims = some i → P s → P (grantOne i s)) (s : State) (h : P s) :
    P (grantPass s) ∧ nextGrant (grantPass s).freeUnits (grantPass s).dbu.claims = none := by
  cases hg : nextGrant s.freeUnits s.dbu.claims with
  | none =>
    rw [grantPass_ends hg]
    exact ⟨h, hg⟩
  | some i =>
    rw [grantPass_grants hg]
    exact grantPass_induction grant (grantOne i s) (grant s i hg h)
termination_by waitingClaims s.dbu.claims
decreasing_by exact grantOne_waitingClaims hg

theorem grantPass_done (s : State) : nextGrant (grantPass s).freeUnits (grantPass s).dbu.claims = none :=
  (grantPass_induction (P := fun _ => True) (fun _ _ _ _ => trivial) s trivial).2

theorem grantPass_withinBudget (h : s.held ≤ s.hlc.live.budget) :
    (grantPass s).held ≤ (grantPass s).hlc.live.budget :=
  (grantPass_induction (P := fun t => t.held ≤ t.hlc.live.budget) (fun _ _ => grantOne_withinBudget) s h).1

theorem grantPass_length (s : State) : (grantPass s).dbu.claims.length ≤ s.dbu.claims.length :=
  (grantPass_induction (P := fun t => t.dbu.claims.length ≤ s.dbu.claims.length)
    (fun _ _ hg => (grantOne_length hg).trans) s le_rfl).1

end

/-- Settles O40: a claim's answer, the one claim that may be granted next, its grant, and the pass by induction on the
claims still WAITING. -/
theorem claimsAndGrants : Obligations.ClaimsAndGrants := by
  refine ⟨fun k units s => ⟨fun hz => if_pos hz, fun hz hu => (if_neg hz).trans (if_pos hu), claimAnswer_listFull,
      fun _ => claimAnswer_taken, rfl⟩,
    fun c => ⟨fun due => strikeDue_some_iff, waitingMove_iff⟩,
    fun free cs => ⟨fun i => nextGrant_some_iff, nextGrant_none_iff⟩,
    fun i c s hc => ?grant,
    fun s => ⟨heldSum_eq _, grantPass_ends, fun i => grantPass_grants, grantPass_done s, grantPass_withinBudget,
      grantPass_length s⟩⟩
  case grant =>
    intro u
    have told : grantOne i s = tellGranted c.kind u := grantOne_eq hc
    refine ⟨heldSum_grantedAt hc, fun b due o hk => ?_, fun ref o shares hk => ?_, fun d g hk => ?_, fun g hk => ?_⟩
    all_goals rw [told, hk]; rfl

/-! ## The order of the WAITING claims (R108, R112) -/

/-- Of two WAITING strike claims the first is due no later. -/
def DueNoLater (a b : Claim) : Prop := ∀ x y, a.strikeDue = some x → b.strikeDue = some y → x ≤ y

section
variable {c : Claim} {l cs : List Claim} {x : Int}

/-- In a list by due time a claim's place is behind those due no later and ahead of those due later. -/
theorem insertClaim_split (hx : c.strikeDue = some x) (waiting : ∀ a ∈ l, a.strikeDue ≠ none)
    (ordered : l.Pairwise DueNoLater) : ∃ before after, l = before ++ after ∧ insertClaim c l = before ++ c :: after ∧
      (∀ a ∈ before, ∀ y, a.strikeDue = some y → y ≤ x) ∧ ∀ a ∈ after, ∀ y, a.strikeDue = some y → x < y := by
  induction l with
  | nil => exact ⟨[], [], rfl, rfl, by simp, by simp⟩
  | cons a l ih =>
    obtain ⟨ha, hl⟩ := List.forall_mem_cons.1 waiting
    obtain ⟨first, rest⟩ := List.pairwise_cons.1 ordered
    obtain ⟨z, hz⟩ := Option.ne_none_iff_exists'.1 ha
    have due {y : Int} (hy : a.strikeDue = some y) : z = y := Option.some.inj (hz.symm.trans hy)
    simp only [insertClaim, hx, hz]
    split_ifs with earlier
    · obtain ⟨before, after, hs, hi, hb, haft⟩ := ih hl rest
      exact ⟨a :: before, after, congrArg (a :: ·) hs, congrArg (a :: ·) hi,
        List.forall_mem_cons.2 ⟨fun y hy => due hy ▸ earlier, hb⟩, haft⟩
    · refine ⟨[], a :: l, rfl, rfl, by simp, List.forall_mem_cons.2 ⟨fun y hy => due hy ▸ not_le.1 earlier, ?_⟩⟩
      exact fun b hb y hy => (not_le.1 earlier).trans_le (first b hb z y hz hy)

/-- WAITING strike claims by due time, those of equal due times in the order of a list. -/
def StrikesOf (cs l : List Claim) : Prop :=
  l.Pairwise DueNoLater ∧ (∀ c ∈ l, c.strikeDue ≠ none) ∧
    ∀ due : Int, l.filter (fun c => decide (c.strikeDue = some due)) =
      cs.filter fun c => decide (c.strikeDue = some due)

theorem insertClaim_strikesOf (h : StrikesOf cs l) (hx : c.strikeDue = some x) :
    StrikesOf (cs ++ [c]) (insertClaim c l) := by
  obtain ⟨ordered, waiting, equals⟩ := h
  obtain ⟨before, after, rfl, hi, earlier, later⟩ := insertClaim_split hx waiting ordered
  have due {z : Int} (hz : c.strikeDue = some z) : x = z := Option.some.inj (hx.symm.trans hz)
  rw [hi]
  refine ⟨?ordered, ?waiting, fun due => ?equals⟩
  case ordered =>
    rw [List.pairwise_append] at ordered ⊢
    obtain ⟨hb, ha, across⟩ := ordered
    refine ⟨hb, List.pairwise_cons.2 ⟨fun a ha z y hz hy => ?_, ha⟩,
      fun a ha => List.forall_mem_cons.2 ⟨fun y z hy hz => ?_, across a ha⟩⟩
    · exact due hz ▸ (later a ha y hy).le
    · exact due hz ▸ earlier a ha y hy
  case waiting =>
    intro a ha
    rw [List.mem_append, List.mem_cons] at ha
    rcases ha with ha | rfl | ha
    · exact waiting a (List.mem_append_left _ ha)
    · simp [hx]
    · exact waiting a (List.mem_append_right _ ha)
  case equals =>
    rw [List.filter_append (l₁ := cs), ← equals due]
    by_cases same : c.strikeDue = some due
    · have noneAfter : after.filter (fun a => decide (a.strikeDue = some due)) = [] := by
        refine List.filter_eq_nil_iff.2 fun a ha hd => ?_
        obtain rfl := Option.some.inj (hx.symm.trans same)
        exact lt_irrefl _ (later a ha _ (of_decide_eq_true hd))
      simp [List.filter_append, same, noneAfter]
    · simp [List.filter_append, same]

theorem foldl_insertClaim (ds : List Claim) (h : StrikesOf cs l) :
    StrikesOf (cs ++ ds) ((ds.filter fun c => c.strikeDue.isSome).foldl (fun l c => insertClaim c l) l) := by
  induction ds generalizing cs l with
  | nil => simpa using h
  | cons c ds ih =>
    rw [List.append_cons]
    cases hd : c.strikeDue with
    | none =>
      have skipped : StrikesOf (cs ++ [c]) l := by
        obtain ⟨ordered, waiting, equals⟩ := h
        exact ⟨ordered, waiting, fun due => by simp [List.filter_append, hd, equals]⟩
      simpa [hd] using ih skipped
    | some x => simpa [hd] using ih (insertClaim_strikesOf h hd)

end

/-- Settles O39: the strike claims come by insertion in the order of the list. -/
theorem budgetGetReplies : Obligations.BudgetGetReplies := by
  refine ⟨fun s h => congrArg _ (gated_at (by decide) h), fun c => ⟨fun due => strikeDue_some_iff, waitingMove_iff⟩,
    fun cs => ?_⟩
  have empty : StrikesOf [] [] := ⟨.nil, by simp, fun _ => rfl⟩
  exact ⟨_, rfl, foldl_insertClaim cs empty⟩

end Sys2Proof.Machine
end

