-- ==== Sys2Proof/Proofs/LinkStarts.lean ====
section
/-! PROOF. Which transaction the link takes next and how it starts, and how a retry begins (R120, R122, R123, R126). -/
namespace Sys2Proof.Machine

section
variable {s : State}

/-! ## What is taken next (R123) -/

theorem inLow_false_iff : inLow s = false ↔ ∀ t, s.flc.wake ≠ some (.low t) := by
  rw [← not_iff_not, Bool.not_eq_false, inLow_iff]; simp

theorem linePermits_iff : linePermits s = true ↔ 5 ≤ s.hlc.step ∧ s.flc.stuck = false ∧ s.flc.lowSince = none ∧
    s.flc.freeAt ≤ s.tb.elapsed ∧ ∀ t, s.flc.wake ≠ some (.low t) := by
  simp [linePermits, inLow_false_iff, and_assoc]

/-- Nothing is taken while the line does not permit a start or a transaction is in flight. -/
theorem takeNext_none (h : linePermits s = false ∨ s.flc.flight.isSome = true) : takeNext s = none := by
  unfold takeNext
  rw [if_pos (by simpa using h)]

theorem takeNext_urgent (hp : linePermits s = true) (hf : s.flc.flight = none) {t : Txn}
    (hu : oldest .urgent s.flc.queue = some t) : takeNext s = some (.entry t) := by
  unfold takeNext
  simp [hp, hf, hu]

/-- A waiting retry and a wake's settle period hold back every class but the urgent one. -/
theorem takeNext_held (hu : oldest .urgent s.flc.queue = none) (h : s.flc.retry ≠ [] ∨ inSettle s = true) :
    takeNext s = none := by
  have held : (!s.flc.retry.isEmpty || inSettle s) = true := by simpa using h
  unfold takeNext
  rw [hu, if_pos held, ite_self]

/-- Nothing holds the classes below the urgent one back, and no urgent entry waits. -/
def TakesRest (s : State) : Prop :=
  linePermits s = true ∧ s.flc.flight = none ∧ oldest .urgent s.flc.queue = none ∧ s.flc.retry = [] ∧
    inSettle s = false

theorem takeNext_show (h : TakesRest s) {t : Txn} (ht : oldest .show_ s.flc.queue = some t) :
    takeNext s = some (.entry t) := by
  obtain ⟨hp, hf, hu, hr, hw⟩ := h
  unfold takeNext
  simp [hp, hf, hu, hr, hw, ht]

theorem takeNext_sweep (h : TakesRest s) (hs : oldest .show_ s.flc.queue = none) {x : Taken}
    (hx : takeSweep s = some x) : takeNext s = some x := by
  obtain ⟨hp, hf, hu, hr, hw⟩ := h
  unfold takeNext
  simp [hp, hf, hu, hr, hw, hs, hx]

theorem takeNext_last (h : TakesRest s) (hs : oldest .show_ s.flc.queue = none) (hx : takeSweep s = none) :
    takeNext s = ((oldest .host s.flc.queue).or (oldest .poll s.flc.queue)).map .entry := by
  obtain ⟨hp, hf, hu, hr, hw⟩ := h
  unfold takeNext
  simp [hp, hf, hu, hr, hw, hs, hx]

/-! ## The sweep (R122; log entry 64) -/

theorem takeSweep_left {a : Fin 16} {rest : List (Fin 16)} (h : sweepLeft s = a :: rest) :
    takeSweep s = some (.sweep a rest false) := by
  unfold takeSweep; rw [h]

theorem takeSweep_begins (hl : sweepLeft s = []) (hp : s.flc.sweepPending = true) {a : Fin 16} {rest : List (Fin 16)}
    (h : awakeNodes s = a :: rest) : takeSweep s = some (.sweep a rest true) := by
  unfold takeSweep; simp [hl, hp, h]

theorem takeSweep_dropped (hl : sweepLeft s = []) (hp : s.flc.sweepPending = true) (h : awakeNodes s = []) :
    takeSweep s = some .emptySweep := by
  unfold takeSweep; simp [hl, hp, h]

theorem takeSweep_none (hl : sweepLeft s = []) (hp : s.flc.sweepPending = false) : takeSweep s = none := by
  unfold takeSweep; simp [hl, hp]

/-! ## How it starts (R120, R123, R126) -/

theorem transactionStart_takes {x : Taken} (h : takeNext s = some x) :
    exec .transactionStart s = .next (take x s) := by
  show execTransactionStart s = _
  unfold execTransactionStart; rw [h]

theorem take_transaction {t : Txn} (h : t.kind ≠ .wake) :
    take (.entry t) s = launch t { s with flc.queue := s.flc.queue.erase t } := by
  unfold take; exact if_neg h

theorem take_wake {t : Txn} (h : t.kind = .wake) :
    take (.entry t) s = startWake { s with flc.queue := s.flc.queue.erase t } := by
  unfold take; exact if_pos h

theorem retryAttempt_ready {r : Retry} {rest : List Retry} (hr : s.flc.retry = r :: rest)
    (h : retryReady s = true) : exec .retryAttempt s = .next
      (launch r.txn (countLink (fun c => { c with retries := satInc c.retries }) { s with flc.retry := rest })) := by
  have now : retryNow s =
      launch r.txn (countLink (fun c => { c with retries := satInc c.retries }) { s with flc.retry := rest }) := by
    unfold retryNow; simp only [hr, h, if_true]
  exact congrArg _ ((whenDue_true h).trans now)

end

/-- Settles O42: the order of R123 class by class, and what each start leaves. -/
theorem transactionsAreTaken : Obligations.TransactionsAreTaken := by
  refine ⟨fun s => ⟨linePermits_iff, takeNext_none, fun hp hf => ⟨fun t => takeNext_urgent hp hf, fun hu =>
    ⟨takeNext_held hu, fun hr hw => ?order⟩⟩⟩, fun t s h hk => ?entry, fun t s h hk => ?wake,
    fun a rest begun s h => transactionStart_takes h, fun s h => transactionStart_takes h,
    fun r rest s hr due hp hf hw hu => ?retry⟩
  case order =>
    have rest : TakesRest s := ⟨hp, hf, hu, hr, hw⟩
    refine ⟨fun t => takeNext_show rest, fun hs => ⟨fun a l hl => takeNext_sweep rest hs (takeSweep_left hl),
      fun hl pending => ⟨fun a l ha => takeNext_sweep rest hs (takeSweep_begins hl pending ha),
        fun ha => takeNext_sweep rest hs (takeSweep_dropped hl pending ha)⟩,
      fun hl pending => ?last⟩⟩
    rw [takeNext_last rest hs (takeSweep_none hl pending)]
    exact ⟨fun t ht => by rw [ht]; rfl, fun hn => by rw [hn]; rfl⟩
  case entry => rw [transactionStart_takes h, take_transaction hk]; rfl
  case wake => rw [transactionStart_takes h, take_wake hk]; rfl
  case retry => exact retryAttempt_ready hr ((retryReady_iff s).2 ⟨r, rest, hr, due, hp, hf, hw, hu⟩)

end Sys2Proof.Machine
end

