-- ==== Sys2Proof/Proofs/LinkRequests.lean ====
section
/-! PROOF. The link's requests, the transactions, HALTs and wakes that arrive at its queue, and the refusals told (R124,
R126, R128 to R131). -/
namespace Sys2Proof.Machine

/-! ## A transaction that arrives (R124, R129) -/

section
variable {k : LinkKind} {a : Fin 16} {data : List Byte} {o : TxnOwner} {s : State}

theorem linkAnswer_stuck (h : s.flc.stuck = true) : linkAnswer s = .stuck := by
  unfold linkAnswer; rw [if_pos h]

theorem linkAnswer_full (h : s.flc.stuck = false) (full : 8 ≤ s.flc.queue.length) : linkAnswer s = .full := by
  unfold linkAnswer Config.linkDepth; rw [if_neg (by simp [h]), if_pos full]

theorem linkAnswer_queued (h : s.flc.stuck = false) (room : s.flc.queue.length < 8) : linkAnswer s = .queued := by
  unfold linkAnswer Config.linkDepth; rw [if_neg (by simp [h]), if_neg (Nat.not_le.2 room)]

theorem linkAnswer_full_iff : linkAnswer s = .full ↔ s.flc.stuck = false ∧ 8 ≤ s.flc.queue.length := by
  refine ⟨fun h => ?_, fun ⟨h, full⟩ => linkAnswer_full h full⟩
  unfold linkAnswer at h
  split_ifs at h with stuck full
  exact ⟨Bool.eq_false_iff.2 stuck, full⟩

theorem enqueue_stuck (h : s.flc.stuck = true) : enqueue k a data o s = s := by
  unfold enqueue; rw [linkAnswer_stuck h]

theorem enqueue_full (h : s.flc.stuck = false) (full : 8 ≤ s.flc.queue.length) : enqueue k a data o s =
    countLink (fun c => { c with full := satInc c.full }) s := by
  unfold enqueue; rw [linkAnswer_full h full]

theorem enqueue_queued (h : s.flc.stuck = false) (room : s.flc.queue.length < 8) :
    enqueue k a data o s = pushTxn (newTxn k a data o s) s := by
  unfold enqueue; rw [linkAnswer_queued h room]

theorem queryNode_queued (h : s.flc.stuck = false) (room : s.flc.queue.length < 8) : queryNode k a s =
    pushTxn (newTxn k a [] (.query (replyTag 0x52#8 s)) s) s := by
  unfold queryNode
  dsimp only
  rw [linkAnswer_queued h room, enqueue_queued h room]

theorem queryNode_full (h : s.flc.stuck = false) (full : 8 ≤ s.flc.queue.length) : queryNode k a s =
    reply 0x52#8 .busy .none (countLink (fun c => { c with full := satInc c.full }) s) := by
  unfold queryNode
  dsimp only
  rw [linkAnswer_full h full, enqueue_full h full]
  rfl

theorem queryNode_stuck (h : s.flc.stuck = true) :
    queryNode k a s = reply 0x52#8 .notNow (.linkError .lineStuck) s := by
  unfold queryNode
  dsimp only
  rw [linkAnswer_stuck h, enqueue_stuck h]
  rfl

end

/-! ## The requests (R130, R131) -/

section
variable {s : State}

theorem mem_sweepLeft {a : Fin 16} :
    a ∈ sweepLeft s ↔ (s.node a).state = .awake ∧ ∃ l, s.flc.sweep = some l ∧ a ∈ l := by
  unfold sweepLeft
  rw [List.mem_filter, and_comm]
  cases s.flc.sweep <;> simp [isAwake]

/-- What is in flight: on the line, else waiting for its retry, else a wake in its low period (R120, R126). -/
theorem flightView_eq : flightView s =
    ((s.flc.flight.map fun f => f.txn.view) <|> (s.flc.retry.head?.map fun r => r.txn.view) <|>
      (if inLow s then (some { kind := .wake, address := 0, cls := .show_, attempts := 1 } : Option TxnView)
       else none)) := by
  unfold flightView
  cases s.flc.flight with
  | some f => rfl
  | none => cases s.flc.retry <;> rfl

theorem linkStatusReq_eq (h : 6 ≤ s.hlc.step) (clear : Bool) : linkStatusReq clear s = reply 0x50#8 .ok
    (.linkStatus (lineCondition s) (flightView s) (!s.flc.retry.isEmpty) ((takeOrder s.flc.queue).map Txn.view)
      (s.flc.sweep.map fun _ => sweepLeft s) (secondSweep s) s.flc.nodes (watchSet s) s.flc.counters)
    (if clear then { s with flc.counters := .zero } else s) := gated_at (by decide) h

theorem wakeRefused_iff :
    wakeRefused s = true ↔ hasWake s = false ∧ s.flc.stuck = false ∧ 8 ≤ s.flc.queue.length := by
  simp [wakeRefused, linkAnswer_full_iff]

theorem linkWakeReq_eq (h : 6 ≤ s.hlc.step) : linkWakeReq s =
    if wakeRefused s then reply 0x51#8 .busy .none (requestWake false s)
    else reply 0x51#8 .ok .none (requestWake false s) := gated_at (by decide) h

theorem nodeQueryReq_bad (h : 6 ≤ s.hlc.step) {address : Nat} {q : Coded QueryKind}
    (bad : address = 0 ∨ 16 ≤ address ∨ queryKind q = none) :
    nodeQueryReq address q s = reply 0x52#8 .badValue .none s := by
  refine (gated_at (by decide) h).trans ?_
  split
  next a k ha hk =>
    have zero : a = 0 := by
      obtain rfl := toFin_eq_some.1 ha
      rcases bad with zero | big | none
      · exact Fin.ext zero
      · exact absurd a.isLt (Nat.not_lt.2 big)
      · exact absurd (hk.symm.trans none) nofun
    rw [if_pos zero]
  next => rfl

theorem nodeQueryReq_good (h : 6 ≤ s.hlc.step) {a : Fin 16} {k : LinkKind} {q : Coded QueryKind} (ha : a ≠ 0)
    (hk : queryKind q = some k) : nodeQueryReq a.val q s = queryNode k a s := by
  refine (gated_at (by decide) h).trans ?_
  simp only [toFin_val, hk, if_neg ha]

/-! ## The wake (R126) -/

theorem hasWake_iff : hasWake s = true ↔ s.flc.wake ≠ none ∨ ∃ t ∈ s.flc.queue, t.kind = .wake := by
  simp [hasWake, Option.isSome_iff_ne_none]

theorem requestWake_underWay {again : Bool} (h : s.flc.wake ≠ none) : requestWake again s = s := by
  unfold requestWake; rw [if_pos (Option.isSome_iff_ne_none.2 h)]

theorem requestWake_merged {again : Bool} (h : s.flc.wake = none) (queued : ∃ t ∈ s.flc.queue, t.kind = .wake) :
    requestWake again s = { s with flc.queue := s.flc.queue.map fun t =>
      match t.owner with
      | .wake x => { t with owner := .wake (x || again) }
      | _ => t } := by
  unfold requestWake
  exact (if_neg (by simp [h])).trans (if_pos (hasWake_iff.2 (.inr queued)))

theorem hasWake_none (h : s.flc.wake = none) (queued : ¬∃ t ∈ s.flc.queue, t.kind = .wake) : hasWake s = false := by
  rw [← Bool.not_eq_true, hasWake_iff]
  exact not_or.2 ⟨not_not.2 h, queued⟩

theorem wake_none (h : hasWake s = false) : s.flc.wake = none := by
  by_contra under
  rw [hasWake_iff.2 (.inl under)] at h
  cases h

theorem requestWake_added {again : Bool} (h : hasWake s = false) (untaken : s.flc.stuck = true ∨ s.flc.queue.length < 8) :
    requestWake again s = enqueue .wake 0 [] (.wake again) s := by
  unfold requestWake
  rw [if_neg (by simp [wake_none h]), if_neg (by simp [h])]
  split
  next full =>
    obtain ⟨free, many⟩ := linkAnswer_full_iff.1 full
    rcases untaken with stuck | room
    · exact absurd (stuck.symm.trans free) nofun
    · omega
  next => rfl
  next => rfl

/-- A wake refused at a full queue is counted, and pending again where the Sequencer or a binding asked. -/
theorem requestWake_refused {again : Bool} (h : hasWake s = false) (free : s.flc.stuck = false)
    (full : 8 ≤ s.flc.queue.length) : requestWake again s = { s with
      flc.counters := { s.flc.counters with full := satInc s.flc.counters.full }
      flc.wakePending := s.flc.wakePending || again } := by
  unfold requestWake
  rw [if_neg (by simp [wake_none h]), if_neg (by simp [h]), linkAnswer_full free full, enqueue_full free full]
  rfl

/-! ## The line's condition (R131; log entry 56) -/

theorem lineCondition_stuck (h : s.flc.stuck = true) : lineCondition s = .stuck := if_pos h

theorem lineCondition_low (h : s.flc.stuck = false) {t : Nat} (hw : s.flc.wake = some (.low t)) :
    lineCondition s = .waking := by
  simp [lineCondition, h, inLow, hw]

theorem lineCondition_settle (h : s.flc.stuck = false) {t : Nat} (hw : s.flc.wake = some (.settle t)) :
    lineCondition s = .settling := by
  simp [lineCondition, h, inLow, inSettle, hw]

theorem lineCondition_asleep (h : s.flc.stuck = false) (hw : s.flc.wake = none) : lineCondition s =
    if s.flc.lowSince.isSome then .heldLow
    else if s.flc.flight.isSome || !s.flc.retry.isEmpty then .inTransaction else .idle := by
  simp [lineCondition, h, inLow, inSettle, hw]

end

/-! ## HALTs (R124, R128) -/

section
variable {a : Fin 16} {o : TxnOwner} {s : State} {c : TxnClass} {q : List Txn}

/-- The newest entry of a class is the one that none of the class follows. -/
theorem newest_some_iff {t : Txn} : newest c q = some t ↔
    ∃ before after, q = before ++ t :: after ∧ t.cls = c ∧ ∀ x ∈ after, x.cls ≠ c := by
  unfold newest
  rw [List.find?_eq_some_iff_append]
  constructor
  · rintro ⟨ht, later, earlier, hq, none⟩
    refine ⟨earlier.reverse, later.reverse, ?_, by simpa using ht, fun x hx => ?_⟩
    · simpa using congrArg List.reverse hq
    · simpa using none x (List.mem_reverse.1 hx)
  · rintro ⟨before, after, rfl, ht, none⟩
    refine ⟨by simpa using ht, after.reverse, before.reverse, by simp, fun x hx => ?_⟩
    simpa using none x (List.mem_reverse.1 hx)

theorem newest_none_iff : newest c q = none ↔ ∀ x ∈ q, x.cls ≠ c := by
  simp [newest]

theorem displaced_some_iff {t : Txn} : displaced q = some t ↔ newest .host q = some t ∨
    (newest .host q = none ∧ newest .show_ q = some t) ∨
      (newest .host q = none ∧ newest .show_ q = none ∧ newest .poll q = some t) := by
  simp only [displaced, hOrElse_eq_or, Option.or_eq_some_iff]
  tauto

theorem displaced_none_iff : displaced q = none ↔ ∀ x ∈ q, x.cls = .urgent := by
  simp only [displaced, hOrElse_eq_or, Option.or_eq_none_iff, newest_none_iff]
  refine ⟨fun ⟨host, show_, poll⟩ x hx => ?_, fun urgent => ?_⟩
  · cases hc : x.cls with
    | urgent => rfl
    | host => exact absurd hc (host x hx)
    | show_ => exact absurd hc (show_ x hx)
    | poll => exact absurd hc (poll x hx)
  · exact ⟨fun x hx => by simp [urgent x hx], fun x hx => by simp [urgent x hx], fun x hx => by simp [urgent x hx]⟩

/-- A queued HALT that reaches an address: its own, or every one. -/
def Txn.halts (a : Fin 16) (t : Txn) : Bool := t.cls == .urgent && (t.address == a || t.address == 0)

theorem isHaltTo_or (a : Fin 16) : (fun t : Txn => t.isHaltTo a || t.isHaltTo 0) = Txn.halts a := by
  funext t
  exact (Bool.and_or_distrib_left ..).symm

theorem placeHalt_merged (h : ∃ t ∈ s.flc.queue, t.halts a = true) : placeHalt a o s =
    ({ s with flc.queue := s.flc.queue.map fun t =>
      if t.halts a then { t with owner := mergeOwners t.owner o } else t }, none) := by
  have merges : (s.flc.queue.any fun t => t.isHaltTo a || t.isHaltTo 0) = true := by
    rw [isHaltTo_or]; exact List.any_eq_true.2 h
  have same (t : Txn) : (t.isHaltTo a || t.isHaltTo 0) = t.halts a := congrFun (isHaltTo_or a) t
  unfold placeHalt
  rw [if_pos merges]
  simp only [same]

/-- No HALT that is queued reaches the address, so the HALT is an entry of its own. -/
theorem placeHalt_fresh (h : ∀ t ∈ s.flc.queue, t.halts a = false) : placeHalt a o s =
    if a = 0 ∧ (s.flc.queue.any fun t => t.cls == .urgent) = true then
      ({ s with flc.queue := (s.flc.queue.filter fun t => t.cls != .urgent) ++
        [newTxn .halt 0 [] (servedTogether o (s.flc.queue.filter fun t => t.cls == .urgent)) s] }, none)
    else if s.flc.queue.length < 8 then (pushTxn (newTxn .halt a [] o s) s, none)
    else match displaced s.flc.queue with
      | some t => ({ s with flc.queue := s.flc.queue.erase t ++ [newTxn .halt a [] o s] }, some t)
      | none => ({ s with flc.queue := [newTxn .halt 0 [] (servedTogether o s.flc.queue) s] }, none) := by
  have none : ¬(s.flc.queue.any fun t => t.isHaltTo a || t.isHaltTo 0) = true := by
    rw [isHaltTo_or, List.any_eq_true]
    exact fun ⟨t, ht, reaches⟩ => absurd (reaches.symm.trans (h t ht)) nofun
  unfold placeHalt
  rw [if_neg none]
  rfl

theorem placeHalt_broadcast (h : ∀ t ∈ s.flc.queue, t.halts a = false) (ha : a = 0)
    (urgent : ∃ t ∈ s.flc.queue, (t.cls == .urgent) = true) : placeHalt a o s =
    ({ s with flc.queue := (s.flc.queue.filter fun t => t.cls != .urgent) ++
      [newTxn .halt 0 [] (servedTogether o (s.flc.queue.filter fun t => t.cls == .urgent)) s] }, none) := by
  rw [placeHalt_fresh h, if_pos ⟨ha, List.any_eq_true.2 urgent⟩]

theorem placeHalt_alone (h : ∀ t ∈ s.flc.queue, t.halts a = false)
    (alone : a ≠ 0 ∨ ∀ t ∈ s.flc.queue, (t.cls == .urgent) = false) : placeHalt a o s =
    if s.flc.queue.length < 8 then (pushTxn (newTxn .halt a [] o s) s, none)
    else match displaced s.flc.queue with
      | some t => ({ s with flc.queue := s.flc.queue.erase t ++ [newTxn .halt a [] o s] }, some t)
      | none => ({ s with flc.queue := [newTxn .halt 0 [] (servedTogether o s.flc.queue) s] }, none) := by
  rw [placeHalt_fresh h, if_neg]
  rintro ⟨zero, urgent⟩
  rcases alone with nonzero | calm
  · exact nonzero zero
  · obtain ⟨t, ht, loud⟩ := List.any_eq_true.1 urgent
    exact absurd (loud.symm.trans (calm t ht)) nofun

theorem placeHalt_room (h : ∀ t ∈ s.flc.queue, t.halts a = false)
    (alone : a ≠ 0 ∨ ∀ t ∈ s.flc.queue, (t.cls == .urgent) = false) (room : s.flc.queue.length < 8) :
    placeHalt a o s = (pushTxn (newTxn .halt a [] o s) s, none) := by
  rw [placeHalt_alone h alone, if_pos room]

theorem placeHalt_displaces (h : ∀ t ∈ s.flc.queue, t.halts a = false)
    (alone : a ≠ 0 ∨ ∀ t ∈ s.flc.queue, (t.cls == .urgent) = false) (full : 8 ≤ s.flc.queue.length) {t : Txn}
    (ht : displaced s.flc.queue = some t) :
    placeHalt a o s = ({ s with flc.queue := s.flc.queue.erase t ++ [newTxn .halt a [] o s] }, some t) := by
  rw [placeHalt_alone h alone, if_neg (Nat.not_lt.2 full), ht]

theorem placeHalt_replacesAll (h : ∀ t ∈ s.flc.queue, t.halts a = false)
    (alone : a ≠ 0 ∨ ∀ t ∈ s.flc.queue, (t.cls == .urgent) = false) (full : 8 ≤ s.flc.queue.length)
    (ht : displaced s.flc.queue = none) :
    placeHalt a o s = ({ s with flc.queue := [newTxn .halt 0 [] (servedTogether o s.flc.queue) s] }, none) := by
  rw [placeHalt_alone h alone, if_neg (Nat.not_lt.2 full), ht]

/-- A HALT changes the link's queue alone. -/
theorem placeHalt_tb : (placeHalt a o s).1.tb = s.tb := by
  unfold placeHalt
  dsimp only
  split
  · rfl
  · split
    · rfl
    · split
      · rfl
      · split <;> rfl

variable {run guard : Bool} {figs : BitVec 12}

theorem sendHalt_stuck (h : s.flc.stuck = true) :
    sendHalt a run guard figs s = haltDone a (.halt run guard figs) s := by
  unfold sendHalt; exact if_pos h

/-- A HALT on a line that is not STUCK: queued, over the frame being sent, and what it displaces is told. -/
theorem sendHalt_queued (h : s.flc.stuck = false) : sendHalt a run guard figs s =
    match (placeHalt a (.halt run guard figs) s).2 with
    | some t =>
      if t.owner = .poll then overtake (placeHalt a (.halt run guard figs) s).1
      else linkRefused t.owner (countLink (fun c => { c with full := satInc c.full })
        (overtake (placeHalt a (.halt run guard figs) s).1))
    | none => overtake (placeHalt a (.halt run guard figs) s).1 := by
  unfold sendHalt
  exact if_neg (by simp [h])

theorem overtake_eq {e : Nat} (h : s.tb.elapsed = e) : overtake s = { s with
    flc.flight := s.flc.flight.map fun f => { f with stopAfter := f.stopAfter <|> f.overtakenAt e } } := by
  rw [← h]; rfl

theorem overtakenAt_some {f : Flight} {now : Nat} (h : 96 * (now - f.since) / 50 + 1 < f.txn.kind.sendBytes) :
    f.overtakenAt now = some (f.since + msOf (50 * (96 * (now - f.since) / 50 + 1))) := if_pos h

theorem overtakenAt_none {f : Flight} {now : Nat} (h : f.txn.kind.sendBytes ≤ 96 * (now - f.since) / 50 + 1) :
    f.overtakenAt now = none := if_neg (Nat.not_lt.2 h)

end

/-- Settles O41: the requests and the line's condition, what arrives, HALTs, what a refusal is to each owner, wakes. -/
theorem linkRequests : Obligations.LinkRequests := by
  refine ⟨fun s up => ⟨fun a => mem_sweepLeft, ?status, ?statusClear, fun h => ?wake, fun hw free full => ?wakeBusy,
      fun address q bad => congrArg _ (nodeQueryReq_bad up bad), fun code => rfl, fun a k q ha hk free room => ?query,
      fun a k q ha hk free full => ?queryBusy, fun a k q ha hk stuck => ?queryStuck⟩,
    fun s => ⟨inLow_iff s, lineCondition_stuck, fun free => ⟨fun t => lineCondition_low free,
      fun t => lineCondition_settle free, fun hw => ?condition⟩⟩,
    fun k a data o s => ⟨enqueue_stuck, enqueue_full, enqueue_queued⟩,
    fun p s => rfl,
    fun a o s => ⟨placeHalt_merged, fun fresh => ⟨fun ⟨ha, urgent⟩ => placeHalt_broadcast fresh ha urgent,
      fun alone => ⟨placeHalt_room fresh alone, fun t full => placeHalt_displaces fresh alone full,
        placeHalt_replacesAll fresh alone⟩⟩, fun t => ?displaced, displaced_none_iff⟩,
    fun r r' g g' fs fs' => rfl,
    fun a run guard figs s => ⟨sendHalt_stuck, fun free => ?halt⟩,
    fun f now => ?overtaken,
    fun s => ⟨fun f tag => rfl, fun tag => rfl, fun f => rfl, fun f => ⟨rfl, rfl⟩, fun f tag => rfl, fun tag => rfl,
      fun again => rfl, fun f ended => rfl⟩,
    fun again s => ⟨requestWake_underWay, requestWake_merged, fun hw queued => ?added⟩⟩
  case status => rw [← flightView_eq]; exact congrArg _ (linkStatusReq_eq up false)
  case statusClear => rw [← flightView_eq]; exact congrArg _ (linkStatusReq_eq up true)
  case wake =>
    have taken : ¬wakeRefused s = true := by
      rw [wakeRefused_iff]
      rintro ⟨hw, free, full⟩
      rcases h with h | h | h
      · exact absurd (h.symm.trans hw) nofun
      · exact absurd (h.symm.trans free) nofun
      · omega
    exact congrArg _ ((linkWakeReq_eq up).trans (if_neg taken))
  case wakeBusy =>
    have refused := requestWake_refused (again := false) hw free full
    rw [Bool.or_false] at refused
    rw [← refused]
    exact congrArg _ ((linkWakeReq_eq up).trans (if_pos (wakeRefused_iff.2 ⟨hw, free, full⟩)))
  case query => exact congrArg _ ((nodeQueryReq_good up ha hk).trans (queryNode_queued free room))
  case queryBusy => exact congrArg _ ((nodeQueryReq_good up ha hk).trans (queryNode_full free full))
  case queryStuck => exact congrArg _ ((nodeQueryReq_good up ha hk).trans (queryNode_stuck stuck))
  case condition =>
    rw [lineCondition_asleep free hw]
    refine ⟨fun low => if_pos low, fun high => ?_⟩
    rw [if_neg (by simp [high])]
    exact ⟨fun busy => if_pos (by simpa using busy), fun hf hr => if_neg (by simp [hf, hr])⟩
  case displaced => rw [displaced_some_iff]; simp only [newest_some_iff, newest_none_iff]
  case halt =>
    have passed := overtake_eq (s := (placeHalt a (.halt run guard figs) s).1) (congrArg TB.elapsed placeHalt_tb)
    rw [sendHalt_queued free, passed]
    refine ⟨fun none => by rw [none], fun t gone => ?_⟩
    rw [gone]
    exact ⟨fun poll => if_pos poll, fun other => if_neg other⟩
  case overtaken =>
    have bytes : f.txn.kind.sendBytes = match f.txn.kind with
        | .status => 1 | .stage => 8 | .go => 3 | .halt => 1 | .ident => 1 | .clear => 1 | .home => 4 | .wake => 0 := by
      cases f.txn.kind <;> rfl
    intro byte n
    exact ⟨bytes, fun h => overtakenAt_some (lt_of_lt_of_eq h bytes.symm),
      fun h => overtakenAt_none (le_of_eq_of_le bytes h)⟩
  case added =>
    have noWake := hasWake_none hw queued
    exact ⟨fun stuck => (requestWake_added noWake (.inl stuck)).trans (enqueue_stuck stuck),
      fun free room => (requestWake_added noWake (.inr room)).trans (enqueue_queued free room),
      requestWake_refused noWake⟩

end Sys2Proof.Machine
end

