-- ==== Sys2Proof/Proofs/FigureReports.lean ====
section
/-! PROOF. What a node's report, its silence, and its failures are to the figure at its address (R134, R135, R139 to
R141, R143). -/
namespace Sys2Proof.Machine

section
variable {f : Fig} {w : NodeReport} {s : State}

/-! ## A figure's record -/

theorem setFig_setFig (r t : FigRec) : (s.setFig f r).setFig f t = s.setFig f t := by
  simp [State.setFig, Vector.set_set]

theorem fig_mapFig_self (g : FigRec → FigRec) : (s.mapFig f g).fig f = g (s.fig f) := fig_setFig_self s f _

theorem mapFig_setFig (r : FigRec) (g : FigRec → FigRec) : (s.setFig f r).mapFig f g = s.setFig f (g r) := by
  rw [State.mapFig, fig_setFig_self, setFig_setFig]

/-- The link transactions of a figure's part in a move or of its homing. -/
theorem ofFig_iff {o : TxnOwner} : TxnOwner.ofFig f o = true ↔ (∃ tag, o = .stage f tag) ∨ o = .withdrawn f ∨
    (∃ ended, o = .holdClear f ended) ∨ o = .homeClear f ∨ o = .home f := by
  cases o <;> simp [TxnOwner.ofFig]

/-! ## A valid report (R134) -/

/-- The position reported, with its show time. -/
def reportTaken (f : Fig) (w : NodeReport) (s : State) : State :=
  s.mapFig f fun r => { r with report := some { position := w.position, shown := s.tb.showTime } }

theorem reportTaken_fig : (reportTaken f w s).fig f =
    { s.fig f with report := some { position := w.position, shown := s.tb.showTime } } := fig_mapFig_self _

theorem reportTaken_state {st : FigState} (h : (s.fig f).state = st) : ((reportTaken f w s).fig f).state = st := by
  rw [reportTaken_fig]; exact h

/-- A figure that is UNBOUND, in FAULT or LOST takes the position alone. -/
theorem stageReport_recorded (h : (s.fig f).state = .unbound ∨ (s.fig f).state = .fault ∨ (s.fig f).state = .lost) :
    stageReport f w s = reportTaken f w s := by
  unfold stageReport
  rw [← reportTaken]
  rcases h with h | h | h <;> simp only [reportTaken_state h]

theorem stageReport_unknown (h : (s.fig f).state = .unknown) : stageReport f w s =
    if w.fault then nodeFault f (reportTaken f w s)
    else if w.moving then haltFig false f (reportTaken f w s)
    else (reportTaken f w s).mapFig f fun r => { r with state := .idle } := by
  unfold stageReport
  rw [← reportTaken]
  simp only [reportTaken_state h]

theorem stageReport_idle (h : (s.fig f).state = .idle) : stageReport f w s =
    if w.fault then nodeFault f (reportTaken f w s) else reportTaken f w s := by
  unfold stageReport
  rw [← reportTaken]
  simp only [reportTaken_state h]

theorem stageReport_fault (h : (s.fig f).state = .halted) (hw : w.fault = true) :
    stageReport f w s = nodeFault f (reportTaken f w s) := by
  unfold stageReport
  rw [← reportTaken]
  simp only [reportTaken_state h, hw, if_true]

theorem stageReport_halted (h : (s.fig f).state = .halted) (hw : w.fault = false)
    (hi : (s.fig f).interrupted = none) : stageReport f w s = reportTaken f w s := by
  have none : ((reportTaken f w s).fig f).interrupted = none := by rw [reportTaken_fig]; exact hi
  unfold stageReport
  rw [← reportTaken]
  simp [reportTaken_state h, hw, none]

/-- An interrupted move whose end is reported is over: the figure is IDLE (R141). -/
theorem stageReport_interrupted (h : (s.fig f).state = .halted) (hw : w.fault = false) {i : Interrupted}
    (hi : (s.fig f).interrupted = some i) : stageReport f w s =
    if w.moving = false ∧ w.arrived = true ∧ w.lastTag = i.tag then
      (reportTaken f w s).mapFig f fun r => { r with state := .idle, interrupted := none }
    else reportTaken f w s := by
  have record : ((reportTaken f w s).fig f).interrupted = some i := by rw [reportTaken_fig]; exact hi
  unfold stageReport
  rw [← reportTaken]
  simp [reportTaken_state h, hw, record]

theorem stageReport_staged (h : (s.fig f).state = .staged) : stageReport f w s =
    if w.fault then
      nodeFault f (withdrawTxns (TxnOwner.ofFig f) (reportFig f .stageFailed (reportTaken f w s)))
    else reportTaken f w s := by
  unfold stageReport
  rw [← reportTaken]
  simp only [reportTaken_state h]

theorem stageReport_moving (h : (s.fig f).state = .moving) :
    stageReport f w s = movingReport f w (reportTaken f w s) := by
  unfold stageReport
  rw [← reportTaken]
  simp only [reportTaken_state h]

/-! ## The report of a MOVING figure (R139, R140, R143) -/

theorem movingReport_fault (hw : w.fault = true) :
    movingReport f w s = nodeFault f (haltFig false f (reportFig f .arrivalMissed s)) := by
  unfold movingReport; exact if_pos hw

theorem movingReport_homing (hw : w.fault = false) {h : Homing} (hh : (s.fig f).homing = some h) : movingReport f w s =
    if w.moving = false ∧ w.arrived = true ∧ w.homed = true ∧ w.lastTag = 0 then leaveMove f .idle s else s := by
  unfold movingReport
  simp [hw, hh]

theorem movingReport_move (hw : w.fault = false) (hh : (s.fig f).homing = none) {m : Move} {t : Started}
    (hm : (s.fig f).move = some m) (ht : m.started = some t) : movingReport f w s =
    if w.moving = false ∧ w.arrived = true ∧ w.lastTag = m.tag then
      if t.goTime + w.elapsed * 10 < t.opens then
        raise (.figureFault f .arrivalEarly) (leaveMove f .idle (reportFig f .arrivalEarly s))
      else leaveMove f .idle s
    else s := by
  unfold movingReport
  simp [hw, hh, hm, ht]

/-! ## A node reported silent (R135; log entries 84 and 95) -/

theorem figureSilent_unbound (h : (s.fig f).state = .unbound) : figureSilent f s = s := by
  unfold figureSilent; exact if_pos h

theorem figureSilent_inMove (h : (s.fig f).state = .staged ∨ (s.fig f).state = .moving) : figureSilent f s =
    raise (.figureFault f .figureLost)
      (leaveMove f .lost (withdrawTxns (TxnOwner.ofFig f) (reportFig f .figureLost s))) := by
  have bound : (s.fig f).state ≠ .unbound := by rcases h with h | h <;> simp [h]
  unfold figureSilent
  dsimp only
  rw [if_neg bound, if_pos h]

theorem figureSilent_atRest (hu : (s.fig f).state ≠ .unbound) (hs : (s.fig f).state ≠ .staged)
    (hm : (s.fig f).state ≠ .moving) : figureSilent f s =
    raise (.figureFault f .figureLost) (loseRecord f (s.setFig f { s.fig f with state := .lost })) := by
  unfold figureSilent
  dsimp only
  rw [if_neg hu, if_neg (by simp [hs, hm])]
  rfl

theorem loseRecord_none {r : FigRec} (h : r.interrupted = none) : loseRecord f (s.setFig f r) = s.setFig f r := by
  unfold loseRecord
  rw [fig_setFig_self, h]

theorem loseRecord_some {r : FigRec} {i : Interrupted} (h : r.interrupted = some i) : loseRecord f (s.setFig f r) =
    cueFault .M .figureLost i.cue (some f) none (s.setFig f { r with interrupted := none }) := by
  unfold loseRecord
  rw [fig_setFig_self, h, mapFig_setFig]

theorem figureSilent_unrecorded (hu : (s.fig f).state ≠ .unbound) (hs : (s.fig f).state ≠ .staged)
    (hm : (s.fig f).state ≠ .moving) (hi : (s.fig f).interrupted = none) : figureSilent f s =
    raise (.figureFault f .figureLost) (s.setFig f { s.fig f with state := .lost }) := by
  rw [figureSilent_atRest hu hs hm, loseRecord_none (r := { s.fig f with state := .lost }) hi]

theorem figureSilent_recorded (hu : (s.fig f).state ≠ .unbound) (hs : (s.fig f).state ≠ .staged)
    (hm : (s.fig f).state ≠ .moving) {i : Interrupted} (hi : (s.fig f).interrupted = some i) : figureSilent f s =
    raise (.figureFault f .figureLost) (cueFault .M .figureLost i.cue (some f) none
      (s.setFig f { s.fig f with state := .lost, interrupted := none })) := by
  rw [figureSilent_atRest hu hs hm, loseRecord_some (r := { s.fig f with state := .lost }) hi]

end

end Sys2Proof.Machine
end

