-- ==== Sys2Proof/Proofs/LinkFailures.lean ====
section
/-! PROOF. Attempts that fail: their errors, the retry, the end of the last one, and what it is to the node and to a
sweep under way (R118 to R122). -/
namespace Sys2Proof.Machine

/-! ## The failure of an attempt (R118 to R120) -/

section
variable {f : Flight} {s : State} {e : LinkError}

/-- What every failure leaves: the line free after its idle time, the error counted, and a sweep pending after a
COLLISION. -/
def attemptFailed (f : Flight) (e : LinkError) (s : State) : State := { s with
  flc.flight := none
  flc.freeAt := s.tb.elapsed + msOf (e.idleLeft (f.gapLimit s.hlc.live.gapLimit))
  flc.counters := s.flc.counters.count e
  flc.sweepPending := s.flc.sweepPending || decide (e = .collision) }

theorem attemptFailed_eq : attemptFailed f e s = { s with
    flc.flight := none
    flc.freeAt := s.tb.elapsed + (match e with
      | .noAnswer => 0
      | .gapTimeout => msOf (50 - 5 * (match f.answer with | some b => b.gap | none => s.hlc.live.gapLimit))
      | _ => msOf 50)
    flc.counters := s.flc.counters.count e
    flc.sweepPending := s.flc.sweepPending || decide (e = .collision) } := by
  cases e with
  | noAnswer => simp [attemptFailed, LinkError.idleLeft, msOf]
  | _ => rfl

/-- A failed attempt of a transaction that is still owned is retried, or the transaction fails. -/
theorem failAttempt_eq (hf : s.flc.flight = some f) {u : State} (hu : attemptFailed f e s = u) : failAttempt e s =
    if f.txn.disowned then u
    else if f.txn.attempts ≤ s.hlc.live.retries then
      { u with flc.retry := { txn := f.txn, due := s.tb.elapsed + msOf 100 } :: s.flc.retry }
    else failTxn f.txn e u := by
  have counted : (if e = .collision then { countLink (LinkCounters.count e)
        (freeIn (e.idleLeft (f.gapLimit s.hlc.live.gapLimit)) { s with flc.flight := none }) with
          flc.sweepPending := true }
      else countLink (LinkCounters.count e)
        (freeIn (e.idleLeft (f.gapLimit s.hlc.live.gapLimit)) { s with flc.flight := none })) =
      attemptFailed f e s := by
    cases e <;> simp [attemptFailed, countLink, freeIn]
  unfold failAttempt
  simp only [hf]
  rw [counted, ← hu]
  rfl

/-! ## What makes an attempt fail (R118, R119) -/

theorem released_iff {b : Byte} {bit : Nat} : released b bit = true ↔ bit = 8 ∨ b.getLsbD bit = true := by
  simp [released]

/-- A mismatch is told at the end of its byte, a bit of the frame that was sent released. -/
theorem canMismatch_iff {byte bit now : Nat} : canMismatch f byte bit now = true ↔
    ∃ b, f.txn.frame[byte]? = some b ∧ bit ≤ 8 ∧ (bit = 8 ∨ b.getLsbD bit = true) ∧
      f.since + msOf (50 * (byte + 1)) = now ∧ ∀ t, f.stopAfter = some t → f.since + msOf (50 * (byte + 1)) ≤ t := by
  unfold canMismatch Flight.byteEnd
  cases f.txn.frame[byte]? with
  | none => simp
  | some b => cases f.stopAfter <;> simp [released_iff, and_assoc]

theorem readbackError_fails (hf : s.flc.flight = some f) {byte bit : Nat}
    (h : canMismatch f byte bit s.tb.elapsed = true) : exec (.readbackError byte bit) s =
    .next (settle (failAttempt (readbackKind f.txn byte bit) s)) := by
  show execReadbackError byte bit s = _
  unfold execReadbackError
  rw [hf]
  exact congrArg _ (whenDue_true h)

/-- The first bit of the header that is sent released is a COLLISION's (R118). -/
theorem readbackKind_collision {t : Txn} {byte bit : Nat} : readbackKind t byte bit = .collision ↔ byte = 0 ∧ bit ≤ 8 ∧
    (bit = 8 ∨ (headerByte t.kind t.address).getLsbD bit = true) ∧
      ∀ k, k < bit → ¬(k = 8 ∨ (headerByte t.kind t.address).getLsbD k = true) := by
  have first : (List.range 9).find? (released (headerByte t.kind t.address)) = some bit ↔
      (bit = 8 ∨ (headerByte t.kind t.address).getLsbD bit = true) ∧ bit ≤ 8 ∧
        ∀ k, k < bit → ¬(k = 8 ∨ (headerByte t.kind t.address).getLsbD k = true) := by
    rw [List.find?_range_eq_some]
    simp only [List.mem_range, Nat.lt_succ_iff, Bool.not_eq_true', ← Bool.not_eq_true, released_iff]
  unfold readbackKind
  dsimp only
  split_ifs with h <;> rw [first] at h
  · exact iff_of_true rfl (by tauto)
  · exact iff_of_false nofun (by tauto)

theorem readbackKind_either (t : Txn) (byte bit : Nat) :
    readbackKind t byte bit = .collision ∨ readbackKind t byte bit = .bitError := by
  unfold readbackKind
  exact (ite_eq_or_eq ..)

theorem noAnswer_fails (hf : s.flc.flight = some f) (answers : 0 < f.txn.kind.answerBytes) (ha : f.answer = none)
    (late : f.since + msOf (50 * f.txn.kind.sendBytes + 384) ≤ s.tb.elapsed) :
    exec .noAnswer s = .next (settle (failAttempt .noAnswer s)) :=
  congrArg _ (whenDue_true ((answerLate_iff s).2 ⟨f, hf, answers, ha, late⟩))

theorem frameError_fails (hf : s.flc.flight = some f) (answers : 0 < f.txn.kind.answerBytes)
    (ended : f.since + msOf (50 * f.txn.kind.sendBytes + 50) ≤ s.tb.elapsed) :
    exec .frameError s = .next (settle (failAttempt .frameError s)) := by
  have may : byteMayEnd s = true := by
    have first : f.firstByteAt ≤ s.tb.elapsed := ended
    simp [byteMayEnd, hf, answers, first]
  exact congrArg _ (whenDue_true may)

theorem gapTimeout_fails (hf : s.flc.flight = some f) (answers : 1 < f.txn.kind.answerBytes)
    (passed : f.gapAt s.hlc.live.gapLimit ≤ s.tb.elapsed) :
    exec .gapTimeout s = .next (settle (failAttempt .gapTimeout s)) := by
  have may : gapMayPass s = true := by simp [gapMayPass, hf, answers, passed]
  exact congrArg _ (whenDue_true may)

theorem gapAt_awaited {live : Nat} (h : f.answer = none) :
    f.gapAt live = f.since + msOf (50 * f.txn.kind.sendBytes + (50 + 5 * live)) := by
  simp [Flight.gapAt, Flight.gapLimit, h]

theorem gapAt_begun {live : Nat} {b : Begun} (h : f.answer = some b) :
    f.gapAt live = b.since + msOf (50 + 5 * b.gap) := by
  simp [Flight.gapAt, Flight.gapLimit, h]

end

/-! ## A sweep under way (R122) -/

section
variable {s : State}

theorem sweepFlying_iff : sweepFlying s = true ↔
    ∃ t ∈ s.flc.retry.map Retry.txn ++ (s.flc.flight.map Flight.txn).toList, t.owner = .sweep := by
  simp only [sweepFlying, List.any_eq_true, beq_iff_eq]

theorem sweepLeft_ne_nil : sweepLeft s ≠ [] ↔ ∃ l, s.flc.sweep = some l ∧ ∃ a ∈ l, (s.node a).state = .awake := by
  rw [Ne, ← List.isEmpty_iff, Bool.not_eq_true, List.isEmpty_eq_false_iff_exists_mem]
  simp only [mem_sweepLeft]
  exact ⟨fun ⟨a, awake, l, hl, ha⟩ => ⟨l, hl, a, ha, awake⟩, fun ⟨l, hl, a, ha, awake⟩ => ⟨a, awake, l, hl, ha⟩⟩

theorem tidySweep_goesOn (h : sweepLeft s ≠ [] ∨ sweepFlying s = true) : tidySweep s = s := by
  refine if_neg fun ended => ?_
  simp only [Bool.and_eq_true, List.isEmpty_iff, Bool.not_eq_true', ← Bool.not_eq_true (sweepFlying s)] at ended
  tauto

theorem tidySweep_ends (hl : sweepLeft s = []) (hf : ¬sweepFlying s = true) :
    tidySweep s = { s with flc.sweep := none } := by
  refine if_pos ?_
  simp [hl, hf]

theorem passOver_eq (a : Fin 16) (s : State) :
    passOver a s = tidySweep { s with flc.sweep := s.flc.sweep.map fun l => l.filter (· ≠ a) } := by
  have others : (fun b : Fin 16 => b != a) = fun b => decide (b ≠ a) := by funext b; rw [Bool.eq_iff_iff]; simp
  unfold passOver
  simp only [others]

end

/-! ## The node's record (R120, R121) -/

section
variable {a : Fin 16} {e : LinkError} {s : State}

theorem nodeFailure_unbound (h : (s.node a).state = .absent) : nodeFailure a e s = s := by
  unfold nodeFailure; exact if_pos h

theorem nodeFailure_counted (bound : (s.node a).state ≠ .absent)
    (h : (s.node a).state = .silent ∨ (s.node a).failures + 1 < 3) :
    nodeFailure a e s = s.mapNode a fun n => { n with failures := min 3 (n.failures + 1) } := by
  unfold nodeFailure
  dsimp only
  rw [if_neg bound, if_pos h]

/-- The third failure in a row makes the node SILENT; a sweep passes it over, and its figure is LOST. -/
theorem nodeFailure_silences (h : (s.node a).state = .asleep ∨ (s.node a).state = .awake)
    (third : 3 ≤ (s.node a).failures + 1) {u : State}
    (hu : raise (.linkFault a e) (passOver a (s.mapNode a fun n =>
      { n with state := .silent, failures := 3, nextSilent := s.tb.elapsed + 2000 })) = u) :
    nodeFailure a e s = (figAt u a).elim u fun f => figureSilent f u := by
  have bound : (s.node a).state ≠ .absent := by rcases h with h | h <;> simp [h]
  have heard : ¬((s.node a).state = .silent ∨ (s.node a).failures + 1 < 3) := by
    rcases h with h | h <;> simp [h] <;> omega
  unfold nodeFailure
  dsimp only
  rw [if_neg bound, if_neg heard, hu]
  cases figAt u a <;> rfl

end

/-- Settles O43: the failure and its causes, the transaction's end, the sweep, the node's record, its figure. -/
theorem attemptsFail : Obligations.AttemptsFail := by
  refine ⟨fun f s hf => ⟨fun e => ?failure, fun byte bit => canMismatch_iff, fun byte bit => readbackError_fails hf,
      noAnswer_fails hf, frameError_fails hf, fun answers => ⟨fun ha passed => ?gap, fun b hb passed => ?gapBegun⟩,
      rfl⟩,
    fun t byte bit => ⟨readbackKind_collision, readbackKind_either t byte bit⟩,
    fun t e s => ⟨fun zero => ?broadcast, fun nonzero => ?addressed⟩,
    fun s => ⟨fun h => ?goesOn, fun left flying => ?ends, fun a => passOver_eq a s⟩,
    fun a e s => ⟨nodeFailure_unbound, fun h bound => nodeFailure_counted bound h, fun h third => ?silent⟩,
    fun f s => ⟨figureSilent_unbound, figureSilent_inMove, fun hu hs hm => ⟨figureSilent_unrecorded hu hs hm,
        fun i => figureSilent_recorded hu hs hm⟩,
      fun o => ofFig_iff, fun w lost => ?stays⟩⟩
  case failure => exact failAttempt_eq hf attemptFailed_eq
  case gap => exact gapTimeout_fails hf answers (le_of_eq_of_le (gapAt_awaited ha) passed)
  case gapBegun => exact gapTimeout_fails hf answers (le_of_eq_of_le (gapAt_begun hb) passed)
  case broadcast => unfold failTxn; simp only [zero, if_true]
  case addressed => unfold failTxn; simp only [nonzero, if_false]
  case goesOn => exact tidySweep_goesOn (h.imp sweepLeft_ne_nil.2 sweepFlying_iff.2)
  case ends => exact tidySweep_ends (not_not.1 (mt sweepLeft_ne_nil.1 left)) (mt sweepFlying_iff.1 flying)
  case silent =>
    have silenced := nodeFailure_silences (e := e) h third rfl
    exact ⟨fun none => by rw [silenced, none]; rfl, fun f hf => by rw [silenced, hf]; rfl⟩
  case stays => rw [stageReport_recorded (.inr (.inr lost))]; exact reportTaken_state lost

end Sys2Proof.Machine
end

