-- ==== Sys2Proof/Proofs/LinkFrames.lean ====
section
/-! PROOF. The frames that the part sends and the answers of the nodes, byte by byte (R115, R119, section 10.6). -/
namespace Sys2Proof.Machine

/-! ## The header (R115) -/

/-- The header is the kind and the address, with the parity bit where these have an even number of ones. -/
theorem headerByte_toNat (k : LinkKind) (a : Fin 16) :
    (headerByte k a).toNat =
      if ((List.range 8).filter fun i => (16 * k.code + a.val).testBit i).length % 2 = 1 then 16 * k.code + a.val
      else 16 * k.code + a.val + 128 := by
  cases k <;> revert a <;> decide +kernel

theorem headerByte_fields (k : LinkKind) (a : Fin 16) : (headerByte k a).toNat % 16 = a.val ∧
    (headerByte k a).toNat / 16 % 8 = k.code ∧
      ((List.finRange 8).filter fun i => (headerByte k a).getLsbD i.val).length % 2 = 1 := by
  cases k <;> revert a <;> decide +kernel

/-! ## Sums and check bytes (R115) -/

theorem foldl_add_toNat (bs : List Byte) (x : Byte) :
    (bs.foldl (· + ·) x).toNat = (x.toNat + (bs.map BitVec.toNat).sum) % 256 := by
  induction bs generalizing x with
  | nil => simpa using (Nat.mod_eq_of_lt x.isLt).symm
  | cons b bs ih =>
    rw [List.foldl_cons, ih, BitVec.toNat_add, List.map_cons, List.sum_cons]
    omega

theorem sum8_eq_zero_iff (bs : List Byte) : sum8 bs = 0 ↔ (bs.map BitVec.toNat).sum % 256 = 0 := by
  have sum : (sum8 bs).toNat = (bs.map BitVec.toNat).sum % 256 := (foldl_add_toNat bs 0).trans (by simp)
  rw [← sum]
  exact ⟨fun h => by rw [h]; rfl, fun h => BitVec.eq_of_toNat_eq h⟩

theorem answerChecks_iff {t : Txn} {bs : List Byte} : answerChecks t bs = true ↔ bs.length = t.kind.answerBytes ∧
    ((headerByte t.kind t.address).toNat + (bs.map BitVec.toNat).sum) % 256 = 0 := by
  simp only [answerChecks, Bool.and_eq_true, decide_eq_true_eq, beq_iff_eq, sum8_eq_zero_iff, List.map_cons,
    List.sum_cons]

/-- The check byte takes the sum of the frame to 0. -/
theorem sum8_add_checkByte (bs : List Byte) : sum8 bs + checkByte bs = 0 := by
  unfold checkByte
  exact BitVec.add_right_neg _

/-! ## The data of a frame (section 10.6) -/

/-- A number as two bytes, low byte first. -/
theorem bytes16_word (v : Int) :
    ∃ lo hi, bytes16 v = [lo, hi] ∧ ((lo.toNat + 256 * hi.toNat : Nat) : Int) = v % 65536 := by
  refine ⟨_, _, rfl, ?_⟩
  have whole : (BitVec.ofInt 16 v).toNat = (v % 65536).toNat := BitVec.toNat_ofInt ..
  have small : (BitVec.ofInt 16 v).toNat < 65536 := (BitVec.ofInt 16 v).isLt
  have halves : ((BitVec.ofInt 16 v).extractLsb' 0 8).toNat + 256 * ((BitVec.ofInt 16 v).extractLsb' 8 8).toNat =
      (BitVec.ofInt 16 v).toNat := by
    simp only [BitVec.extractLsb'_toNat, Nat.shiftRight_eq_div_pow]
    omega
  rw [halves, whole]
  omega

theorem bytes16_units (n : Nat) : ∃ lo hi, bytes16 n = [lo, hi] ∧ lo.toNat + 256 * hi.toNat = n % 65536 := by
  obtain ⟨lo, hi, hb, hw⟩ := bytes16_word n
  exact ⟨lo, hi, hb, by omega⟩

theorem stageData_spec (a : Fin 16) (f : Fig) (m : Move) : ∃ t₀ t₁ d₀ d₁ g p c,
    stageData a f m = [t₀, t₁, d₀, d₁, g, p, c] ∧ ((t₀.toNat + 256 * t₁.toNat : Nat) : Int) = m.target % 65536 ∧
      d₀.toNat + 256 * d₁.toNat = tens m.duration % 65536 ∧ g.toNat = m.tag % 256 ∧ p.toNat = f.val ∧
        headerByte .stage a + t₀ + t₁ + d₀ + d₁ + g + p + c = 0 := by
  obtain ⟨t₀, t₁, ht, target⟩ := bytes16_word m.target
  obtain ⟨d₀, d₁, hd, duration⟩ := bytes16_units (tens m.duration)
  refine ⟨t₀, t₁, d₀, d₁, BitVec.ofNat 8 m.tag, BitVec.ofNat 8 f.val,
    checkByte [headerByte .stage a, t₀, t₁, d₀, d₁, BitVec.ofNat 8 m.tag, BitVec.ofNat 8 f.val], ?_, target, duration,
    BitVec.toNat_ofNat .., ?figure, ?check⟩
  · unfold stageData withCheck
    rw [ht, hd]
    rfl
  case figure => rw [BitVec.toNat_ofNat]; omega
  case check => simpa [sum8] using
      sum8_add_checkByte [headerByte .stage a, t₀, t₁, d₀, d₁, BitVec.ofNat 8 m.tag, BitVec.ofNat 8 f.val]

theorem goData_spec (tag : Nat) :
    ∃ g c, goData tag = [g, c] ∧ g.toNat = tag % 256 ∧ headerByte .go 0 + g + c = 0 :=
  ⟨BitVec.ofNat 8 tag, _, rfl, BitVec.toNat_ofNat .., by
    simpa [sum8] using sum8_add_checkByte [headerByte .go 0, BitVec.ofNat 8 tag]⟩

theorem homeData_spec (a : Fin 16) (allowed : Nat) : ∃ d₀ d₁ c, homeData a allowed = [d₀, d₁, c] ∧
    d₀.toNat + 256 * d₁.toNat = tens allowed % 65536 ∧ headerByte .home a + d₀ + d₁ + c = 0 := by
  obtain ⟨d₀, d₁, hd, time⟩ := bytes16_units (tens allowed)
  refine ⟨d₀, d₁, checkByte [headerByte .home a, d₀, d₁], ?_, time, ?check⟩
  · unfold homeData withCheck
    rw [hd]
    rfl
  case check => simpa [sum8] using sum8_add_checkByte [headerByte .home a, d₀, d₁]

/-! ## The codes of STAGE and HOME (section 10.6) -/

theorem nodeAnswer_none {b : Byte} (ha : b ≠ 0x5A#8) (hr : b ≠ 0xA5#8) (hb : b ≠ 0x3C#8) : nodeAnswer b = none := by
  unfold nodeAnswer
  rw [if_neg ha, if_neg hr, if_neg hb]

end Sys2Proof.Machine
end

