-- ==== Sys2Proof/Proofs/LinkEnds.lean ====
section
/-! PROOF. How transactions end: the answers taken, the GO and the HALT sent whole, the frame that a HALT has overtaken
(R115, R116, R119, R125, R128, R137 to R143, R150). -/
namespace Sys2Proof.Machine

/-! ## An answer is taken (R119, R121) -/

section
variable {k : LinkKind} {fl : Flight} {t : Txn} {bs : List Byte} {b : Byte} {s : State}

theorem answered_sent {F : Txn → State → State} (hf : s.flc.flight = some fl) (hk : fl.txn.kind = k)
    (sent : fl.sentAt ≤ s.tb.elapsed) (answers : 0 < k.answerBytes) : answered k F s = settle (F fl.txn s) := by
  have awaited : awaits k s = some fl.txn := by
    unfold awaits
    rw [hf]
    exact if_pos ⟨hk, sent, answers⟩
  unfold answered
  rw [awaited]

/-- The line is free again and the node's record is that of a node that answers. -/
def answerTaken (t : Txn) (s : State) : State := validAnswer t.address (endFlight s)

theorem answerTaken_eq : answerTaken t s =
    let e : State := { s with flc.flight := none, flc.freeAt := s.tb.elapsed + msOf 50 }
    if (s.node t.address).state = .absent then e else e.mapNode t.address fun n =>
      { n with state := .awake, confirmed := true, failures := 0, lastAnswer := some s.tb.showTime } := rfl

theorem answerTaken_tb : (answerTaken t s).tb = s.tb := by
  unfold answerTaken validAnswer
  split <;> rfl

/-- The figure at an address takes the report that a STATUS spells. -/
def figureSeen (a : Fin 16) (bs : List Byte) (s : State) : State :=
  match figAt s a, readReport bs with
  | some f, some w => stageReport f w s
  | _, _ => s

theorem takeStatus_valid (h : answerChecks t bs = true) : takeStatus t bs s =
    tidySweep (if t.disowned then figureSeen t.address bs (answerTaken t s)
      else answerQuery t.owner bs (figureSeen t.address bs (answerTaken t s))) := by
  unfold takeStatus; exact if_pos h

theorem takeStatus_wrong (h : answerChecks t bs = false) : takeStatus t bs s = failAttempt .checkError s := by
  unfold takeStatus; exact if_neg (by simp [h])

theorem takeIdent_valid (h : answerChecks t bs = true) : takeIdent t bs s =
    if t.disowned then answerTaken t s else answerQuery t.owner bs (answerTaken t s) := by
  unfold takeIdent; exact if_pos h

theorem takeIdent_wrong (h : answerChecks t bs = false) : takeIdent t bs s = failAttempt .checkError s := by
  unfold takeIdent; exact if_neg (by simp [h])

theorem takeStage_coded {x : NodeAnswer} (hx : nodeAnswer b = some x) {f : Fig} {tag : Nat}
    (ho : t.owner = .stage f tag) (hd : t.disowned = false) :
    takeStage t b s = stageAnswered f tag x (answerTaken t s) := by
  unfold takeStage
  simp only [hx, ho, hd]
  rfl

theorem takeStage_wrong (h : nodeAnswer b = none) : takeStage t b s = failAttempt .checkError s := by
  unfold takeStage; rw [h]

theorem stageAnswered_eq (f : Fig) (tag : Nat) (x : NodeAnswer) (s : State) : stageAnswered f tag x s =
    if inMove f tag s then
      (if x = .accept then s.mapFig f fun r => { r with step := .accepted }
       else leaveMove f .idle (reportFig f .stageRefused s))
    else s := by
  cases x <;> rfl

theorem takeHome_coded {x : NodeAnswer} (hx : nodeAnswer b = some x) {f : Fig} (ho : t.owner = .home f)
    (hd : t.disowned = false) : takeHome t b s = homeAnswered f x (answerTaken t s) := by
  unfold takeHome
  simp only [hx, ho, hd]
  rfl

theorem takeHome_wrong (h : nodeAnswer b = none) : takeHome t b s = failAttempt .checkError s := by
  unfold takeHome; rw [h]

theorem homeAnswered_eq (f : Fig) (x : NodeAnswer) {e : Nat} (he : s.tb.elapsed = e) : homeAnswered f x s =
    if x = .accept then s.mapFig f fun r => { r with
      state := .moving
      homing := r.homing.map fun h => { h with arriveBy := some (e + h.allowed + 2000) } }
    else homeFails f s := by
  subst he
  cases x <;> rfl

theorem takeClear_done (h : b = 0xC3#8) (hd : t.disowned = false) :
    takeClear t b s = clearDone t.owner (answerTaken t s) := by
  unfold takeClear
  rw [if_pos h]
  exact if_neg (by simp [hd])

theorem takeClear_wrong (h : b ≠ 0xC3#8) : takeClear t b s = failAttempt .checkError s := by
  unfold takeClear; exact if_neg h

end

/-! ## The commands of the answers (R119, R130, R134, R137, R142, R143) -/

section
variable {fl : Flight} {bs : List Byte} {b : Byte} {s : State}

theorem statusAnswer_taken (hf : s.flc.flight = some fl) (sent : fl.sentAt ≤ s.tb.elapsed)
    (hk : fl.txn.kind = .status) : exec (.statusAnswer bs) s = .next (settle (takeStatus fl.txn bs s)) :=
  congrArg Host.Outcome.next (answered_sent hf hk sent (by decide))

theorem identAnswer_taken (hf : s.flc.flight = some fl) (sent : fl.sentAt ≤ s.tb.elapsed)
    (hk : fl.txn.kind = .ident) : exec (.identAnswer bs) s = .next (settle (takeIdent fl.txn bs s)) :=
  congrArg Host.Outcome.next (answered_sent hf hk sent (by decide))

theorem stageAnswer_taken (hf : s.flc.flight = some fl) (sent : fl.sentAt ≤ s.tb.elapsed)
    (hk : fl.txn.kind = .stage) : exec (.stageAnswer b) s = .next (settle (takeStage fl.txn b s)) :=
  congrArg Host.Outcome.next (answered_sent hf hk sent (by decide))

theorem homeAnswer_taken (hf : s.flc.flight = some fl) (sent : fl.sentAt ≤ s.tb.elapsed)
    (hk : fl.txn.kind = .home) : exec (.homeAnswer b) s = .next (settle (takeHome fl.txn b s)) :=
  congrArg Host.Outcome.next (answered_sent hf hk sent (by decide))

theorem clearAnswer_taken (hf : s.flc.flight = some fl) (sent : fl.sentAt ≤ s.tb.elapsed)
    (hk : fl.txn.kind = .clear) : exec (.clearAnswer b) s = .next (settle (takeClear fl.txn b s)) :=
  congrArg Host.Outcome.next (answered_sent hf hk sent (by decide))

end

/-! ## Transactions without an answer (R116, R125, R128, R139) -/

section
variable {k : LinkKind} {fl : Flight} {s : State}

theorem sentWhole_some (hf : s.flc.flight = some fl) (hk : fl.txn.kind = k) (whole : fl.stopAfter = none)
    (sent : fl.sentAt ≤ s.tb.elapsed) : sentWhole k s = some fl.txn := by
  unfold sentWhole
  rw [hf]
  exact if_pos ⟨hk, whole, sent⟩

theorem goComplete_done (h : sentWhole .go s = some fl.txn) {tag : Nat} (ho : fl.txn.owner = .go tag)
    (hd : fl.txn.disowned = false) : exec .goComplete s = .next (settle (goDone tag (endFlight s))) := by
  have finished : finishGo fl.txn s = goDone tag (endFlight s) := by
    unfold finishGo
    simp only [ho, hd]
  show execGoComplete s = _
  unfold execGoComplete
  rw [h, ← finished]

theorem haltComplete_done (h : sentWhole .halt s = some fl.txn) : exec .haltComplete s =
    .next (settle (haltDone fl.txn.address fl.txn.owner (endFlight s))) := by
  show execHaltComplete s = _
  unfold execHaltComplete
  rw [h]

theorem abandon_eq (hf : s.flc.flight = some fl) {u : State}
    (hu : countLink (fun c => { c with abandoned := satInc c.abandoned }) (endFlight s) = u) :
    abandon s = if fl.txn.disowned then u else linkAbandoned fl.txn.owner u := by
  unfold abandon
  simp only [hf, hu]

theorem transactionAbandoned_eq (hf : s.flc.flight = some fl) {t : Nat} (ht : fl.stopAfter = some t)
    (due : t ≤ s.tb.elapsed) {u : State}
    (hu : countLink (fun c => { c with abandoned := satInc c.abandoned }) (endFlight s) = u) :
    exec .transactionAbandoned s =
      .next (settle (if fl.txn.disowned then u else linkAbandoned fl.txn.owner u)) := by
  have stops : stopDue s = true := (stopDue_iff s).2 ⟨fl, hf, t, ht, due⟩
  have abandoned : exec .transactionAbandoned s = .next (settle (abandon s)) :=
    congrArg Host.Outcome.next (whenDue_true stops)
  rw [abandoned, abandon_eq hf hu]

end

/-! ## The GO sent whole: the figures start (R139) -/

section
variable {f : Fig} {tag : Nat} {s : State}

theorem hasTag_iff {r : FigRec} : r.hasTag tag = true ↔ ∃ m, r.move = some m ∧ m.tag = tag := by
  unfold FigRec.hasTag
  cases r.move <;> simp

theorem mem_moveFigs :
    f ∈ moveFigs tag s ↔ (s.fig f).inStaging = true ∧ ∃ m, (s.fig f).move = some m ∧ m.tag = tag := by
  simp [moveFigs, allFigs, hasTag_iff]

theorem moveFigs_nodup : (moveFigs tag s).Nodup := (List.nodup_finRange 12).filter _

/-- A figure's record once its move starts. -/
def FigRec.started (now : Stamp) (r : FigRec) : FigRec :=
  { r with state := .moving, move := r.move.map (startMove now) }

/-- Figures that start one after another leave the rest of the state as it was, and start at one instant. -/
theorem foldl_started {l : List Fig} (hl : l.Nodup) (s : State) :
    let t := l.foldl (fun t f => t.mapFig f (FigRec.started t.stamp)) s
    t = { s with stg.figs := t.stg.figs } ∧
      ∀ f, t.fig f = if f ∈ l then (s.fig f).started s.stamp else s.fig f := by
  induction l generalizing s with
  | nil => exact ⟨rfl, fun f => (if_neg List.not_mem_nil).symm⟩
  | cons g l ih =>
    obtain ⟨fresh, rest⟩ := List.nodup_cons.1 hl
    obtain ⟨same, each⟩ := ih rest (s.mapFig g (FigRec.started s.stamp))
    refine ⟨same, fun f => (each f).trans ?_⟩
    by_cases hg : f = g
    · subst hg
      rw [if_neg fresh, if_pos List.mem_cons_self, fig_mapFig_self]
    · have other : (s.mapFig g (FigRec.started s.stamp)).fig f = s.fig f := fig_setFig_other s (Ne.symm hg) _
      rw [other]
      simp only [List.mem_cons, hg, false_or]
      rfl

theorem goDone_rest : goDone tag s = { s with stg.figs := (goDone tag s).stg.figs } :=
  (foldl_started moveFigs_nodup s).1

theorem goDone_fig : (goDone tag s).fig f = if f ∈ moveFigs tag s then (s.fig f).started s.stamp else s.fig f :=
  (foldl_started moveFigs_nodup s).2 f

end

/-! ## A STAGE that a HALT has overtaken (R128, R137) -/

section
variable {f : Fig} {tag : Nat} {s : State}

/-- A HALT that reaches a figure's node is queued. -/
theorem haltQueued_iff {a : Fin 16} : (s.flc.queue.any fun t => t.isHaltTo 0 || t.isHaltTo a) = true ↔
    ∃ t ∈ s.flc.queue, t.cls = .urgent ∧ (t.address = 0 ∨ t.address = a) := by
  simp [Txn.isHaltTo, and_or_left]

theorem stageAbandoned_again (h : inMove f tag s = true)
    (free : ¬∃ t ∈ s.flc.queue, t.cls = .urgent ∧ (t.address = 0 ∨ t.address = s.figAddress f)) :
    linkAbandoned (.stage f tag) s = queueStage f s :=
  if_pos ⟨h, Bool.eq_false_iff.2 (mt haltQueued_iff.1 free)⟩

theorem stageAbandoned_left (h : inMove f tag s = false ∨
    ∃ t ∈ s.flc.queue, t.cls = .urgent ∧ (t.address = 0 ∨ t.address = s.figAddress f)) :
    linkAbandoned (.stage f tag) s = s := by
  refine if_neg ?_
  rw [← Bool.not_eq_true, haltQueued_iff]
  rintro ⟨still, free⟩
  rcases h with h | h
  · exact absurd (still.symm.trans h) nofun
  · exact free h

variable {m : Move}

theorem queueStage_queued (hm : (s.fig f).move = some m) (h : s.flc.stuck = false) (room : s.flc.queue.length < 8) :
    queueStage f s = enqueue .stage (s.figAddress f) (stageData (s.figAddress f) f m) (.stage f m.tag) s := by
  unfold queueStage
  simp only [hm, linkAnswer_queued h room]

theorem queueStage_full (hm : (s.fig f).move = some m) (h : s.flc.stuck = false) (full : 8 ≤ s.flc.queue.length) :
    queueStage f s = linkRefused (.stage f m.tag)
      (enqueue .stage (s.figAddress f) (stageData (s.figAddress f) f m) (.stage f m.tag) s) := by
  unfold queueStage
  simp only [hm, linkAnswer_full h full]

theorem queueStage_stuck (hm : (s.fig f).move = some m) (h : s.flc.stuck = true) :
    queueStage f s = linkFailed (.stage f m.tag) .lineStuck s := by
  unfold queueStage
  simp only [hm, linkAnswer_stuck h, enqueue_stuck h]

end

/-- Settles O44: the answers, the frames, what a report is to a figure, GOs, HALTs and abandoned frames. -/
theorem transactionsEnd : Obligations.TransactionsEnd := by
  refine ⟨fun f s hf sent => ?answers,
    fun t bs => ⟨headerByte_toNat t.kind t.address, rfl, rfl, answerChecks_iff⟩,
    fun p0 p1 flags staged last e0 e1 rest => rfl,
    fun tag bs s => ⟨rfl, rfl, rfl, fun b => nodeAnswer_none, rfl, rfl, rfl⟩,
    fun f w s => ⟨stageReport_recorded, stageReport_unknown, stageReport_idle,
      fun h => ⟨stageReport_fault h, stageReport_halted h, fun i hw => stageReport_interrupted h hw⟩,
      stageReport_staged, fun h => ⟨fun hw => ?faulty, fun g hw hg => ?homing, fun m t hw hh hm ht => ?arrival⟩⟩,
    fun f s hf => ⟨fun tag hk ho hd whole sent => goComplete_done (sentWhole_some hf hk whole sent) ho hd,
      fun hk whole sent => haltComplete_done (sentWhole_some hf hk whole sent), fun t ht due => ?abandoned⟩,
    fun tag s => ⟨goDone_rest, fun f m staged hm htag => ?starts, fun f out => ?waits⟩,
    fun a run figs s => ⟨rfl, rfl, fun nonzero => if_neg nonzero⟩,
    fun f tag s => ⟨stageAbandoned_again, stageAbandoned_left, rfl, rfl, fun m hm =>
      ⟨queueStage_queued hm, queueStage_full hm, queueStage_stuck hm⟩⟩,
    fun k a _ => headerByte_fields k a,
    fun a f m tag allowed => ⟨stageData_spec a f m, goData_spec tag, homeData_spec a allowed⟩⟩
  case answers =>
    intro e good failed
    have taken : answerTaken f.txn s = good := answerTaken_eq
    have time : good.tb.elapsed = s.tb.elapsed := congrArg TB.elapsed answerTaken_tb
    clear_value good
    refine ⟨fun bs hk => ?status, fun bs hk => ?ident, fun b hk => ?stage, fun b hk => ?home, fun b hk => ?clear⟩
    case status =>
      rw [statusAnswer_taken hf sent hk]
      refine ⟨fun valid => ?_, fun wrong => by rw [takeStatus_wrong wrong]⟩
      rw [takeStatus_valid valid, taken]
      rfl
    case ident =>
      rw [identAnswer_taken hf sent hk]
      exact ⟨fun valid => by rw [takeIdent_valid valid, taken], fun wrong => by rw [takeIdent_wrong wrong]⟩
    case stage =>
      rw [stageAnswer_taken hf sent hk]
      exact ⟨fun fig tag x hx ho hd => by rw [takeStage_coded hx ho hd, taken, stageAnswered_eq],
        fun wrong => by rw [takeStage_wrong wrong]⟩
    case home =>
      rw [homeAnswer_taken hf sent hk]
      exact ⟨fun fig x hx ho hd => by rw [takeHome_coded hx ho hd, taken, homeAnswered_eq fig x time],
        fun wrong => by rw [takeHome_wrong wrong]⟩
    case clear =>
      rw [clearAnswer_taken hf sent hk]
      refine ⟨fun hb hd => ?_, fun wrong => by rw [takeClear_wrong wrong]⟩
      rw [takeClear_done hb hd, taken]
      exact ⟨fun fig ho => by rw [ho]; rfl, fun fig ho => by rw [ho]; rfl, fun fig tag ho => by rw [ho]; rfl,
        fun fig ended ho => by rw [ho]; rfl⟩
  case faulty => exact (stageReport_moving h).trans (movingReport_fault hw)
  case homing =>
    exact (stageReport_moving h).trans (movingReport_homing hw ((congrArg FigRec.homing reportTaken_fig).trans hg))
  case arrival =>
    have moved := (stageReport_moving h).trans (movingReport_move hw ((congrArg FigRec.homing reportTaken_fig).trans hh)
      ((congrArg FigRec.move reportTaken_fig).trans hm) ht)
    refine ⟨fun away => moved.trans (if_neg away), fun there early => ?_, fun there inWindow => ?_⟩
    · exact (moved.trans (if_pos there)).trans (if_pos early)
    · exact (moved.trans (if_pos there)).trans (if_neg (not_lt.2 inWindow))
  case abandoned =>
    intro a
    exact transactionAbandoned_eq hf ht due (u := a) rfl
  case starts =>
    rw [goDone_fig, if_pos (mem_moveFigs.2 ⟨staged, m, hm, htag⟩)]
    unfold FigRec.started
    rw [hm]
    rfl
  case waits =>
    rw [goDone_fig, if_neg]
    rw [mem_moveFigs]
    rintro ⟨staged, m, hm, htag⟩
    rcases out with out | out
    · exact absurd (staged.symm.trans out) nofun
    · exact out m hm htag

end Sys2Proof.Machine
end

