-- ==== Sys2Proof/Proofs/LineAndPoller.lean ====
section
/-! PROOF. The line held low and released, the wake, the poller, and the host entries that have waited too long (R120 to
R123, R125 to R127, R129, R130). -/
namespace Sys2Proof.Machine

/-! ## The line (R122, R129; log entries 23 and 90) -/

section
variable {s : State}

theorem lineQuiet_iff : lineQuiet s = true ↔ s.flc.flight = none ∧ inLow s = false := by
  simp [lineQuiet]

theorem lowTooLong_told (quiet : lineQuiet s = true) (free : s.flc.stuck = false)
    (long : ∀ t, s.flc.lowSince = some t → t + 100 ≤ s.tb.elapsed) : lowTooLong s = true := by
  unfold lowTooLong
  cases low : s.flc.lowSince with
  | none => simp [quiet, free]
  | some t => simp [quiet, free, long t low]

theorem lineReleased_low {t : Nat} (h : s.flc.lowSince = some t) : exec .lineReleased s = .next (lineFrees s) := by
  have low : s.flc.lowSince.isSome = true := by rw [h]; rfl
  exact congrArg Host.Outcome.next (whenDue_true low)

theorem lineFrees_stuck (h : s.flc.stuck = true) : lineFrees s = { s with
    flc.stuck := false, flc.lowSince := none, flc.freeAt := s.tb.elapsed, flc.sweepPending := true
    flc.retry := s.flc.retry.map (Retry.afterLow s.tb.elapsed)
    flc.wakePending := s.flc.wakePending || someAsleep s } := if_pos h

theorem lineFrees_low (h : s.flc.stuck = false) : lineFrees s = { s with
    flc.lowSince := none, flc.freeAt := s.tb.elapsed
    flc.retry := s.flc.retry.map (Retry.afterLow s.tb.elapsed) } := if_neg (by simp [h])

/-- The HALTs complete one after another, and the line stop after them. -/
theorem stopLine_eq (s : State) : stopLine s = haltDone 0 (.halt false false 0)
    (((s.flc.queue ++ s.flc.retry.map Retry.txn).filter fun t => t.cls == .urgent).foldl
      (fun t x => haltDone x.address x.owner t)
      { s with
        flc.queue := s.flc.queue.filter fun t => !(t.cls == .urgent)
        flc.retry := s.flc.retry.filter fun r => !(r.txn.cls == .urgent) }) := by
  have halts (t : State) (x : Txn)
      (hx : x ∈ (s.flc.queue ++ s.flc.retry.map Retry.txn).filter fun t => t.cls == .urgent) :
      failStuck x t = haltDone x.address x.owner t := if_pos (by simpa using (List.mem_filter.1 hx).2)
  unfold stopLine
  exact congrArg (haltDone 0 (.halt false false 0)) (List.foldl_ext _ _ _ halts)

theorem stickLine_flc : (stickLine s).flc =
    { s.flc with stuck := true, lowSince := s.flc.lowSince <|> some s.tb.elapsed } := raise_flc _ _

/-- The line becomes STUCK (`u`), the HALTs leave (`v`), they and then the line stop are told (`w`), and the rest
fails. -/
theorem lineSticks_eq {u v w : State} (hu : stickLine s = u)
    (hv : { u with
      flc.queue := s.flc.queue.filter fun t => !(t.cls == .urgent)
      flc.retry := s.flc.retry.filter fun r => !(r.txn.cls == .urgent) } = v)
    (hw : haltDone 0 (.halt false false 0)
      (((s.flc.queue ++ s.flc.retry.map Retry.txn).filter fun t => t.cls == .urgent).foldl
        (fun t x => haltDone x.address x.owner t) v) = w) :
    lineSticks s = tidySweep ((w.flc.queue ++ w.flc.retry.map Retry.txn).foldl
      (fun t x => if x.cls = .urgent then haltDone x.address x.owner t else linkFailed x.owner .lineStuck t)
      { w with flc.queue := [], flc.retry := [] }) := by
  have queue : (stickLine s).flc.queue = s.flc.queue := by rw [stickLine_flc]
  have retry : (stickLine s).flc.retry = s.flc.retry := by rw [stickLine_flc]
  have stopped : stopLine (stickLine s) = w := by rw [stopLine_eq, queue, retry, hu, hv, hw]
  unfold lineSticks
  rw [stopped]
  rfl

/-! ## The wake (R121, R126) -/

theorem wakePending_made (pending : s.flc.wakePending = true) (room : s.flc.queue.length < 8) :
    exec .wakePending s = .next (makeWake s) := by
  have again : wakeAgain s = true := by simp [wakeAgain, Config.linkDepth, pending, room]
  exact congrArg Host.Outcome.next (whenDue_true again)

/-! ## Host entries that have waited too long (R123, R130) -/

/-- A host entry that has waited 250 ms. -/
def Txn.outwaited (now : Nat) (t : Txn) : Prop := t.cls = .host ∧ t.arrival + 250 ≤ now

theorem expired_some_iff {t : Txn} : expired s = some t ↔ t.outwaited s.tb.elapsed ∧
    ∃ before after, s.flc.queue = before ++ t :: after ∧ ∀ x ∈ before, ¬x.outwaited s.tb.elapsed := by
  have waits (x : Txn) : (x.cls == .host && decide (x.arrival + 250 ≤ s.tb.elapsed)) = true ↔
      x.outwaited s.tb.elapsed := by simp [Txn.outwaited]
  simp only [expired, List.find?_eq_some_iff_append, Bool.not_eq_true', ← Bool.not_eq_true, waits]

theorem expired_none_iff : expired s = none ↔ ∀ x ∈ s.flc.queue, ¬x.outwaited s.tb.elapsed := by
  simp [expired, Txn.outwaited]

theorem hostEntryTimeout_drops {t : Txn} (h : expired s = some t) : exec .hostEntryTimeout s =
    .next (linkRefused t.owner { s with flc.queue := s.flc.queue.erase t }) := by
  show execHostEntryTimeout s = _
  unfold execHostEntryTimeout
  rw [h]

end

/-! ## The lowest address, and the next one (R127) -/

section
variable {p : Fin 16 → Prop} {q : Fin 16 → Bool} {a : Fin 16} {last : Option (Fin 16)}

def LowestAddress (p : Fin 16 → Prop) (a : Fin 16) : Prop := p a ∧ ∀ b, b < a → ¬p b

/-- The lowest address above the last one, wrapping to the lowest. -/
def NextAddress (last : Option (Fin 16)) (p : Fin 16 → Prop) (a : Fin 16) : Prop :=
  (∃ l, last = some l ∧ l < a ∧ p a ∧ ∀ b, l < b → b < a → ¬p b) ∨
    ((∀ l, last = some l → ∀ b, l < b → ¬p b) ∧ LowestAddress p a)

theorem find_lowest (hq : ∀ b, q b = true ↔ p b) (h : LowestAddress p a) : (List.finRange 16).find? q = some a := by
  obtain ⟨ha, least⟩ := h
  exact find_finRange_eq ((hq a).2 ha) fun b hb => Bool.eq_false_iff.2 (mt (hq b).1 (least b hb))

theorem find_noAddress (hq : ∀ b, q b = true ↔ p b) (h : ∀ b, ¬p b) : (List.finRange 16).find? q = none :=
  List.find?_eq_none.2 fun b _ => mt (hq b).1 (h b)

theorem rotate_some (l : Fin 16) (as : List (Fin 16)) :
    rotate (some l) as = (as.find? fun b => decide (l < b)).or as.head? := hOrElse_eq_or _ _

theorem rotate_next (hq : ∀ b, q b = true ↔ p b) (h : NextAddress last p a) :
    rotate last ((List.finRange 16).filter q) = some a := by
  rcases h with ⟨l, rfl, above, ha, least⟩ | ⟨none, lowest⟩
  · have next : (List.finRange 16).find? (fun b => decide (q b = true ∧ decide (l < b) = true)) = some a :=
      find_lowest (p := fun b => p b ∧ l < b) (by simp [hq]) ⟨⟨ha, above⟩, fun b hb ⟨hp, hl⟩ => least b hl hb hp⟩
    rw [rotate_some, List.find?_filter, next]
    rfl
  · have first : ((List.finRange 16).filter q).head? = some a := by rw [List.head?_filter, find_lowest hq lowest]
    cases last with
    | none => exact first
    | some l =>
      have wraps : ((List.finRange 16).filter q).find? (fun b => decide (l < b)) = Option.none := by
        rw [List.find?_filter]
        exact find_noAddress (p := fun b => p b ∧ l < b) (by simp [hq]) fun b ⟨hp, hl⟩ => none l rfl b hl hp
      rw [rotate_some, wraps, first]
      rfl

theorem rotate_noAddress (hq : ∀ b, q b = true ↔ p b) (h : ∀ b, ¬p b) :
    rotate last ((List.finRange 16).filter q) = none := by
  have empty : (List.finRange 16).filter q = [] := List.filter_eq_nil_iff.2 fun b _ => mt (hq b).1 (h b)
  rw [empty]
  cases last <;> rfl

end

/-! ## The poller (R127; log entry 65) -/

section
variable {s : State} {a : Fin 16}

theorem pollQuiet_iff : pollQuiet s = true ↔ s.flc.queue = [] ∧ s.flc.flight = none ∧ s.flc.retry = [] ∧
    (∀ t, s.flc.wake ≠ some (.low t)) ∧ sweepLeft s = [] ∧ s.flc.sweepPending = false := by
  simp [pollQuiet, inLow_false_iff, and_assoc]

/-- A SILENT node whose poll is due. -/
def nodeLapsed (s : State) (a : Fin 16) : Prop :=
  (s.node a).state = .silent ∧ (s.node a).nextSilent ≤ s.tb.elapsed

/-- The address of a figure that is MOVING or homing. -/
def nodeWatched (s : State) (a : Fin 16) : Prop :=
  ∃ f, (s.figDef f).address = some a ∧ (s.fig f).state = .moving

/-- An AWAKE node that has not yet answered. -/
def nodeFresh (s : State) (a : Fin 16) : Prop := (s.node a).state = .awake ∧ (s.node a).confirmed = false

def nodeAwake (s : State) (a : Fin 16) : Prop := (s.node a).state = .awake

theorem lapsed_iff (b : Fin 16) :
    ((s.node b).state == .silent && decide ((s.node b).nextSilent ≤ s.tb.elapsed)) = true ↔ nodeLapsed s b := by
  simp [nodeLapsed]

theorem watched_iff (b : Fin 16) : ((List.finRange 12).any fun f =>
    (s.figDef f).address == some b && (s.fig f).state == .moving) = true ↔ nodeWatched s b := by
  simp [nodeWatched]

theorem fresh_iff (b : Fin 16) : (isAwake s b && !(s.node b).confirmed) = true ↔ nodeFresh s b := by
  simp [nodeFresh, isAwake]

theorem awake_iff (b : Fin 16) : isAwake s b = true ↔ nodeAwake s b := by
  simp [nodeAwake, isAwake]

theorem pollChoice_lapsed (h : LowestAddress (nodeLapsed s) a) : pollChoice s =
    some (a, s.mapNode a fun n => { n with nextSilent := s.tb.elapsed + 2000 }) := by
  unfold pollChoice
  simp only [find_lowest lapsed_iff h]

variable (heard : ∀ b, ¬nodeLapsed s b)
include heard

theorem pollChoice_watched (h : NextAddress s.flc.lastWatch (nodeWatched s) a) :
    pollChoice s = some (a, { s with flc.lastWatch := some a }) := by
  have next : rotate s.flc.lastWatch (watchSet s) = some a := rotate_next watched_iff h
  unfold pollChoice
  simp only [find_noAddress lapsed_iff heard, next]

variable (still : ∀ b, ¬nodeWatched s b)
include still

theorem pollChoice_fresh (h : LowestAddress (nodeFresh s) a) : pollChoice s = some (a, s) := by
  have noWatch : rotate s.flc.lastWatch (watchSet s) = none := rotate_noAddress watched_iff still
  unfold pollChoice
  simp only [find_noAddress lapsed_iff heard, noWatch, find_lowest fresh_iff h]

theorem pollChoice_awake (known : ∀ b, ¬nodeFresh s b) (h : NextAddress s.flc.lastPoll (nodeAwake s) a) :
    pollChoice s = some (a, { s with flc.lastPoll := some a }) := by
  have noWatch : rotate s.flc.lastWatch (watchSet s) = none := rotate_noAddress watched_iff still
  have next : rotate s.flc.lastPoll (awakeNodes s) = some a := rotate_next awake_iff h
  unfold pollChoice
  simp only [find_noAddress lapsed_iff heard, noWatch, find_noAddress fresh_iff known, next]

theorem pollChoice_none (asleep : ∀ b, ¬nodeAwake s b) : pollChoice s = none := by
  have noWatch : rotate s.flc.lastWatch (watchSet s) = none := rotate_noAddress watched_iff still
  have noFresh := find_noAddress fresh_iff fun b h => asleep b h.1
  have noneLeft : rotate s.flc.lastPoll (awakeNodes s) = none := rotate_noAddress awake_iff asleep
  unfold pollChoice
  simp only [find_noAddress lapsed_iff heard, noWatch, noFresh, noneLeft]

end

section
variable {s u : State} {t : Nat}

theorem pollTick_due (h : s.flc.nextTick = some t) (due : t ≤ s.tb.elapsed) :
    exec .pollTick s = .next (pollTick s) := by
  have now : tickDue s = true := by simp [tickDue, h, due]
  exact congrArg Host.Outcome.next (whenDue_true now)

theorem pollTick_busy (hu : { s with flc.nextTick := some (s.tb.elapsed + 20) } = u) (busy : pollQuiet u = false) :
    pollTick s = u := by
  unfold pollTick
  rw [hu]
  exact if_neg (by simp [busy])

theorem pollTick_nobody (hu : { s with flc.nextTick := some (s.tb.elapsed + 20) } = u) (quiet : pollQuiet u = true)
    (none : pollChoice u = none) : pollTick s = u := by
  unfold pollTick
  rw [hu]
  simp only [quiet, if_true, none]

theorem pollTick_polls (hu : { s with flc.nextTick := some (s.tb.elapsed + 20) } = u) (quiet : pollQuiet u = true)
    {a : Fin 16} {v : State} (choice : pollChoice u = some (a, v)) : pollTick s = enqueue .status a [] .poll v := by
  unfold pollTick
  rw [hu]
  simp only [quiet, if_true, choice]

end

/-- Settles O45: the line, what a failure is to each owner, the wake, the poller's tick and its choice. -/
theorem lineWakeAndPollEvents : Obligations.LineWakeAndPollEvents := by
  refine ⟨fun s => ⟨fun hf hw => ⟨?alert, fun free long => ?stuck⟩,
      fun t low => ⟨fun stuck => ?released, fun free => ?freed⟩,
      ?sticks⟩,
    fun e s => ⟨fun f tag => rfl, fun tag => rfl, fun f => rfl, fun f => ⟨rfl, rfl⟩, fun f tag => rfl, fun tag => rfl,
      fun again => rfl, fun f ended => rfl, rfl, rfl, fun k f => rfl⟩,
    fun s => ⟨fun t low due => ?lowEnd, fun t settling due => ?settled, wakePending_made⟩,
    fun s => ⟨fun t tick due => ?tick, fun t tag old ho => ?timeout, fun t => ⟨expired_some_iff, expired_none_iff⟩⟩,
    fun s => pollQuiet_iff,
    fun s => ⟨fun a => pollChoice_lapsed, fun a heard => pollChoice_watched heard,
      fun a heard still => pollChoice_fresh heard still, fun a heard still => pollChoice_awake heard still,
      pollChoice_none⟩⟩
  case alert => exact congrArg Host.Outcome.next (whenDue_true (lineQuiet_iff.2 ⟨hf, hw⟩))
  case stuck =>
    exact congrArg Host.Outcome.next (whenDue_true (lowTooLong_told (lineQuiet_iff.2 ⟨hf, hw⟩) free long))
  case released => rw [lineReleased_low low, lineFrees_stuck stuck]; rfl
  case freed => rw [lineReleased_low low, lineFrees_low free]; rfl
  case sticks =>
    intro u urgent halts v w
    exact lineSticks_eq (u := u) (v := v) (w := w) rfl rfl rfl
  case lowEnd => exact congrArg Host.Outcome.next (whenDue_true ((lowOver_iff s).2 ⟨t, low, due⟩))
  case settled => exact congrArg Host.Outcome.next (whenDue_true ((settleOver_iff s).2 ⟨t, settling, due⟩))
  case tick =>
    rw [pollTick_due tick due]
    exact ⟨fun busy => congrArg _ (pollTick_busy rfl busy),
      fun quiet none => congrArg _ (pollTick_nobody rfl quiet none),
      fun a v quiet choice => congrArg _ (pollTick_polls rfl quiet choice)⟩
  case timeout => rw [hostEntryTimeout_drops old, ho]; rfl

end Sys2Proof.Machine
end

