-- ==== Sys2Proof/Proofs/Doors.lean ====
section
/-! PROOF. The doors: their limits and their commands, the door interlock, and DOOR-MOVE (R144 to R146, R150, R151). -/
namespace Sys2Proof.Machine

/-! ## The limits of a door (R144; log entries 31 and 37) -/

section
variable {d : Door} {g : Goal} {level : Bool} {c : DoorCmd} {s : State}

theorem bothLimits_iff : s.bothLimits d = true ↔ s.limit d .closed = true ∧ s.limit d .opened = true := by
  simp [State.bothLimits]

/-- The filtered level of a limit set, and its samples with it. -/
def limitPut (d : Door) (g : Goal) (level : Bool) (s : State) : State :=
  { s with inm.limits := s.inm.limits.putBit (limitIndex d g) level }

theorem limitEdge_acts (hf : s.inm.fresh = false) (hs : 4 ≤ s.hlc.step) (hl : s.limit d g ≠ level) :
    limitEdge d g level s = doorLimitChange d g level (limitPut d g level s) := by
  refine if_neg ?_
  change ¬(s.inm.fresh || s.limit d g == level || decide (s.hlc.step < 4)) = true
  simp [hf, hl, hs]

theorem limitEdge_silent (h : s.inm.fresh = true ∨ s.hlc.step < 4 ∨ s.limit d g = level) :
    limitEdge d g level s = limitPut d g level s := by
  refine if_pos ?_
  change (s.inm.fresh || s.limit d g == level || decide (s.hlc.step < 4)) = true
  rcases h with h | h | h <;> simp [h]

theorem endDoorCmd_eq (st : DoorState) : endDoorCmd d st s = dropClaim (.door d) (s.setDoor d { s.door d with
    state := if s.limit d .closed = true ∧ s.limit d .opened = true then .unknown else st
    cmd := none, travelStart := none }) := by
  simp only [← bothLimits_iff]
  rfl

/-- With the drive off the door follows its limits. -/
theorem doorLimitChange_off {st : DoorState} (hg : limitState g = st)
    (off : ∀ c, (s.door d).cmd = some c → c.driving = false) : doorLimitChange d g level s =
    if s.limit d .closed = true ∧ s.limit d .opened = true then s.setDoor d { s.door d with state := .unknown }
    else if level then s.setDoor d { s.door d with state := st }
    else if (s.door d).state = st then s.setDoor d { s.door d with state := .unknown }
    else s := by
  subst hg
  simp only [← bothLimits_iff]
  unfold doorLimitChange
  dsimp only
  split
  next c hc => exact if_neg (by simp [off c hc])
  next => rfl

theorem doorLimitChange_driving {st : DoorState} (hg : limitState g = st) (hc : (s.door d).cmd = some c)
    (hd : c.driving = true) : doorLimitChange d g level s =
    if level = true ∧ g = c.goal then endDoorCmd d st s else s := by
  unfold doorLimitChange
  simp only [hc, hd, hg, if_true]

end

/-! ## The door interlock (R146; log entry 28) -/

section
variable {d : Door} {c : DoorCmd} {s : State}

theorem blocksZone_iff (r : FigRec) (z : Crossing) : blocksZone r z = true ↔ r.state ≠ .unbound ∧
    (r.state = .staged ∨ r.state = .moving ∨ r.state = .unknown ∨ r.state = .lost ∨ r.report = none ∨
      ∃ p, r.report = some p ∧ z.low ≤ p.position ∧ p.position ≤ z.high) := by
  unfold blocksZone
  split
  next h => simp [h]
  next h => simp [h]
  next h => simp [h]
  next h => simp [h]
  next h => simp [h]
  all_goals
    next h =>
    cases r.report <;> simp [h, blocksZone.withinZone]

theorem blocksDoor_iff (f : FigDef) (r : FigRec) (d : Door) :
    blocksDoor f r d = true ↔ ∃ z, f.crossing = some z ∧ z.door = d ∧ blocksZone r z = true := by
  unfold blocksDoor
  cases f.crossing <;> simp

theorem doorForbidden_iff (g : STG) (d : Door) : doorForbidden g d = true ↔
    ∃ f z, (g.figDefs.get f).crossing = some z ∧ z.door = d ∧ blocksZone (g.figs.get f) z = true := by
  simp [doorForbidden, blocksDoor_iff]

theorem doorInterlockStop_idle (h : (s.door d).cmd = none) : doorInterlockStop d s = s := by
  unfold doorInterlockStop; simp only [h]

theorem doorInterlockStop_cmd (h : (s.door d).cmd = some c) : doorInterlockStop d s =
    if c.driving = true ∧ c.goal = .closed ∧ doorForbidden s.stg d = true then
      ownerFault c.owner .doorBlocked none (some d) (raise (.doorFault d .interlock) (endDoorCmd d .stopped s))
    else s := by
  unfold doorInterlockStop; simp only [h]

theorem doorRetest_idle (h : (s.door d).cmd = none) : doorRetest d s = s := by
  unfold doorRetest; simp only [h]

theorem doorRetest_cmd (h : (s.door d).cmd = some c) : doorRetest d s =
    if c.driving = false ∧ c.claimed = false ∧ (c.goal = .opened ∨ doorForbidden s.stg d = false) ∧
      s.tb.elapsed < c.deadline then claimDoor d s
    else s := by
  unfold doorRetest; simp only [h, Bool.not_eq_true']

end

/-! ## A door command's claim and its end (R145, R151) -/

section
variable {d : Door} {c : DoorCmd} {s : State}

/-- A command that has not had its units ends: a cue fault of its run, or DOOR_FAULT for the host's. -/
def doorUnserved (d : Door) (o : Owner) (s : State) : State :=
  match o with
  | .run cue => cueFault .M .doorBlocked cue none (some d) s
  | .host => raise (.doorFault d .noUnits) s

theorem claimDoor_taken (h : (s.door d).cmd = some c)
    (ha : claimAnswer (.door d c.goal) (s.stg.doorDefs.get d).units s = .taken) : claimDoor d s =
    makeClaim (.door d c.goal) (s.stg.doorDefs.get d).units
      (s.setDoor d { s.door d with cmd := some { c with claimed := true } }) := by
  unfold claimDoor
  simp only [h, ha]

theorem claimDoor_refused (h : (s.door d).cmd = some c)
    (ha : claimAnswer (.door d c.goal) (s.stg.doorDefs.get d).units s ≠ .taken) :
    claimDoor d s = doorUnserved d c.owner (s.setDoor d { s.door d with cmd := none }) := by
  unfold claimDoor
  simp only [h]
  split
  next taken => exact absurd taken ha
  all_goals
    unfold doorUnserved
    cases c.owner <;> rfl

theorem doorTimesOut_eq : doorTimesOut d c s = doorUnserved d c.owner (endDoorCmd d (s.door d).state s) := by
  unfold doorTimesOut doorUnserved
  cases c.owner <;> rfl

theorem doorDeadline_ends (h : (s.door d).cmd = some c) (waiting : c.driving = false)
    (due : c.deadline ≤ s.tb.elapsed) : exec (.doorDeadline d) s =
    .next (settle (doorUnserved d c.owner (endDoorCmd d (s.door d).state s))) := by
  have overdue : doorOverdue d s = some c := by
    unfold doorOverdue
    simp only [h]
    exact if_pos ⟨waiting, due⟩
  show execDoorDeadline d s = _
  unfold execDoorDeadline
  rw [overdue, ← doorTimesOut_eq]

theorem doorTravelLimit_stalls {t : Nat} (h : (s.door d).cmd = some c) (driving : c.driving = true)
    (ht : (s.door d).travelStart = some t) (due : t + (s.door d).travelMs ≤ s.tb.elapsed) :
    exec (.doorTravelLimit d) s = .next (settle (doorStalls d c s)) := by
  have overrun : doorOverrun d s = some c := by
    unfold doorOverrun
    simp only [h, ht]
    exact if_pos ⟨driving, due⟩
  show execDoorTravelLimit d s = _
  unfold execDoorTravelLimit
  rw [overrun]

end

/-- Settles O49: the edges of the limits, the travel limit and the deadline, the interlock, and its tests. -/
theorem doorsFollowLimitsAndInterlock : Obligations.DoorsFollowLimitsAndInterlock := by
  refine ⟨fun d s => ⟨fun which level => rfl, fun which level => ⟨limitEdge_acts, limitEdge_silent⟩,
      fun which level => ?limits, endDoorCmd_eq,
      fun c t hc hd ht due => doorTravelLimit_stalls hc hd ht due,
      fun c hc waiting due => doorDeadline_ends hc waiting due,
      fun c hc => ⟨?stops, ?goesOn, ?claims, ?waits, claimDoor_taken hc, claimDoor_refused hc⟩,
      fun hc => ⟨doorInterlockStop_idle hc, doorRetest_idle hc⟩⟩,
    fun g d => ?forbidden⟩
  case limits =>
    intro both at_
    have goal : limitState which = at_ := by cases which <;> rfl
    refine ⟨fun off => ?off, fun c hc hd => ?driving⟩
    case off =>
      have followed := doorLimitChange_off (level := level) goal off
      refine ⟨fun h => followed.trans (if_pos h), fun apart on => ?_, fun apart clear left => ?_,
        fun apart clear elsewhere => ?_⟩
      · exact followed.trans ((if_neg apart).trans (if_pos on))
      · exact followed.trans ((if_neg apart).trans ((if_neg (by simp [clear])).trans (if_pos left)))
      · exact followed.trans ((if_neg apart).trans ((if_neg (by simp [clear])).trans (if_neg elsewhere)))
    case driving =>
      have drives := doorLimitChange_driving (level := level) goal hc hd
      refine ⟨fun on reached => (drives.trans (if_pos ⟨on, reached⟩)).trans (endDoorCmd_eq _), fun other => ?_⟩
      refine drives.trans (if_neg ?_)
      rintro ⟨on, reached⟩
      exact other.elim (fun clear => absurd (on.symm.trans clear) nofun) (absurd reached)
  case stops => exact fun forbidden => (doorInterlockStop_cmd hc).trans (if_pos forbidden)
  case goesOn => exact fun permitted => (doorInterlockStop_cmd hc).trans (if_neg permitted)
  case claims => exact fun waits => (doorRetest_cmd hc).trans (if_pos waits)
  case waits => exact fun waits => (doorRetest_cmd hc).trans (if_neg waits)
  case forbidden => simp only [doorForbidden_iff, blocksZone_iff]

/-! ## A door command taken (R145, R150) -/

section
variable {d : Door} {g : Goal} {o : Owner} {c : DoorCmd} {s : State}

theorem stopDoor_idle (h : (s.door d).cmd = none) : stopDoor d s = s := by
  unfold stopDoor; simp only [h]

theorem stopDoor_cmd (h : (s.door d).cmd = some c) : stopDoor d s = dropClaim (.door d) (s.setDoor d { s.door d with
    state := if s.limit d .closed = true ∧ s.limit d .opened = true then .unknown
      else if c.driving then .stopped else (s.door d).state
    cmd := none, travelStart := none }) := by
  unfold stopDoor
  simp only [h]
  exact endDoorCmd_eq _

/-- A door command as it is taken: WAITING, its claim not made, with the definition then in force (R133). -/
def freshDoorCmd (d : Door) (g : Goal) (o : Owner) (s : State) : DoorCmd :=
  { owner := o, goal := g, arrival := s.tb.elapsed, deadline := s.tb.elapsed + (s.stg.doorDefs.get d).wait,
    travelMs := (s.stg.doorDefs.get d).travel * 1000, claimed := false, driving := false }

/-- The command held is superseded by the fresh one. -/
def doorSuperseded (d : Door) (g : Goal) (o : Owner) (s : State) : State :=
  (stopDoor d s).setDoor d { (stopDoor d s).door d with goal := some g, cmd := some (freshDoorCmd d g o s) }

theorem doorSuperseded_cmd : ((doorSuperseded d g o s).door d).cmd = some (freshDoorCmd d g o s) := by
  unfold doorSuperseded; rw [door_setDoor_self]

theorem takeDoor_atGoal (h : atGoal (s.door d).state g = true) :
    takeDoor d g o s = (stopDoor d s).setDoor d { (stopDoor d s).door d with goal := some g } := if_pos h

theorem takeDoor_passesOn (h : atGoal (s.door d).state g = false) (hc : (s.door d).cmd = some c)
    (driving : c.driving = true) (goal : c.goal = g) : takeDoor d g o s =
    s.setDoor d { s.door d with cmd := some { freshDoorCmd d g o s with claimed := true, driving := true } } := by
  refine (if_neg (by simp [h])).trans ?_
  simp only [hc]
  exact if_pos ⟨driving, goal⟩

/-- A fresh command waits on the interlock, or makes its claim. -/
theorem takeDoor_begins (h : atGoal (s.door d).state g = false)
    (fresh : ∀ c, (s.door d).cmd = some c → c.driving = false ∨ c.goal ≠ g) : takeDoor d g o s =
    if g = .closed ∧ doorForbidden (doorSuperseded d g o s).stg d = true then doorSuperseded d g o s
    else claimDoor d (doorSuperseded d g o s) := by
  refine (if_neg (by simp [h])).trans ?_
  split
  next c hc =>
    refine if_neg ?_
    rintro ⟨driving, goal⟩
    exact (fresh c hc).elim (fun off => absurd (driving.symm.trans off) nofun) (absurd goal)
  next hc =>
    unfold doorSuperseded
    rw [stopDoor_idle hc]
    rfl

theorem takeDoor_waits (h : atGoal (s.door d).state g = false)
    (fresh : ∀ c, (s.door d).cmd = some c → c.driving = false ∨ c.goal ≠ g)
    (forbidden : g = .closed ∧ doorForbidden (doorSuperseded d g o s).stg d = true) :
    takeDoor d g o s = doorSuperseded d g o s := (takeDoor_begins h fresh).trans (if_pos forbidden)

theorem takeDoor_claims (h : atGoal (s.door d).state g = false)
    (fresh : ∀ c, (s.door d).cmd = some c → c.driving = false ∨ c.goal ≠ g)
    (permitted : g = .opened ∨ doorForbidden (doorSuperseded d g o s).stg d = false) :
    takeDoor d g o s = claimDoor d (doorSuperseded d g o s) := by
  refine (takeDoor_begins h fresh).trans (if_neg ?_)
  rintro ⟨rfl, forbidden⟩
  exact permitted.elim nofun fun free => absurd (forbidden.symm.trans free) nofun

end

/-! ## The grant (R145, R146) -/

section
variable {d : Door} {c : DoorCmd} {s : State}

theorem doorGranted_starts (hc : (s.door d).cmd = some c) (waiting : c.driving = false) (claimed : c.claimed = true)
    (permitted : c.goal = .opened ∨ doorForbidden s.stg d = false) : doorGranted d s = s.setDoor d { s.door d with
      state := (match c.goal with | .opened => .opening | .closed => .closing)
      cmd := some { c with driving := true }, travelStart := some s.tb.elapsed, travelMs := c.travelMs } := by
  have free : ¬(c.goal == .closed && doorForbidden s.stg d) = true := by
    rcases permitted with h | h <;> simp [h]
  unfold doorGranted
  simp only [hc, waiting, claimed]
  exact (if_neg (by decide)).trans (if_neg free)

theorem doorGranted_forbidden (hc : (s.door d).cmd = some c) (waiting : c.driving = false) (claimed : c.claimed = true)
    (closing : c.goal = .closed) (forbidden : doorForbidden s.stg d = true) : doorGranted d s =
    let u : State := { s with dbu.claims := dropKey (.door d) s.dbu.claims }
    match c.owner with
    | .run _ => u.setDoor d { s.door d with cmd := some { c with claimed := false } }
    | .host => raise (.doorFault d .interlock) (u.setDoor d { s.door d with cmd := none }) := by
  unfold doorGranted
  simp only [hc, waiting, claimed, closing, forbidden]
  rfl

end

/-! ## DOOR-MOVE (R151) -/

section
variable {d : Door} {g : Goal} {s : State}

theorem doorMove_badValue {door : Nat} {goal : Coded Goal} (h : 4 ≤ s.hlc.step)
    (hb : 2 ≤ door ∨ ∃ k, goal = .other k) :
    exec (.doorMove door goal) s = .next (reply 0x5B#8 .badValue .none s) := by
  refine congrArg _ ((gated_at (by decide) h).trans ?_)
  rcases hb with hb | ⟨k, rfl⟩
  · rw [toFin_ge hb]
  · cases toFin 2 door <;> rfl

theorem doorMove_inRange (h : 4 ≤ s.hlc.step) : exec (.doorMove d.val (.val g)) s = .next (
    if s.run .M = none then settle (hostDoor d g s) else reply 0x5B#8 .notNow .none s) := by
  refine congrArg _ ((gated_at (by decide) h).trans ?_)
  rw [toFin_val]
  simp only [laneIdle_iff]

theorem hostDoor_eq : hostDoor d g s =
    if atGoal (s.door d).state g then reply 0x5B#8 .ok .none (takeDoor d g .host s)
    else if g = .closed ∧ doorForbidden s.stg d = true then reply 0x5B#8 .inUse .none s
    else reply 0x5B#8 (if ((takeDoor d g .host s).door d).cmd.isSome then .ok else .full) .none
      (takeDoor d g .host s) := rfl

end

/-- Settles O47: DOOR-MOVE, the command taken, the drive stopped, and the grant. -/
theorem doorMoves : Obligations.DoorMoves := by
  refine ⟨fun s h => ⟨fun door goal => doorMove_badValue h, fun d goal busy => ?busy, fun d goal idle => ?idle⟩,
    fun d g o s => ⟨takeDoor_atGoal, fun away => ⟨fun c => takeDoor_passesOn away, fun fresh => ?fresh⟩⟩,
    fun d s => ⟨stopDoor_idle, fun c => stopDoor_cmd, fun c hc waiting claimed =>
      ⟨doorGranted_starts hc waiting claimed, doorGranted_forbidden hc waiting claimed⟩⟩⟩
  case busy => exact (doorMove_inRange h).trans (congrArg _ (if_neg busy))
  case idle =>
    have served : exec (.doorMove d.val (.val goal)) s = .next (settle (hostDoor d goal s)) :=
      (doorMove_inRange h).trans (congrArg _ (if_pos idle))
    rw [served, hostDoor_eq]
    refine ⟨fun there => ?_, fun away closing forbidden => ?_, fun away permitted => ?_⟩
    · rw [if_pos there]
    · rw [if_neg (by simp [away]), if_pos ⟨closing, forbidden⟩]
    · rw [if_neg (by simp [away]), if_neg (by rcases permitted with h | h <;> simp [h])]
  case fresh =>
    refine ⟨takeDoor_waits away fresh, fun permitted => ?_⟩
    have claims := takeDoor_claims (o := o) away fresh permitted
    refine ⟨fun taken => ?_, fun refused => ?_⟩
    · exact claims.trans (claimDoor_taken doorSuperseded_cmd taken)
    · exact claims.trans (claimDoor_refused doorSuperseded_cmd refused)

end Sys2Proof.Machine
end

