-- ==== Sys2Proof/Proofs/Turntable.lean ====
section
/-! PROOF. The turntable: TURN-HOME and TURN-MOVE, the command they make, its grant, and the turntable's events (R147 to
R149, R151). -/
namespace Sys2Proof.Machine

/-! ## A turn command's claim and its end (R148, R150) -/

section
variable {g : TurnGoal} {o : Owner} {c : TurnCmd} {s : State}

/-- A command that has not had its units ends: a cue fault of its run, or TURNTABLE_FAULT for the host's. -/
def turnUnserved (o : Owner) (s : State) : State :=
  match o with
  | .run cue => cueFault .M .turnBlocked cue none none s
  | .host => raise (.turntableFault .noUnits) s

theorem claimTurn_taken (h : s.stg.turn.cmd = some c)
    (ha : claimAnswer (.turntable c.goal) s.stg.turnDef.units s = .taken) : claimTurn s =
    makeClaim (.turntable c.goal) s.stg.turnDef.units
      (s.setTurn { s.stg.turn with cmd := some { c with claimed := true } }) := by
  unfold claimTurn
  simp only [h, ha]

theorem claimTurn_refused (h : s.stg.turn.cmd = some c)
    (ha : claimAnswer (.turntable c.goal) s.stg.turnDef.units s ≠ .taken) :
    claimTurn s = turnUnserved c.owner (s.setTurn { s.stg.turn with cmd := none }) := by
  unfold claimTurn
  simp only [h]
  split
  next taken => exact absurd taken ha
  all_goals
    unfold turnUnserved
    cases c.owner <;> rfl

theorem turnTimesOut_eq : turnTimesOut c s =
    turnUnserved c.owner (endTurnCmd s.stg.turn.state s.stg.turn.count s) := by
  unfold turnTimesOut turnUnserved
  cases c.owner <;> rfl

theorem stopTurn_idle (h : s.stg.turn.cmd = none) : stopTurn s = s := by
  unfold stopTurn; simp only [h]

theorem stopTurn_cmd (h : s.stg.turn.cmd = some c) : stopTurn s = dropClaim .turntable (s.setTurn { s.stg.turn with
    state := if c.driving then .stopped else s.stg.turn.state, cmd := none, stepping := none }) := by
  unfold stopTurn
  simp only [h]
  rfl

/-! ## A turn command taken (R148) -/

/-- A turn command as it is taken: WAITING, its claim not made, with the definition then in force (R133). -/
def freshTurnCmd (g : TurnGoal) (o : Owner) (s : State) : TurnCmd :=
  { owner := o, goal := g, arrival := s.tb.elapsed, deadline := s.tb.elapsed + s.stg.turnDef.wait
    limit := s.stg.turnDef.perPosition, claimed := false, driving := false }

/-- The command held is superseded by the fresh one. -/
def turnSuperseded (g : TurnGoal) (o : Owner) (s : State) : State :=
  (stopTurn s).setTurn { (stopTurn s).stg.turn with goal := some g, cmd := some (freshTurnCmd g o s) }

theorem turnSuperseded_cmd : (turnSuperseded g o s).stg.turn.cmd = some (freshTurnCmd g o s) := rfl

theorem takeTurn_fault (h : s.stg.turn.state = .fault) (hg : g ≠ .home) :
    takeTurn g o s = ownerFault o .turnFault none none s := if_pos ⟨h, hg⟩

theorem not_refusedInFault (h : s.stg.turn.state ≠ .fault ∨ g = .home) :
    ¬(s.stg.turn.state = .fault ∧ g ≠ .home) := by
  rintro ⟨fault, away⟩
  exact h.elim (absurd fault) away

theorem takeTurn_atGoal (h : s.stg.turn.state ≠ .fault ∨ g = .home) (there : turnAtGoal s.stg.turn.state g = true) :
    takeTurn g o s = (stopTurn s).setTurn { (stopTurn s).stg.turn with goal := some g } :=
  (if_neg (not_refusedInFault h)).trans (if_pos there)

theorem takeTurn_passesOn (h : s.stg.turn.state ≠ .fault ∨ g = .home) (away : turnAtGoal s.stg.turn.state g = false)
    (hc : s.stg.turn.cmd = some c) (driving : c.driving = true) (goal : c.goal = g) : takeTurn g o s =
    s.setTurn { s.stg.turn with cmd := some { freshTurnCmd g o s with claimed := true, driving := true } } := by
  refine (if_neg (not_refusedInFault h)).trans ((if_neg (by simp [away])).trans ?_)
  simp only [hc]
  exact if_pos ⟨driving, goal⟩

/-- A fresh command waits on the interlock, or makes its claim. -/
theorem takeTurn_begins (h : s.stg.turn.state ≠ .fault ∨ g = .home) (away : turnAtGoal s.stg.turn.state g = false)
    (fresh : ∀ c, s.stg.turn.cmd = some c → c.driving = false ∨ c.goal ≠ g) : takeTurn g o s =
    if turnPermitted (turnSuperseded g o s).stg then claimTurn (turnSuperseded g o s) else turnSuperseded g o s := by
  refine (if_neg (not_refusedInFault h)).trans ((if_neg (by simp [away])).trans ?_)
  split
  next c hc =>
    refine if_neg ?_
    rintro ⟨driving, goal⟩
    exact (fresh c hc).elim (fun off => absurd (driving.symm.trans off) nofun) (absurd goal)
  next hc =>
    unfold turnSuperseded
    rw [stopTurn_idle hc]
    rfl

end

/-! ## The drive starts (R147 to R149) -/

section
variable {c : TurnCmd} {p k : Fin 12} {dir : TurnDir} {spin : Spin} {s : State}

theorem stepsIn_eq_zero_iff : stepsIn spin k p = 0 ↔ p = k := by
  rw [Fin.ext_iff]
  cases spin <;> simp only [stepsIn] <;> omega

/-- The drive homes for HOME, while UNHOMED and without a count. -/
theorem turnStart_homes (h : c.goal = .home ∨ s.stg.turn.count = none ∨ s.stg.turn.state = .unhomed) :
    turnStart c s = s.setTurn { s.stg.turn with
      state := .homing, lastDir := .cw, side := .cw, cmd := some { c with driving := true }
      stepping := some (startStepping c.limit .cw false s) } := by
  unfold turnStart
  dsimp only
  split
  next => rfl
  next => rfl
  next p dir k hg hk => exact if_pos ((h.resolve_left (by simp [hg])).resolve_left (by simp [hk]))

theorem turnStart_to (hg : c.goal = .to p dir) (hk : s.stg.turn.count = some k) (hu : s.stg.turn.state ≠ .unhomed) :
    turnStart c s =
      if p = k then { s.setTurn { s.stg.turn with state := .at p, cmd := none, stepping := none } with
        dbu.claims := dropKey .turntable s.dbu.claims }
      else s.setTurn { s.stg.turn with
        state := .turning, lastDir := spinOf dir k p
        side := if s.stg.turn.state = .stopped then s.stg.turn.side else spinOf dir k p
        cmd := some { c with driving := true }
        stepping := some (startStepping c.limit (spinOf dir k p)
          (decide (s.stg.turn.state = .stopped ∧ s.stg.turn.side ≠ spinOf dir k p)) s) } := by
  unfold turnStart
  simp only [hg, hk, if_neg hu, stepsIn_eq_zero_iff, ← Bool.decide_and]
  rfl

theorem turnGranted_starts (hc : s.stg.turn.cmd = some c) (waiting : c.driving = false) (claimed : c.claimed = true)
    (permitted : turnPermitted s.stg = true) : turnGranted s = turnStart c s := by
  unfold turnGranted
  simp only [hc, waiting, claimed, permitted]
  rfl

theorem turnGranted_forbidden (hc : s.stg.turn.cmd = some c) (waiting : c.driving = false) (claimed : c.claimed = true)
    (forbidden : turnPermitted s.stg = false) : turnGranted s =
    let u : State := { s with dbu.claims := dropKey .turntable s.dbu.claims }
    match c.owner with
    | .run _ => u.setTurn { s.stg.turn with cmd := some { c with claimed := false } }
    | .host => raise (.turntableFault .interlock) (u.setTurn { s.stg.turn with cmd := none }) := by
  unfold turnGranted
  simp only [hc, waiting, claimed, forbidden]
  rfl

end

/-! ## TURN-HOME and TURN-MOVE (R151) -/

section
variable {p : Fin 12} {dir : TurnDir} {k : Byte} {g : TurnGoal} {s : State}

theorem turnMove_badValue {position : Nat} {dir : Coded TurnDir} (h : 4 ≤ s.hlc.step)
    (hb : 12 ≤ position ∨ ∃ k, dir = .other k) :
    exec (.turnMove position dir) s = .next (reply 0x5E#8 .badValue .none s) := by
  refine congrArg _ ((gated_at (by decide) h).trans ?_)
  rcases hb with hb | ⟨k, rfl⟩
  · rw [toFin_ge hb]
  · cases toFin 12 position <;> rfl

theorem turnMove_inRange (h : 4 ≤ s.hlc.step) : exec (.turnMove p.val (.val dir)) s = .next (
    if s.run .M = none then settle (hostTurn 0x5E#8 (.to p dir) s) else reply 0x5E#8 .notNow .none s) := by
  refine congrArg _ ((gated_at (by decide) h).trans ?_)
  rw [toFin_val]
  simp only [laneIdle_iff]

theorem turnHome_eq (h : 4 ≤ s.hlc.step) : exec .turnHome s = .next (
    if s.run .M = none then settle (hostTurn 0x5D#8 .home s) else reply 0x5D#8 .notNow .none s) := by
  refine congrArg _ ((gated_at (by decide) h).trans ?_)
  simp only [laneIdle_iff]

theorem hostTurn_sound (h : s.stg.turn.state ≠ .fault ∨ g = .home) : hostTurn k g s =
    if turnAtGoal s.stg.turn.state g then reply k .ok .none (takeTurn g .host s)
    else if turnPermitted s.stg = false then reply k .inUse .none s
    else reply k (if (takeTurn g .host s).stg.turn.cmd.isSome ||
      turnAtGoal (takeTurn g .host s).stg.turn.state g then .ok else .full) .none (takeTurn g .host s) :=
  if_neg (not_refusedInFault h)

end

/-- Settles O48: the requests, the command taken and its claim, the drive stopped, the grant, and its start. -/
theorem turnRequests : Obligations.TurnRequests := by
  refine ⟨fun s h => ⟨fun position dir => turnMove_badValue h, fun p dir busy => ?busy, fun p dir idle => ?idle,
      fun k g => ⟨fun fault away => if_pos ⟨fault, away⟩, fun sound => ?host⟩⟩,
    fun g o s => ⟨takeTurn_fault, fun sound => ⟨takeTurn_atGoal sound, fun away =>
      ⟨fun c => takeTurn_passesOn sound away, fun fresh => ?fresh⟩⟩⟩,
    fun c s hc => ⟨claimTurn_taken hc, claimTurn_refused hc⟩,
    fun s => ⟨stopTurn_idle, fun c hc => ⟨stopTurn_cmd hc, fun waiting claimed =>
      ⟨turnGranted_starts hc waiting claimed, turnGranted_forbidden hc waiting claimed⟩⟩⟩,
    fun c s => ⟨turnStart_homes, fun p dir k hg hk hu => ?turns⟩⟩
  case busy => rw [turnMove_inRange h, turnHome_eq h, if_neg busy, if_neg busy]; exact ⟨rfl, rfl⟩
  case idle => rw [turnMove_inRange h, turnHome_eq h, if_pos idle, if_pos idle]; exact ⟨rfl, rfl⟩
  case host =>
    rw [hostTurn_sound sound]
    refine ⟨fun there => if_pos there, fun away forbidden => ?_, fun away permitted => ?_⟩
    · rw [if_neg (by simp [away]), if_pos forbidden]
    · rw [if_neg (by simp [away]), if_neg (by simp [permitted])]
  case fresh =>
    have begins := takeTurn_begins (o := o) sound away fresh
    refine ⟨fun forbidden => begins.trans (if_neg (Bool.eq_false_iff.1 forbidden)), fun permitted => ?_⟩
    have claims := begins.trans (if_pos permitted)
    exact ⟨fun taken => claims.trans (claimTurn_taken turnSuperseded_cmd taken),
      fun refused => claims.trans (claimTurn_refused turnSuperseded_cmd refused)⟩
  case turns =>
    intro cw ccw spin
    have way : spinOf dir k p = spin := by cases dir <;> rfl
    have starts := turnStart_to (c := c) hg hk hu
    rw [way] at starts
    exact ⟨fun there => starts.trans (if_pos there), fun away => starts.trans (if_neg away)⟩

/-! ## The inputs of the turntable (R147, R154, R155; log entries 30 and 31) -/

section
variable {v : Bool} {s : State}

/-- The filtered level of one of the further inputs set, and its samples with it. -/
def miscPut (i : Nat) (v : Bool) (s : State) : State := { s with inm.misc := s.inm.misc.putBit i v }

theorem tableIndexEdge_acts (hf : s.inm.fresh = false) (h : s.inm.misc.level.getLsbD 1 ≠ v) :
    tableIndexEdge v s = indexEdge (miscPut 1 v s) := by
  refine if_neg ?_
  change ¬(s.inm.fresh || s.inm.misc.level.getLsbD 1 == v) = true
  rw [hf, beq_eq_false_iff_ne.2 h]
  decide

theorem tableIndexEdge_silent (h : s.inm.fresh = true ∨ s.inm.misc.level.getLsbD 1 = v) :
    tableIndexEdge v s = miscPut 1 v s := by
  refine if_pos ?_
  change (s.inm.fresh || s.inm.misc.level.getLsbD 1 == v) = true
  rw [Bool.or_eq_true, beq_iff_eq]
  exact h

/-- The home input acts at its rise. -/
theorem tableHomeEdge_rises (hf : s.inm.fresh = false) (h : s.inm.misc.level.getLsbD 2 = false) (hv : v = true) :
    tableHomeEdge v s = homeEdge (miscPut 2 v s) := by
  refine if_neg ?_
  change ¬(s.inm.fresh || s.inm.misc.level.getLsbD 2 == v || !v) = true
  rw [hf, h, hv]
  decide

theorem tableHomeEdge_silent (h : s.inm.fresh = true ∨ s.inm.misc.level.getLsbD 2 = true ∨ v = false) :
    tableHomeEdge v s = miscPut 2 v s := by
  refine if_pos ?_
  change (s.inm.fresh || s.inm.misc.level.getLsbD 2 == v || !v) = true
  rcases h with h | h | rfl
  · rw [h]; rfl
  · rw [h]; cases v <;> simp
  · exact Bool.or_true _

end

/-! ## The index edges and the home edge (R147; log entry 30) -/

section
variable {w : Stepping} {c : TurnCmd} {p k : Fin 12} {dir : TurnDir} {s : State}

theorem indexEdge_still (h : s.stg.turn.stepping = none) : indexEdge s = s := by
  unfold indexEdge; simp only [h]

theorem homeEdge_still (h : s.stg.turn.stepping = none) : homeEdge s = s := by
  unfold homeEdge
  dsimp only
  split
  next w c hw hc => exact absurd (h.symm.trans hw) nofun
  next => rfl

/-- While homing an index edge is counted, and the 13th ends the homing. -/
theorem indexEdge_homing (hw : s.stg.turn.stepping = some w) (hs : s.stg.turn.state = .homing) : indexEdge s =
    if w.edges = 12 then turnFails .noHome s
    else s.setTurn { s.stg.turn with
      stepping := some { w with edges := w.edges + 1, edgeBy := s.tb.elapsed + w.limit } } := by
  unfold indexEdge
  simp only [hw, hs, Nat.reduceEqDiff]

/-- The first edge after a reversal is that of the position counted already. -/
theorem indexEdge_skips (hw : s.stg.turn.stepping = some w) (hs : s.stg.turn.state = .turning)
    (skip : w.skipFirst = true) : indexEdge s = s.setTurn { s.stg.turn with
      side := w.spin, stepping := some { w with skipFirst := false, edgeBy := s.tb.elapsed + w.limit } } := by
  unfold indexEdge
  simp only [hw, hs, skip, if_true]

theorem indexEdge_turning (hw : s.stg.turn.stepping = some w) (hs : s.stg.turn.state = .turning)
    (counts : w.skipFirst = false) (hk : s.stg.turn.count = some k) (hc : s.stg.turn.cmd = some c)
    (hg : c.goal = .to p dir) {n : Fin 12} (hn : nextPosition w.spin k = n) : indexEdge s =
    if n = p then endTurnCmd (.at p) (some n) (s.setTurn { s.stg.turn with side := w.spin })
    else s.setTurn { s.stg.turn with
      side := w.spin, count := some n, stepping := some { w with edgeBy := s.tb.elapsed + w.limit } } := by
  subst hn
  obtain ⟨o, goal, arrival, deadline, limit, claimed, driving⟩ := c
  obtain rfl : goal = .to p dir := hg
  unfold indexEdge
  simp only [hw, hs, counts, hk, hc, Option.map_some]
  rfl

/-- A HOME command ends at the home edge; a turn goes on from position 0, or ends there. -/
theorem homeEdge_home (hw : s.stg.turn.stepping = some w) (hs : s.stg.turn.state = .homing)
    (hc : s.stg.turn.cmd = some c) (hg : c.goal = .home) : homeEdge s = endTurnCmd (.at 0) (some 0) s := by
  unfold homeEdge
  simp only [hw, hs, hc, hg]

theorem homeEdge_to (hw : s.stg.turn.stepping = some w) (hs : s.stg.turn.state = .homing)
    (hc : s.stg.turn.cmd = some c) (hg : c.goal = .to p dir) : homeEdge s =
    if p = 0 then endTurnCmd (.at p) (some 0) s
    else s.setTurn { s.stg.turn with
      state := .turning, count := some 0, lastDir := spinOf dir 0 p, side := spinOf dir 0 p
      stepping := some { w with spin := spinOf dir 0 p, skipFirst := false } } := by
  unfold homeEdge
  simp only [hw, hs, hc, hg, stepsIn_eq_zero_iff]

end

/-! ## The drive that fails, the deadline and the interlock (R147 to R149) -/

section
variable {w : Stepping} {c : TurnCmd} {k : TurnFault} {s : State}

theorem turnIndexTimeout_fails (h : s.stg.turn.stepping = some w) (late : w.edgeBy ≤ s.tb.elapsed) :
    exec .turnIndexTimeout s = .next (settle (turnFails .missingIndex s)) := by
  have passed : indexOver s = true := by
    rw [indexOver_eq, h]
    exact decide_eq_true late
  exact congrArg Host.Outcome.next (whenDue_true passed)

theorem turnFails_idle (h : s.stg.turn.cmd = none) :
    turnFails k s = raise (.turntableFault k) (endTurnCmd .fault none s) := by
  unfold turnFails; rw [h]

theorem turnFails_cmd (h : s.stg.turn.cmd = some c) : turnFails k s =
    ownerFault c.owner .turnFault none none (raise (.turntableFault k) (endTurnCmd .fault none s)) := by
  unfold turnFails; rw [h]

theorem turnDeadline_ends (h : s.stg.turn.cmd = some c) (waiting : c.driving = false)
    (due : c.deadline ≤ s.tb.elapsed) : exec .turnDeadline s =
    .next (settle (turnUnserved c.owner (endTurnCmd s.stg.turn.state s.stg.turn.count s))) := by
  have overdue : turnOverdue s = some c := by
    unfold turnOverdue
    simp only [h]
    exact if_pos ⟨waiting, due⟩
  show execTurnDeadline s = _
  unfold execTurnDeadline
  rw [overdue, ← turnTimesOut_eq]

theorem turnInterlockStop_cmd (h : s.stg.turn.cmd = some c) : turnInterlockStop s =
    if c.driving = true ∧ turnPermitted s.stg = false then
      ownerFault c.owner .turnBlocked none none
        (raise (.turntableFault .interlock) (endTurnCmd .stopped s.stg.turn.count s))
    else s := by
  unfold turnInterlockStop; simp only [h]

theorem turnRetest_cmd (h : s.stg.turn.cmd = some c) : turnRetest s =
    if c.driving = false ∧ c.claimed = false ∧ turnPermitted s.stg = true ∧ s.tb.elapsed < c.deadline then claimTurn s
    else s := by
  unfold turnRetest; simp only [h, Bool.not_eq_true']

theorem riderHome_iff (d : FigDef) (r : FigRec) :
    riderHome d r = true ↔ r.state = .idle ∧ ∃ p, r.report = some p ∧ p.position = d.home := by
  unfold riderHome
  cases r.report <;> simp

theorem turnPermitted_iff (g : STG) : turnPermitted g = true ↔
    ∀ f, (g.figDefs.get f).rides = true → riderHome (g.figDefs.get f) (g.figs.get f) = true := by
  simp only [turnPermitted, List.all_eq_true, List.mem_finRange, true_imp_iff, Bool.or_eq_true, Bool.not_eq_true',
    ← Bool.not_eq_true, ← imp_iff_not_or]

end

/-- Settles O51: the edges of the two inputs, a missing index, the deadline, and the interlock. -/
theorem turntableEvents : Obligations.TurntableEvents := by
  refine ⟨fun v s => ⟨rfl, rfl, tableIndexEdge_acts, tableIndexEdge_silent, tableHomeEdge_rises, tableHomeEdge_silent⟩,
    fun s => ⟨fun st n => rfl, fun still => ⟨indexEdge_still still, homeEdge_still still⟩,
      fun w hw => ⟨fun homing => ?homing, fun turning => ?turning, turnIndexTimeout_fails hw⟩,
      fun k => ⟨turnFails_idle, fun c => turnFails_cmd⟩,
      fun c hc waiting due => turnDeadline_ends hc waiting due,
      fun c hc => ⟨fun driving left => (turnInterlockStop_cmd hc).trans (if_pos ⟨driving, left⟩), ?goesOn,
        fun waits => (turnRetest_cmd hc).trans (if_pos waits), fun waits => (turnRetest_cmd hc).trans (if_neg waits)⟩,
      ?permitted⟩⟩
  case homing =>
    have edge := indexEdge_homing hw homing
    refine ⟨fun last => edge.trans (if_pos last), fun more => edge.trans (if_neg more), fun c hc =>
      ⟨fun hg => homeEdge_home hw homing hc hg, fun p dir hg => ?_⟩⟩
    have home := homeEdge_to hw homing hc hg
    exact ⟨fun there => home.trans (if_pos there), fun away => home.trans (if_neg away)⟩
  case turning =>
    refine ⟨fun skip => indexEdge_skips hw turning skip, fun k c p dir counts hk hc hg => ?_⟩
    intro n
    have next : nextPosition w.spin k = n := by cases hs : w.spin <;> simp [nextPosition, n, hs]
    have edge := indexEdge_turning hw turning counts hk hc hg next
    exact ⟨fun there => (edge.trans (if_pos there)).trans (by rw [there]), fun away => edge.trans (if_neg away)⟩
  case goesOn =>
    refine fun h => (turnInterlockStop_cmd hc).trans (if_neg ?_)
    rintro ⟨driving, left⟩
    rcases h with off | permitted
    · exact absurd (driving.symm.trans off) nofun
    · exact absurd (permitted.symm.trans left) nofun
  case permitted => simp only [turnPermitted_iff, riderHome_iff]; rfl

end Sys2Proof.Machine
end

