-- ==== Sys2Proof/Proofs/FigureRequests.lean ====
section
/-! PROOF. FIG-STATUS, DOOR-STATUS and TURN-STATUS, FIG-CLEAR and FIG-HOME, and how a homing begins (R142, R143,
R152). -/
namespace Sys2Proof.Machine

/-! ## The grounds of refusal (R142) -/

section
variable {f : Fig} {s : State}

/-- A door that the figure crosses closes, or the turntable that it rides turns or homes. -/
def figBarred (f : Fig) (s : State) : Bool :=
  (match (s.figDef f).crossing with | some c => (s.door c.door).state == .closing | none => false) ||
    ((s.figDef f).rides && (s.stg.turn.state == .turning || s.stg.turn.state == .homing))

theorem figBarred_iff : figBarred f s = true ↔
    (∃ c, (s.figDef f).crossing = some c ∧ (s.door c.door).state = .closing) ∨
      ((s.figDef f).rides = true ∧ (s.stg.turn.state = .turning ∨ s.stg.turn.state = .homing)) := by
  unfold figBarred
  cases (s.figDef f).crossing <;> simp

theorem figRefusal_laneM (h : s.run .M ≠ none) : figRefusal f s = some .notNow :=
  if_pos (by rw [← Bool.not_eq_true, laneIdle_iff]; exact h)

theorem figRefusal_idle (h : s.run .M = none) : figRefusal f s =
    if (s.fig f).state = .unbound then some .notFound
    else if (s.fig f).state = .staged ∨ (s.fig f).state = .moving ∨ (s.node (s.figAddress f)).state = .silent then
      some .notNow
    else if figBarred f s then some .inUse
    else none :=
  if_neg (by rw [laneIdle_iff.2 h]; decide)

end

/-! ## A transaction of the Stage Controller's own (R124, R129) -/

section
variable {k : LinkKind} {a : Fin 16} {data : List Byte} {o : TxnOwner} {s : State}

/-- A transaction arrives at the link, and its owner is told where it is refused or fails at once. -/
def sendTxn (k : LinkKind) (a : Fin 16) (data : List Byte) (o : TxnOwner) (s : State) : State :=
  match linkAnswer s with
  | .queued => enqueue k a data o s
  | .full => linkRefused o (enqueue k a data o s)
  | .stuck => linkFailed o .lineStuck (enqueue k a data o s)

theorem sendTxn_entered (h : linkAnswer s = .queued) : sendTxn k a data o s = enqueue k a data o s := by
  unfold sendTxn; rw [h]

theorem sendTxn_refused (h : linkAnswer s = .full) :
    sendTxn k a data o s = linkRefused o (enqueue k a data o s) := by
  unfold sendTxn; rw [h]

theorem sendTxn_failed (h : linkAnswer s = .stuck) : sendTxn k a data o s = linkFailed o .lineStuck s := by
  have kept : enqueue k a data o s = s := by unfold enqueue; rw [h]
  unfold sendTxn
  rw [h, kept]

theorem sendTxn_queued (free : s.flc.stuck = false) (room : s.flc.queue.length < 8) :
    sendTxn k a data o s = pushTxn (newTxn k a data o s) s :=
  (sendTxn_entered (linkAnswer_queued free room)).trans (enqueue_queued free room)

theorem sendTxn_full (free : s.flc.stuck = false) (full : 8 ≤ s.flc.queue.length) :
    sendTxn k a data o s = linkRefused o (countLink (fun c => { c with full := satInc c.full }) s) :=
  (sendTxn_refused (linkAnswer_full free full)).trans (congrArg _ (enqueue_full free full))

theorem sendTxn_stuck (stuck : s.flc.stuck = true) : sendTxn k a data o s = linkFailed o .lineStuck s :=
  sendTxn_failed (linkAnswer_stuck stuck)

end

/-! ## FIG-CLEAR (R142) -/

section
variable {f : Fig} {s : State}

theorem figClear_badValue {figure : Nat} (h : 4 ≤ s.hlc.step) (hf : 12 ≤ figure) :
    exec (.figClear figure) s = .next (reply 0x59#8 .badValue .none s) := by
  refine congrArg _ ((gated_at (by decide) h).trans ?_)
  rw [toFin_ge hf]

theorem figClear_refused {st : Status} (h : 4 ≤ s.hlc.step) (hr : figRefusal f s = some st) :
    exec (.figClear f.val) s = .next (reply 0x59#8 st .none s) := by
  refine congrArg _ ((gated_at (by decide) h).trans ?_)
  simp only [toFin_val, hr]

/-- The figure's position is unknown, and what it was about is forgotten. -/
def figForgotten (f : Fig) (s : State) : State :=
  s.setFig f { s.fig f with state := .unknown, move := none, homing := none, interrupted := none }

theorem clearFig_eq : clearFig f s =
    sendTxn .clear (s.figAddress f) [] (.figClear f (replyTag 0x59#8 s)) (figForgotten f s) := rfl

theorem figClear_clears (h : 4 ≤ s.hlc.step) (hr : figRefusal f s = none) : exec (.figClear f.val) s =
    .next (settle (sendTxn .clear (s.figAddress f) [] (.figClear f (replyTag 0x59#8 s)) (figForgotten f s))) := by
  refine congrArg _ ((gated_at (by decide) h).trans ?_)
  simp only [toFin_val, hr, clearFig_eq]

end

/-! ## FIG-HOME, and a homing that is accepted (R143) -/

section
variable {f : Fig} {allowed : Nat} {s : State}

theorem figHome_badValue {figure : Nat} (h : 4 ≤ s.hlc.step)
    (hb : 12 ≤ figure ∨ allowed < 200 ∨ 60000 < allowed) :
    exec (.figHome figure allowed) s = .next (reply 0x5A#8 .badValue .none s) := by
  refine congrArg _ ((gated_at (by decide) h).trans ?_)
  split
  next => rfl
  next f hf =>
    refine if_pos ?_
    obtain rfl := toFin_eq_some.1 hf
    rw [Bool.not_eq_true', ← Bool.not_eq_true, within_iff]
    have := f.isLt
    omega

theorem figHome_inRange (h : 4 ≤ s.hlc.step) (low : 200 ≤ allowed) (high : allowed ≤ 60000) :
    exec (.figHome f.val allowed) s = .next (
      match figRefusal f s with
      | some st => reply 0x5A#8 st .none s
      | none =>
        if claimAnswer (.figures (.homing f) .host []) (s.figDef f).units s = .taken then
          settle (reply 0x5A#8 .ok .none (beginHome f allowed s))
        else reply 0x5A#8 .full .none s) := by
  refine congrArg _ ((gated_at (by decide) h).trans ?_)
  rw [toFin_val]
  exact if_neg (by rw [(within_iff ..).2 ⟨low, high⟩]; decide)

/-- A homing accepted: the figure STAGED in CLEARING with its move and its homing, and its claim made. -/
def homeAccepted (f : Fig) (allowed : Nat) (s : State) : State :=
  makeClaim (.figures (.homing f) .host [{ fig := f, units := (s.figDef f).units, released := false }])
    (s.figDef f).units (s.setFig f { s.fig f with
      state := .staged, step := .clearing, interrupted := none, move := some (homeMove f allowed s)
      homing := some { allowed := allowed, startBy := s.tb.elapsed + 2000, cleared := false, queued := false,
                       arriveBy := none } })

theorem beginHome_eq : beginHome f allowed s =
    sendTxn .clear ((homeAccepted f allowed s).figAddress f) [] (.homeClear f) (homeAccepted f allowed s) := rfl

end

/-- Settles O46: the three statuses, the two requests with their refusals, the grounds, and a homing accepted. -/
theorem stageStatusAndFigureRequests : Obligations.StageStatusAndFigureRequests := by
  refine ⟨fun s h => ⟨congrArg _ (gated_at (by decide) h), congrArg _ (gated_at (by decide) h),
      congrArg _ (gated_at (by decide) h)⟩,
    fun s h => ⟨fun figure => figClear_badValue h, fun figure allowed => figHome_badValue h,
      fun f allowed st low high hr => ⟨figClear_refused h hr, ?homeRefused⟩,
      fun f hr free room => ?queued, fun f hr => ⟨fun stuck => ?stuck, fun free full => ?busy⟩,
      fun f allowed low high hr => ?home⟩,
    fun f s => ⟨figRefusal_laneM, fun idle => ?grounds, fun allowed => ?accepted⟩⟩
  case homeRefused => rw [figHome_inRange h low high, hr]
  case queued => rw [figClear_clears h hr, sendTxn_queued (s := figForgotten f s) free room]; rfl
  case stuck => rw [figClear_clears h hr, sendTxn_stuck (s := figForgotten f s) stuck]; rfl
  case busy => rw [figClear_clears h hr, sendTxn_full (s := figForgotten f s) free full]; rfl
  case home =>
    rw [figHome_inRange h low high, hr]
    exact ⟨fun taken => congrArg _ (if_pos taken), fun refused => congrArg _ (if_neg refused)⟩
  case grounds =>
    rw [figRefusal_idle idle, ← figBarred_iff]
    exact ⟨fun unbound => if_pos unbound, fun bound busy => (if_neg bound).trans (if_pos busy),
      fun bound still barred => (if_neg bound).trans ((if_neg still).trans (if_pos barred)),
      fun bound still clear => (if_neg bound).trans ((if_neg still).trans (if_neg clear))⟩
  case accepted =>
    rw [beginHome_eq]
    exact ⟨fun room => sendTxn_entered room, fun full => sendTxn_refused full,
      fun stuck => sendTxn_failed stuck⟩

end Sys2Proof.Machine
end

