-- ==== Sys2Proof/Proofs/FigureLeaving.lean ====
section
/-! PROOF. How a figure leaves its move: its report, its withdrawal, and its share of the claim (R109, R137, R143; log
entries 25, 47 and 95). -/
namespace Sys2Proof.Machine

/-! ## Claims withdrawn, and shares that go back (R109, R110) -/

section
variable {k : ClaimKey} {cs : List Claim} {s : State}

theorem hasKey_iff : hasKey k cs = true ↔ ∃ c ∈ cs, c.kind.key = k := by
  simp [hasKey]

theorem dropClaim_held (h : ∃ c ∈ s.dbu.claims, c.kind.key = k) :
    dropClaim k s = grantPass { s with dbu.claims := dropKey k s.dbu.claims } := if_pos (hasKey_iff.2 h)

theorem dropClaim_absent (h : ∀ c ∈ s.dbu.claims, ¬c.kind.key = k) : dropClaim k s = s :=
  if_neg fun held => let ⟨c, hc, hk⟩ := hasKey_iff.1 held; h c hc hk

end

section
variable {ref : MoveRef} {f : Fig} {c : Claim} {o : Owner} {sh : Share} {shares left before after : List Share}
  {u : Nat} {s : State}

theorem release_held (h : ∃ c ∈ s.dbu.claims, c.kind.key = .figures ref) : release ref f s =
    grantPass { s with dbu.claims := s.dbu.claims.filterMap (releaseShare ref f) } := if_pos (hasKey_iff.2 h)

theorem release_absent (h : ∀ c ∈ s.dbu.claims, c.kind.key ≠ .figures ref) : release ref f s = s :=
  if_neg fun held => let ⟨c, hc, hk⟩ := hasKey_iff.1 held; h c hc hk

theorem releaseShare_other (h : c.kind.key ≠ .figures ref) : releaseShare ref f c = some c := by
  unfold releaseShare
  split
  next ref' o shares hk =>
    refine if_neg ?_
    rintro rfl
    exact h (by rw [hk]; rfl)
  next => rfl

/-- The share of a GRANTED claim is released, and the claim leaves the list with its last share. -/
theorem releaseShare_granted (hk : c.kind = .figures ref o shares) (hg : c.granted = true)
    (hr : releaseIn f shares = (left, u)) : releaseShare ref f c =
    if left.all (·.released) then none else some { c with kind := .figures ref o left, units := c.units - u } := by
  unfold releaseShare
  simp only [hk, hg, hr, if_true]

/-- The share of a WAITING claim is removed from it, and the claim leaves the list at 0 units (log entry 47). -/
theorem releaseShare_waiting (hk : c.kind = .figures ref o shares) (hg : c.granted = false)
    (hr : removeShare f shares = (left, u)) : releaseShare ref f c =
    if c.units - u = 0 then none else some { c with kind := .figures ref o left, units := c.units - u } := by
  unfold releaseShare
  simp [hk, hg, hr]

theorem releaseIn_split (hf : sh.fig = f) (held : sh.released = false) (others : ∀ x ∈ before, x.fig ≠ f) :
    releaseIn f (before ++ sh :: after) = (before ++ { sh with released := true } :: after, sh.units) := by
  induction before with
  | nil => exact if_pos ⟨hf, held⟩
  | cons x before ih =>
    obtain ⟨hx, rest⟩ := List.forall_mem_cons.1 others
    rw [List.cons_append, releaseIn, if_neg fun h => hx h.1, ih rest]
    rfl

theorem removeShare_split (hf : sh.fig = f) (others : ∀ x ∈ before ++ after, x.fig ≠ f) :
    removeShare f (before ++ sh :: after) = (before ++ after, sh.units) := by
  obtain ⟨hb, ha⟩ := List.forall_mem_append.1 others
  have kept {l : List Share} (h : ∀ x ∈ l, x.fig ≠ f) : l.filter (fun x => x.fig != f) = l :=
    List.filter_eq_self.2 fun x hx => bne_iff_ne.2 (h x hx)
  have taken {l : List Share} (h : ∀ x ∈ l, x.fig ≠ f) : l.filter (fun x => x.fig == f) = [] :=
    List.filter_eq_nil_iff.2 fun x hx => by simpa using h x hx
  simp [removeShare, List.filter_append, kept hb, kept ha, taken hb, taken ha, hf]

end

/-! ## A figure's share, its report and its withdrawal (R109, R137) -/

section
variable {f : Fig} {k : CueFaultKind} {m : Move} {s : State}

theorem figRef_move {r : FigRec} (hm : r.move = some m) (hh : r.homing = none) :
    figRef f r = .move m.serial m.tag := by
  unfold figRef
  rw [hh, hm]
  rfl

theorem figRef_homing {r : FigRec} (h : r.homing ≠ none) : figRef f r = .homing f := by
  obtain ⟨x, hx⟩ := Option.ne_none_iff_exists'.1 h
  unfold figRef
  rw [hx]

theorem reportFig_move (hm : (s.fig f).move = some m) : reportFig f k s =
    if (s.fig f).state = .staged ∧ (s.fig f).step = .clearing then s else ownerFault m.owner k (some f) none s := by
  unfold reportFig
  simp only [hm]

/-- A STAGE that is still queued is withdrawn, and the figure is IDLE at once. -/
theorem withdrawFig_queued (h : ∃ t ∈ s.flc.queue, t.owner.isStage f = true) : withdrawFig f s =
    (withdrawQueued (TxnOwner.isStage f) s).setFig f { s.fig f with state := .idle, move := none } :=
  if_pos (List.any_eq_true.2 h)

theorem withdrawFig_taken (h : ∀ t ∈ s.flc.queue, t.owner.isStage f = false) : withdrawFig f s =
    enqueue .clear (s.figAddress f) [] (.withdrawn f) (s.setFig f
      (if linkAnswer s = .queued then { s.fig f with step := .clearing }
       else { s.fig f with state := .halted, move := none })) := by
  have noneQueued : ¬hasQueued (TxnOwner.isStage f) s = true := by
    rw [hasQueued, List.any_eq_true]
    rintro ⟨t, ht, stage⟩
    exact absurd (stage.symm.trans (h t ht)) nofun
  have same : withdrawQueued (TxnOwner.isStage f) s = s := by
    unfold withdrawQueued
    rw [List.filter_eq_self.2 fun t ht => by rw [h t ht]; rfl]
  refine (if_neg noneQueued).trans ?_
  rw [same]
  cases linkAnswer s <;> rfl

end

end Sys2Proof.Machine
end

