-- ==== Sys2Proof/Proofs/Moves.lean ====
section
/-! PROOF. A move taken, its GO and the GO's deadline, and the events of moves and homings (R136 to R138, R140,
R143). -/
namespace Sys2Proof.Machine

/-! ## The figures still in a move, and their GO (R138) -/

section
variable {f : Fig} {tag : Nat} {m : Move} {s : State}

/-- A figure still in the move of a tag, before its GO. -/
def FigRec.StillIn (tag : Nat) (r : FigRec) : Prop :=
  r.state = .staged ∧ r.step ≠ .clearing ∧ r.homing = none ∧ ∃ m, r.move = some m ∧ m.tag = tag

theorem mem_moveFigs_iff : f ∈ moveFigs tag s ↔ (s.fig f).StillIn tag := by
  rw [mem_moveFigs]
  simp [FigRec.StillIn, FigRec.inStaging, and_assoc]

theorem moveFigs_ascending : (moveFigs tag s).Pairwise (· < ·) := (List.pairwise_lt_finRange 12).filter _

theorem claimGranted_iff {ref : MoveRef} : claimGranted ref s = true ↔
    ∀ c ∈ s.dbu.claims, c.kind.key = .figures ref → c.granted = true := by
  simp only [claimGranted, List.all_eq_true, Bool.or_eq_true, bne_iff_ne]
  exact forall₂_congr fun c _ => by rw [or_comm, ← imp_iff_not_or]

theorem notAborting_iff : runAborting s = false ↔ ∀ r, s.run .M = some r → r.state ≠ .aborting := by
  unfold runAborting
  cases s.run .M <;> simp

theorem goReady_iff (hm : moveOf tag s = some m) : goReady tag s = true ↔
    (∀ f ∈ moveFigs tag s, (s.fig f).step = .accepted ∧ crossingOpen f s = true) ∧
      claimGranted m.ref s = true ∧ runAborting s = false := by
  unfold goReady
  rw [hm]
  simp only [Bool.and_eq_true, Bool.not_eq_true', List.all_eq_true, beq_iff_eq, and_assoc]
  rfl

theorem notPast_iff {t : Int} : notPast t s = true ↔
    s.tb.showTime ≤ t ∨ (s.tb.jumped = true ∧ s.tb.showTime = t + 1) := by
  simp [notPast]

theorem goHeld_iff : goHeld tag s = false ↔ ∀ t ∈ heldTxns s, t.owner ≠ .go tag := by
  simp [goHeld]

theorem goRoom_iff : (decide (linkAnswer s ≠ .full) || !s.stg.goRefused.contains tag) = true ↔
    s.flc.stuck = true ∨ s.flc.queue.length < 8 ∨ tag ∉ s.stg.goRefused := by
  rw [Bool.or_eq_true, decide_eq_true_iff, ne_eq, linkAnswer_full_iff, not_and_or, Bool.not_eq_false, not_le, or_assoc]
  simp

theorem goDue_iff : goDue tag s = true ↔ ∃ m, moveOf tag s = some m ∧ m.due ≤ s.tb.showTime ∧
    (s.tb.showTime ≤ m.due + m.tolerance ∨
      (s.tb.jumped = true ∧ s.tb.showTime = m.due + m.tolerance + 1)) ∧
    (∀ t ∈ heldTxns s, t.owner ≠ .go tag) ∧
    (∀ f, (s.fig f).StillIn tag → (s.fig f).step = .accepted ∧
      ∀ c, (s.figDef f).crossing = some c → (s.door c.door).state = .opened) ∧
    (∀ c ∈ s.dbu.claims, c.kind.key = .figures (.move m.serial m.tag) → c.granted = true) ∧
    (∀ r, s.run .M = some r → r.state ≠ .aborting) ∧
    (s.flc.stuck = true ∨ s.flc.queue.length < 8 ∨ tag ∉ s.stg.goRefused) := by
  unfold goDue moveTimes
  cases hm : moveOf tag s with
  | none => simp
  | some m =>
    simp only [Option.map_some, Bool.and_eq_true, decide_eq_true_iff, Bool.not_eq_true', notPast_iff, goHeld_iff,
      goReady_iff hm, goRoom_iff, mem_moveFigs_iff, crossingOpen_iff, claimGranted_iff, notAborting_iff, and_assoc,
      Option.some.injEq, exists_eq_left']
    rfl

/-- A GO queued is no longer marked as refused. -/
theorem queueGo_queued (free : s.flc.stuck = false) (room : s.flc.queue.length < 8) : queueGo tag s =
    { pushTxn (newTxn .go 0 (goData tag) (.go tag) s) s with
      stg.goRefused := s.stg.goRefused.filter (· != tag) } := by
  unfold queueGo
  dsimp only
  rw [linkAnswer_queued free room, enqueue_queued free room]
  rfl

theorem queueGo_full (free : s.flc.stuck = false) (full : 8 ≤ s.flc.queue.length) : queueGo tag s =
    linkRefused (.go tag) (countLink (fun c => { c with full := satInc c.full }) s) := by
  unfold queueGo
  dsimp only
  rw [linkAnswer_full free full, enqueue_full free full]

theorem queueGo_stuck (stuck : s.flc.stuck = true) : queueGo tag s = linkFailed (.go tag) .lineStuck s := by
  unfold queueGo
  dsimp only
  rw [linkAnswer_stuck stuck, enqueue_stuck stuck]

theorem goQueued_due (h : goDue tag s = true) : exec (.goQueued tag) s = .next (settle (queueGo tag s)) :=
  congrArg Host.Outcome.next (whenDue_true h)

theorem goDeadline_misses (hm : moveOf tag s = some m) (late : m.due + m.tolerance ≤ s.tb.showTime)
    (waits : goFlying tag s = false) : exec (.goDeadline tag) s = .next (settle (missGo tag s)) :=
  congrArg Host.Outcome.next (whenDue_true ((goLate_iff s tag).2 ⟨⟨m, hm, late⟩, waits⟩))

/-- The queued GO is withdrawn, then each figure is reported and withdrawn, and the claim last. -/
theorem missGo_eq (hm : moveOf tag s = some m) : missGo tag s = dropClaim (.figures m.ref)
    ((moveFigs tag s).foldl (fun t f => withdrawFig f (reportFig f .moveLate t)) { s with
      flc.queue := s.flc.queue.filter fun t => t.owner != .go tag
      stg.goRefused := s.stg.goRefused.filter (· != tag) }) := by
  unfold missGo
  rw [hm]
  rfl

end

/-! ## The events of moves and homings (R140, R143) -/

section
variable {f : Fig} {h : Homing} {s : State}

theorem arrivalWindowClose_closes {m : Move} {w : Started} (hs : (s.fig f).state = .moving)
    (hh : (s.fig f).homing = none) (hm : (s.fig f).move = some m) (hw : m.started = some w)
    (late : w.closes ≤ s.tb.showTime) : exec (.arrivalWindowClose f) s = .next (settle (windowCloses f s)) :=
  congrArg Host.Outcome.next (whenDue_true ((arrivalOver_iff s f).2 ⟨hs, hh, m, w, hm, hw, late⟩))

theorem queueHome_eq (hh : (s.fig f).homing = some h) : queueHome f s =
    sendTxn .home (s.figAddress f) (homeData (s.figAddress f) h.allowed) (.home f)
      (s.setFig f { s.fig f with homing := some { h with queued := true } }) := by
  unfold queueHome
  rw [hh]
  rfl

theorem homeQueued_sends (hs : (s.fig f).state = .staged) (hh : (s.fig f).homing = some h) (cleared : h.cleared = true)
    (waits : h.queued = false) (granted : claimGranted (.homing f) s = true) (opened : crossingOpen f s = true) :
    exec (.homeQueued f) s = .next (settle
      (sendTxn .home (s.figAddress f) (homeData (s.figAddress f) h.allowed) (.home f)
        (s.setFig f { s.fig f with homing := some { h with queued := true } }))) := by
  have due : homeDue f s = true :=
    (homeDue_iff s f).2 ⟨hs, h, hh, cleared, waits, granted, (crossingOpen_iff s f).1 opened⟩
  rw [← queueHome_eq hh]
  exact congrArg Host.Outcome.next (whenDue_true due)

theorem homingTimeout_fails (hs : (s.fig f).state = .staged) (hh : (s.fig f).homing = some h)
    (waits : h.queued = false) (late : h.startBy ≤ s.tb.elapsed) :
    exec (.homingTimeout f) s = .next (settle (homeFails f s)) :=
  congrArg Host.Outcome.next (whenDue_true ((homingOver_iff s f).2 ⟨hs, h, hh, waits, late⟩))

theorem homeArrivalTimeout_stops {t : Nat} (hs : (s.fig f).state = .moving) (hh : (s.fig f).homing = some h)
    (ht : h.arriveBy = some t) (late : t ≤ s.tb.elapsed) :
    exec (.homeArrivalTimeout f) s = .next (settle (homeStops f s)) :=
  congrArg Host.Outcome.next (whenDue_true ((homeLate_iff s f).2 ⟨hs, h, t, hh, ht, late⟩))

end

/-! ## The check of a listed figure (R136) -/

section
variable {f : Fig} {target : Int} {cue : Option Nat} {s : State}

/-- A figure at rest takes a move; a resumed one is HALTED and recorded of the cue. -/
def FigRec.free (cue : Option Nat) (r : FigRec) : Bool :=
  match cue with
  | none => r.state == .idle
  | some cue => r.state == .halted && (match r.interrupted with | some i => i.cue == cue | none => false)

theorem free_iff (r : FigRec) : r.free cue = true ↔ (cue = none → r.state = .idle) ∧
    ∀ c, cue = some c → r.state = .halted ∧ ∃ i, r.interrupted = some i ∧ i.cue = c := by
  unfold FigRec.free
  cases cue with
  | none => simp
  | some c => cases r.interrupted <;> simp

/-- The door that the figure crosses, if any, does not close. -/
def crossingKept (f : Fig) (s : State) : Bool :=
  match (s.figDef f).crossing with | some c => (s.door c.door).state != .closing | none => true

theorem crossingKept_iff : crossingKept f s = true ↔
    ∀ c, (s.figDef f).crossing = some c → (s.door c.door).state ≠ .closing := by
  unfold crossingKept
  cases (s.figDef f).crossing <;> simp

theorem moveCheck_eq : moveCheck cue s (f, target) = ((s.fig f).free cue &&
    decide ((s.figDef f).travelMin ≤ target) && decide (target ≤ (s.figDef f).travelMax) && crossingKept f s &&
    !((s.figDef f).rides && (s.stg.turn.state == .turning || s.stg.turn.state == .homing))) := rfl

theorem moveCheck_iff : moveCheck cue s (f, target) = true ↔
    (cue = none → (s.fig f).state = .idle) ∧
    (∀ c, cue = some c → (s.fig f).state = .halted ∧ ∃ i, (s.fig f).interrupted = some i ∧ i.cue = c) ∧
    (s.figDef f).travelMin ≤ target ∧ target ≤ (s.figDef f).travelMax ∧
    (∀ c, (s.figDef f).crossing = some c → (s.door c.door).state ≠ .closing) ∧
    ((s.figDef f).rides = true → s.stg.turn.state ≠ .turning ∧ s.stg.turn.state ≠ .homing) := by
  have riding : (!((s.figDef f).rides && (s.stg.turn.state == .turning || s.stg.turn.state == .homing))) = true ↔
      ((s.figDef f).rides = true → s.stg.turn.state ≠ .turning ∧ s.stg.turn.state ≠ .homing) := by
    cases (s.figDef f).rides <;> simp
  rw [moveCheck_eq, Bool.and_eq_true, riding]
  simp only [Bool.and_eq_true, free_iff, crossingKept_iff, decide_eq_true_iff, and_assoc]

end

/-! ## The fresh tag (R136) -/

section
variable {n k t : Nat} {s : State}

/-- The tags from a value on, 1 coming after 255. -/
def tagFrom (t j : Nat) : Nat := (t - 1 + j) % 255 + 1

theorem tagHeld_iff : tagHeld s t = true ↔ ∃ f m, (s.fig f).state = .staged ∧ (s.fig f).homing = none ∧
    (s.fig f).move = some m ∧ m.tag = t := by
  simp only [tagHeld, allFigs, List.any_eq_true, List.mem_finRange, true_and, Bool.and_eq_true, beq_iff_eq, hasTag_iff,
    Option.isNone_iff_eq_none, and_assoc]
  simp

theorem tagFrom_zero (low : 1 ≤ t) (high : t ≤ 255) : tagFrom t 0 = t := by
  unfold tagFrom; omega

theorem tagFrom_next (low : 1 ≤ t) (high : t ≤ 255) (j : Nat) : tagFrom (nextTag t) j = tagFrom t (j + 1) := by
  unfold tagFrom nextTag
  split_ifs <;> omega

theorem freshTag_eq (low : 1 ≤ t) (high : t ≤ 255) (held : ∀ j, j < k → tagHeld s (tagFrom t j) = true)
    (free : tagHeld s (tagFrom t k) = false) (hn : k < n) : freshTag s n t = tagFrom t k := by
  induction k generalizing n t with
  | zero =>
    obtain ⟨n, rfl⟩ : ∃ i, n = i + 1 := ⟨n - 1, by omega⟩
    rw [tagFrom_zero low high] at free ⊢
    exact if_neg (by simp [free])
  | succ k ih =>
    obtain ⟨n, rfl⟩ : ∃ i, n = i + 1 := ⟨n - 1, by omega⟩
    have first : tagHeld s t = true := tagFrom_zero low high ▸ held 0 (by omega)
    have next : 1 ≤ nextTag t ∧ nextTag t ≤ 255 := by unfold nextTag; split_ifs <;> omega
    rw [← tagFrom_next low high] at free ⊢
    refine (if_pos first).trans (ih next.1 next.2 (fun j hj => ?_) free (by omega))
    rw [tagFrom_next low high]
    exact held (j + 1) (by omega)

/-- There are 255 tags, so a free one is among the first 255. -/
theorem freeTag_lt (held : ∀ j, j < k → tagHeld s (tagFrom t j) = true) (free : tagHeld s (tagFrom t k) = false) :
    k < 255 := by
  by_contra many
  have same : tagFrom t (k % 255) = tagFrom t k := by unfold tagFrom; omega
  have again := held (k % 255) (by omega)
  rw [same, free] at again
  cases again

end

/-! ## A move is taken (R136; log entries 39, 80 and 83) -/

section
variable {ok : List (Fig × Int)} {claim : ClaimKind} {units : Nat} {v : State}

/-- The figures STAGED make their claim: a STAGE for each, or, the claim refused, each is reported and IDLE. -/
def claimMove (ok : List (Fig × Int)) (claim : ClaimKind) (units : Nat) (v : State) : State :=
  match claimAnswer claim units v with
  | .taken => ok.foldl (fun t p => queueStage p.1 t) (makeClaim claim units v)
  | .overBudget | .listFull => ok.foldl (fun t p => leaveMove p.1 .idle (reportFig p.1 .moveLate t)) v

theorem claimMove_taken (h : claimAnswer claim units v = .taken) :
    claimMove ok claim units v = ok.foldl (fun t p => queueStage p.1 t) (makeClaim claim units v) := by
  unfold claimMove; rw [h]

theorem claimMove_refused (h : claimAnswer claim units v ≠ .taken) :
    claimMove ok claim units v = ok.foldl (fun t p => leaveMove p.1 .idle (reportFig p.1 .moveLate t)) v := by
  unfold claimMove
  cases ha : claimAnswer claim units v with
  | taken => exact absurd ha h
  | overBudget | listFull => rfl

end

/-- Settles O50: the GO and its deadline, the other events, a figure that leaves its move, claims and shares, and a move
taken. -/
theorem figureEvents : Obligations.FigureEvents := by
  refine ⟨fun s => ⟨fun tag due free room => ?queued, fun tag due => ⟨fun free full => ?full, fun stuck => ?stuck⟩,
      fun tag => ⟨fun f => mem_moveFigs_iff, moveFigs_ascending, rfl, rfl, goDue_iff⟩,
      fun tag due late m times hm passed waits => ?deadline,
      fun f m w hs hh hm hw late => arrivalWindowClose_closes hs hh hm hw late,
      fun f h hs hh cleared waits granted opened free room => ?home,
      fun f h hs hh cleared waits granted opened => ⟨fun free full => ?homeFull, fun stuck => ?homeStuck⟩,
      fun f h hs hh waits late => homingTimeout_fails hs hh waits late,
      fun f h t hs hh ht late => homeArrivalTimeout_stops hs hh ht late⟩,
    fun f s => ⟨fun st => rfl, fun m hm hh => figRef_move hm hh, figRef_homing, fun k m hm => ?report, ?withdraw, rfl⟩,
    fun k s => ⟨dropClaim_held, dropClaim_absent⟩,
    fun ref f s => ⟨release_held, release_absent, fun c => releaseShare_other, ?share⟩,
    ?taken, fun f target cue s => moveCheck_iff⟩
  case queued => rw [goQueued_due due, queueGo_queued free room]; rfl
  case full => rw [goQueued_due due, queueGo_full free full]; rfl
  case stuck => rw [goQueued_due due, queueGo_stuck stuck]
  case deadline =>
    have deadline : m.due + m.tolerance = late := by
      rw [moveTimes, hm] at times
      exact congrArg Prod.snd (Option.some.inj times)
    rw [goDeadline_misses hm (deadline ▸ passed) waits, missGo_eq hm]
  case home =>
    rw [homeQueued_sends hs hh cleared waits granted opened, sendTxn_queued (s := s.setFig f _) free room]
    rfl
  case homeFull =>
    rw [homeQueued_sends hs hh cleared waits granted opened, sendTxn_full (s := s.setFig f _) free full]
    rfl
  case homeStuck =>
    rw [homeQueued_sends hs hh cleared waits granted opened, sendTxn_stuck (s := s.setFig f _) stuck]
    rfl
  case report =>
    have told := reportFig_move (k := k) hm
    refine ⟨fun silent => ?_, fun cue moves ho => ?_⟩
    · by_cases clears : (s.fig f).state = .staged ∧ (s.fig f).step = .clearing
      · exact told.trans (if_pos clears)
      · rw [told, if_neg clears, silent.resolve_left clears]
        rfl
    · rw [told, if_neg moves, ho]
      rfl
  case withdraw =>
    refine ⟨withdrawFig_queued, fun taken => ⟨fun room => ?_, fun refused => ?_⟩⟩
    · rw [withdrawFig_taken taken, if_pos room]
    · rw [withdrawFig_taken taken, if_neg refused]
  case share =>
    intro c o before sh after hk hf others left
    refine ⟨fun granted held => ?_, fun waiting => ?_⟩
    · have back := releaseShare_granted hk granted
        (releaseIn_split hf held fun x hx => others x (List.mem_append_left _ hx))
      refine ⟨fun all => back.trans (if_pos (List.all_eq_true.2 all)), fun rest => back.trans (if_neg ?_)⟩
      obtain ⟨x, hx, kept⟩ := rest
      exact fun all => absurd ((List.all_eq_true.1 all x hx).symm.trans kept) nofun
    · have back := releaseShare_waiting hk waiting (removeShare_split hf others)
      exact ⟨fun zero => back.trans (if_pos zero), fun more => back.trans (if_neg more)⟩
  case taken =>
    intro cue d w g tol due pairs resumed s kind ok u tag move v shares units claim
    have claims (nonempty : ok ≠ []) : takeMove cue d w g tol due pairs resumed s = claimMove ok claim units v :=
      if_neg fun empty => nonempty (List.isEmpty_iff.1 empty)
    refine ⟨fun empty => if_pos (List.isEmpty_iff.2 empty), fun nonempty taken => ?_, fun nonempty refused => ?_,
      fun k low high => ?_, fun t => tagHeld_iff⟩
    · exact (claims nonempty).trans (claimMove_taken taken)
    · exact (claims nonempty).trans (claimMove_refused refused)
    · exact fun held free => freshTag_eq low high held free (freeTag_lt held free)

end Sys2Proof.Machine
end

