-- ==== Sys2Proof/Proofs/Guards.lean ====
section
/-! PROOF. INPUT-GET, GUARD-GET and GUARD-SET, the evaluation of a guard group, and a trip's action (R78, R99, R110,
R150, R156 to R158, R160, R161). -/
namespace Sys2Proof.Machine

/-! ## GUARD-SET (R160) -/

section
variable {s : State} {group : Nat} {g : Group} {d : GuardArgs} {a : GuardAction}

/-- A definition out of range: the settle interval, the action, or auto-resume without HOLD (R160). -/
theorem guardOf_outOfRange (h : 10000 < d.settle ∨ (∃ k, d.action = .other k) ∨
    (d.autoResume = true ∧ d.action ≠ .val .hold)) : guardOf d = none := by
  unfold guardOf
  cases ha : d.action with
  | other k => rfl
  | val a =>
    refine if_neg fun ⟨short, hold⟩ => ?_
    rcases h with long | ⟨k, hk⟩ | ⟨auto, other⟩
    · omega
    · cases ha.symm.trans hk
    · rcases hold with off | rfl
      · exact absurd (auto.symm.trans off) (by decide)
      · exact other ha

theorem guardOf_inRange (short : d.settle ≤ 10000) (ha : d.action = .val a) (hold : d.autoResume = true → a = .hold) :
    guardOf d = some { selection := d.selection, reference := d.reference, action := a, autoResume := d.autoResume
                       settle := d.settle } := by
  have auto : d.autoResume = false ∨ a = .hold := by
    rw [← Bool.not_eq_true]
    exact not_or_of_imp hold
  unfold guardOf
  rw [ha]
  exact if_pos ⟨short, auto⟩

theorem guardSet_eq (h : 4 ≤ s.hlc.step) : exec (.guardSet group d) s = .next (
    match toFin 4 group, guardOf d with
    | some g, some d =>
      let u := setGuard g d s
      settle (reply 0x69#8 .ok (.guardSet (u.group g).mismatched (u.group g).mismatching) u)
    | _, _ => reply 0x69#8 .badValue .none s) := gated_inputs (by decide) h

/-- A group out of range, or a value that makes no definition, is BAD_VALUE. -/
theorem guardSet_badValue (h : 4 ≤ s.hlc.step) (hb : toFin 4 group = none ∨ guardOf d = none) :
    exec (.guardSet group d) s = .next (reply 0x69#8 .badValue .none s) := by
  rw [guardSet_eq h]
  rcases hb with hb | hb
  · rw [hb]
  · rw [hb]; cases toFin 4 group <;> rfl

/-- The group takes its definition and is evaluated at once; the reply tells what was found. -/
theorem guardSet_sets (h : 4 ≤ s.hlc.step) {defn : GuardDef} (hd : guardOf d = some defn) :
    let u := setGuard g defn s
    exec (.guardSet g.val d) s =
      .next (settle (reply 0x69#8 .ok (.guardSet (u.group g).mismatched (u.group g).mismatching) u)) := by
  rw [guardSet_eq h, toFin_val, hd]

/-- A group that was settling settles afresh where its new definition provides for it (R160). -/
theorem redefine_eq (elapsed : Nat) (defn : GuardDef) (r : GuardRec) : r.redefine elapsed defn = { r with
    defn := defn
    settleEnd := if r.settleEnd ≠ none ∧ defn.action = .hold ∧ defn.autoResume = true then
      some (elapsed + defn.settle) else none } := by
  unfold GuardRec.redefine GuardRec.settling
  cases r.settleEnd <;> simp

end

/-! ## The evaluation of a group (R157) -/

section
variable {s : State} {g : Group}

/-- The selected inputs of a group that differ from their reference at the present levels. -/
def State.found (s : State) (g : Group) : BitVec 16 := mismatches (s.group g).defn s.inm.general.level

theorem evalGuard_trips (found : s.found g ≠ 0) (matching : (s.group g).mismatched = false) :
    evalGuard g s = trip g (s.found g) s :=
  (if_pos found).trans (if_neg (by simp [matching]))

theorem evalGuard_stays (found : s.found g ≠ 0) (mismatched : (s.group g).mismatched = true) :
    evalGuard g s = s.setGroup g { s.group g with mismatching := s.found g } :=
  (if_pos found).trans (if_pos mismatched)

theorem evalGuard_clears (found : s.found g = 0) (mismatched : (s.group g).mismatched = true) :
    evalGuard g s = raise (.guardClear g) (s.setGroup g { s.group g with
      mismatched := false, mismatching := 0, settleEnd := (s.group g).settling s.tb.elapsed }) :=
  (if_neg (not_not_intro found)).trans (if_pos mismatched)

theorem evalGuard_matches (found : s.found g = 0) (matching : (s.group g).mismatched = false) : evalGuard g s = s :=
  (if_neg (not_not_intro found)).trans (if_neg (by simp [matching]))

end

/-! ## A trip's action (R78, R99, R110, R150, R158) -/

section
variable {s : State}

theorem strike_mem_keysOf {b : Bell} {due : Int} {gone : List Strike} : .strike b due ∈ keysOf gone ↔
    ∃ k ∈ gone, k.claiming = true ∧ k.bell = b ∧ k.due = due := by
  simp [keysOf, Strike.claim?]

/-- A guard ABORT withdraws the claims of the strikes in the queue, of the doors and of the turntable (R110). -/
theorem guardDrops_iff (c : Claim) : guardDrops s c = true ↔
    (∃ b due o, c.kind = .strike b due o ∧ ∃ k ∈ s.bell.strikes, k.claiming = true ∧ k.bell = b ∧ k.due = due) ∨
    (∃ d goal, c.kind = .door d goal) ∨ ∃ goal, c.kind = .turntable goal := by
  unfold guardDrops
  cases hk : c.kind with
  | strike b due o =>
    refine (List.contains_iff_mem.trans strike_mem_keysOf).trans ⟨fun claimed => .inl ⟨b, due, o, rfl, claimed⟩, ?_⟩
    rintro (⟨_, _, _, ⟨⟩, claimed⟩ | ⟨_, _, ⟨⟩⟩ | ⟨_, ⟨⟩⟩)
    exact claimed
  | figures ref owner shares => simp
  | door d goal => simp
  | turntable goal => simp

/-- Lane M's run waits for the broadcast HALT if a figure of it was STAGED or MOVING (R78). -/
theorem runFigsActive_iff : runFigsActive s = true ↔
    ∃ f, (s.fig f).ofRun = true ∧ ((s.fig f).state = .staged ∨ (s.fig f).state = .moving) := by
  simp only [runFigsActive, allFigs, List.any_eq_true, List.mem_finRange, true_and, halts_iff]

/-- Lane M is aborted before lane C, and the drives stop in the order D0, D1, turntable (log entries 53 and 72). -/
theorem guardAbort_eq (s : State) : guardAbort s = sendHalt 0 (runFigsActive s) true 0 (grantPass
    (testRemoved s.bell.strikes (stopTurn (stopDoor 1 (stopDoor 0
      (abortLane .C .guard true (abortLane .M .guard true (guardClear s)))))))) := rfl

end

/-- Settles O52: the three requests, the four cases of an evaluation, and the three actions of a trip. -/
theorem inputsAndGuards : Obligations.InputsAndGuards := by
  refine ⟨fun s h => ⟨gated_inputs (by decide) h, gated_inputs (by decide) h, gated_inputs (by decide) h,
      fun group d hb => ?badValue, fun g a d short ha hold => ?sets⟩,
    fun g s => ⟨evalGuard_trips, evalGuard_stays, evalGuard_clears, evalGuard_matches⟩,
    fun g s => ⟨rfl, rfl, guardAbort_eq s, guardDrops_iff, runFigsActive_iff⟩⟩
  case badValue =>
    rcases hb with hb | hb
    · exact guardSet_badValue h (.inl (toFin_ge hb))
    · exact guardSet_badValue h (.inr (guardOf_outOfRange hb))
  case sets =>
    have sets := guardSet_sets (g := g) h (guardOf_inRange short ha hold)
    rw [setGuard, redefine_eq] at sets
    exact sets

end Sys2Proof.Machine
end

