-- ==== Sys2Proof/Proofs/HostFrames.lean ====
section
/-! PROOF. The frames of the host line, the replies made to them, the receiver's bytes, RESET and the soft reset (R167
to R169, R176, R180). -/
namespace Sys2Proof.Machine

/-! ## The kinds and forms of the requests (R168) -/

/-- One request of each kind of section 10.5. -/
def oneOfEachKind : List Request :=
  let trig : TrigArgs :=
    { kind := .other 0, time := none, period := none, weekdays := none, hours := none, target := none, followOn := none,
      policy := .other 0, staleness := 0, window := none }
  let guard : GuardArgs := { selection := 0, reference := 0, action := .other 0, autoResume := false, settle := 0 }
  [.timeSet 0 false, .timeGet, .trigSet 0 trig false, .trigGet 0, .trigDisarm 0, .seasonGet, .storePut false 0 [],
    .storeCommit 0 0, .storeErase 0 0, .storeEraseAll, .storeList, .storeRead 0 0 0 0, .storeSum,
    .storeProtect 0 false, .storeLock, .storeIdentity 0 0 0 0, .showStart (.script 0) 0, .showStop (.other 0),
    .showHold (.other 0), .showResume (.other 0), .showStatus, .queueGet, .queueFlush (.other 0), .lampSet 0 0 0,
    .bellStrike 0 0, .bellDamp [], .bellMute 0 false, .bellClear 0 false, .bellStatus, .budgetGet,
    .linkStatus false, .linkWake, .nodeQuery 0 (.other 0), .figStatus, .figClear 0, .figHome 0 0,
    .doorMove 0 (.other 0), .doorStatus, .turnHome, .turnMove 0 (.other 0), .turnStatus, .inputGet,
    .guardSet 0 guard, .guardGet false, .captureSet 0 .free, .captureGet 0 (.other 0), .causesGet, .causesClear [],
    .causeMask 0, .ident, .reset, .configSet [], .configGet, .configSave]

theorem mem_of_isRequestKind : ∀ k : Byte, isRequestKind k = true → k ∈ oneOfEachKind.map Request.kind := by
  decide +kernel

theorem isRequestKind_kind (r : Request) : isRequestKind r.kind = true := by
  cases r <;> rfl

/-- The request kinds are the kinds of the requests. -/
theorem isRequestKind_iff (k : Byte) : isRequestKind k = true ↔ ∃ r : Request, r.kind = k := by
  constructor
  · intro hk
    obtain ⟨r, -, hr⟩ := List.mem_map.1 (mem_of_isRequestKind k hk)
    exact ⟨r, hr⟩
  · rintro ⟨r, rfl⟩
    exact isRequestKind_kind r

/-- Three forms have a part of varying length: every other body is well formed. -/
theorem request_wellFormed_iff (r : Request) : r.wellFormed = true ↔
    (∀ start offset data, r = .storePut start offset data → data.length ≤ 1024) ∧
    (∀ es, r = .causesClear es → 1 ≤ es.length ∧ es.length ≤ 16) ∧ ∀ fs, r = .configSet fs → fs ≠ [] := by
  cases r
  case storePut => simp [Request.wellFormed]
  case causesClear => simp [Request.wellFormed]
  case configSet => simp [Request.wellFormed]
  all_goals exact iff_of_true rfl ⟨nofun, nofun, nofun⟩

/-- A request given as its own row is carried out by its owner, as one that a frame brings. -/
theorem exec_rowOf (r : Request) (s : State) : exec (rowOf r) s = .next (serve r s) := by
  cases r <;> rfl

/-! ## Frames that arrive (R168, R169) -/

section
variable {f : HostFrame} {r : Request} {s : State}

theorem spelled_wrong (h : f.body = .wrongLength ∨
    ∃ r, f.body = .request r ∧ (r.kind ≠ f.kind ∨ r.wellFormed = false)) : spelled f = none := by
  unfold spelled
  rcases h with hb | ⟨r, hb, hr⟩
  · rw [hb]
  · rw [hb]
    refine if_neg fun hw => ?_
    obtain ⟨kind, form⟩ := (Bool.and_eq_true _ _).mp hw
    rcases hr with other | bad
    · exact other (eq_of_beq kind)
    · exact Bool.noConfusion (bad.symm.trans form)

theorem spelled_request (hb : f.body = .request r) (kind : r.kind = f.kind) (form : r.wellFormed = true) :
    spelled f = some r := by
  unfold spelled
  rw [hb]
  exact if_pos (by simp [kind, form])

/-- Whether or not the receiver hunts, a frame is taken once start-up step 1 has ended (R181; log entry 73). -/
theorem frameArrived_taken (h : 1 ≤ s.hlc.step) :
    exec (.hostFrameArrived f) s = .next (takeFrame f (hunting s)) :=
  congrArg Host.Outcome.next (whenDue_true (decide_eq_true h))

theorem takeFrame_overlapping (h : s.hlc.outstanding.isSome = true) : takeFrame f s = overlapped f.kind f.tag s :=
  if_pos h

/-! A frame that finds no request outstanding is outstanding itself: its kind is looked at first, then its form. -/

theorem takeFrame_badKind (h : s.hlc.outstanding = none) (hk : isRequestKind f.kind = false) :
    takeFrame f s =
      reply f.kind .badKind .none { s with hlc.outstanding := some { kind := f.kind, tag := f.tag } } := by
  simp [takeFrame, h, hk]

theorem takeFrame_badLength (h : s.hlc.outstanding = none) (hk : isRequestKind f.kind = true) (hr : spelled f = none) :
    takeFrame f s =
      reply f.kind .badLength .none { s with hlc.outstanding := some { kind := f.kind, tag := f.tag } } := by
  simp [takeFrame, h, hk, hr]

theorem takeFrame_served (h : s.hlc.outstanding = none) (hk : isRequestKind f.kind = true) (hr : spelled f = some r) :
    takeFrame f s = serve r { s with hlc.outstanding := some { kind := f.kind, tag := f.tag } } := by
  simp [takeFrame, h, hk, hr]

end

/-! ## Replies (R168; log entries 9 and 74) -/

section
variable {k : Byte} {o : Outstanding} {s : State}

theorem replyTag_own (ho : s.hlc.outstanding = some o) (hk : o.kind = k) : replyTag k s = o.tag := by
  unfold replyTag; rw [ho]; exact if_pos hk

theorem replyTag_other (ho : s.hlc.outstanding = some o) (hk : o.kind ≠ k) : replyTag k s = 0 := by
  unfold replyTag; rw [ho]; exact if_neg hk

theorem replyTag_idle (ho : s.hlc.outstanding = none) : replyTag k s = 0 := by
  unfold replyTag; rw [ho]

end

/-- Settles O12: the frame is taken, and its case is that of the request outstanding, of its kind and of its body. -/
theorem hostFrameArrives : Obligations.HostFrameArrives := by
  refine ⟨fun f s h => ?taken, isRequestKind_iff, request_wellFormed_iff,
    fun k tag st data s => ⟨rfl, rfl, fun _ => replyTag_own, fun _ => replyTag_other, replyTag_idle⟩, fun r => ?status⟩
  case taken =>
    have arrives {t : State} (ht : takeFrame f (hunting s) = t) :
        exec (.hostFrameArrived f) s = .next t := (frameArrived_taken h).trans (congrArg Host.Outcome.next ht)
    refine ⟨fun busy free => arrives ?answered, fun busy held => arrives ?counted, fun idle =>
      ⟨fun hk => arrives (takeFrame_badKind idle hk),
        fun hk wrong => arrives (takeFrame_badLength idle hk (spelled_wrong wrong)), fun r hk hb kind form => ?served⟩⟩
    case answered => exact (takeFrame_overlapping (s := hunting s) busy).trans (if_neg (ne_true_of_eq_false free))
    case counted => exact (takeFrame_overlapping (s := hunting s) busy).trans (if_pos held)
    case served =>
      rw [exec_rowOf]
      exact arrives (takeFrame_served idle hk (spelled_request hb kind form))
  case status =>
    unfold Reply.statusByte
    cases r.status <;> rfl

/-! ## The receiver's bytes (R167) -/

theorem isHunting_iff {s : State} : isHunting s = true ↔ 1 ≤ s.hlc.step ∧ s.hlc.rx = .hunting := by
  simp [isHunting, listening]

/-- Settles O13: each byte's condition holds, and each event then does its one thing. -/
theorem hostBytes : Obligations.HostBytes := by
  intro s h
  have event {due : Bool} {f : State → State} (holds : due = true) :
      (Host.Outcome.next (whenDue due f s) : Host.Outcome State Fault Refusal) = .next (f s) :=
    congrArg Host.Outcome.next (whenDue_true holds)
  have receiving (hr : s.hlc.rx = .inFrame) : inFrame s = true := (inFrame_iff s).2 ⟨h, hr⟩
  refine ⟨fun hr => event (isHunting_iff.2 ⟨h, hr⟩), fun hr b hb => event ?stray, fun hr long => event ?gap, ?stops,
    fun hr n long => event ?length, fun hr rx crc wrong => event ?crc⟩
  case stray => simp [isHunting_iff.2 ⟨h, hr⟩, hb]
  case gap => simp [gapMayHave, receiving hr, Config.hostGapMs, long]
  case stops => simp [frameStops_eq, h]
  case length => simp [receiving hr, Config.maxBody, long]
  case crc => simpa [receiving hr, crcFails] using wrong

/-! ## RESET and the replies that are sent (R169, R176) -/

section
variable {r : Reply} {rest : List Reply} {s : State}

/-- A request of the host link or the settings is carried out once start-up step 1 has ended (R181). -/
theorem gated_hostLink {k : Byte} {f : State → State} (hk : gateStep k = 1) (h : 1 ≤ s.hlc.step) :
    (Host.Outcome.next (gated k f s) : Host.Outcome State Fault Refusal) = .next (f s) :=
  congrArg _ (gated_at hk h)

theorem reset_replies (h : 1 ≤ s.hlc.step) :
    exec .reset s = .next (reply 0x74#8 (if s.ps.op.isSome then .busy else .ok) .none s) :=
  gated_hostLink (by decide) h

theorem resets_iff : r.resets = true ↔ r.kind = 0xF4#8 ∧ r.status = .ok ∧ r.overlap = false := by
  simp [Reply.resets, and_assoc]

/-- The first reply leaves; it ends the outstanding request unless the overlap rule made it; the OK of a RESET begins
the soft reset. -/
theorem sendFirst_cons (h : s.hlc.replies = r :: rest) : sendFirst s =
    let u := if r.overlap then { s with hlc.replies := rest }
      else { s with hlc.replies := rest, hlc.outstanding := none }
    if r.resets then softReset u else u := by
  unfold sendFirst
  rw [h]

theorem replySent_overlap (h : s.hlc.replies = r :: rest) (ho : r.overlap = true) :
    exec .replySent s = .next { s with hlc.replies := rest } := by
  have stays : ¬r.resets = true := fun hr => by simp [ho, resets_iff] at hr
  refine congrArg Host.Outcome.next ((sendFirst_cons h).trans ?_)
  exact (if_neg stays).trans (if_pos ho)

theorem replySent_ends (h : s.hlc.replies = r :: rest) (ho : r.overlap = false)
    (hr : ¬(r.kind = 0xF4#8 ∧ r.status = .ok)) :
    exec .replySent s = .next { s with hlc.replies := rest, hlc.outstanding := none } := by
  have stays : ¬r.resets = true := fun hs => by
    obtain ⟨kind, ok, -⟩ := resets_iff.1 hs
    exact hr ⟨kind, ok⟩
  refine congrArg Host.Outcome.next ((sendFirst_cons h).trans ?_)
  exact (if_neg stays).trans (if_neg (by simp [ho]))

theorem replySent_resets (h : s.hlc.replies = r :: rest) (ho : r.overlap = false) (kind : r.kind = 0xF4#8)
    (ok : r.status = .ok) :
    exec .replySent s = .next (softReset { s with hlc.replies := rest, hlc.outstanding := none }) := by
  refine congrArg Host.Outcome.next ((sendFirst_cons h).trans ?_)
  exact (if_pos (resets_iff.2 ⟨kind, ok, ho⟩)).trans (congrArg softReset (if_neg (by simp [ho])))

end

/-! ## What a soft reset leaves (R176, R180) -/

section
variable {s : State}

/-- A bell keeps its counters and its FAULT; its drives are off (R105). -/
theorem bells_softReset (b : Bell) :
    (softReset s).bell.bells.get b = (s.bell.bells.get b).softReset (s.muted b) := vector_get_ofFn ..

theorem figs_softReset (f : Fig) : (softReset s).stg.figs.get f = FigRec.afterReset (s.stg.figDefs.get f) :=
  vector_get_map ..

theorem doors_softReset (d : Door) : (softReset s).stg.doors.get d = .off := vector_get_replicate ..

theorem groups_softReset (g : Group) :
    (softReset s).inm.groups.get g = { s.inm.groups.get g with settleEnd := none } := vector_get_map ..

end

/-- Settles O14: RESET by the operation in progress, the reply sent by its kind, and the soft reset field by field. -/
theorem resetAndReplies : Obligations.ResetAndReplies := by
  refine ⟨fun s h => ⟨fun busy => ?busy, fun free => ?ok⟩,
    fun r rest s h => ⟨replySent_overlap h, replySent_ends h, replySent_resets h⟩, fun s => ?left⟩
  case busy => rw [reset_replies h, if_pos busy]
  case ok => rw [reset_replies h, if_neg (by simp [free])]
  case left =>
    refine ⟨rfl, rfl, rfl, rfl, rfl, rfl, rfl, fun b => ?bells, rfl, rfl, rfl, rfl, rfl, rfl, fun f => ?figs,
      fun d => ?doors, rfl, rfl, rfl, fun g => ?groups, rfl, rfl, rfl, rfl, rfl, rfl, rfl, rfl⟩
    case bells => rw [bells_softReset]; exact ⟨rfl, rfl, rfl⟩
    case figs => rw [figs_softReset]; exact ⟨rfl, rfl, rfl⟩
    case doors => rw [doors_softReset]; exact ⟨rfl, rfl⟩
    case groups => rw [groups_softReset]; exact ⟨rfl, rfl⟩

end Sys2Proof.Machine
end

