-- ==== Sys2Proof/Proofs/Causes.lean ====
section
/-! PROOF. The causes, ATTN, CAUSES-GET, CAUSES-CLEAR, CAUSE-MASK and IDENT (R171 to R175). -/
namespace Sys2Proof.Machine

/-! ## An occurrence of a cause (R171) -/

section
variable {d : Detail} {s : State}

/-- The record that an occurrence leaves of its cause (R171). -/
def occurrence (d : Detail) (s : State) : CauseRec :=
  { flag := true, count := (s.hlc.causes.get d.cause).count + 1, detail := some { what := d, stamp := s.stamp } }

theorem raise_eq (h : 1 ≤ s.hlc.step) :
    raise d s = { s with hlc.causes := s.hlc.causes.set d.cause (occurrence d s) } := if_neg (by omega)

theorem causes_raise (h : 1 ≤ s.hlc.step) (i : Fin 16) :
    (raise d s).hlc.causes.get i = if d.cause = i then occurrence d s else s.hlc.causes.get i := by
  rw [raise_eq h]
  exact vector_get_set ..

end

/-! ## CAUSES-CLEAR (R173) -/

section
variable {s : State}

/-- A cause's record with its flag and count cleared. -/
def CauseRec.cleared (c : CauseRec) : CauseRec := { c with flag := false, count := 0 }

theorem clearsCause_iff (e : Nat × Option Nat) : clearsCause s e = true ↔
    ∃ i : Fin 16, e.1 = i.val ∧ ∀ m, e.2 = some m → (s.hlc.causes.get i).count.toNat = m := by
  obtain ⟨n, count⟩ := e
  unfold clearsCause
  by_cases hn : n < 16
  · cases count <;> simp [toFin_lt hn, Fin.exists_iff, hn]
  · have : ∀ i : Fin 16, n ≠ i.val := fun i => by omega
    simp [toFin_ge (Nat.le_of_not_lt hn), this]

theorem clearCause_eq (n : Nat) : clearCause s n = { s with hlc.causes := (clearCause s n).hlc.causes } := by
  unfold clearCause
  cases toFin 16 n <;> rfl

theorem causes_clearCause (n : Nat) (i : Fin 16) : (clearCause s n).hlc.causes.get i =
    if n = i.val then (s.hlc.causes.get i).cleared else s.hlc.causes.get i := by
  unfold clearCause
  by_cases hn : n < 16
  · rw [toFin_lt hn]
    refine (vector_get_set ..).trans ?_
    by_cases hi : n = i.val
    · subst hi; simp [CauseRec.cleared]
    · rw [if_neg hi, if_neg (fun h => hi (congrArg Fin.val h))]
  · rw [toFin_ge (Nat.le_of_not_lt hn), if_neg (by omega)]

theorem foldClear_eq (es : List (Nat × Option Nat)) : es.foldl (fun t e => clearCause t e.1) s =
    { s with hlc.causes := (es.foldl (fun t e => clearCause t e.1) s).hlc.causes } := by
  induction es generalizing s with
  | nil => rfl
  | cons e es ih =>
    rw [List.foldl_cons, ih, clearCause_eq]

/-- Of the causes named each is cleared, once or more often. -/
theorem causes_foldClear (es : List (Nat × Option Nat)) (i : Fin 16) :
    (es.foldl (fun t e => clearCause t e.1) s).hlc.causes.get i =
      if i.val ∈ es.map Prod.fst then (s.hlc.causes.get i).cleared else s.hlc.causes.get i := by
  induction es generalizing s with
  | nil => rfl
  | cons e es ih =>
    rw [List.foldl_cons, ih, causes_clearCause]
    by_cases he : e.1 = i.val
    · simp [he, CauseRec.cleared]
    · have named : i.val ∈ (e :: es).map Prod.fst ↔ i.val ∈ es.map Prod.fst := by simp [Ne.symm he]
      simp only [he, if_false, named]

theorem clearEntries_eq (es : List (Nat × Option Nat)) :
    clearEntries es s = { s with hlc.causes := (clearEntries es s).hlc.causes } := foldClear_eq _

theorem mem_clearing {es : List (Nat × Option Nat)} {i : Fin 16} :
    i.val ∈ (es.filter (clearsCause s)).map Prod.fst ↔
      ∃ n, (i.val, n) ∈ es ∧ ∀ m, n = some m → (s.hlc.causes.get i).count.toNat = m := by
  simp [clearsCause_iff, Fin.val_inj]

/-- A cause is cleared if some entry gives ANY or its present count. -/
theorem clearEntries_cleared {es : List (Nat × Option Nat)} {i : Fin 16}
    (h : ∃ n, (i.val, n) ∈ es ∧ ∀ m, n = some m → (s.hlc.causes.get i).count.toNat = m) :
    (clearEntries es s).hlc.causes.get i = (s.hlc.causes.get i).cleared :=
  (causes_foldClear _ i).trans (if_pos (mem_clearing.2 h))

/-- A cause whose every entry gives another count is left standing, and so is one not named. -/
theorem clearEntries_standing {es : List (Nat × Option Nat)} {i : Fin 16}
    (h : ∀ n, (i.val, n) ∈ es → ∃ m, n = some m ∧ (s.hlc.causes.get i).count.toNat ≠ m) :
    (clearEntries es s).hlc.causes.get i = s.hlc.causes.get i := by
  refine (causes_foldClear _ i).trans (if_neg fun hc => ?_)
  obtain ⟨n, hn, same⟩ := mem_clearing.1 hc
  obtain ⟨m, rfl, other⟩ := h n hn
  exact other (same m rfl)

theorem entriesOk_iff (es : List (Nat × Option Nat)) :
    entriesOk es = true ↔ (es.map Prod.fst).Nodup ∧ ∀ e ∈ es, e.1 < 16 := by
  simp [entriesOk]

/-- CAUSES-CLEAR with a number of entries that its form allows (R173). -/
theorem causesClear_eq {es : List (Nat × Option Nat)} (h : 1 ≤ s.hlc.step) (named : 1 ≤ es.length)
    (few : es.length ≤ 16) : exec (.causesClear es) s = .next (if entriesOk es = true then
      reply 0x71#8 .ok (.causesLeft (flagWord (clearEntries es s).hlc.causes)
        (causeSet ((es.filter fun e => !clearsCause s e).map Prod.fst))) (clearEntries es s)
      else reply 0x71#8 .badValue .none s) := by
  have form : within 1 16 es.length = true := by simp [within, named, few]
  refine (gated_hostLink (by decide) h).trans (congrArg _ ?_)
  simp only [form]
  cases entriesOk es <;> rfl

end

/-! ## A set of causes as a word -/

theorem oneBit_getLsbD (n : Nat) (i : Fin 16) : (1#16 <<< n).getLsbD i.val = decide (i.val = n) := by
  rw [← BitVec.twoPow_eq, BitVec.getLsbD_twoPow]
  by_cases hi : n = i.val
  · subst hi; simp
  · simp [hi, Ne.symm hi]

theorem foldBits_getLsbD (ns : List Nat) (w : BitVec 16) (i : Fin 16) :
    (ns.foldl (fun w n => w ||| (1#16 <<< n)) w).getLsbD i.val = (w.getLsbD i.val || decide (i.val ∈ ns)) := by
  induction ns generalizing w with
  | nil => simp
  | cons n ns ih => simp only [List.foldl_cons, ih, BitVec.getLsbD_or, oneBit_getLsbD, List.mem_cons, Bool.decide_or,
      Bool.or_assoc]

theorem causeSet_getLsbD (ns : List Nat) (i : Fin 16) : (causeSet ns).getLsbD i.val = true ↔ i.val ∈ ns := by
  unfold causeSet
  rw [foldBits_getLsbD]
  simp

/-- Settles O54: an occurrence sets one record; CAUSES-CLEAR by the entries that name a cause; the words by
their bits. -/
theorem causes : Obligations.Causes := by
  refine ⟨fun d s h => ⟨?frame, (causes_raise h _).trans (if_pos rfl),
      fun i other => (causes_raise h i).trans (if_neg other.symm)⟩,
    fun s h => ⟨gated_hostLink (by decide) h, fun es named few => ⟨fun bad => ?badValue, fun once low => ?clears⟩⟩,
    fun s => clearsCause_iff, fun cs ns i => ⟨flagWord_getLsbD cs i, causeSet_getLsbD ns i⟩⟩
  case frame => rw [raise_eq h]
  case badValue =>
    refine (causesClear_eq h named few).trans (congrArg _ (if_neg fun ok => ?_))
    obtain ⟨once, low⟩ := (entriesOk_iff es).1 ok
    rcases bad with twice | ⟨e, he, high⟩
    · exact twice once
    · exact absurd (low e he) (Nat.not_lt.2 high)
  case clears =>
    refine ⟨(clearEntries es s).hlc.causes, ?_, fun i => ⟨clearEntries_cleared, clearEntries_standing⟩⟩
    rw [causesClear_eq h named few, if_pos ((entriesOk_iff es).2 ⟨once, low⟩), ← clearEntries_eq]

/-! ## ATTN (R172) and CAUSE-MASK (R174) -/

theorem attn_eq {s : State} (h : 1 ≤ s.hlc.step) :
    s.attn = decide (flagWord s.hlc.causes &&& s.hlc.live.causeMasks ≠ 0) := by
  have loaded : s.hlc.step ≠ 0 := by omega
  simp [State.attn, loaded]

/-- A word is not 0 exactly if some bit of it is set. -/
theorem ne_zero_iff_getLsbD {w : Nat} (x : BitVec w) : x ≠ 0 ↔ ∃ i : Fin w, x.getLsbD i.val = true := by
  constructor
  · intro h
    by_contra off
    refine h (BitVec.eq_of_getLsbD_eq fun i hi => ?_)
    simpa using fun set => off ⟨⟨i, hi⟩, set⟩
  · rintro ⟨i, hi⟩ rfl
    simp at hi

theorem unmasked_iff (cs : Vector CauseRec 16) (masks : BitVec 16) : flagWord cs &&& masks ≠ 0 ↔
    ∃ i : Fin 16, (cs.get i).flag = true ∧ masks.getLsbD i.val = true := by
  simp only [ne_zero_iff_getLsbD, BitVec.getLsbD_and, flagWord_getLsbD, Bool.and_eq_true]

/-- Settles O55: the word of the unmasked flags, bit by bit. -/
theorem attnFollowsUnmaskedFlags : Obligations.AttnFollowsUnmaskedFlags := by
  intro s
  rw [← unmasked_iff, State.attn, Bool.and_eq_true, decide_eq_true_iff, decide_eq_true_iff, Nat.one_le_iff_ne_zero]

/-- Settles O56: the mask field is the one that changes, and ATTN follows from it. -/
theorem causeMaskSets : Obligations.CauseMaskSets := fun _ _ h =>
  ⟨_, gated_hostLink (by decide) h, rfl, rfl, attn_eq h, rfl, rfl⟩

/-! ## IDENT (R175) -/

/-- Settles O57: IDENT is its reply alone. -/
theorem identReplies : Obligations.IdentReplies := fun _ h => gated_hostLink (by decide) h

end Sys2Proof.Machine
end

