-- ==== Sys2Proof/Proofs/StartupGate.lean ====
section
/-! PROOF. The requests that come before the end of their owner's start-up step (R181). -/
namespace Sys2Proof.Machine

/-- Every request but STORE-READ is carried out under the gate of its own kind (log entry 10). -/
theorem serve_gated (r : Request) (h : ∀ k n o c, r ≠ .storeRead k n o c) : ∃ f, serve r = gated r.kind f := by
  cases r
  case storeRead k n o c => exact absurd rfl (h k n o c)
  all_goals exact ⟨_, rfl⟩

/-- The owner of a request kind and the start-up step it waits for (R181): the store 2; the Scheduler and the bells 3;
the stage and the inputs 4; the Timebase, the Sequencer, the budget and the link 6; the host link and the settings 1. -/
theorem gateStep_owner {k : Byte} (hk : isRequestKind k = true) :
    (gateStep k = 2 ∧ 0x20 ≤ k.toNat ∧ k.toNat ≤ 0x29) ∨
    (gateStep k = 3 ∧ (0x18 ≤ k.toNat ∧ k.toNat ≤ 0x1B ∨ 0x40 ≤ k.toNat ∧ k.toNat ≤ 0x44)) ∨
    (gateStep k = 4 ∧ (0x58 ≤ k.toNat ∧ k.toNat ≤ 0x5F ∨ 0x68 ≤ k.toNat ∧ k.toNat ≤ 0x6C)) ∨
    (gateStep k = 6 ∧ (0x10 ≤ k.toNat ∧ k.toNat ≤ 0x11 ∨ 0x30 ≤ k.toNat ∧ k.toNat ≤ 0x37 ∨
      0x48 ≤ k.toNat ∧ k.toNat ≤ 0x48 ∨ 0x50 ≤ k.toNat ∧ k.toNat ≤ 0x52)) ∨
    (gateStep k = 1 ∧ (0x70 ≤ k.toNat ∧ k.toNat ≤ 0x74 ∨ 0x78 ≤ k.toNat ∧ k.toNat ≤ 0x7A)) := by
  simp only [isRequestKind, Bool.or_eq_true, Bool.and_eq_true, decide_eq_true_eq, beq_iff_eq] at hk
  unfold gateStep
  dsimp only
  split_ifs <;> omega

section
variable {r : Request} {s : State}

/-- A request whose owner has not started is answered BUSY, whatever its values (log entries 10 and 75). -/
theorem exec_rowOf_busy (h : ∀ k n o c, r ≠ .storeRead k n o c) (h1 : 1 ≤ s.hlc.step)
    (early : s.hlc.step < gateStep r.kind) : exec (rowOf r) s = .next (reply r.kind .busy .none s) := by
  obtain ⟨f, hf⟩ := serve_gated r h
  rw [exec_rowOf, hf, gated_busy h1 early]

/-- Before the end of start-up step 1 a request is not answered. -/
theorem exec_rowOf_deaf (h : ∀ k n o c, r ≠ .storeRead k n o c) (h0 : s.hlc.step = 0) :
    exec (rowOf r) s = .next s := by
  obtain ⟨f, hf⟩ := serve_gated r h
  rw [exec_rowOf, hf, gated_deaf h0]

end

/-- Settles O11: the gate of the kind, by the owner of the kind; STORE-READ has a gate of its own. -/
theorem requestsBeforeStartup : Obligations.RequestsBeforeStartup := by
  refine ⟨fun kind number offset count s h0 => congrArg _ (if_pos h0), fun r s hr => ?_⟩
  have owner := gateStep_owner (isRequestKind_kind r)
  dsimp only
  refine ⟨by omega, fun h1 early => exec_rowOf_busy hr h1 (by omega), exec_rowOf_deaf hr⟩

end Sys2Proof.Machine
end

