-- ==== Sys2Proof/Proofs/SavedSettings.lean ====
section
/-! PROOF. CONFIG-GET, CONFIG-SAVE, and the completion of a save (R177, R179). -/
namespace Sys2Proof.Machine

section
variable {s : State} {v : SaveRec}

/-! ## CONFIG-GET and CONFIG-SAVE (R179) -/

/-- CONFIG-GET compares the live record with the one the saved copy holds, or is to hold. -/
theorem configGet_replies (h : 1 ≤ s.hlc.step) : exec .configGet s = .next (reply 0x79#8 .ok
    (.config s.hlc.live s.hlc.source (decide (savedRecord s.hlc ≠ some s.hlc.live)) s.hlc.save.isSome) s) :=
  gated_hostLink (by decide) h

theorem savedRecord_saving (h : s.hlc.save = some v) : savedRecord s.hlc = some v.record := by
  unfold savedRecord; simp only [h]

theorem savedRecord_written {r : Settings} {crc : Half} (h : s.hlc.save = none) (hs : s.hlc.saved = .written r crc) :
    savedRecord s.hlc = some r := by
  unfold savedRecord; simp only [h, hs]

/-- A copy that was never written or was cut short holds no record (log entry 93). -/
theorem savedRecord_none (h : s.hlc.save = none) (hs : s.hlc.saved = .never ∨ s.hlc.saved = .broken) :
    savedRecord s.hlc = none := by
  unfold savedRecord
  rcases hs with hs | hs <;> simp only [h, hs]

/-- The difference that CONFIG-GET tells of is between two records where there are two. -/
theorem configGet_compares {r : Settings} (h : 1 ≤ s.hlc.step) (hr : savedRecord s.hlc = some r) :
    exec .configGet s = .next (reply 0x79#8 .ok
      (.config s.hlc.live s.hlc.source (decide (r ≠ s.hlc.live)) s.hlc.save.isSome) s) := by
  rw [configGet_replies h, hr]
  simp only [ne_eq, Option.some.injEq]

theorem configGet_unsaved (h : 1 ≤ s.hlc.step) (hr : savedRecord s.hlc = none) : exec .configGet s =
    .next (reply 0x79#8 .ok (.config s.hlc.live s.hlc.source true s.hlc.save.isSome) s) := by
  rw [configGet_replies h, hr]
  rfl

theorem configSave_busy (h : 1 ≤ s.hlc.step) (saving : s.hlc.save.isSome = true) :
    exec .configSave s = .next (reply 0x7A#8 .busy .none s) :=
  (gated_hostLink (by decide) h).trans (congrArg _ (if_pos saving))

theorem configSave_begins (h : 1 ≤ s.hlc.step) (free : s.hlc.save = none) :
    exec .configSave s = .next (reply 0x7A#8 .ok .none (beginSave s)) :=
  (gated_hostLink (by decide) h).trans (congrArg _ (if_neg (by simp [free])))

/-! ## The completion of a save (R177, R179) -/

theorem configSaveComplete_due (h : s.hlc.save = some v) (due : v.due ≤ s.tb.elapsed) :
    exec .configSaveComplete s = .next (finishSave v s) := by
  have saved : saveDue s = some v := by
    unfold saveDue
    rw [h]
    exact if_pos due
  show execConfigSaveComplete s = _
  unfold execConfigSaveComplete
  rw [saved]

/-- A save that completes before the causes are cleared leaves SAVED to start-up step 1 (R179; log entry 15). -/
theorem finishSave_early (h : s.hlc.step = 0) : finishSave v s = { s with
    hlc.saved := .written v.record v.record.crc, hlc.save := none, hlc.savedPending := true } := if_pos h

theorem finishSave_told (h : 1 ≤ s.hlc.step) : finishSave v s = raise (.settingsEvent .saved) { s with
    hlc.saved := .written v.record v.record.crc, hlc.save := none } :=
  if_neg (show s.hlc.step ≠ 0 by omega)

end

/-- Settles O59: the record that CONFIG-GET compares with, the save begun, and its completion. -/
theorem configGetAndSave : Obligations.ConfigGetAndSave := by
  refine fun s => ⟨fun h => ⟨fun v hv => configGet_compares h (savedRecord_saving hv),
      fun free => ⟨fun r crc hs => configGet_compares h (savedRecord_written free hs),
        fun hs => configGet_unsaved h (savedRecord_none free hs)⟩,
      configSave_busy h, configSave_begins h⟩,
    fun v hv due => ⟨fun h => ?told, fun h => ?early⟩⟩
  case told => rw [configSaveComplete_due hv due, finishSave_told h]
  case early => rw [configSaveComplete_due hv due, finishSave_early h]

end Sys2Proof.Machine
end

