-- ==== Sys2Proof/Proofs/SettingsFields.lean ====
section
/-! PROOF. The fields of a CONFIG-SET and their ranges (R178, section 11.1). -/
namespace Sys2Proof.Machine

/-- The range of a field's value (section 11.1). -/
def fieldInRange (f : SettingField) : Prop :=
  match f with
  | .budget v => 4 ≤ v ∧ v ≤ 64 | .slewLimit v => v ≤ 10000 | .defaultProgramme v => v ≤ 7
  | .lateness v => 5 ≤ v ∧ v ≤ 200 | .countBell v => v ≤ 19 | .countSpacing v => 1000 ≤ v ∧ v ≤ 4000
  | .gapLimit v => 2 ≤ v ∧ v ≤ 20 | .retries v => v ≤ 3 | .wakeLength v => 1 ≤ v ∧ v ≤ 50
  | .lampRests v => ∀ l ∈ v.toList, l ≤ 255 | .stepRate v => 20 ≤ v ∧ v ≤ 1000
  | .discipline _ | .inputFilter _ | .bellMutes _ | .causeMasks _ => True

theorem fieldOk_iff (f : SettingField) : fieldOk f = true ↔ fieldInRange f := by
  cases f
  case budget v => exact within_iff 4 64 v
  case slewLimit v => exact (within_iff 0 10000 v).trans (and_iff_right v.zero_le)
  case defaultProgramme v => exact decide_eq_true_iff.trans Nat.lt_succ_iff
  case lateness v => exact within_iff 5 200 v
  case countBell v => exact decide_eq_true_iff.trans Nat.lt_succ_iff
  case countSpacing v => exact within_iff 1000 4000 v
  case gapLimit v => exact within_iff 2 20 v
  case retries v => exact decide_eq_true_iff
  case wakeLength v => exact within_iff 1 50 v
  case lampRests v => simp only [fieldOk, fieldInRange, List.all_eq_true, decide_eq_true_eq]
  case stepRate v => exact within_iff 20 1000 v
  all_goals exact iff_of_true rfl trivial

/-- A CONFIG-SET is taken if no field is named twice and every value is in range (R178). -/
theorem fieldsOk_iff (fields : List SettingField) :
    fieldsOk fields = true ↔ (fields.map fieldNumber).Nodup ∧ ∀ f ∈ fields, fieldInRange f := by
  simp only [fieldsOk, Bool.and_eq_true, decide_eq_true_eq, List.all_eq_true, fieldOk_iff]

/-! ## CONFIG-SET (R178) -/

section
variable {fields : List SettingField} {s : State}

/-- A CONFIG-SET that names a field: its checks in their order. -/
theorem configSet_checks (h : 1 ≤ s.hlc.step) (named : fields ≠ []) : exec (.configSet fields) s =
    .next (if fieldsOk fields = false then reply 0x78#8 .badValue .none s
      else if (fields.foldl Settings.put s.hlc.live).budget < s.held then reply 0x78#8 .inUse .none s
      else settle (reply 0x78#8 .ok .none (applySettings (fields.foldl Settings.put s.hlc.live) s))) := by
  have some_named : ¬fields.isEmpty = true := by simpa using named
  refine (gated_hostLink (by decide) h).trans (congrArg _ ((if_neg some_named).trans ?_))
  simp only [Bool.not_eq_true']

end

end Sys2Proof.Machine
end

