-- ==== Sys2Proof/Proofs/SettingsTaken.lean ====
section
/-! PROOF. What each owner makes of new settings: the discipline, the rest levels, the mutes, and the budget with the
claims that it refuses (R10, R29, R81, R100, R107, R111, R178). -/
namespace Sys2Proof.Machine

/-! ## The discipline (R10) -/

section
variable {s : State}

theorem setDiscipline_on (h : s.tb.disc = .off) : setDiscipline true s = { s with
    tb.disc := if s.tb.held.isSome then .held else .seeking, tb.lastPulse := none, tb.lossAt := none } := if_pos h

theorem setDiscipline_already (h : s.tb.disc ≠ .off) : setDiscipline true s = s := if_neg h

end

/-! ## The mutes (R100; log entry 79) -/

section
variable {s : State}

theorem setMute_live (b : Bell) (on : Bool) (s : State) : (setMute b on s).hlc.live = { s.hlc.live with
    bellMutes := if on then s.hlc.live.bellMutes ||| (1#20 <<< b.val)
      else s.hlc.live.bellMutes &&& ~~~(1#20 <<< b.val) } := by
  cases on with
  | false => rfl
  | true =>
    have flagged : (muteFlagged b s).hlc.live =
        { s.hlc.live with bellMutes := s.hlc.live.bellMutes ||| (1#20 <<< b.val) } :=
      (removeStrikes_inner _ (.refl _)).live
    rw [setMute_on]
    dsimp only
    split <;> exact flagged

/-- A bell whose mute field changes is muted or released as BELL-MUTE would. -/
def changeMute (new : BitVec 20) (s : State) (b : Bell) : State :=
  if s.hlc.live.bellMutes.getLsbD b.val = new.getLsbD b.val then s else setMute b (new.getLsbD b.val) s

theorem mutesChanged_eq (new : BitVec 20) (s : State) :
    mutesChanged new s = (List.finRange 20).foldl (changeMute new) s := by
  unfold mutesChanged changeMute State.muted
  simp only [beq_iff_eq]

/-- The mute flags with one bell's at its new value. -/
theorem changeMute_live (new : BitVec 20) (s : State) (b : Bell) : ∃ w : BitVec 20,
    (changeMute new s b).hlc.live = { s.hlc.live with bellMutes := w } ∧
      ∀ c : Bell, w.getLsbD c.val = if c = b then new.getLsbD c.val else s.hlc.live.bellMutes.getLsbD c.val := by
  have bit (c : Bell) : (1#20 <<< b.val).getLsbD c.val = decide (c = b) := by
    simpa [Fin.ext_iff] using foldBells_getLsbD [b.val] 0 c
  unfold changeMute
  split
  next same =>
    refine ⟨s.hlc.live.bellMutes, rfl, fun c => ?_⟩
    split
    next hc => rw [hc, same]
    next => rfl
  next =>
    refine ⟨_, setMute_live b _ s, fun c => ?_⟩
    by_cases hc : c = b
    · subst hc
      cases new.getLsbD c.val
      · rw [if_pos rfl, if_neg Bool.false_ne_true, BitVec.getLsbD_and, BitVec.getLsbD_not, bit]
        simp
      · rw [if_pos rfl, if_pos rfl, BitVec.getLsbD_or, bit]
        simp
    · cases new.getLsbD b.val
      · rw [if_neg hc, if_neg Bool.false_ne_true, BitVec.getLsbD_and, BitVec.getLsbD_not, bit]
        simp [hc]
      · rw [if_neg hc, if_pos rfl, BitVec.getLsbD_or, bit]
        simp [hc]

theorem changeMutes_live (new : BitVec 20) (bs : List Bell) (s : State) : ∃ w : BitVec 20,
    (bs.foldl (changeMute new) s).hlc.live = { s.hlc.live with bellMutes := w } ∧
      ∀ c : Bell, w.getLsbD c.val = if c ∈ bs then new.getLsbD c.val else s.hlc.live.bellMutes.getLsbD c.val := by
  induction bs generalizing s with
  | nil => exact ⟨_, rfl, fun _ => rfl⟩
  | cons b bs ih =>
    obtain ⟨x, hx, first⟩ := changeMute_live new s b
    obtain ⟨w, hw, rest⟩ := ih (changeMute new s b)
    refine ⟨w, by rw [List.foldl_cons, hw, hx], fun c => ?_⟩
    rw [rest, hx, first]
    by_cases hb : c ∈ bs
    · simp [hb]
    · simp [hb]

/-- After the last bell the mutes are the new ones, and no other field has changed. -/
theorem mutesChanged_live (new : BitVec 20) (s : State) :
    (mutesChanged new s).hlc.live = { s.hlc.live with bellMutes := new } := by
  obtain ⟨w, hw, bits⟩ := changeMutes_live new (List.finRange 20) s
  have all : w = new := BitVec.eq_of_getLsbD_eq fun i hi => by simpa using bits ⟨i, hi⟩
  rw [mutesChanged_eq, hw, all]

end

/-! ## Up to the budget (R178) -/

section
variable {new : Settings} {s : State}

/-- The record in force but for the mutes, which change bell by bell. -/
def liveTaken (new : Settings) (s : State) : State :=
  { s with hlc.live := { new with bellMutes := s.hlc.live.bellMutes } }

/-- The Timebase has taken up its discipline. -/
def disciplineTaken (new : Settings) (s : State) : State :=
  if s.hlc.live.discipline = new.discipline then liveTaken new s else setDiscipline new.discipline (liveTaken new s)

/-- The Scheduler has taken up its default programme. -/
def programmeTaken (new : Settings) (s : State) : State :=
  if s.hlc.live.defaultProgramme = new.defaultProgramme then disciplineTaken new s
  else evalSeasons (disciplineTaken new s)

/-- The lamps have taken up their rest levels and the bells their mutes: all owners but the budget. -/
def mutesTaken (new : Settings) (s : State) : State :=
  (List.finRange 20).foldl (changeMute new.bellMutes)
    (restsChanged s.hlc.live.lampRests new.lampRests (programmeTaken new s))

theorem mutesTaken_eq (new : Settings) (s : State) : mutesTaken new s =
    mutesChanged new.bellMutes (restsChanged s.hlc.live.lampRests new.lampRests (programmeTaken new s)) :=
  (mutesChanged_eq _ _).symm

theorem applySettings_eq (new : Settings) (s : State) :
    applySettings new s = budgetChanged s.hlc.live.budget (mutesTaken new s) := by
  rw [mutesTaken_eq]
  rfl

theorem programmeTaken_live : (programmeTaken new s).hlc.live = { new with bellMutes := s.hlc.live.bellMutes } := by
  have discipline : (disciplineTaken new s).hlc.live = { new with bellMutes := s.hlc.live.bellMutes } := by
    unfold disciplineTaken
    split
    · rfl
    · exact (setDiscipline_inner _ (.refl (liveTaken new s))).live
  unfold programmeTaken
  split
  · exact discipline
  · exact (evalSeasons_inner (.refl _)).live.trans discipline

/-- Before the budget is acted on, the new record is in force whole. -/
theorem mutesTaken_live : (mutesTaken new s).hlc.live = new := by
  rw [mutesTaken_eq, mutesChanged_live]
  show { (programmeTaken new s).hlc.live with bellMutes := new.bellMutes } = new
  rw [programmeTaken_live]

theorem applySettings_live (new : Settings) (s : State) : (applySettings new s).hlc.live = new := by
  rw [applySettings_eq]
  exact (budgetChanged_inner _ (.refl _)).live.trans mutesTaken_live

/-! ## The budget (R111) -/

theorem applySettings_sameBudget (h : new.budget = s.hlc.live.budget) : applySettings new s = mutesTaken new s := by
  rw [applySettings_eq]
  unfold budgetChanged
  simp [mutesTaken_live, h]

theorem applySettings_moreBudget (h : s.hlc.live.budget < new.budget) :
    applySettings new s = grantPass (mutesTaken new s) := by
  rw [applySettings_eq]
  unfold budgetChanged
  simp [mutesTaken_live, h]

/-- A lower budget refuses the WAITING claims that it no longer fits, in the order of the waiting list. -/
theorem applySettings_lessBudget (h : new.budget < s.hlc.live.budget) : applySettings new s = grantPass
    (((waitingOrder (mutesTaken new s).dbu.claims).filter fun c => decide (new.budget < c.units)).foldl
      (fun t c => refuseClaim c t) (mutesTaken new s)) := by
  rw [applySettings_eq]
  unfold budgetChanged overBudget
  simp [mutesTaken_live, h, Nat.le_of_lt h]

end

/-! ## A claim refused (R107; log entries 43 and 80) -/

section
variable {c : Claim} {s : State}

/-- The claim is off the list. -/
def claimGone (c : Claim) (s : State) : State := { s with dbu.claims := dropKey c.kind.key s.dbu.claims }

theorem refuseClaim_strike {b : Bell} {due : Int} {o : StrikeOrigin} {k : Strike} (h : c.kind = .strike b due o)
    (found : s.bell.strikes.find? (Strike.isFor b due) = some k) : refuseClaim c s = dropLate k (claimGone c s) := by
  unfold refuseClaim claimGone
  simp only [h, found]

/-- The figures that still hold their shares are withdrawn in the order of the cue's list (log entry 80). -/
theorem refuseClaim_move {serial tag : Nat} {o : Owner} {shares : List Share}
    (h : c.kind = .figures (.move serial tag) o shares) : refuseClaim c s =
      (shares.filter fun sh => !sh.released).foldl (fun t sh => withdrawFig sh.fig (reportFig sh.fig .moveLate t))
        (claimGone c s) := by
  unfold refuseClaim claimGone
  simp only [h]

theorem refuseClaim_homing {f : Fig} {o : Owner} {shares : List Share} (h : c.kind = .figures (.homing f) o shares) :
    refuseClaim c s = homeFails f (claimGone c s) := by
  unfold refuseClaim claimGone
  simp only [h]

theorem refuseClaim_door {d : Door} {g : Goal} {k : DoorCmd} (h : c.kind = .door d g)
    (waiting : (s.door d).cmd = some k) :
    refuseClaim c s = doorUnserved d k.owner (endDoorCmd d (s.door d).state (claimGone c s)) := by
  have cmd : ((claimGone c s).door d).cmd = some k := waiting
  have refused : refuseClaim c s = doorTimesOut d k (claimGone c s) := by
    unfold refuseClaim
    simp only [h]
    rw [← h, ← claimGone, cmd]
  rw [refused, doorTimesOut_eq]
  rfl

theorem refuseClaim_turntable {g : TurnGoal} {k : TurnCmd} (h : c.kind = .turntable g)
    (waiting : s.stg.turn.cmd = some k) : refuseClaim c s =
      turnUnserved k.owner (endTurnCmd s.stg.turn.state s.stg.turn.count (claimGone c s)) := by
  have refused : refuseClaim c s = turnTimesOut k (claimGone c s) := by
    unfold refuseClaim claimGone
    simp only [h, waiting]
  rw [refused, turnTimesOut_eq]
  rfl

end

/-- Settles O58: the checks in their order, and what each owner makes of the new settings. -/
theorem configSetSets : Obligations.ConfigSetSets := by
  refine fun fields s h named => ⟨fieldsOk_iff fields, fun bad => ?badValue, fun ok low => ?inUse,
    fun ok fits => ?taken, applySettings_live _ s,
    ⟨applySettings_sameBudget, applySettings_moreBudget, applySettings_lessBudget⟩,
    rfl, setDiscipline_on, setDiscipline_already,
    fun c => ⟨fun serial tag o shares => refuseClaim_move, fun f o shares => refuseClaim_homing,
      fun b due o k => refuseClaim_strike, fun d g k => refuseClaim_door, fun g k => refuseClaim_turntable⟩⟩
  case badValue => rw [configSet_checks h named, if_pos bad]
  case inUse => rw [configSet_checks h named, if_neg (by simp [ok]), if_pos low]
  case taken => rw [configSet_checks h named, if_neg (by simp [ok]), if_neg (Nat.not_lt.2 fits)]

end Sys2Proof.Machine
end

