-- ==== Sys2Proof/Proofs/StartupSettings.lean ====
section
/-! PROOF. Start-up step 1: the settings in force, the causes raised for them, and what each block begins with (R35,
R86, R105, R154, R177, R179, R180). -/
namespace Sys2Proof.Machine

/-- A start-up step begins when the one before it has ended (R180). -/
theorem afterStep_at {n : Nat} {f : State → State} {s : State} (h : s.hlc.step = n) : afterStep n f s = f s :=
  whenDue_true (decide_eq_true h)

section
variable {s : State}

/-! ## The settings in force and their causes (R177, R179) -/

/-- The record in force from step 1 on, with its source: the one loaded after a power-on reset, else the one kept. -/
def settingsInForce (s : State) : Settings × Source :=
  if s.hlc.powerOn then loadSettings s.hlc.saved else (s.hlc.live, s.hlc.source)

theorem settingsInForce_powerOn (h : s.hlc.powerOn = true) : settingsInForce s = loadSettings s.hlc.saved := if_pos h

theorem settingsInForce_kept (h : s.hlc.powerOn = false) : settingsInForce s = (s.hlc.live, s.hlc.source) :=
  if_neg (by simp [h])

/-- DEFAULTED is told of: the factory's settings have been taken at power-on. -/
def toldDefaulted (s : State) : Bool := s.hlc.powerOn && decide ((settingsInForce s).2 = .defaulted)

/-- The cause of the settings at its `n`-th occurrence since the clearing. -/
def settingsCause (n : Half) (e : SettingsEvent) (s : State) : CauseRec :=
  { flag := true, count := n, detail := some { what := .settingsEvent e, stamp := s.stamp } }

theorem occurrence_settings {e : SettingsEvent} {n : Half} {t : State} (before : (t.hlc.causes.get 15).count = n)
    (now : t.stamp = s.stamp) : occurrence (.settingsEvent e) t = settingsCause (n + 1) e s := by
  rw [← before]
  unfold settingsCause
  rw [← now]
  rfl

/-- The state in which the settings are taken: the causes and the claims are cleared and the receiver hunts. -/
def settingsCleared (s : State) : State := clearCauses { s with hlc.step := 1, hlc.rx := .hunting, dbu.claims := [] }

/-- The settings are in force. -/
def settingsLoaded (s : State) : State :=
  if s.hlc.powerOn then takeSettings (settingsCleared s) else settingsCleared s

theorem settingsLoaded_eq (s : State) : ∃ cs, settingsLoaded s = { settingsCleared s with
      hlc.live := (settingsInForce s).1, hlc.source := (settingsInForce s).2, hlc.causes := cs } ∧
    cs.get 15 = if toldDefaulted s then settingsCause 1 .defaulted s else .clear := by
  have clear : (settingsCleared s).hlc.causes.get 15 = .clear := vector_get_replicate ..
  unfold settingsLoaded toldDefaulted
  cases hp : s.hlc.powerOn with
  | false =>
    rw [settingsInForce_kept hp]
    exact ⟨_, rfl, clear⟩
  | true =>
    rw [settingsInForce_powerOn hp]
    have taken : takeSettings (settingsCleared s) =
        let t : State := { settingsCleared s with
          hlc.live := (loadSettings s.hlc.saved).1, hlc.source := (loadSettings s.hlc.saved).2 }
        if (loadSettings s.hlc.saved).2 = .defaulted then raise (.settingsEvent .defaulted) t else t := rfl
    rw [if_pos rfl, taken]
    by_cases hd : (loadSettings s.hlc.saved).2 = .defaulted
    · refine ⟨_, (if_pos hd).trans (raise_eq le_rfl), (vector_get_set ..).trans ((if_pos rfl).trans ?_)⟩
      rw [if_pos (by simp [hd])]
      exact occurrence_settings (congrArg CauseRec.count clear) rfl
    · exact ⟨_, if_neg hd, clear.trans (if_neg (by simp [hd])).symm⟩

/-- A SAVED that came before the clearing is raised after it, and after a DEFAULTED (R179; log entry 15). -/
theorem raiseSaved_eq {t : State} (h : 1 ≤ t.hlc.step) : ∃ cs, raiseSaved t = { t with
      hlc.savedPending := false, hlc.causes := cs } ∧
    cs.get 15 = if t.hlc.savedPending then settingsCause ((t.hlc.causes.get 15).count + 1) .saved t
      else t.hlc.causes.get 15 := by
  unfold raiseSaved
  cases hp : t.hlc.savedPending with
  | false =>
    refine ⟨t.hlc.causes, ?_, rfl⟩
    rw [← hp]
    exact if_neg (by simp [hp])
  | true => exact ⟨_, (if_pos rfl).trans (raise_eq h), (vector_get_set ..).trans (if_pos rfl)⟩

/-! ## The first sample (R154; log entry 31) -/

theorem sampleInputs_eq (t : State) : ∃ k, sampleInputs t = { t with inm := k } ∧
    k.fresh = false ∧ k.filterOn = t.hlc.live.inputFilter := by
  have fields : sampleInputs t = { t with inm := (sampleInputs t).inm } := by
    unfold sampleInputs
    dsimp only
    split <;> rfl
  exact ⟨_, fields, (sampleInputs_taken t).2, (sampleInputs_taken t).1⟩

theorem startProgramme_eq (t : State) : startProgramme t = { t with
    sch := if t.hlc.powerOn then { t.sch with active := t.hlc.live.defaultProgramme, chosenBy := none } else t.sch } := by
  unfold startProgramme
  split <;> rfl

/-! ## Step 1 (R180) -/

/-- The state that step 1 leaves with the causes `cs` and the sampled inputs `k`: every block as it begins under the
settings in force. -/
def settingsStarted (cs : Vector CauseRec 16) (k : INM) (s : State) : State :=
  { s with
    tb := { s.tb with
      disc := if (settingsInForce s).1.discipline then .seeking else .off
      held := none, correction := 0, slewPhase := 0, lastPulse := none, lossAt := none }
    sch := if s.hlc.powerOn then
      { s.sch with active := (settingsInForce s).1.defaultProgramme, chosenBy := none } else s.sch
    seq.lamps := Vector.ofFn fun ch => .resting ((settingsInForce s).1.lampRests.get ch)
    bell.bells := Vector.ofFn fun b =>
      (s.bell.bells.get b).softReset ((settingsInForce s).1.bellMutes.getLsbD b.val)
    dbu.claims := []
    inm := k
    hlc := { s.hlc with
      step := 1, rx := .hunting, live := (settingsInForce s).1, source := (settingsInForce s).2
      savedPending := false, causes := cs } }

/-- Step 1 has taken the first sample under the filter in force, and has told of the settings by their cause. -/
theorem startSettings_eq (s : State) : ∃ cs k, startSettings s = settingsStarted cs k s ∧
    k.fresh = false ∧ k.filterOn = (settingsInForce s).1.inputFilter ∧
    cs.get 15 = if s.hlc.savedPending then settingsCause (if toldDefaulted s then 2 else 1) .saved s
      else if toldDefaulted s then settingsCause 1 .defaulted s else .clear := by
  obtain ⟨cs, loaded, hcs⟩ := settingsLoaded_eq s
  obtain ⟨cs', saved, hcs'⟩ := raiseSaved_eq (t := startTimebase (settingsLoaded s)) (by rw [loaded]; exact le_rfl)
  obtain ⟨k, sampled, fresh, filter⟩ :=
    sampleInputs_eq (startProgramme (raiseSaved (startTimebase (settingsLoaded s))))
  have run : startSettings s =
      let t := sampleInputs (startProgramme (raiseSaved (startTimebase (settingsLoaded s))))
      { t with
        seq.lamps := Vector.ofFn t.restLamp
        bell.bells := Vector.ofFn fun b => (t.bell.bells.get b).softReset (t.muted b) } := rfl
  refine ⟨cs', k, ?_, fresh, ?_, ?_⟩
  · rw [run, sampled, startProgramme_eq, saved, loaded]
    rfl
  · rw [filter, startProgramme_eq, saved, loaded]
    rfl
  · rw [hcs', loaded]
    show (if s.hlc.savedPending then settingsCause ((cs.get 15).count + 1) .saved s else cs.get 15) = _
    rw [hcs]
    cases toldDefaulted s <;> rfl

end

end Sys2Proof.Machine
end

