-- ==== Sys2Proof/Proofs/StartupItems.lean ====
section
/-! PROOF. Start-up steps 2 and 3: a load answered against the directory, what each block makes of its copy, and the
recomputation of a table already built (R29, R30, R35, R36, R47, R87, R133). -/
namespace Sys2Proof.Machine

/-! ## A load answered against the directory (R47) -/

section
variable {id : ItemId} {s : State} {x : Item}

theorem loadItem_absent (h : findItem id s = none) : loadItem id s = (s, .absent) := by
  unfold loadItem; rw [h]

theorem loadItem_unusable (h : findItem id s = some x) (hu : x.usable = false) : loadItem id s = (s, .unusable) := by
  unfold loadItem; simp only [h]; exact if_pos (by simp [hu])

theorem checks_iff : x.checks = true ↔ crc16 x.content = x.check := beq_iff_eq

theorem loadItem_content (h : findItem id s = some x) (hu : x.usable = true) (hc : crc16 x.content = x.check) :
    loadItem id s = (s, .content x.content) := by
  unfold loadItem; simp only [h]
  exact (if_neg (by simp [hu])).trans (if_pos (checks_iff.2 hc))

/-- A USABLE item whose check fails becomes UNUSABLE, and CHECK_FAILED is raised. -/
theorem loadItem_fails (h : findItem id s = some x) (hu : x.usable = true) (hc : crc16 x.content ≠ x.check) :
    loadItem id s = (raise (.storeEvent (.checkFailed id)) (mapItem id (fun i => { i with usable := false }) s),
      .unusable) := by
  unfold loadItem; simp only [h]
  exact (if_neg (by simp [hu])).trans (if_neg (mt checks_iff.1 hc))

/-- A load changes the marks of the store and the causes alone. -/
theorem loadItem_sch (id : ItemId) (s : State) : (loadItem id s).1.sch = s.sch := by
  unfold loadItem
  split
  · rfl
  · split
    · rfl
    · split
      · rfl
      · exact raise_sch _ _

/-! ## What each block makes of its copy (R29, R30, R35, R87, R133) -/

/-- The bytes that a load is answered with. -/
def LoadAnswer.bytes (a : LoadAnswer) : Option (List Byte) :=
  match a with
  | .content bs => some bs
  | _ => none

/-- A block takes its copy from the bytes of the answer, and has none where there are no bytes. -/
theorem loadCopy_eq {α : Type} (id : ItemId) (parse : List Byte → Option α) (s : State) :
    loadCopy id parse s = ((loadItem id s).1, (loadItem id s).2.bytes.bind parse) := by
  unfold loadCopy
  split
  next t bs h => rw [h]; rfl
  next t a other h =>
    rw [h]
    cases a with
    | content bs => exact absurd rfl (other bs)
    | absent => rfl
    | unusable => rfl

theorem takeLoad_seasons (s : State) : takeLoad .seasons s = evalSeasons { (loadItem ⟨.seasons, 0⟩ s).1 with
    sch.seasons := (loadItem ⟨.seasons, 0⟩ s).2.bytes.bind parseSeasonsItem } := by
  simp only [takeLoad, loadCopy_eq]

theorem takeLoad_programmes (s : State) : takeLoad .programmes s = evalSeasons { (loadItem ⟨.programmes, 0⟩ s).1 with
    sch.programmes := (loadItem ⟨.programmes, 0⟩ s).2.bytes.bind parseProgrammesItem } := by
  simp only [takeLoad, loadCopy_eq]

theorem takeLoad_voicing (s : State) : takeLoad .voicing s =
    takeVoicing ((loadItem ⟨.voicing, 0⟩ s).2.bytes.bind parseVoicingItem) (loadItem ⟨.voicing, 0⟩ s).1 := by
  simp only [takeLoad, loadCopy_eq]

theorem takeLoad_figures (s : State) : takeLoad .figures s = takeMachinery
    (((loadItem ⟨.figures, 0⟩ s).2.bytes.bind parseFiguresItem).getD noMachinery) (loadItem ⟨.figures, 0⟩ s).1 := by
  simp only [takeLoad, loadCopy_eq]

/-- The entry that the table built from a load's definitions has at an index (R35). -/
def loadedDefn (defs : Option (Vector TrigDef 32)) (i : Trig) : TrigDef :=
  match defs with
  | some ds => ds.get i
  | none => .empty

theorem takeLoad_triggers (s : State) : takeLoad .triggers s = { (loadItem ⟨.triggers, 0⟩ s).1 with
    sch.built := true
    sch.trigs := Vector.ofFn fun i =>
      (s.trig i).built (loadedDefn ((loadItem ⟨.triggers, 0⟩ s).2.bytes.bind parseTriggersItem) i) } := by
  have defn (defs : Option (Vector TrigDef 32)) (i : Trig) :
      (defs.map (·.get i)).getD TrigRec.empty.defn = loadedDefn defs i := by cases defs <;> rfl
  simp only [takeLoad, loadCopy_eq, builtFrom, buildTable, defn, loadItem_sch]
  rfl

theorem requestWake_stg (again : Bool) (s : State) : (requestWake again s).stg = s.stg := by
  have entered : (enqueue .wake 0 [] (.wake again) s).stg = s.stg := by
    unfold enqueue
    split <;> rfl
  unfold requestWake
  split
  · rfl
  · split
    · rfl
    · split <;> exact entered

theorem tidySweep_stg (s : State) : (tidySweep s).stg = s.stg := by
  unfold tidySweep
  split <;> rfl

theorem bindNodes_stg (bound : List (Fin 16)) (s : State) : (bindNodes bound s).stg = s.stg := tidySweep_stg _

/-- The definitions in force are the new ones, whatever becomes of the link. -/
theorem takeMachinery_defs (m : Machinery) (s : State) : (takeMachinery m s).stg.figDefs = m.figs ∧
    (takeMachinery m s).stg.doorDefs = m.doors ∧ (takeMachinery m s).stg.turnDef = m.turn := by
  rw [takeMachinery_eq rfl rfl rfl]
  split
  · rw [requestWake_stg, bindNodes_stg]
    exact ⟨rfl, rfl, rfl⟩
  · rw [bindNodes_stg]
    exact ⟨rfl, rfl, rfl⟩

end

/-! ## The recomputation of a table already built (R36) -/

section
variable {i : Trig} {s : State}

/-- An entry at the recomputation, its follow-on seen to: an ARMED entry takes its next fire time afresh, and an
occurrence that has passed is reported LATE (log entry 21). -/
def recomputeFire (i : Trig) (s : State) : State :=
  let now := s.tb.showTime
  let r := s.trig i
  if r.state ≠ .armed then s
  else
    let next := earliestFrom r.defn r.lastFire now
    match r.next with
    | some t =>
      if t < now then
        let o := (latestTo r.defn r.lastFire (now - 1)).getD t
        match r.defn.kind with
        | .once => raiseLate i o (s.setTrig i (settleNext none false r))
        | _ => raiseLate i o (s.setTrig i (settleNext next r.first r))
      else s.setTrig i (settleNext next r.first r)
    | none => s.setTrig i (settleNext next r.first r)

/-- A follow-on that has not passed is kept. -/
theorem recomputeEntry_ahead (h : ∀ f, (s.trig i).followOn = some f → s.tb.showTime ≤ f.due) :
    recomputeEntry i s = recomputeFire i s := by
  unfold recomputeEntry
  cases hf : (s.trig i).followOn with
  | none => rfl
  | some f =>
    simp only [if_neg (Int.not_lt.2 (h f hf))]
    rfl

/-- The entry with its follow-on discarded, as LATE (R36; log entry 58). -/
def followOnLate (i : Trig) (f : FollowOn) (s : State) : State :=
  raiseLate i f.due (s.setTrig i { s.trig i with followOn := none })

theorem followOnLate_trig (f : FollowOn) : ((followOnLate i f s).trig i).followOn = none := by
  have entry : (followOnLate i f s).trig i = { s.trig i with followOn := none } := by
    show (raise _ _).sch.trigs.get i = _
    rw [raise_sch]
    exact trig_setTrig_self s i _
  rw [entry]

theorem recomputeEntry_passed {f : FollowOn} (hf : (s.trig i).followOn = some f) (h : f.due < s.tb.showTime) :
    recomputeEntry i s = recomputeEntry i (followOnLate i f s) := by
  have discarded : recomputeEntry i (followOnLate i f s) = recomputeFire i (followOnLate i f s) :=
    recomputeEntry_ahead fun g hg => by rw [followOnLate_trig] at hg; cases hg
  rw [discarded]
  unfold recomputeEntry
  simp only [hf, if_pos h]
  have now : s.tb.showTime = (followOnLate i f s).tb.showTime := by
    show _ = (raise _ _).tb.showTime
    rw [raise_tb]
    rfl
  rw [now]
  rfl

theorem recomputeFire_notArmed (h : (s.trig i).state ≠ .armed) : recomputeFire i s = s := if_pos h

theorem recomputeFire_ahead {t : Int} (armed : (s.trig i).state = .armed) (hn : (s.trig i).next = some t)
    (h : s.tb.showTime ≤ t) : recomputeFire i s = s.setTrig i (settleNext
      (earliestFrom (s.trig i).defn (s.trig i).lastFire s.tb.showTime) (s.trig i).first (s.trig i)) := by
  refine (if_neg (not_not_intro armed)).trans ?_
  simp only [hn]
  exact if_neg (Int.not_lt.2 h)

/-- A fire that has passed is reported LATE; a ONCE entry is then spent. -/
theorem recomputeFire_passed {t : Int} (armed : (s.trig i).state = .armed) (hn : (s.trig i).next = some t)
    (h : t < s.tb.showTime) : recomputeFire i s =
      raiseLate i ((latestTo (s.trig i).defn (s.trig i).lastFire (s.tb.showTime - 1)).getD t) (s.setTrig i
        (if (s.trig i).defn.kind = .once then settleNext none false (s.trig i)
          else settleNext (earliestFrom (s.trig i).defn (s.trig i).lastFire s.tb.showTime) (s.trig i).first
            (s.trig i))) := by
  refine (if_neg (not_not_intro armed)).trans ?_
  simp only [hn, if_pos h]
  cases (s.trig i).defn.kind <;> rfl

end

end Sys2Proof.Machine
end

