-- ==== Sys2Proof/Proofs/StartupSteps.lean ====
section
/-! PROOF. Start-up step 4, in which the guard groups are evaluated, step 5, with which the link begins, and the six
steps together (R132, R153, R166, R180). -/
namespace Sys2Proof.Machine

/-! ## The guard groups at start-up (R166; log entry 92) -/

section
variable {s t u : State} {g : Group}

/-- A group's record after the evaluation of start-up, which found the mismatches `m`. -/
def GuardRec.started (m : BitVec 16) (r : GuardRec) : GuardRec :=
  { r with
    mismatched := decide (m ≠ 0), mismatching := m, settleEnd := none
    trips := if m ≠ 0 then satInc r.trips else r.trips }

/-- GUARD_TRIP is raised for a group found mismatching; the group and the levels are those of `s`. -/
def tellGuard (s u : State) (g : Group) : State :=
  if s.found g ≠ 0 then raise (.guardTrip g (s.group g).defn.action (s.found g)) u else u

theorem startGuard_eq (g : Group) (s : State) :
    startGuard g s = tellGuard s (s.setGroup g ((s.group g).started (s.found g))) g := by
  unfold tellGuard
  by_cases hm : s.found g = 0
  · rw [if_neg (not_not_intro hm)]
    unfold GuardRec.started
    rw [hm]
    exact if_neg (not_not_intro hm)
  · have found : (s.group g).started (s.found g) = { s.group g with
        mismatched := true, mismatching := s.found g, settleEnd := none, trips := satInc (s.group g).trips } := by
      simp only [GuardRec.started, ne_eq, hm, not_false_eq_true, decide_true, if_true]
    rw [if_pos hm, found]
    exact if_pos hm

theorem tellGuard_inm : (tellGuard s u g).inm = u.inm := by
  unfold tellGuard
  split
  · exact raise_inm _ _
  · rfl

theorem tellGuard_stg : (tellGuard s u g).stg = u.stg := by
  unfold tellGuard
  split
  · exact raise_stg _ _
  · rfl

theorem tellGuard_tb : (tellGuard s u g).tb = u.tb := by
  unfold tellGuard
  split
  · exact raise_tb _ _
  · rfl

/-- An occurrence is recorded by the causes, the start-up step and the instant alone. -/
theorem raise_hlc_congr {d : Detail} (hlc : t.hlc = u.hlc) (tb : t.tb = u.tb) : (raise d t).hlc = (raise d u).hlc := by
  unfold raise State.stamp
  rw [← hlc, ← tb]
  split <;> simp [hlc]

theorem tellGuard_hlc_congr (same : s.found g = t.found g) (action : (s.group g).defn.action = (t.group g).defn.action)
    {v w : State} (hlc : v.hlc = w.hlc) (tb : v.tb = w.tb) : (tellGuard s v g).hlc = (tellGuard t w g).hlc := by
  unfold tellGuard
  rw [same, action]
  split
  · exact raise_hlc_congr hlc tb
  · exact hlc

theorem group_startGuard_other {h : Group} (other : g ≠ h) : (startGuard g s).group h = s.group h := by
  rw [startGuard_eq]
  unfold State.group
  rw [tellGuard_inm]
  exact (vector_get_set ..).trans (if_neg other)

theorem group_startGuard_self : (startGuard g s).group g = (s.group g).started (s.found g) := by
  rw [startGuard_eq]
  unfold State.group
  rw [tellGuard_inm]
  exact group_setGroup_self s g _

theorem level_startGuard : (startGuard g s).inm.general.level = s.inm.general.level := by
  rw [startGuard_eq, tellGuard_inm]
  rfl

/-- A group is evaluated once, as it stood before: the evaluation of another group leaves it. -/
theorem groups_startGuards {gs : List Group} (once : gs.Nodup) (s : State) (h : Group) :
    (gs.foldl (fun t g => startGuard g t) s).group h =
      if h ∈ gs then (s.group h).started (s.found h) else s.group h := by
  induction gs generalizing s with
  | nil => rfl
  | cons g gs ih =>
    obtain ⟨hg, once⟩ := List.nodup_cons.1 once
    rw [List.foldl_cons, ih once]
    by_cases hh : g = h
    · subst hh
      rw [if_neg hg, if_pos List.mem_cons_self, group_startGuard_self]
    · have found : (startGuard g s).found h = s.found h := by
        unfold State.found
        rw [group_startGuard_other hh, level_startGuard]
      rw [group_startGuard_other hh, found]
      simp [Ne.symm hh]

/-- What the causes have been told of after the evaluations is what the groups of `s` give, whatever else differs. -/
theorem causes_startGuards {gs : List Group} (once : gs.Nodup) (groups : ∀ g ∈ gs, t.group g = s.group g)
    (level : t.inm.general.level = s.inm.general.level) (hlc : t.hlc = u.hlc) (tb : t.tb = u.tb) :
    (gs.foldl (fun t g => startGuard g t) t).hlc = (gs.foldl (tellGuard s) u).hlc := by
  induction gs generalizing t u with
  | nil => exact hlc
  | cons g gs ih =>
    obtain ⟨hg, once⟩ := List.nodup_cons.1 once
    have found : t.found g = s.found g := by
      unfold State.found
      rw [groups g List.mem_cons_self, level]
    refine ih once (fun h hh => ?_) (level_startGuard.trans level) ?_ ?_
    · have other : g ≠ h := fun e => hg (e.symm ▸ hh)
      rw [group_startGuard_other other, groups h (List.mem_cons_of_mem g hh)]
    · show (startGuard g t).hlc = _
      rw [startGuard_eq]
      exact tellGuard_hlc_congr found (by rw [groups g List.mem_cons_self]) hlc tb
    · show (startGuard g t).tb = _
      rw [startGuard_eq, tellGuard_tb, tellGuard_tb]
      exact tb

theorem stg_startGuards (gs : List Group) (s : State) : (gs.foldl (fun t g => startGuard g t) s).stg = s.stg := by
  induction gs generalizing s with
  | nil => rfl
  | cons g gs ih =>
    rw [List.foldl_cons, ih, startGuard_eq, tellGuard_stg]
    rfl

/-! ## Step 4 (R153, R166) -/

theorem startDoors_stg (s : State) : (startDoors s).stg = (startStage { s with hlc.step := 4 }).stg :=
  stg_startGuards _ _

theorem startDoors_group (s : State) (g : Group) :
    (startDoors s).inm.groups.get g = (s.group g).started (s.found g) :=
  (groups_startGuards (List.nodup_finRange 4) _ g).trans (if_pos (List.mem_finRange g))

theorem startDoors_hlc (s : State) :
    (startDoors s).hlc = ((List.finRange 4).foldl (tellGuard s) { s with hlc.step := 4 }).hlc :=
  causes_startGuards (List.nodup_finRange 4) (fun _ _ => rfl) rfl rfl rfl

theorem tellGuards_step (gs : List Group) (u : State) : (gs.foldl (tellGuard s) u).hlc.step = u.hlc.step := by
  induction gs generalizing u with
  | nil => rfl
  | cons g gs ih =>
    have told : (tellGuard s u g).hlc.step = u.hlc.step := by
      unfold tellGuard
      split
      · exact raise_step _ _
      · rfl
    rw [List.foldl_cons, ih, told]

theorem startDoors_step (s : State) : (startDoors s).hlc.step = 4 := by
  rw [startDoors_hlc, tellGuards_step]

/-- A door is at the limit that alone is active (R153). -/
theorem doorFromLimits_eq (s : State) (d : Door) : doorFromLimits s d = { DoorRec.off with
    state := if s.limit d .closed = true ∧ s.limit d .opened = false then .closed
      else if s.limit d .opened = true ∧ s.limit d .closed = false then .opened else .unknown } := by
  unfold doorFromLimits
  cases s.limit d .closed <;> cases s.limit d .opened <;> rfl

theorem startDoors_door (s : State) (d : Door) : (startDoors s).stg.doors.get d = { DoorRec.off with
    state := if s.limit d .closed = true ∧ s.limit d .opened = false then .closed
      else if s.limit d .opened = true ∧ s.limit d .closed = false then .opened else .unknown } := by
  rw [startDoors_stg, ← doorFromLimits_eq]
  exact vector_get_ofFn ..

theorem startDoors_fig (s : State) (f : Fig) :
    ((startDoors s).stg.figs.get f).state = if (s.figDef f).address.isSome then .unknown else .unbound := by
  rw [startDoors_stg]
  exact congrArg FigRec.state (vector_get_map ..)

end

/-! ## Step 5 (R132; log entry 18) -/

section
variable {s : State}

theorem overtake_idle (h : s.flc.flight = none) : overtake s = s := by
  have none_flies : s = { s with flc.flight := none } := by rw [← h]
  unfold overtake
  rw [h]
  exact none_flies.symm

/-- The broadcast HALT of start-up stands last in the queue. -/
def haltQueued (s : State) : State := pushTxn (newTxn .halt 0 [] (.halt false false 0) s) s

theorem haltQueued_queue (h : s.flc.queue = []) :
    (haltQueued s).flc.queue = [newTxn .halt 0 [] (.halt false false 0) s] := by
  show s.flc.queue ++ _ = _
  rw [h]
  rfl

theorem sendHalt_quiet (queue : s.flc.queue = []) (flight : s.flc.flight = none) (free : s.flc.stuck = false) :
    sendHalt 0 false false 0 s = haltQueued s := by
  have placed : placeHalt 0 (.halt false false 0) s = (haltQueued s, none) :=
    placeHalt_room (by simp [queue]) (.inr (by simp [queue])) (by simp [queue])
  rw [sendHalt_queued free, placed]
  exact overtake_idle flight

/-- On a quiet line with nothing queued the broadcast HALT and the wake are queued, the HALT first. -/
theorem haltAndWake_queued (queue : s.flc.queue = []) (flight : s.flc.flight = none) (wake : s.flc.wake = none)
    (free : s.flc.stuck = false) : requestWake false (sendHalt 0 false false 0 s) = { s with
      flc.queue := [newTxn .halt 0 [] (.halt false false 0) s, newTxn .wake 0 [] (.wake false) s] } := by
  have one := haltQueued_queue queue
  have room : (haltQueued s).flc.queue.length < 8 := by simp [one]
  have noWake : hasWake (haltQueued s) = false := hasWake_none wake (by simp [one, newTxn])
  have both : pushTxn (newTxn .wake 0 [] (.wake false) (haltQueued s)) (haltQueued s) = { s with
      flc.queue := (haltQueued s).flc.queue ++ [newTxn .wake 0 [] (.wake false) s] } := rfl
  rw [sendHalt_quiet queue flight free, requestWake_added noWake (.inr room),
    enqueue_queued (s := haltQueued s) free room, both, one]
  rfl

end

/-! ## The six steps (R180) -/

/-- Step 3 changes nothing that no operation inside a command changes, but for the step. -/
theorem startItems_inner (s : State) : Inner { s with hlc.step := 3 } (startItems s) := by
  have seasons := loadBlock_inner .seasons (.refl { s with hlc.step := 3 })
  have chosen := evalSeasons_inner (loadBlock_inner .programmes seasons)
  exact loadBlock_inner _ (loadBlock_inner _ (loadTable_inner chosen))

/-- Settles O10: the six steps, and between them the loads of step 3 and the recomputation of the table. -/
theorem startupStepsRun : Obligations.StartupStepsRun := by
  refine ⟨fun s h => ?settings, fun s h => congrArg _ (afterStep_at h),
    fun s h => ⟨startItems s, congrArg _ (afterStep_at h), (startItems_inner s).step, rfl⟩,
    fun s => ⟨rfl, fun k => rfl, takeLoad_seasons s, takeLoad_programmes s, takeLoad_triggers s, takeLoad_voicing s,
      takeLoad_figures s⟩,
    fun id s => ⟨loadItem_absent, fun x hx => ⟨loadItem_unusable hx, loadItem_content hx, loadItem_fails hx⟩⟩,
    fun v s => rfl, fun s => rfl, takeMachinery_defs, fun s => rfl,
    fun i s => ⟨fun f => recomputeEntry_passed,
      fun ahead idle => (recomputeEntry_ahead ahead).trans (recomputeFire_notArmed idle)⟩,
    fun i t s ahead armed hn => ⟨fun h => (recomputeEntry_ahead ahead).trans (recomputeFire_ahead armed hn h),
      fun h once => ?once, fun h again => ?again⟩,
    fun s h => ⟨startDoors s, congrArg _ (afterStep_at h), startDoors_step s, startDoors_fig s, startDoors_door s,
      ?turn, ?goTag, startDoors_group s, congrArg HLC.causes (startDoors_hlc s)⟩,
    fun s h => ⟨congrArg _ (afterStep_at h), fun queue flight wake free => ?link⟩,
    fun s h => congrArg _ (afterStep_at h)⟩
  case settings =>
    obtain ⟨cs, k, started, fresh, filter, settled⟩ := startSettings_eq s
    refine ⟨settingsStarted cs k s, congrArg _ ((afterStep_at h).trans started), rfl, rfl, fun on => ⟨?_, ?_, ?_⟩,
      ⟨rfl, settled⟩, fun kept => ⟨?_, ?_⟩, fun ch => vector_get_ofFn .., fun b => congrArg BellRec.state (vector_get_ofFn ..),
      rfl, rfl, rfl, rfl, rfl, fresh, filter⟩
    · exact settingsInForce_powerOn on
    · exact congrArg SCH.active (if_pos on)
    · exact congrArg SCH.chosenBy (if_pos on)
    · exact congrArg Prod.fst (settingsInForce_kept kept)
    · exact congrArg SCH.active (if_neg (by simp [kept]))
  case once =>
    rw [recomputeEntry_ahead ahead, recomputeFire_passed armed hn h, if_pos once]
  case again =>
    rw [recomputeEntry_ahead ahead, recomputeFire_passed armed hn h, if_neg again]
  case turn => rw [startDoors_stg]; rfl
  case goTag => rw [startDoors_stg]; rfl
  case link =>
    refine (congrArg Host.Outcome.next ((afterStep_at h).trans ?_))
    exact haltAndWake_queued queue flight wake free

end Sys2Proof.Machine
end

