-- ==== Sys2Proof/Proofs/Commands.lean ====
section
/-! PROOF. What every step shares: the command it runs, the next state every command answers with the waiting commands
as they were, and what settling leaves (log entries 35 and 36). -/
namespace Sys2Proof.Machine

variable {s : State}

/-- Settles O1: a step's first case is the command at the front. -/
theorem stepRunsFrontCommand : Obligations.StepRunsFrontCommand := fun _ _ _ => rfl

/-! ## Every command answers a next state -/

/-- An outcome that is a next state with the same commands waiting. -/
def AnswersNext (s : State) (o : Host.Outcome State Fault Refusal) : Prop := ∃ t, o = .next t ∧ t.pending = s.pending

theorem KeepsOn.answersNext {o : Host.Outcome State Fault Refusal} (k : KeepsOn s o) : AnswersNext s o := by
  obtain ⟨t, answers, pending, -⟩ := k
  exact ⟨t, answers, pending⟩

theorem powerOnReset_answersNext : AnswersNext s (exec .powerOnReset s) := ⟨powerOnReset s, rfl, rfl⟩

/-- The completion of an erase-all, which drops the protection, keeps the waiting commands all the same. -/
theorem eraseAllComplete_answersNext : AnswersNext s (exec .eraseAllComplete s) := by
  obtain idle | erases := eraseAllComplete_next (s := s)
  · exact ⟨s, idle, rfl⟩
  · exact ⟨finishEraseAll s, erases, finishEraseAll_inner.pending⟩

/-- Settles O3: a power-on reset and the completion of an erase-all by themselves, every other command by what it
keeps. -/
theorem everyCommandAnswersNext : Obligations.EveryCommandAnswersNext := by
  intro i s
  by_cases reset : i = .powerOnReset
  · subst reset
    exact powerOnReset_answersNext
  by_cases erase : i = .eraseAllComplete
  · subst erase
    exact eraseAllComplete_answersNext
  · exact (exec_keeps i ⟨reset, erase⟩).answersNext

/-! ## What settling leaves -/

/-- Settles O9: settling is an operation inside a command, and these are fields that no such operation changes. -/
theorem settlingLeaves : Obligations.SettlingLeaves := by
  intro s
  have inside : Inner s (settle s) := settle_inner (.refl s)
  exact ⟨inside.pending, inside.elapsed, inside.staging, inside.stagedLen, inside.op, inside.protection, inside.step,
    inside.live, inside.saved, inside.save, inside.counts, inside.2⟩

end Sys2Proof.Machine
end
